-- ==== Sys2Proof/Word.lean ====
section
/-! DEFINITION. The words of the sndprg synthesis core: bytes, 64-bit words, and the binary64 word type
(00_scope.md rules R8, R11).  Only the types stand here; every operation on a binary64 value is in
`Sys2Proof/Machine/Float.lean`. -/

namespace Sys2Proof

/-- One byte of a serialised command packet or of sample memory (20_memory.md rules R71, R73). -/
abbrev Byte := BitVec 8

/-- A 64-bit word: a command operand, a tick count, a register read (30_encoding.md rule R90). -/
abbrev Word64 := BitVec 64

/-- An IEEE 754 binary64 value, held as its bit pattern (00_scope.md rule R11).  A structure, so that
no integer operation of `BitVec` can be applied to it by mistake. -/
structure F64 where
  /-- Sign in bit 63, biased exponent in bits 62:52, fraction in bits 51:0. -/
  bits : BitVec 64
  deriving DecidableEq, Repr, Inhabited

/-- The binary64 operations whose result can be a NaN, a faithfully rounded value or an unstated value.
They only name the place a free value of `Config` is drawn for. -/
inductive FOp where
  | add | sub | mul | div | sqrt | exp | ln | sin | tanh
  deriving DecidableEq, Repr, Inhabited

end Sys2Proof
end

