-- ==== Sys2Proof/Syntax.lean ====
section
/-! DEFINITION. The 31 commands of the command set (30_encoding.md rule R94), one constructor per row of the opcode
map.  `d` is the defer bit (rule R92; absent where `D = 1` is illegal), `v` the voice index of a voice command (rule
R91), `arg` the 64-bit operand exactly as received: its checks are made when the command executes, not when it is
decoded (rule R96), so a deferred command carries it unchecked. -/

namespace Sys2Proof

/-- The command set (30_encoding.md rule R94). -/
inductive Instr where
  /-- `NOP` (opcode 0x00, no operand (must be 0); 47_engine.md rule R365). -/
  | nop (d : Bool) (arg : Word64)
  /-- `SET_SAMPLE_RATE` (opcode 0x01, a binary64 operand; 47_engine.md rule R366). -/
  | setSampleRate (d : Bool) (arg : Word64)
  /-- `OSC_SET_HZ` (opcode 0x10, a binary64 operand; 40_oscillator.md rule R120). -/
  | oscSetHz (d : Bool) (v : BitVec 8) (arg : Word64)
  /-- `OSC_SET_SHIFT` (opcode 0x11, a binary64 operand; 40_oscillator.md rule R121). -/
  | oscSetShift (d : Bool) (v : BitVec 8) (arg : Word64)
  /-- `OSC_SET_FLAGS` (opcode 0x12, a flag-set operand; 40_oscillator.md rule R122). -/
  | oscSetFlags (d : Bool) (v : BitVec 8) (arg : Word64)
  /-- `OSC_SET_GAIN_DIRECT` (opcode 0x13, a binary64 operand; 40_oscillator.md rule R123). -/
  | oscSetGainDirect (d : Bool) (v : BitVec 8) (arg : Word64)
  /-- `OSC_SET_GAIN_FILTER` (opcode 0x14, a binary64 operand; 40_oscillator.md rule R124). -/
  | oscSetGainFilter (d : Bool) (v : BitVec 8) (arg : Word64)
  /-- `OSC_WT_WRITE` (opcode 0x15, a wavetable-write operand; 40_oscillator.md rule R125). -/
  | oscWtWrite (d : Bool) (v : BitVec 8) (arg : Word64)
  /-- `ENV_ON` (opcode 0x20, no operand (must be 0); 42_envelope.md rule R210). -/
  | envOn (d : Bool) (v : BitVec 8) (arg : Word64)
  /-- `ENV_OFF` (opcode 0x21, no operand (must be 0); 42_envelope.md rule R211). -/
  | envOff (d : Bool) (v : BitVec 8) (arg : Word64)
  /-- `ENV_SET_ATTACK` (opcode 0x22, a binary64 operand; 42_envelope.md rule R212). -/
  | envSetAttack (d : Bool) (v : BitVec 8) (arg : Word64)
  /-- `ENV_SET_DECAY` (opcode 0x23, a binary64 operand; 42_envelope.md rule R213). -/
  | envSetDecay (d : Bool) (v : BitVec 8) (arg : Word64)
  /-- `ENV_SET_SUSTAIN` (opcode 0x24, a binary64 operand; 42_envelope.md rule R214). -/
  | envSetSustain (d : Bool) (v : BitVec 8) (arg : Word64)
  /-- `ENV_SET_RELEASE` (opcode 0x25, a binary64 operand; 42_envelope.md rule R215). -/
  | envSetRelease (d : Bool) (v : BitVec 8) (arg : Word64)
  /-- `ENV_SET_CURVE_ATTACK` (opcode 0x26, a binary64 operand; 42_envelope.md rule R216). -/
  | envSetCurveAttack (d : Bool) (v : BitVec 8) (arg : Word64)
  /-- `ENV_SET_CURVE_DECAY` (opcode 0x27, a binary64 operand; 42_envelope.md rule R217). -/
  | envSetCurveDecay (d : Bool) (v : BitVec 8) (arg : Word64)
  /-- `ENV_SET_CURVE_RELEASE` (opcode 0x28, a binary64 operand; 42_envelope.md rule R218). -/
  | envSetCurveRelease (d : Bool) (v : BitVec 8) (arg : Word64)
  /-- `FLT_SET_FC` (opcode 0x30, a binary64 operand; 41_filter.md rule R180). -/
  | fltSetFc (d : Bool) (arg : Word64)
  /-- `FLT_SET_Q` (opcode 0x31, a binary64 operand; 41_filter.md rule R181). -/
  | fltSetQ (d : Bool) (arg : Word64)
  /-- `FLT_SET_GAIN_LP` (opcode 0x32, a binary64 operand; 41_filter.md rule R182). -/
  | fltSetGainLp (d : Bool) (arg : Word64)
  /-- `FLT_SET_GAIN_BP` (opcode 0x33, a binary64 operand; 41_filter.md rule R183). -/
  | fltSetGainBp (d : Bool) (arg : Word64)
  /-- `FLT_SET_GAIN_HP` (opcode 0x34, a binary64 operand; 41_filter.md rule R184). -/
  | fltSetGainHp (d : Bool) (arg : Word64)
  /-- `RS_SET_BUF_BASE` (opcode 0x40, an unsigned operand; 44_resampler.md rule R271). -/
  | rsSetBufBase (d : Bool) (arg : Word64)
  /-- `RS_SET_BUF_FRAMES` (opcode 0x41, an unsigned operand; 44_resampler.md rule R272). -/
  | rsSetBufFrames (d : Bool) (arg : Word64)
  /-- `RS_SET_BUF_RATE` (opcode 0x42, a binary64 operand; 44_resampler.md rule R273). -/
  | rsSetBufRate (d : Bool) (arg : Word64)
  /-- `RS_SET_BUF_PITCH` (opcode 0x43, a binary64 operand; 44_resampler.md rule R274). -/
  | rsSetBufPitch (d : Bool) (arg : Word64)
  /-- `RS_SET_HZ` (opcode 0x44, a binary64 operand; 44_resampler.md rule R275). -/
  | rsSetHz (d : Bool) (arg : Word64)
  /-- `RS_SET_POS` (opcode 0x45, a signed operand; 44_resampler.md rule R276). -/
  | rsSetPos (d : Bool) (arg : Word64)
  /-- `EV_SET_TICK` (opcode 0x50, an unsigned operand; 46_scheduler.md rule R321). -/
  | evSetTick (arg : Word64)
  /-- `HOST_CALLBACK` (opcode 0x51, an unsigned operand; 46_scheduler.md rule R326). -/
  | hostCallback (d : Bool) (arg : Word64)
  /-- `CB_ACK` (opcode 0x52, no operand (must be 0); 46_scheduler.md rule R327). -/
  | cbAck (arg : Word64)
  deriving DecidableEq, Repr

end Sys2Proof
end

