-- ==== Sys2Proof/WellFormed.lean ====
section
/-! DEFINITION. Which commands are well formed: what the header checks of 30_encoding.md rule R96 accept.  The `RSV`
field and the `D` bit of the commands that cannot be deferred have no place in the syntax; what is left to check is the
voice index (rule R91). -/

namespace Sys2Proof

/-- The voice index of a voice command (opcodes 0x10 to 0x15 and 0x20 to 0x28, rule R91); `none` for the others. -/
def Instr.voice : Instr → Option (BitVec 8)
  | .nop _ _ => none
  | .setSampleRate _ _ => none
  | .oscSetHz _ v _ => some v
  | .oscSetShift _ v _ => some v
  | .oscSetFlags _ v _ => some v
  | .oscSetGainDirect _ v _ => some v
  | .oscSetGainFilter _ v _ => some v
  | .oscWtWrite _ v _ => some v
  | .envOn _ v _ => some v
  | .envOff _ v _ => some v
  | .envSetAttack _ v _ => some v
  | .envSetDecay _ v _ => some v
  | .envSetSustain _ v _ => some v
  | .envSetRelease _ v _ => some v
  | .envSetCurveAttack _ v _ => some v
  | .envSetCurveDecay _ v _ => some v
  | .envSetCurveRelease _ v _ => some v
  | .fltSetFc _ _ => none
  | .fltSetQ _ _ => none
  | .fltSetGainLp _ _ => none
  | .fltSetGainBp _ _ => none
  | .fltSetGainHp _ _ => none
  | .rsSetBufBase _ _ => none
  | .rsSetBufFrames _ _ => none
  | .rsSetBufRate _ _ => none
  | .rsSetBufPitch _ _ => none
  | .rsSetHz _ _ => none
  | .rsSetPos _ _ => none
  | .evSetTick _ => none
  | .hostCallback _ _ => none
  | .cbAck _ => none

/-- The header checks of rule R96 accept the command on an instance of `nOsc` voices: a voice index is below
`N_OSC` (rule R91). -/
def Instr.wellFormed (nOsc : Nat) (i : Instr) : Bool :=
  match i.voice with
  | some v => decide (v.toNat < nOsc)
  | none => true

end Sys2Proof
end

