-- ==== Sys2Proof/Decode.lean ====
section
/-! DEFINITION. Decoding a command packet (30_encoding.md rules R90 to R98, 20_memory.md rule R71) and encoding one.

A packet is 12 bytes: the 32-bit header, then the 64-bit operand, each least significant byte first.  Decoding is
total: it answers the command, or the cause that rule R96 names.  The voice index of a voice command is compared with
`N_OSC` where the command runs (`Sys2Proof.Machine.runVoice`), because `N_OSC` is a parameter of the instance. -/

namespace Sys2Proof

/-- Why a packet is no command (30_encoding.md rules R95, R96), or why no packet could be taken. -/
inductive DecodeError where
  /-- Opcode not in the map, `RSV ≠ 0`, or `D = 1` on a command that cannot be deferred: `ILLEGAL_COMMAND`. -/
  | illegalCommand
  /-- A command that takes no voice has `IDX ≠ 0`: `BAD_INDEX`. -/
  | badIndex
  /-- Fewer than 12 bytes: the packet has not arrived (20_memory.md rule R71). -/
  | incomplete
  deriving DecidableEq, Repr

/-! ## The header's fields (rule R90) -/

/-- `OP`, header bits 7:0. -/
def hdrOp (hdr : BitVec 32) : BitVec 8 := hdr.extractLsb' 0 8
/-- `IDX`, header bits 15:8. -/
def hdrIdx (hdr : BitVec 32) : BitVec 8 := hdr.extractLsb' 8 8
/-- `RSV`, header bits 30:16. -/
def hdrRsv (hdr : BitVec 32) : BitVec 15 := hdr.extractLsb' 16 15
/-- `D`, header bit 31. -/
def hdrDefer (hdr : BitVec 32) : Bool := hdr.getLsbD 31

/-! ## Decoding -/

/-- The opcode map (rule R94): the command of an opcode with its defer bit, index and operand.  The commands that
cannot be deferred have no defer bit; `decodePacket` has refused `D = 1` for them. -/
def instrAt (op : BitVec 8) (d : Bool) (v : BitVec 8) (arg : Word64) : Option Instr :=
  if op = 0x00 then some (.nop d arg)
  else if op = 0x01 then some (.setSampleRate d arg)
  else if op = 0x10 then some (.oscSetHz d v arg)
  else if op = 0x11 then some (.oscSetShift d v arg)
  else if op = 0x12 then some (.oscSetFlags d v arg)
  else if op = 0x13 then some (.oscSetGainDirect d v arg)
  else if op = 0x14 then some (.oscSetGainFilter d v arg)
  else if op = 0x15 then some (.oscWtWrite d v arg)
  else if op = 0x20 then some (.envOn d v arg)
  else if op = 0x21 then some (.envOff d v arg)
  else if op = 0x22 then some (.envSetAttack d v arg)
  else if op = 0x23 then some (.envSetDecay d v arg)
  else if op = 0x24 then some (.envSetSustain d v arg)
  else if op = 0x25 then some (.envSetRelease d v arg)
  else if op = 0x26 then some (.envSetCurveAttack d v arg)
  else if op = 0x27 then some (.envSetCurveDecay d v arg)
  else if op = 0x28 then some (.envSetCurveRelease d v arg)
  else if op = 0x30 then some (.fltSetFc d arg)
  else if op = 0x31 then some (.fltSetQ d arg)
  else if op = 0x32 then some (.fltSetGainLp d arg)
  else if op = 0x33 then some (.fltSetGainBp d arg)
  else if op = 0x34 then some (.fltSetGainHp d arg)
  else if op = 0x40 then some (.rsSetBufBase d arg)
  else if op = 0x41 then some (.rsSetBufFrames d arg)
  else if op = 0x42 then some (.rsSetBufRate d arg)
  else if op = 0x43 then some (.rsSetBufPitch d arg)
  else if op = 0x44 then some (.rsSetHz d arg)
  else if op = 0x45 then some (.rsSetPos d arg)
  else if op = 0x50 then some (.evSetTick arg)
  else if op = 0x51 then some (.hostCallback d arg)
  else if op = 0x52 then some (.cbAck arg)
  else none

/-- The opcodes for which `D = 1` is illegal: `EV_SET_TICK` and `CB_ACK` (rule R92). -/
def opNeverDeferred (op : BitVec 8) : Bool := op == 0x50 || op == 0x52

/-- `decode(hdr, arg)` (rule R96), in its order of checks, but for the comparison of a voice index with `N_OSC`. -/
def decodePacket (hdr : BitVec 32) (arg : Word64) : Except DecodeError Instr :=
  match instrAt (hdrOp hdr) (hdrDefer hdr) (hdrIdx hdr) arg with
  | none => .error .illegalCommand
  | some i =>
    if hdrRsv hdr ≠ 0 then .error .illegalCommand
    else if hdrDefer hdr && opNeverDeferred (hdrOp hdr) then .error .illegalCommand
    else if i.voice.isNone && hdrIdx hdr != 0 then .error .badIndex
    else .ok i

/-- Four bytes, least significant first, as a header (20_memory.md rule R71). -/
def word32 (b0 b1 b2 b3 : Byte) : BitVec 32 := b3 ++ b2 ++ b1 ++ b0

/-- Eight bytes, least significant first, as an operand or a sample word (20_memory.md rules R71, R73). -/
def word64 (b0 b1 b2 b3 b4 b5 b6 b7 : Byte) : Word64 := b7 ++ b6 ++ b5 ++ b4 ++ b3 ++ b2 ++ b1 ++ b0

/-- Byte `k` of a word, byte 0 the least significant. -/
def byteOf {n : Nat} (w : BitVec n) (k : Nat) : Byte := w.extractLsb' (8 * k) 8

/-- The header and operand at the front of the received bytes, and the bytes after them; `none` while fewer than 12
have arrived (20_memory.md rule R71: "A packet is executed only when all 12 bytes have arrived"). -/
def takePacket : List Byte → Option (BitVec 32 × Word64 × List Byte)
  | b0 :: b1 :: b2 :: b3 :: c0 :: c1 :: c2 :: c3 :: c4 :: c5 :: c6 :: c7 :: rest =>
    some (word32 b0 b1 b2 b3, word64 c0 c1 c2 c3 c4 c5 c6 c7, rest)
  | _ => none

/-- Decode the packet at the front of a byte stream, with the bytes after it. -/
def decode (bytes : List Byte) : Except DecodeError (Instr × List Byte) :=
  match takePacket bytes with
  | none => .error .incomplete
  | some (hdr, arg, rest) =>
    match decodePacket hdr arg with
    | .ok i => .ok (i, rest)
    | .error e => .error e

/-! ## Encoding -/

/-- The opcode of a command (rule R94). -/
def Instr.opcode : Instr → BitVec 8
  | .nop _ _ => 0x00
  | .setSampleRate _ _ => 0x01
  | .oscSetHz _ _ _ => 0x10
  | .oscSetShift _ _ _ => 0x11
  | .oscSetFlags _ _ _ => 0x12
  | .oscSetGainDirect _ _ _ => 0x13
  | .oscSetGainFilter _ _ _ => 0x14
  | .oscWtWrite _ _ _ => 0x15
  | .envOn _ _ _ => 0x20
  | .envOff _ _ _ => 0x21
  | .envSetAttack _ _ _ => 0x22
  | .envSetDecay _ _ _ => 0x23
  | .envSetSustain _ _ _ => 0x24
  | .envSetRelease _ _ _ => 0x25
  | .envSetCurveAttack _ _ _ => 0x26
  | .envSetCurveDecay _ _ _ => 0x27
  | .envSetCurveRelease _ _ _ => 0x28
  | .fltSetFc _ _ => 0x30
  | .fltSetQ _ _ => 0x31
  | .fltSetGainLp _ _ => 0x32
  | .fltSetGainBp _ _ => 0x33
  | .fltSetGainHp _ _ => 0x34
  | .rsSetBufBase _ _ => 0x40
  | .rsSetBufFrames _ _ => 0x41
  | .rsSetBufRate _ _ => 0x42
  | .rsSetBufPitch _ _ => 0x43
  | .rsSetHz _ _ => 0x44
  | .rsSetPos _ _ => 0x45
  | .evSetTick _ => 0x50
  | .hostCallback _ _ => 0x51
  | .cbAck _ => 0x52

/-- The `D` bit of a command (rule R92). -/
def Instr.deferred : Instr → Bool
  | .nop d _ => d
  | .setSampleRate d _ => d
  | .oscSetHz d _ _ => d
  | .oscSetShift d _ _ => d
  | .oscSetFlags d _ _ => d
  | .oscSetGainDirect d _ _ => d
  | .oscSetGainFilter d _ _ => d
  | .oscWtWrite d _ _ => d
  | .envOn d _ _ => d
  | .envOff d _ _ => d
  | .envSetAttack d _ _ => d
  | .envSetDecay d _ _ => d
  | .envSetSustain d _ _ => d
  | .envSetRelease d _ _ => d
  | .envSetCurveAttack d _ _ => d
  | .envSetCurveDecay d _ _ => d
  | .envSetCurveRelease d _ _ => d
  | .fltSetFc d _ => d
  | .fltSetQ d _ => d
  | .fltSetGainLp d _ => d
  | .fltSetGainBp d _ => d
  | .fltSetGainHp d _ => d
  | .rsSetBufBase d _ => d
  | .rsSetBufFrames d _ => d
  | .rsSetBufRate d _ => d
  | .rsSetBufPitch d _ => d
  | .rsSetHz d _ => d
  | .rsSetPos d _ => d
  | .evSetTick _ => false
  | .hostCallback d _ => d
  | .cbAck _ => false

/-- The operand of a command. -/
def Instr.operand : Instr → Word64
  | .nop _ arg => arg
  | .setSampleRate _ arg => arg
  | .oscSetHz _ _ arg => arg
  | .oscSetShift _ _ arg => arg
  | .oscSetFlags _ _ arg => arg
  | .oscSetGainDirect _ _ arg => arg
  | .oscSetGainFilter _ _ arg => arg
  | .oscWtWrite _ _ arg => arg
  | .envOn _ _ arg => arg
  | .envOff _ _ arg => arg
  | .envSetAttack _ _ arg => arg
  | .envSetDecay _ _ arg => arg
  | .envSetSustain _ _ arg => arg
  | .envSetRelease _ _ arg => arg
  | .envSetCurveAttack _ _ arg => arg
  | .envSetCurveDecay _ _ arg => arg
  | .envSetCurveRelease _ _ arg => arg
  | .fltSetFc _ arg => arg
  | .fltSetQ _ arg => arg
  | .fltSetGainLp _ arg => arg
  | .fltSetGainBp _ arg => arg
  | .fltSetGainHp _ arg => arg
  | .rsSetBufBase _ arg => arg
  | .rsSetBufFrames _ arg => arg
  | .rsSetBufRate _ arg => arg
  | .rsSetBufPitch _ arg => arg
  | .rsSetHz _ arg => arg
  | .rsSetPos _ arg => arg
  | .evSetTick arg => arg
  | .hostCallback _ arg => arg
  | .cbAck arg => arg

/-- The `IDX` field of a command: its voice, or 0 (rule R91). -/
def Instr.idx (i : Instr) : BitVec 8 := i.voice.getD 0

/-- A header from its fields (rule R90), `RSV = 0`. -/
def headerOf (d : Bool) (idx op : BitVec 8) : BitVec 32 := BitVec.ofBool d ++ (0 : BitVec 15) ++ idx ++ op

/-- The header of a command. -/
def Instr.header (i : Instr) : BitVec 32 := headerOf i.deferred i.idx i.opcode

/-- The header with bit 31 cleared, as an event stores it (46_scheduler.md rule R322). -/
def clearDefer (hdr : BitVec 32) : BitVec 32 := hdr &&& 0x7FFFFFFF

/-- The 12 bytes of a packet (20_memory.md rule R71). -/
def packetBytes (hdr : BitVec 32) (arg : Word64) : List Byte :=
  [byteOf hdr 0, byteOf hdr 1, byteOf hdr 2, byteOf hdr 3,
    byteOf arg 0, byteOf arg 1, byteOf arg 2, byteOf arg 3,
    byteOf arg 4, byteOf arg 5, byteOf arg 6, byteOf arg 7]

/-- The 12 bytes of a command's packet. -/
def encode (i : Instr) : List Byte := packetBytes i.header i.operand

/-! ## The opcode table's numbering -/

/-- The 12 bytes of the packet whose bits are `w`, bit 0 the least significant bit of the header and the operand's bits
counting on from bit 32; every bit from `nbits` on is 0. -/
def tableBytes (nbits w : Nat) : List Byte :=
  let n := w % 2 ^ nbits
  packetBytes (BitVec.ofNat 32 n) (BitVec.ofNat 64 (n / 2 ^ 32))

/-- The command this decoder reads from a word of spec/opcode_table.json. -/
def decodeTableWord (nbits w : Nat) : Option Instr :=
  match decode (tableBytes nbits w) with
  | .ok (i, _) => some i
  | .error _ => none

end Sys2Proof
end

