-- ==== Sys2Proof/Config.lean ====
section
/-! DEFINITION. What one instance of the block fixes (00_scope.md rules R6, R170) and the free values the
spec leaves open.

`Params` is the configuration record of rule R6: plain data, carried unchanged in the state (the block
reflects it in `CONFIG0`, `CONFIG1`, `BETA_FIR`, `BETA_RS`, 10_state.md rule R32), so every statement over
all states is a statement over all instances.  `Params.default` holds the defaults of rules R6 and R170.

The `opaque` constants are the free values: nothing in Lean can evaluate them, so a theorem holds for every
value of them. -/

namespace Sys2Proof

/-- `EQ_TICK_ORDER`: the pop order among events of equal tick (00_scope.md rule R6, 46_scheduler.md rule R331). -/
inductive EqTickOrder where
  /-- Exactly the order the heap algorithm of rule R330 gives. -/
  | heap
  /-- Any entry of minimum tick. -/
  | any
  deriving DecidableEq, Repr

/-- `FILTER_STEP`: the filter's per-sample function is a configuration field whose default is rules R173 to
R178 (41_filter.md, 92_eei_decisions.md D31). -/
inductive FilterStep where
  /-- The default function of rules R173 to R178. -/
  | spec
  /-- Another function, uninterpreted: `Config.filterStep`. -/
  | custom
  deriving DecidableEq, Repr

/-- The filter's registers (10_state.md rule R45). -/
structure Filter where
  /-- Low tap, band tap, high tap. -/
  lp : F64
  bp : F64
  hp : F64
  /-- Normalised cutoff and resonance as last set. -/
  fc : F64
  q : F64
  /-- Exponential "resistance" coefficient, distortion offset, resonance term. -/
  w : F64
  off : F64
  d : F64
  /-- Per-tap output mix gains. -/
  gLp : F64
  gBp : F64
  gHp : F64
  deriving DecidableEq, Repr

/-- The instance parameters of 00_scope.md rule R6 and the filter constants of 41_filter.md rule R170. -/
structure Params where
  nOsc : Nat
  channels : Nat
  srcOsc : Bool
  srcRs : Bool
  oversample : Bool
  ratio : Nat
  zc : Nat
  betaFir : F64
  phaseBits : Nat
  half : Nat
  betaRs : F64
  rsScale0 : F64
  rsScale1 : F64
  rsScale2 : F64
  wtBits : Nat
  heapCap : Nat
  cacheSlots : Nat
  sampleAddrBits : Nat
  eqTickOrder : EqTickOrder
  vScale : F64
  vSat : F64
  vHead : F64
  wMin : F64
  wMax : F64
  dMax : F64
  dMin : F64
  distK : F64
  offLo : F64
  offHi : F64
  filterStep : FilterStep
  deriving DecidableEq, Repr

/-- The defaults of rules R6 and R170. -/
def Params.default : Params where
  nOsc := 4
  channels := 1
  srcOsc := true
  srcRs := false
  oversample := true
  ratio := 4
  zc := 8
  betaFir := ⟨0x4020000000000000⟩   -- 8.0
  phaseBits := 8
  half := 8
  betaRs := ⟨0x4020000000000000⟩    -- 8.0
  rsScale0 := ⟨0x3FF0000000000000⟩  -- 1.0
  rsScale1 := ⟨0x3FE8000000000000⟩  -- 0.75
  rsScale2 := ⟨0x3FE0000000000000⟩  -- 0.5
  wtBits := 8
  heapCap := 256
  cacheSlots := 4
  sampleAddrBits := 24
  eqTickOrder := .any
  vScale := ⟨0x40B0000000000000⟩    -- 4096.0
  vSat := ⟨0x40A8000000000000⟩      -- 3072.0
  vHead := ⟨0x4090000000000000⟩     -- 1024.0
  wMin := ⟨0x3F50624DD2F1A9FC⟩      -- 0.001
  wMax := ⟨0x3FE0000000000000⟩      -- 0.5
  dMax := ⟨0x4000000000000000⟩      -- 2.0
  dMin := ⟨0x3FA999999999999A⟩      -- 0.05
  distK := ⟨0x3FB999999999999A⟩     -- 0.1
  offLo := ⟨0x4090000000000000⟩     -- 1024.0
  offHi := ⟨0x40B0000000000000⟩     -- 4096.0
  filterStep := .spec

/-! Derived constants (00_scope.md rule R7). -/

/-- `PHASES = 2^PHASE_BITS`. -/
def Params.phases (p : Params) : Nat := 2 ^ p.phaseBits
/-- `WT_LEN = 2^WT_BITS`. -/
def Params.wtLen (p : Params) : Nat := 2 ^ p.wtBits
/-- `C_FIR = RATIO·ZC`, the centre index of the oversampler window. -/
def Params.cFir (p : Params) : Nat := p.ratio * p.zc
/-- `L_FIR = RATIO·ZC·2 + 1`, the oversampler window length. -/
def Params.lFir (p : Params) : Nat := p.ratio * p.zc * 2 + 1
/-- `GUARD = HALF`, the resampler's guard band in frames. -/
def Params.guard (p : Params) : Nat := p.half
/-- `RS_SCALE[v]` for the kernel variants 0, 1 and 2 (44_resampler.md rule R277). -/
def Params.rsScale (p : Params) (v : Fin 3) : F64 :=
  match v with
  | 0 => p.rsScale0
  | 1 => p.rsScale1
  | 2 => p.rsScale2

/-! Free values.  Each is an uninterpreted constant; the assumption log names where it is used. -/

/-- Which of the two neighbouring binary64 values a faithfully rounded `F_exp`, `F_ln`, `F_sin` or `F_tanh`
returns (00_scope.md rule R16: "each result is within 1 ulp of the exact value"); log entry 2. -/
opaque Config.roundsAway : FOp → F64 → Bool
/-- The value of a transcendental function at an argument for which rule R16 states no exact value; log entry 3. -/
opaque Config.unstated : FOp → F64 → F64
/-- Sign (bit 51) and low payload (bits 50:0) of the NaN an operation produces (00_scope.md rule R12 names no
pattern); log entry 4. -/
opaque Config.nanBits : FOp → F64 → F64 → BitVec 52
/-- The integer a conversion of a NaN gives (00_scope.md rule R14 calls the conversion total, but `RS_SET_HZ`
can convert a NaN); log entry 5. -/
opaque Config.intOfNonFinite : F64 → Int
/-- Whether `max` or `min` of two zeros of opposite sign gives its first operand (00_scope.md rule R8); log entry 6. -/
opaque Config.zeroTieFirst : F64 → F64 → Bool
/-- Which entry of minimum tick `shift()` returns with `EQ_TICK_ORDER = any` (46_scheduler.md rule R331); log entry 7. -/
opaque Config.eqTickPick : Nat → Nat
/-- Which of the old and new words a racing `SampleRead` returns (20_memory.md rule R80); log entry 8. -/
opaque Config.racePick : Nat → Nat
/-- What a byte of sample memory that nothing has written holds (93_implementation_defined.md §2: any value);
log entry 9. -/
opaque Config.powerOnByte : Nat → Byte
/-- The per-sample filter function of an instance whose `FILTER_STEP` is not the default: from the instance's
parameters, the filter registers, the direct and the filtered input to the new `LP`, `BP`, `HP` and the output
(41_filter.md, opening; 92_eei_decisions.md D31); log entry 10. -/
opaque Config.filterStep : Params → Filter → F64 → F64 → F64 × F64 × F64 × F64

end Sys2Proof
end

