-- ==== Sys2Proof/Machine/Float.lean ====
section
/-! DEFINITION. IEEE 754 binary64 arithmetic, round to nearest, ties to even, each operation rounded once
(00_scope.md rules R8, R11, R12, R14).

A finite value is an exact integer multiple of 2^-1074, so every operation is an exact computation on integers
followed by one rounding: `F64.mag` gives the magnitude in units of 2^-1074, and `F64.roundMag num den` rounds
`num / den` of those units. -/

namespace Sys2Proof

/-! ## Fields of a bit pattern -/

/-- The sign bit. -/
def F64.sign (x : F64) : Bool := x.bits.getLsbD 63
/-- The biased exponent field. -/
def F64.expField (x : F64) : Nat := (x.bits.toNat >>> 52) % 2048
/-- The fraction field. -/
def F64.frac (x : F64) : Nat := x.bits.toNat % 2 ^ 52
/-- The 63 bits below the sign. -/
def F64.low63 (x : F64) : Nat := x.bits.toNat % 2 ^ 63

def F64.isNaN (x : F64) : Bool := x.expField == 2047 && x.frac != 0
def F64.isInf (x : F64) : Bool := x.expField == 2047 && x.frac == 0
def F64.isFinite (x : F64) : Bool := x.expField != 2047
def F64.isZero (x : F64) : Bool := x.low63 == 0

/-- A pattern from its sign and its 63 low bits. -/
def F64.pack (neg : Bool) (low : Nat) : F64 :=
  ⟨BitVec.ofNat 64 ((if neg then 2 ^ 63 else 0) + low % 2 ^ 63)⟩

/-- Magnitude of a finite value in units of 2^-1074. -/
def F64.mag (x : F64) : Nat :=
  if x.expField = 0 then x.frac else (2 ^ 52 + x.frac) <<< (x.expField - 1)

/-- A finite value in units of 2^-1074. -/
def F64.scaled (x : F64) : Int := if x.sign then -(x.mag : Int) else (x.mag : Int)

/-! ## Constants -/

def F64.zero : F64 := ⟨0x0000000000000000⟩
def F64.half : F64 := ⟨0x3FE0000000000000⟩
def F64.one : F64 := ⟨0x3FF0000000000000⟩
def F64.two : F64 := ⟨0x4000000000000000⟩
/-- The binary64 value nearest to π (00_scope.md rule R15). -/
def F64.pi : F64 := ⟨0x400921FB54442D18⟩
/-- The 63 low bits of an infinity. -/
def F64.infLow : Nat := 0x7FF0000000000000
def F64.inf (neg : Bool) : F64 := F64.pack neg F64.infLow
/-- 2^-53, the threshold of 43_table_cache.md rule R240. -/
def F64.twoPowNeg53 : F64 := ⟨0x3CA0000000000000⟩
/-- 2^-28, the scale of 40_oscillator.md rule R140. -/
def F64.twoPowNeg28 : F64 := ⟨0x3E30000000000000⟩
/-- 2^-1022, the smallest curvature of 42_envelope.md rule R216. -/
def F64.minNormal : F64 := ⟨0x0010000000000000⟩

/-- The NaN an operation produces: quiet, its sign and low payload free (00_scope.md rule R12 says only "NaN"). -/
def F64.nanOf (op : FOp) (a b : F64) : F64 :=
  let c := (Config.nanBits op a b).toNat
  F64.pack (c / 2 ^ 51 = 1) (F64.infLow + 2 ^ 51 + c % 2 ^ 51)

/-! ## Rounding -/

/-- The exponent step of a rounding: the number of low units dropped so that 53 significant bits remain. -/
def F64.dropBits (num den : Nat) : Nat := (num / den).log2 - 52

/-- The low 63 bits for `n · 2^k` units, where `n ≤ 2^53` and `n ≥ 2^52` unless `k = 0`; past the largest
finite value, an infinity. -/
def F64.lowOf (n k : Nat) : Nat := min (k * 2 ^ 52 + n) F64.infLow

/-- `num / den` units rounded to nearest, ties to even, as the 63 low bits (00_scope.md rule R12). -/
def F64.roundMag (num den : Nat) : Nat :=
  let k := F64.dropBits num den
  let d := den * 2 ^ k
  let n := num / d
  let r := num % d
  F64.lowOf (if 2 * r > d ∨ (2 * r = d ∧ n % 2 = 1) then n + 1 else n) k

/-- `num / den` units rounded towards zero: the largest binary64 magnitude not above it. -/
def F64.roundMagDown (num den : Nat) : Nat :=
  let k := F64.dropBits num den
  min (F64.lowOf (num / (den * 2 ^ k)) k) (F64.infLow - 1)

/-- `num / den` units rounded away from zero: the smallest binary64 magnitude not below it. -/
def F64.roundMagUp (num den : Nat) : Nat :=
  let k := F64.dropBits num den
  let d := den * 2 ^ k
  F64.lowOf (if num % d = 0 then num / d else num / d + 1) k

/-- The value `i` units of 2^-1074 divided by `den`, rounded; `zeroNeg` is the sign of an exact zero. -/
def F64.ofScaled (i : Int) (den : Nat) (zeroNeg : Bool) : F64 :=
  if i = 0 then F64.pack zeroNeg 0 else F64.pack (i < 0) (F64.roundMag i.natAbs den)

/-! ## Sign operations and comparisons -/

/-- `-x`: the sign bit inverted. -/
def F64.neg (x : F64) : F64 := F64.pack (!x.sign) x.low63
/-- `|x|`: the sign bit cleared (00_scope.md rule R12). -/
def F64.abs (x : F64) : F64 := F64.pack false x.low63

/-- The order of non-NaN values: both zeros are 0, infinities are beyond every finite value. -/
def F64.order (x : F64) : Int := if x.sign then -(x.low63 : Int) else (x.low63 : Int)

/-- IEEE comparisons: false when an operand is NaN, and `-0 = +0` (00_scope.md rule R12). -/
def F64.lt (a b : F64) : Bool := !a.isNaN && !b.isNaN && a.order < b.order
def F64.le (a b : F64) : Bool := !a.isNaN && !b.isNaN && a.order ≤ b.order
def F64.eq (a b : F64) : Bool := !a.isNaN && !b.isNaN && a.order == b.order

/-- `max` of 00_scope.md rule R8; the choice between zeros of opposite sign is free. -/
def F64.max (a b : F64) : F64 :=
  if F64.lt b a then a
  else if F64.lt a b then b
  else if a = b then a
  else if Config.zeroTieFirst a b then a else b

/-- `min` of 00_scope.md rule R8; the choice between zeros of opposite sign is free. -/
def F64.min (a b : F64) : F64 :=
  if F64.lt a b then a
  else if F64.lt b a then b
  else if a = b then a
  else if Config.zeroTieFirst a b then a else b

/-- `clamp(x, lo, hi) = min(max(x, lo), hi)` (00_scope.md rule R8). -/
def F64.clamp (x lo hi : F64) : F64 := F64.min (F64.max x lo) hi

/-! ## Arithmetic (00_scope.md rule R12) -/

/-- The sum of two finite values, exact and then rounded; an exact zero is `+0` unless both operands are negative. -/
def F64.addFinite (a b : F64) : F64 := F64.ofScaled (a.scaled + b.scaled) 1 (a.sign && b.sign)

/-- Addition, with the operation `op` naming the NaN it may produce. -/
def F64.addAs (op : FOp) (a b : F64) : F64 :=
  if a.isNaN || b.isNaN then F64.nanOf op a b
  else if a.isInf then (if b.isInf && a.sign != b.sign then F64.nanOf op a b else a)
  else if b.isInf then b
  else F64.addFinite a b

def F64.add (a b : F64) : F64 := F64.addAs .add a b
def F64.sub (a b : F64) : F64 := F64.addAs .sub a b.neg

def F64.mul (a b : F64) : F64 :=
  let s := a.sign != b.sign
  if a.isNaN || b.isNaN then F64.nanOf .mul a b
  else if a.isInf || b.isInf then
    (if a.isZero || b.isZero then F64.nanOf .mul a b else F64.inf s)
  else if a.isZero || b.isZero then F64.pack s 0
  else F64.pack s (F64.roundMag (a.mag * b.mag) (2 ^ 1074))

def F64.div (a b : F64) : F64 :=
  let s := a.sign != b.sign
  if a.isNaN || b.isNaN then F64.nanOf .div a b
  else if a.isInf then (if b.isInf then F64.nanOf .div a b else F64.inf s)
  else if b.isInf then F64.pack s 0
  else if b.isZero then (if a.isZero then F64.nanOf .div a b else F64.inf s)
  else if a.isZero then F64.pack s 0
  else F64.pack s (F64.roundMag (a.mag * 2 ^ 1074) b.mag)

/-- Integer square root by bits: the greatest `r + (something below 2^n)` whose square is at most `a`. -/
def F64.isqrtBits : Nat → Nat → Nat → Nat
  | 0, _, r => r
  | n + 1, a, r =>
    F64.isqrtBits n a (if (r + 2 ^ n) * (r + 2 ^ n) ≤ a then r + 2 ^ n else r)

/-- The correctly rounded square root (00_scope.md rules R12, R16).  In units of 2^-1074 the root of `m` units is
the root of `m · 2^1074`. -/
def F64.sqrt (x : F64) : F64 :=
  if x.isNaN then F64.nanOf .sqrt x x
  else if x.isZero then x
  else if x.sign then F64.nanOf .sqrt x x
  else if x.isInf then x
  else
    let a := x.mag * 2 ^ 1074
    let k := a.log2 / 2 - 52
    let n := F64.isqrtBits 54 (a / 4 ^ k) 0
    F64.pack false (F64.lowOf (if (2 * n + 1) * (2 * n + 1) * 4 ^ k < 4 * a then n + 1 else n) k)

/-! ## Conversions (00_scope.md rules R12, R14) -/

/-- The binary64 value of an integer, rounded to nearest (exact in every use of the spec). -/
def F64.ofInt (i : Int) : F64 := F64.ofScaled (i * 2 ^ 1074) 1 false
def F64.ofNat (n : Nat) : F64 := F64.ofInt n

/-- `floor` of a value as an integer; of a NaN or an infinity, a free integer. -/
def F64.floorInt (x : F64) : Int :=
  if x.isFinite then x.scaled / 2 ^ 1074 else Config.intOfNonFinite x

/-- `trunc` of a value as an integer; of a NaN or an infinity, a free integer. -/
def F64.truncInt (x : F64) : Int :=
  if x.isFinite then x.scaled.tdiv (2 ^ 1074) else Config.intOfNonFinite x

/-- `x = floor(x)`: the value is a mathematical integer. -/
def F64.isInt (x : F64) : Bool := x.isFinite && x.mag % 2 ^ 1074 == 0

end Sys2Proof
end

