-- ==== Sys2Proof/Machine/Transcendental.lean ====
section
/-! DEFINITION. The configuration functions `F_exp`, `F_ln`, `F_sin`, `F_tanh` (00_scope.md rule R16).

Rule R16 fixes no implementation: a result is one of the two binary64 values next to the exact one (faithful
rounding).  Each function here therefore computes a rational interval around the exact value, narrower than one part
in 2^250, and returns the neighbour below it or the neighbour above it; WHICH of the two is the free value
`Config.roundsAway`.  So a theorem about the model holds for every faithfully rounded library. -/

namespace Sys2Proof

/-- A positive real number between `loN / loD` and `hiN / hiD`. -/
structure Bounds where
  loN : Nat
  loD : Nat
  hiN : Nat
  hiD : Nat
  deriving DecidableEq, Repr

/-- Units of 2^-1074 in 1. -/
def F64.unit : Nat := 2 ^ 1074

/-- The faithful rounding of a value of the given sign whose magnitude lies in `b` (rule R16): the neighbour nearer to
zero or the one farther from it, as the free value says. -/
def F64.faithful (op : FOp) (x : F64) (neg : Bool) (b : Bounds) : F64 :=
  if Config.roundsAway op x then F64.pack neg (F64.roundMagUp (b.hiN * F64.unit) b.hiD)
  else F64.pack neg (F64.roundMagDown (b.loN * F64.unit) b.loD)

/-! ## The exponential -/

/-- Bits of the fixed-point numbers used below. -/
def fixBits : Nat := 320
def fixOne : Nat := 2 ^ fixBits

/-- Taylor terms of the exponential from the `n`-th on, each rounded down: `term` is the previous one. -/
def expTaylorDown : Nat → Nat → Nat → Nat → Nat
  | 0, _, _, _ => 0
  | fuel + 1, n, y, term =>
    let t := term * y / (n * fixOne)
    t + expTaylorDown fuel (n + 1) y t

/-- The same terms, each rounded up. -/
def expTaylorUp : Nat → Nat → Nat → Nat → Nat
  | 0, _, _, _ => 1
  | fuel + 1, n, y, term =>
    let t := term * y / (n * fixOne) + 1
    t + expTaylorUp fuel (n + 1) y t

/-- Square a fixed-point number `k` times, rounding down. -/
def squareDown : Nat → Nat → Nat
  | 0, v => v
  | k + 1, v => squareDown k (v * v / fixOne)

/-- Square a fixed-point number `k` times, rounding up. -/
def squareUp : Nat → Nat → Nat
  | 0, v => v
  | k + 1, v => squareUp k (v * v / fixOne + 1)

/-- Fixed-point bounds of `exp(num/den)` for `0 ≤ num/den < 2^12`: the argument is halved 20 times, the Taylor
series summed, and the sum squared 20 times. -/
def expFix (num den : Nat) : Nat × Nat :=
  let y := num * fixOne / (den * 2 ^ 20)
  (squareDown 20 (fixOne + expTaylorDown 40 1 y fixOne),
    squareUp 20 (fixOne + expTaylorUp 40 1 (y + 1) fixOne))

/-- Bounds of the exponential of a value at or below -2^10, -∞ with its limit 0 among them: less than half of 2^-1074. -/
def expBoundsFarBelow : Bounds := ⟨0, 1, 1, 2 ^ 1200⟩

/-- Bounds of the exponential of a finite non-zero value. -/
def expBounds (x : F64) : Bounds :=
  if x.mag ≥ 2 ^ 10 * F64.unit then
    (if x.sign then expBoundsFarBelow else ⟨2 ^ 1200, 1, 2 ^ 1200, 1⟩)
  else
    let (lo, hi) := expFix x.mag F64.unit
    if x.sign then ⟨fixOne, hi, min fixOne lo, lo⟩ else ⟨lo, fixOne, hi, fixOne⟩

/-- `F_exp` (rule R16): `F_exp(0) = 1`; a NaN gives a NaN (rule R12).  At -∞, which rule R16 says is never evaluated but
which an overflowing quotient of 42_envelope.md rule R200 or an infinite tap does evaluate, a faithful rounding of the
limit 0 from above, so that a slope coefficient lies in `[0, 1]` (rule R200); at +∞ no value is stated (log entry 3). -/
def fExp (x : F64) : F64 :=
  if x.isNaN then F64.nanOf .exp x x
  else if x.isInf then (if x.sign then F64.faithful .exp x false expBoundsFarBelow else Config.unstated .exp x)
  else if x.isZero then F64.one
  else F64.faithful .exp x false (expBounds x)

/-! ## The natural logarithm -/

/-- The terms `p/(2n+1)` of the series of `artanh`, `p` being a power of `z` of odd order; rounded down. -/
def atanhDown : Nat → Nat → Nat → Nat → Nat
  | 0, _, _, _ => 0
  | fuel + 1, n, z2, p => p / (2 * n + 1) + atanhDown fuel (n + 1) z2 (p * z2 / fixOne)

/-- The same terms rounded up. -/
def atanhUp : Nat → Nat → Nat → Nat → Nat
  | 0, _, _, _ => 1
  | fuel + 1, n, z2, p => p / (2 * n + 1) + 1 + atanhUp fuel (n + 1) z2 (p * z2 / fixOne + 1)

/-- Fixed-point bounds of `2·artanh(num/den)` for `0 ≤ num/den ≤ 1/3`, which is `ln((den+num)/(den-num))`. -/
def lnRatio (num den : Nat) : Nat × Nat :=
  let zl := num * fixOne / den
  let zh := if num * fixOne % den = 0 then zl else zl + 1
  (2 * atanhDown 110 0 (zl * zl / fixOne) zl, 2 * atanhUp 110 0 (zh * zh / fixOne + 1) zh)

/-- Fixed-point bounds of `ln` of a positive finite value: `x = f·2^e` with `1 ≤ f < 2`, so
`ln x = e·ln 2 + ln f`. -/
def lnFix (x : F64) : Int × Int :=
  let l := x.mag.log2
  let e : Int := (l : Int) - 1074
  let f := lnRatio (x.mag - 2 ^ l) (x.mag + 2 ^ l)
  let two := lnRatio 1 3
  if e < 0 then (e * two.2 + f.1, e * two.1 + f.2) else (e * two.1 + f.1, e * two.2 + f.2)

/-- `F_ln` (rule R16) for `x > 0`; `F_ln(1) = 0`; at a value that is not positive and finite no value is stated. -/
def fLn (x : F64) : F64 :=
  if x.isNaN then F64.nanOf .ln x x
  else if x.isInf || x.isZero || x.sign then Config.unstated .ln x
  else if x = F64.one then F64.zero
  else
    let b := lnFix x
    if b.2 < 0 then F64.faithful .ln x true ⟨(-b.2).toNat, fixOne, (-b.1).toNat, fixOne⟩
    else F64.faithful .ln x false ⟨b.1.toNat, fixOne, b.2.toNat, fixOne⟩

/-! ## The sine -/

/-- Terms of `arctan(1/m)` in fixed point of scale `one`, alternating, from order `2n+1` on. -/
def atanInv : Nat → Nat → Nat → Nat → Int
  | 0, _, _, _ => 0
  | fuel + 1, n, m2, p => (p / (2 * n + 1) : Nat) - atanInv fuel (n + 1) m2 (p / m2)

/-- π/2 in fixed point with `w` fraction bits, within `2w` units (Machin's formula). -/
def halfPiFix (w : Nat) : Int :=
  8 * atanInv (w / 4 + 4) 0 25 (2 ^ w / 5) - 2 * atanInv (w / 4 + 4) 0 57121 (2 ^ w / 239)

/-- Taylor terms of the sine of `r` (scale `2^w`) from order `2n+1` on, alternating. -/
def sinTaylor : Nat → Nat → Nat → Int → Int → Int
  | 0, _, _, _, _ => 0
  | fuel + 1, n, w, r2, term =>
    term - sinTaylor fuel (n + 1) w r2 (term * r2 / 2 ^ w / ((2 * n + 2) * (2 * n + 3) : Nat))

/-- The sine of `r` in fixed point with `w` fraction bits, for `|r| ≤ 2`. -/
def sinFix (w : Nat) (r : Int) : Int := sinTaylor 140 0 w (r * r / 2 ^ w) r

/-- Signed fixed-point bounds, and their fraction bits, of the sine of the magnitude of a finite value that is at
least 2^-26: the argument is reduced by the multiple `q` of π/2. -/
def sinBounds (x : F64) : Int × Int × Nat :=
  let w := fixBits + (x.mag >>> 1074).log2 + 8
  let a : Int := (x.mag * 2 ^ w / F64.unit : Nat)
  let h := halfPiFix w
  let q := a / h
  let r := a - q * h
  let v :=
    if q % 4 = 0 then sinFix w r
    else if q % 4 = 1 then sinFix w (h - r)
    else if q % 4 = 2 then -sinFix w r
    else -sinFix w (h - r)
  let slack := (q + 2) * (4 * w : Nat) + 2000
  (v - slack, v + slack, w)

/-- `F_sin` (rule R16): `F_sin(±0) = ±0`; below 2^-26 the value lies between `x - x^3/6` and `x`. -/
def fSin (x : F64) : F64 :=
  if x.isNaN then F64.nanOf .sin x x
  else if x.isInf then Config.unstated .sin x
  else if x.isZero then x
  else if x.mag * 2 ^ 26 < F64.unit then
    F64.faithful .sin x x.sign
      ⟨x.mag * (6 * F64.unit * F64.unit - x.mag * x.mag), 6 * F64.unit * F64.unit * F64.unit, x.mag, F64.unit⟩
  else
    let (lo, hi, w) := sinBounds x
    if hi < 0 then F64.faithful .sin x (!x.sign) ⟨(-hi).toNat, 2 ^ w, (-lo).toNat, 2 ^ w⟩
    else F64.faithful .sin x x.sign ⟨lo.toNat, 2 ^ w, hi.toNat, 2 ^ w⟩

/-! ## The hyperbolic tangent -/

/-- Bounds of the hyperbolic tangent of a magnitude of `m` units, `m > 0`: `tanh a = (e - 1)/(e + 1)` with
`e = exp(2a)`; below 2^-26 the value lies between `a - a^3/3` and `a`; never above 1. -/
def tanhBounds (m : Nat) : Bounds :=
  if m * 2 ^ 26 < F64.unit then
    ⟨m * (3 * F64.unit * F64.unit - m * m), 3 * F64.unit * F64.unit * F64.unit, m, F64.unit⟩
  else if m ≥ 32 * F64.unit then ⟨2 ^ 80 - 1, 2 ^ 80, 1, 1⟩
  else
    let (lo, hi) := expFix (2 * m) F64.unit
    ⟨lo - fixOne, lo + fixOne, hi - fixOne, hi + fixOne⟩

/-- `F_tanh` (rule R16): odd, and at most 1 in magnitude; at an infinity the limit 1, faithfully rounded. -/
def fTanh (x : F64) : F64 :=
  if x.isNaN then F64.nanOf .tanh x x
  else if x.isZero then x
  else F64.faithful .tanh x.abs x.sign (tanhBounds (if x.isInf then 32 * F64.unit else x.mag))

end Sys2Proof
end

