-- ==== Sys2Proof/Machine/Coefficients.lean ====
section
/-! DEFINITION. The derived coefficients of the envelope (42_envelope.md rules R200 to R203) and of the filter
(41_filter.md rules R171, R172): pure functions, used by the commands and by reset. -/

namespace Sys2Proof

/-- `slope_coef(N, s)` (rule R200): a zero-length stage has coefficient `+0.0`. -/
def slopeCoef (n s : F64) : F64 :=
  if n.eq F64.zero then F64.zero
  else
    let r := (F64.one.add s).div s
    let l := fLn r
    let q := l.div n
    fExp q.neg

/-- The attack base (rule R201): `(1 + curve)·(1 - coef)`. -/
def attackBase (curve coef : F64) : F64 := (F64.one.add curve).mul (F64.one.sub coef)

/-- The decay base (rule R202): `(sustain - curve)·(1 - coef)`. -/
def decayBase (sustain curve coef : F64) : F64 := (sustain.sub curve).mul (F64.one.sub coef)

/-- The release base (rule R203): `(0 - curve)·(1 - coef)`. -/
def releaseBase (curve coef : F64) : F64 := (F64.zero.sub curve).mul (F64.one.sub coef)

/-- The exponential "resistance" term (rule R171): `W_MIN · F_exp(FC · F_ln(W_MAX / W_MIN))`. -/
def filterW (p : Params) (fc : F64) : F64 := p.wMin.mul (fExp (fc.mul (fLn (p.wMax.div p.wMin))))

/-- The cutoff-derived offset (rule R171): `OFF_LO + FC·(OFF_HI - OFF_LO)`. -/
def filterOff (p : Params) (fc : F64) : F64 := p.offLo.add (fc.mul (p.offHi.sub p.offLo))

/-- The resonance term (rule R172): `D_MAX - Q·(D_MAX - D_MIN)`. -/
def filterD (p : Params) (q : F64) : F64 := p.dMax.sub (q.mul (p.dMax.sub p.dMin))

end Sys2Proof
end

