-- ==== Sys2Proof/Machine/Cause.lean ====
section
/-! DEFINITION. The block's fault causes and their codes (60_exceptions.md rule R391).  Entering the fault state is
`Sys2Proof.Machine.enterFault` (`Sys2Proof/Machine/Ops.lean`); these are causes of the BLOCK's fault state, which is a
next state, not reasons for the model to stop. -/

namespace Sys2Proof.Machine

/-- The ten causes of rule R391; codes 10 to 255 are never recorded (93_implementation_defined.md §2: a model may use
a type with ten values). -/
inductive FaultCause where
  | none
  | illegalCommand
  | badIndex
  | zeroSampleRate
  | badArg
  | badBuffer
  | queueFull
  | callbackState
  | tableParams
  | cacheFull
  deriving DecidableEq, Repr

/-- The 8-bit code recorded in `FAULT_CAUSE` (rule R391). -/
def causeCode : FaultCause → BitVec 8
  | .none => 0
  | .illegalCommand => 1
  | .badIndex => 2
  | .zeroSampleRate => 3
  | .badArg => 4
  | .badBuffer => 5
  | .queueFull => 6
  | .callbackState => 7
  | .tableParams => 8
  | .cacheFull => 9

end Sys2Proof.Machine
end

