-- ==== Sys2Proof/Machine/Tables.lean ====
section
/-! DEFINITION. The numeric utilities and the coefficient-table generators (43_table_cache.md): pure functions of the
instance's parameters.  Every expression is evaluated in the order its rule writes it (00_scope.md rule R12). -/

namespace Sys2Proof

/-! ## Numeric utilities -/

/-- The loop of rule R240 from its `k`-th iteration on. -/
def i0Loop : Nat → Nat → F64 → F64 → F64 → F64
  | 0, _, _, s, _ => s
  | fuel + 1, k, y, s, t =>
    let u := y.div (F64.ofNat k)
    let t' := t.mul (u.mul u)
    let s' := s.add t'
    if t'.lt (s'.mul F64.twoPowNeg53) then s' else i0Loop fuel (k + 1) y s' t'

/-- `I0(x)`, the modified Bessel function of the first kind of order 0 (rule R240): at most 1000 terms. -/
def besselI0 (x : F64) : F64 := i0Loop 1000 1 (x.div F64.two) F64.one F64.one

/-- `kaiser(t, beta)` (rule R241). -/
def kaiser (t beta : F64) : F64 :=
  if F64.one.lt t.abs then F64.zero
  else
    let a := F64.one.sub (t.mul t)
    (besselI0 (beta.mul a.sqrt)).div (besselI0 beta)

/-- `sinc(x)` (rule R242): exactly zero at every non-zero integer. -/
def sinc (x : F64) : F64 :=
  if x.eq F64.zero then F64.one
  else if x.isInt then F64.zero
  else
    let y := F64.pi.mul x
    (fSin y).div y

/-- The sum of a list in list order, from `+0.0` (rules R243, R246). -/
def sumList (hs : List F64) : F64 := hs.foldl F64.add F64.zero

/-- A normalisation sum that rules R243 and R246 accept: finite and positive. -/
def sumAccepted (s : F64) : Bool := s.isFinite && !(s.le F64.zero)

/-! ## The compact decimation FIR (rules R243, R244) -/

/-- The offsets `n` whose taps are stored beside the centre: `1 ≤ n < RATIO·ZC`, `n` no multiple of `RATIO`. -/
def firOffsets (ratio zc : Nat) : List Nat :=
  ((List.range (ratio * zc)).filter fun n => n % ratio != 0)

/-- The unnormalised tap at offset `n` (rule R243). -/
def firTap (ratio zc : Nat) (beta : F64) (n : Nat) : F64 :=
  (sinc ((F64.ofNat n).div (F64.ofNat ratio))).mul
    (kaiser ((F64.ofNat n).div (F64.ofNat (ratio * zc))) beta)

/-- The normalisation sum `S = 1 + 2·T` of rule R243. -/
def firSum (ratio zc : Nat) (beta : F64) : F64 :=
  F64.one.add (F64.two.mul (sumList ((firOffsets ratio zc).map (firTap ratio zc beta))))

/-- `fir_table` (rule R243), the centre tap first. -/
def firEntries (ratio zc : Nat) (beta : F64) : List F64 :=
  let s := firSum ratio zc beta
  (F64.one.div s) :: (firOffsets ratio zc).map fun n => (firTap ratio zc beta n).div s

/-- `fir_idx(n) = n - (n div RATIO)` (rule R244). -/
def firIdx (ratio n : Nat) : Nat := n - n / ratio

/-! ## The phased-sinc kernel bank (rules R245, R246) -/

/-- The unnormalised tap `k` of the row of phase `ph` (rule R246). -/
def psincTap (phases half : Nat) (beta sc : F64) (ph k : Nat) : F64 :=
  let phi := (F64.ofNat ph).div (F64.ofNat phases)
  let d := (F64.ofInt ((k : Int) - half + 1)).sub phi
  (sc.mul (sinc (sc.mul d))).mul (kaiser (d.div (F64.ofNat half)) beta)

/-- The row of phase `ph` before normalisation. -/
def psincRaw (phases half : Nat) (beta sc : F64) (ph : Nat) : List F64 :=
  (List.range (2 * half)).map (psincTap phases half beta sc ph)

/-- The row of phase `ph`, normalised to unit sum. -/
def psincRow (phases half : Nat) (beta sc : F64) (ph : Nat) : List F64 :=
  let hs := psincRaw phases half beta sc ph
  let s := sumList hs
  hs.map fun h => h.div s

/-- `psinc_table` (rule R246), row-major (rule R245). -/
def psincEntries (phases half : Nat) (beta sc : F64) : List F64 :=
  (List.range phases).flatMap (psincRow phases half beta sc)

end Sys2Proof

namespace Sys2Proof.Machine

/-! ## The cache (rules R247, R248, R249) -/

/-- A table's key: the generator kind and its numeric parameters, binary64 parameters compared by bit pattern
(rule R247). -/
inductive Key where
  | fir (ratio zc : Nat) (beta : F64)
  | psinc (phaseBits half : Nat) (beta sc : F64)
  deriving DecidableEq, Repr

/-- One filled slot of the cache (10_state.md rule R48): its key and its immutable table. -/
structure Slot where
  key : Key
  table : List F64
  deriving DecidableEq, Repr

/-- `0 ≤ β ≤ 50`, finite (00_scope.md rule R6). -/
def betaInRange (b : F64) : Bool := b.isFinite && F64.zero.le b && b.le ⟨0x4049000000000000⟩

/-- A key's parameters are in the ranges of 00_scope.md rule R6 (checked by rule R249). -/
def keyInRange : Key → Bool
  | .fir ratio zc beta =>
    decide (1 ≤ ratio ∧ ratio ≤ 16) && decide (1 ≤ zc ∧ zc ≤ 64) && betaInRange beta
  | .psinc phaseBits half beta sc =>
    decide (phaseBits ≤ 12) && decide (1 ≤ half ∧ half ≤ 32) && betaInRange beta &&
      (sc.isFinite && F64.zero.lt sc && sc.le F64.one)

/-- The table of a key (rules R243, R246). -/
def keyEntries : Key → List F64
  | .fir ratio zc beta => firEntries ratio zc beta
  | .psinc phaseBits half beta sc => psincEntries (2 ^ phaseBits) half beta sc

/-- Every normalisation sum of the key's table is positive and finite; otherwise its generation raises
`TABLE_PARAMS` (rules R243, R246). -/
def keySumsAccepted : Key → Bool
  | .fir ratio zc beta => sumAccepted (firSum ratio zc beta)
  | .psinc phaseBits half beta sc =>
    (List.range (2 ^ phaseBits)).all fun ph => sumAccepted (sumList (psincRaw (2 ^ phaseBits) half beta sc ph))

/-- The key of the decimation kernel. -/
def firKey (p : Params) : Key := .fir p.ratio p.zc p.betaFir

/-- The key of resampler kernel variant `v`. -/
def psincKey (p : Params) (v : Fin 3) : Key := .psinc p.phaseBits p.half p.betaRs (p.rsScale v)

/-- The keys reset generates, in order (rule R249). -/
def resetKeys (p : Params) : List Key :=
  (if p.oversample then [firKey p] else []) ++
    (if p.srcRs then [psincKey p 0, psincKey p 1, psincKey p 2] else [])

/-- A valid slot holds this key. -/
def slotHas (k : Key) (s : Option Slot) : Bool :=
  match s with
  | some sl => sl.key == k
  | none => false

/-- `get(key)`: the table of the valid slot that holds the key (rule R248). -/
def lookup (slots : List (Option Slot)) (k : Key) : Option (List F64) :=
  (slots.findSome? fun s => if slotHas k s then s else none).map Slot.table

/-- The lowest-numbered invalid slot. -/
def firstInvalid (slots : List (Option Slot)) : Option Nat := slots.findIdx? Option.isNone

/-- The loop of rule R249 over the keys still to generate: the slots, and the cause of the fault if one is raised. -/
def fillSlots : List Key → List (Option Slot) → List (Option Slot) × Option FaultCause
  | [], slots => (slots, none)
  | k :: ks, slots =>
    if slots.any (slotHas k) then fillSlots ks slots
    else if !keyInRange k then (slots, some .tableParams)
    else
      match firstInvalid slots with
      | none => (slots, some .cacheFull)
      | some n =>
        if keySumsAccepted k then fillSlots ks (slots.set n (some ⟨k, keyEntries k⟩))
        else (slots, some .tableParams)

/-- `generate_tables()` (rule R249), every slot first invalid. -/
def generateTables (p : Params) : List (Option Slot) × Option FaultCause :=
  fillSlots (resetKeys p) (List.replicate p.cacheSlots none)

end Sys2Proof.Machine
end

