-- ==== Sys2Proof/Machine/State.lean ====
section
/-! DEFINITION. The state of the block (10_state.md), of the sample memory beside it (20_memory.md rule R73) and of the
host's side of its ports, as plain data; the reasons a step can stop; and the machine right after reset. -/

namespace Sys2Proof.Machine

/-! ## Reasons to stop -/

/-- Reasons the MODEL stops with a fault.  The block's own faults are not among them: they are the fault state of
60_exceptions.md rule R393, which is a next state. -/
inductive Fault where
  /-- A sample-memory access at a word address outside `0 .. 2^SAMPLE_ADDR_BITS - 1` (20_memory.md rule R73), by the
  resampler (which rule R279(d) of 44_resampler.md excludes) or by a host write.  Safe: no such address exists. -/
  | sampleAddress
  /-- A tick looked up a coefficient table that no valid slot holds (which 43_table_cache.md rule R248 excludes after
  a successful reset).  Safe: the spec gives no such lookup a result. -/
  | tableMissing
  deriving DecidableEq, Repr

/-- Reasons the model refuses to go on. -/
inductive Refusal where
  /-- Raised by an arm of `exec` whose instruction has no meaning yet (no arm has it now).  Safe. -/
  | notModelled (mnemonic : String)
  /-- The host pulled while a pull is outstanding: "a host obligation", "not an enabled host action"
  (47_engine.md rule R363, 93_implementation_defined.md §2).  Safe: no behaviour of the block is given. -/
  | secondPull
  deriving DecidableEq, Repr

/-! ## The units' registers -/

/-- `ENV_STATE`: the envelope stage (10_state.md rule R44; values 5 to 7 are never written). -/
inductive EnvState where
  | idle
  | attack
  | decay
  | sustain
  | release
  deriving DecidableEq, Repr

/-- One envelope (10_state.md rule R43). -/
structure Envelope where
  state : EnvState
  value : F64
  /-- Attack, decay and release length in inner samples. -/
  nA : F64
  nD : F64
  nR : F64
  sustain : F64
  curveA : F64
  curveD : F64
  curveR : F64
  coefA : F64
  baseA : F64
  coefD : F64
  baseD : F64
  coefR : F64
  baseR : F64
  deriving DecidableEq, Repr

/-- One voice: its oscillator (10_state.md rules R40, R41) and the envelope it owns (rule R43). -/
structure Voice where
  phase : BitVec 28
  inc : BitVec 28
  /-- Phase shift, 30-bit two's complement, between `-2^28` and `2^28`. -/
  shift : BitVec 30
  /-- Capability set: saw, square, triangle, noise, wavetable, sync, mute in bits 0 to 6 (rule R41). -/
  flags : BitVec 7
  lfsr : BitVec 23
  /-- Sync edge latch of the voice as a master. -/
  latch : Bool
  gDirect : F64
  gFilter : F64
  /-- Wavetable: `WT_LEN` signed 16-bit entries. -/
  wt : List (BitVec 16)
  env : Envelope
  deriving DecidableEq, Repr

/-- The resampler's registers (10_state.md rule R46). -/
structure Resampler where
  /-- `RS_BASE`, the word address of frame 0: a value of `SAMPLE_ADDR_BITS` bits, a width that is the instance's own (at
  most 48), so below `2^SAMPLE_ADDR_BITS` in every state that meets the invariant (`Inv.baseFits`). -/
  base : BitVec 64
  /-- The bit above those of `RS_BASE`: set by the one base 44_resampler.md rule R271 accepts that they do not hold,
  `2^SAMPLE_ADDR_BITS` with no frame bound.  The model's own field (log entry 14). -/
  baseTop : Bool
  frames : BitVec 32
  bufRate : F64
  bufPitch : F64
  /-- Cursor, Q31.32. -/
  pos : BitVec 64
  /-- Cursor increment, Q31.32, unsigned, `0 .. 2^63 - 1`. -/
  inc : BitVec 63
  deriving DecidableEq, Repr

/-- A scheduled event `(t, hdr, arg)` (10_state.md rule R49, 46_scheduler.md rule R320). -/
structure Event where
  t : BitVec 64
  hdr : BitVec 32
  arg : Word64
  deriving DecidableEq, Repr

/-- Sample memory as bytes: word `a` is bytes `8a .. 8a+7`, least significant first (20_memory.md rule R73).  Pairs of
address and byte, in the canonical form of `Memory.wf`.  An address that is not listed has been written by nobody;
what it reads as is the free value `Config.powerOnByte` (log entry 9). -/
abbrev Memory := List Host.Cell

/-- The canonical form: addresses strictly rising, so that one address has at most one entry. -/
abbrev Memory.wf (m : Memory) : Prop := m.Pairwise fun a b => a.1 < b.1

/-- The host's actions (47_engine.md rule R360), and the writes to sample memory that the host or the decoder
collaborator makes from outside the block (20_memory.md rules R74, R80). -/
inductive HostAction where
  /-- One byte of a command packet arrives at the command port (20_memory.md rule R71). -/
  | byte (b : Byte)
  /-- A read of the register at a 12-bit word address (20_memory.md rule R72). -/
  | read (addr : BitVec 12)
  /-- A request for one output frame (47_engine.md rule R363). -/
  | pull
  /-- Reset (70_reset_and_hazards.md rule R430). -/
  | reset
  /-- A write of one word of sample memory. -/
  | writeSample (addr : Nat) (value : Word64)
  deriving DecidableEq, Repr

/-- What the block last answered to the host on its read and pull ports. -/
inductive HostReply where
  /-- Nothing yet. -/
  | none
  /-- The value of a register read (20_memory.md rule R72). -/
  | value (v : Word64)
  /-- The frame of a completed pull, channel 0 first (47_engine.md rule R363). -/
  | frame (f : List F64)
  /-- The refusal of a pull (47_engine.md rule R363). -/
  | pullRefused
  deriving DecidableEq, Repr

end Sys2Proof.Machine

namespace Sys2Proof.Machine

/-- The whole machine.  `ID` is a constant (10_state.md rule R31); `CONFIG0`, `CONFIG1`, `BETA_FIR`, `BETA_RS` are read
from `cfg` (rule R32); `STATUS` is made of `faulted`, `cbPending`, `heap`, `tablesReady`, `inTick` (rule R37);
`HEAP_COUNT` is `heap.length` and `NEXT_T` its first entry's tick (rules R49, R51). -/
structure State where
  /-- The instance's parameters (00_scope.md rule R6, 10_state.md rule R32). -/
  cfg : Params
  /-- `TICK` (rule R33). -/
  tick : BitVec 64
  /-- `SAMPLE_RATE` (rule R34). -/
  sampleRate : F64
  /-- `EV_TICK` (rule R35). -/
  evTick : BitVec 64
  /-- `INNER_RATE` (rule R36). -/
  innerRate : F64
  /-- `STATUS.FAULTED` (rule R37). -/
  faulted : Bool
  /-- `STATUS.CB_PENDING` (rule R37). -/
  cbPending : Bool
  /-- `STATUS.TABLES_READY` (rule R37). -/
  tablesReady : Bool
  /-- `STATUS.IN_TICK` (rule R37). -/
  inTick : Bool
  /-- `FAULT_CAUSE`, `FAULT_HDR`, `FAULT_ARG` (rule R38). -/
  faultCause : FaultCause
  faultHdr : BitVec 32
  faultArg : Word64
  /-- `CB_ID` (rule R39). -/
  cbId : Word64
  /-- The `N_OSC` voices (rules R40 to R44). -/
  voices : List Voice
  /-- The filter (rule R45). -/
  filter : Filter
  /-- The resampler (rule R46). -/
  rs : Resampler
  /-- `OSW`: per channel, `L_FIR` values, oldest first (rule R47); empty when `OVERSAMPLE` is false. -/
  osw : List (List F64)
  /-- `SLOT`: the cache slots, `none` where `valid` is 0 (rule R48). -/
  slots : List (Option Slot)
  /-- `HEAP[0 .. HEAP_COUNT - 1]` (rule R49); the entries above are unobservable and not held. -/
  heap : List Event
  /-- Sample memory (20_memory.md rule R73), outside the block. -/
  mem : Memory
  /-- A pull is outstanding (47_engine.md rule R363). -/
  pull : Bool
  /-- The model's own: bytes at the command port, oldest first, of packets not yet executed. -/
  port : List Byte
  /-- The model's own: the host's further actions, in the order it issues them (20_memory.md rule R79). -/
  inbox : List HostAction
  /-- The model's own: the block's last answer on the read and pull ports. -/
  reply : HostReply
  /-- The model's own: how many free choices have been drawn (equal-tick order, racing reads). -/
  draws : Nat
  /-- The model's own: words written while bound, each with an older value that a read of the word may still return
  (20_memory.md rule R80, 70_reset_and_hazards.md rule R441). -/
  raced : List (Nat × Word64)
  deriving DecidableEq, Repr

/-! ## Reset values -/

/-- 0.3, 0.0001: the reset curvatures (10_state.md rule R43). -/
def resetCurveA : F64 := ⟨0x3FD3333333333333⟩
def resetCurveDR : F64 := ⟨0x3F1A36E2EB1C432D⟩

/-- An envelope at reset (10_state.md rule R43), its coefficients computed by 42_envelope.md rules R200 to R203. -/
def envelopeReset : Envelope where
  state := .idle
  value := F64.zero
  nA := F64.zero
  nD := F64.zero
  nR := F64.zero
  sustain := F64.one
  curveA := resetCurveA
  curveD := resetCurveDR
  curveR := resetCurveDR
  coefA := slopeCoef F64.zero resetCurveA
  baseA := attackBase resetCurveA (slopeCoef F64.zero resetCurveA)
  coefD := slopeCoef F64.zero resetCurveDR
  baseD := decayBase F64.one resetCurveDR (slopeCoef F64.zero resetCurveDR)
  coefR := slopeCoef F64.zero resetCurveDR
  baseR := releaseBase resetCurveDR (slopeCoef F64.zero resetCurveDR)

/-- A voice at reset (10_state.md rule R40). -/
def voiceReset (p : Params) : Voice where
  phase := 0
  inc := 0
  shift := 0
  flags := 0
  lfsr := 1
  latch := false
  gDirect := F64.zero
  gFilter := F64.zero
  wt := List.replicate p.wtLen 0
  env := envelopeReset

/-- The filter at reset (10_state.md rule R45), its coefficients computed by 41_filter.md rules R171 and R172. -/
def filterReset (p : Params) : Filter where
  lp := F64.zero
  bp := F64.zero
  hp := F64.zero
  fc := F64.one
  q := F64.zero
  w := filterW p F64.one
  off := filterOff p F64.one
  d := filterD p F64.zero
  gLp := F64.one
  gBp := F64.zero
  gHp := F64.zero

/-- The resampler at reset (10_state.md rule R46). -/
def resamplerReset : Resampler where
  base := 0
  baseTop := false
  frames := 0
  bufRate := F64.zero
  bufPitch := F64.zero
  pos := 0
  inc := 0

/-- Every element at its reset value, before the tables are generated (70_reset_and_hazards.md rule R431): slots
invalid, `TABLES_READY = 0`. -/
def stateCleared (p : Params) : State where
  cfg := p
  tick := 0
  sampleRate := F64.zero
  evTick := 0
  innerRate := F64.zero
  faulted := false
  cbPending := false
  tablesReady := false
  inTick := false
  faultCause := .none
  faultHdr := 0
  faultArg := 0
  cbId := 0
  voices := List.replicate p.nOsc (voiceReset p)
  filter := filterReset p
  rs := resamplerReset
  osw := if p.oversample then List.replicate p.channels (List.replicate p.lFir F64.zero) else []
  slots := List.replicate p.cacheSlots none
  heap := []
  mem := []
  pull := false
  port := []
  inbox := []
  reply := .none
  draws := 0
  raced := []

/-- The state of an instance with parameters `p` after a reset whose table generation succeeded, `slots` being the
cache it filled. -/
def stateReady (p : Params) (slots : List (Option Slot)) : State :=
  { stateCleared p with slots := slots, tablesReady := true }

/-- The machine right after a successful reset of the default instance: the FIR table's slot filled, the others invalid,
`STATUS = 0b01100` (70_reset_and_hazards.md rule R431, 95_test_vectors.md V33, V50; log entry 1). -/
def State.reset : State :=
  stateReady Params.default
    [some ⟨firKey Params.default, keyEntries (firKey Params.default)⟩, none, none, none]

end Sys2Proof.Machine
end

