-- ==== Sys2Proof/Machine/Ops.lean ====
section
/-! DEFINITION. The named operations every command and every tick is written over: sample memory, entering and leaving
the fault state, the event heap, and running a command (immediately, or as a deferred insert). -/

namespace Sys2Proof.Machine

/-- What a command, a host action or a tick answers. -/
abbrev Result := Host.Outcome State Fault Refusal

/-! ## Sample memory (20_memory.md rules R73 to R77, R80) -/

/-- The byte written at an address; `none` where nobody has written. -/
def memByte : Memory → Nat → Option Byte
  | [], _ => none
  | (a, b) :: m, x => if x = a then some b else if x < a then none else memByte m x

/-- Write one byte, keeping the addresses strictly rising. -/
def memSet : Memory → Nat → Byte → Memory
  | [], x, v => [(x, v)]
  | (a, b) :: m, x, v =>
    if x = a then (a, v) :: m else if x < a then (x, v) :: (a, b) :: m else (a, b) :: memSet m x v

/-- What the byte at an address reads as: what was written, or the free value of a byte nobody has written. -/
def memRead (m : Memory) (x : Nat) : Byte := (memByte m x).getD (Config.powerOnByte x)

/-- The word at word address `a`: bytes `8a .. 8a+7`, least significant first (rule R73). -/
def wordRead (m : Memory) (a : Nat) : Word64 :=
  word64 (memRead m (8 * a)) (memRead m (8 * a + 1)) (memRead m (8 * a + 2)) (memRead m (8 * a + 3))
    (memRead m (8 * a + 4)) (memRead m (8 * a + 5)) (memRead m (8 * a + 6)) (memRead m (8 * a + 7))

/-- Write the word at word address `a`. -/
def wordWrite (m : Memory) (a : Nat) (v : Word64) : Memory :=
  (List.range 8).foldl (fun m k => memSet m (8 * a + k) (byteOf v k)) m

/-- `a` is a sample-memory word address (rule R73). -/
def addrExists (p : Params) (a : Nat) : Bool := decide (a < 2 ^ p.sampleAddrBits)

/-- The base that 44_resampler.md rule R271 wrote: `RS_BASE`, with the bit above its `SAMPLE_ADDR_BITS` bits (log entry
14). -/
def rsBase (p : Params) (rs : Resampler) : Nat := rs.base.toNat + rs.baseTop.toNat * 2 ^ p.sampleAddrBits

/-- `a` lies in the bound extent `[RS_BASE, RS_BASE + RS_FRAMES·CHANNELS)` (70_reset_and_hazards.md rule R441). -/
def inExtent (p : Params) (rs : Resampler) (a : Nat) : Bool :=
  decide (rsBase p rs ≤ a ∧ a < rsBase p rs + rs.frames.toNat * p.channels)

/-- The earlier values of word `a` that a read may still return (rule R80, 70_reset_and_hazards.md rule R441). -/
def racedValues (s : State) (a : Nat) : List Word64 := (s.raced.filter fun r => r.1 == a).map Prod.snd

/-- `SampleRead(a)` (rules R73, R80): the word at `a`; where the host wrote the word while it was bound, the present
word or an earlier one, as the free value says.  An address outside sample memory does not exist. -/
def sampleRead (a : Nat) (s : State) : Except Fault (F64 × State) :=
  if addrExists s.cfg a then
    match racedValues s a with
    | [] => .ok (⟨wordRead s.mem a⟩, s)
    | old :: olds =>
      let values := wordRead s.mem a :: old :: olds
      .ok (⟨values.getD (Config.racePick s.draws % values.length) old⟩, { s with draws := s.draws + 1 })
  else .error .sampleAddress

/-- A write of one sample-memory word from outside the block (rules R74, R80).  Writing a word of the bound extent breaks
the host's obligation: any later read of the word may see the write or not, also after the word has left the extent
and been bound again (70_reset_and_hazards.md rule R441), so the old word stays among those a read may return.  A write
of a word that is not bound is seen by every later tick (rule R80), and ends the race of an earlier one. -/
def sampleWrite (a : Nat) (v : Word64) (s : State) : Result :=
  if addrExists s.cfg a then
    .next { s with
      mem := wordWrite s.mem a v
      raced := if inExtent s.cfg s.rs a then (a, wordRead s.mem a) :: s.raced
        else s.raced.filter fun r => r.1 != a }
  else .fault .sampleAddress

/-! ## The fault state (60_exceptions.md rules R390, R393, R397) -/

/-- `enter_fault(cause, hdr, arg)` (rule R393): the record is written, `FAULTED` set, `IN_TICK` cleared, and an
outstanding pull refused.  Every other element keeps its value. -/
def enterFault (cause : FaultCause) (hdr : BitVec 32) (arg : Word64) (s : State) : State :=
  { s with
    faultCause := cause
    faultHdr := hdr
    faultArg := arg
    faulted := true
    inTick := false
    pull := false
    reply := if s.pull then .pullRefused else s.reply }

/-- `raise Fault(cause, hdr, arg)` (00_scope.md rule R9). -/
def raiseFault (cause : FaultCause) (hdr : BitVec 32) (arg : Word64) (s : State) : Result :=
  .next (enterFault cause hdr arg s)

/-- Reset, the only way out of the fault state (rules R390, R397; 70_reset_and_hazards.md rules R430, R431): every
element at its reset value, then table generation, which may fault.  Sample memory is not touched, nor which of its words
were written while bound (rule R441); an outstanding pull is refused; what the host has still to do, and the count of free
choices, are not the block's. -/
def resetBlock (s : State) : State :=
  let fresh : State :=
    { stateCleared s.cfg with
      mem := s.mem
      raced := s.raced
      inbox := s.inbox
      draws := s.draws
      reply := if s.pull then .pullRefused else s.reply }
  match generateTables s.cfg with
  | (slots, none) => { fresh with slots := slots, tablesReady := true }
  | (slots, some cause) => enterFault cause 0 0 { fresh with slots := slots }

/-! ## The event heap (46_scheduler.md rules R320, R330, R331) -/

/-- The trigger tick of entry `k`. -/
def tickAt (h : List Event) (k : Nat) : Nat :=
  match h[k]? with
  | some e => e.t.toNat
  | none => 0

/-- Swap entries `i` and `j`. -/
def swapAt (h : List Event) (i j : Nat) : List Event :=
  match h[i]?, h[j]? with
  | some a, some b => (h.set i b).set j a
  | _, _ => h

/-- "sift up comparing tick" (rule R330), from entry `k`, in at most `fuel` swaps. -/
def siftUp : Nat → List Event → Nat → List Event
  | 0, h, _ => h
  | fuel + 1, h, k =>
    if k = 0 then h
    else
      let p := (k - 1) / 2
      if tickAt h p > tickAt h k then siftUp fuel (swapAt h p k) p else h

/-- `insert(e)` (rule R330). -/
def heapInsert (h : List Event) (e : Event) : List Event := siftUp (h.length + 1) (h ++ [e]) h.length

/-- The smaller-ticked child of entry `k`, the left one on equal ticks; `2k+1` is below the length. -/
def smallerChild (h : List Event) (k : Nat) : Nat :=
  if 2 * k + 2 < h.length ∧ tickAt h (2 * k + 2) < tickAt h (2 * k + 1) then 2 * k + 2 else 2 * k + 1

/-- "sift down swapping toward the smaller-ticked child" (rule R330), from entry `k`, in at most `fuel` swaps. -/
def siftDown : Nat → List Event → Nat → List Event
  | 0, h, _ => h
  | fuel + 1, h, k =>
    if 2 * k + 1 ≥ h.length then h
    else
      let m := smallerChild h k
      if tickAt h m < tickAt h k then siftDown fuel (swapAt h m k) m else h

/-- `shift()` (rule R330) on a heap whose first entry is `e`: `e`, and the heap that is left. -/
def heapShift : List Event → Option (Event × List Event)
  | [] => none
  | e :: rest =>
    match rest.getLast? with
    | none => some (e, [])
    | some last => some (e, siftDown rest.length (last :: rest.dropLast) 0)

/-- The entries of minimum tick, those whose tick is the root's. -/
def minEntries (h : List Event) : List Nat := (List.range h.length).filter fun k => tickAt h k == tickAt h 0

/-- Pop one event (rules R330, R331).  With `EQ_TICK_ORDER = any` the free value chooses among the entries of minimum
tick: the chosen one is exchanged with the root, which has the same tick, and the root is shifted out. -/
def popEvent (s : State) : Option (Event × State) :=
  let mins := minEntries s.heap
  if s.cfg.eqTickOrder = .any ∧ 1 < mins.length then
    match heapShift (swapAt s.heap 0 (mins.getD (Config.eqTickPick s.draws % mins.length) 0)) with
    | some (e, h) => some (e, { s with heap := h, draws := s.draws + 1 })
    | none => none
  else
    match heapShift s.heap with
    | some (e, h) => some (e, { s with heap := h })
    | none => none

/-! ## Running a command -/

/-- The deferred insert (46_scheduler.md rule R322): the packet, its `D` bit cleared, becomes an event at `EV_TICK`. -/
def deferCommand (i : Instr) (s : State) : Result :=
  if s.heap.length < s.cfg.heapCap then
    .next { s with heap := heapInsert s.heap ⟨s.evTick, clearDefer i.header, i.operand⟩ }
  else raiseFault .queueFull i.header i.operand s

/-- Execute a command at once: its effect, or the fault it raises, which writes nothing but the fault record
(47_engine.md rule R364, 60_exceptions.md rule R393). -/
def executeNow (i : Instr) (effect : Except FaultCause State) (s : State) : Result :=
  match effect with
  | .ok t => .next t
  | .error cause => raiseFault cause i.header i.operand s

/-- Run a command that takes no voice: insert it when `D = 1`, else execute it (30_encoding.md rules R92, R96). -/
def runCommand (i : Instr) (effect : State → Except FaultCause State) (s : State) : Result :=
  if i.deferred then deferCommand i s else executeNow i (effect s) s

/-- Run a voice command on voice `v` (30_encoding.md rules R91, R92, R96): `BAD_INDEX` where there is no such voice,
also for a deferred command; the effect changes that voice only. -/
def runVoice (i : Instr) (v : BitVec 8) (effect : State → Voice → Except FaultCause Voice) (s : State) : Result :=
  match s.voices[v.toNat]? with
  | none => raiseFault .badIndex i.header i.operand s
  | some vo =>
    if i.deferred then deferCommand i s
    else executeNow i ((effect s vo).map fun vo' => { s with voices := s.voices.set v.toNat vo' }) s

end Sys2Proof.Machine
end

