-- ==== Sys2Proof/Machine/Flags.lean ====
section
/-! DEFINITION. The status bits: the block has no condition codes or arithmetic flags (10_state.md rule R53); its only
flags are the `STATUS` bits of rule R37 and the two interrupt lines that equal two of them (60_exceptions.md rule
R398). -/

namespace Sys2Proof.Machine

/-- `STATUS.HEAP_EMPTY`: `HEAP_COUNT = 0` (10_state.md rule R37). -/
def heapEmpty (s : State) : Bool := s.heap.isEmpty

/-- `STATUS` (10_state.md rule R37); bits 63:5 are zero. -/
def statusWord (s : State) : Word64 :=
  ((0 : BitVec 59) ++ BitVec.ofBool s.inTick ++ BitVec.ofBool s.tablesReady ++ BitVec.ofBool (heapEmpty s) ++
    BitVec.ofBool s.cbPending ++ BitVec.ofBool s.faulted)

/-- `IRQ_FAULT`, level, active high (60_exceptions.md rule R398). -/
def irqFault (s : State) : Bool := s.faulted

/-- `IRQ_CB`, level, active high (60_exceptions.md rule R398). -/
def irqCb (s : State) : Bool := s.cbPending

end Sys2Proof.Machine
end

