-- ==== Sys2Proof/Machine/Registers.lean ====
section
/-! DEFINITION. The register read map (10_state.md rules R31, R32, R50 to R52; 20_memory.md rule R72). -/

namespace Sys2Proof.Machine

/-- `ID` (rule R31): ASCII `SNDPRG`, command-set version 1. -/
def idWord : Word64 := 0x534E445052470001

/-- `CONFIG0` (rule R32). -/
def config0 (p : Params) : Word64 :=
  ((0 : BitVec 18) ++ BitVec.ofNat 4 p.wtBits ++ BitVec.ofNat 6 p.half ++ BitVec.ofNat 4 p.phaseBits ++
    BitVec.ofNat 8 p.zc ++ BitVec.ofNat 8 p.ratio ++ BitVec.ofBool (decide (p.eqTickOrder = .any)) ++
    BitVec.ofBool p.oversample ++ BitVec.ofBool p.srcRs ++ BitVec.ofBool p.srcOsc ++
    BitVec.ofNat 4 p.channels ++ BitVec.ofNat 8 p.nOsc)

/-- `CONFIG1` (rule R32). -/
def config1 (p : Params) : Word64 :=
  ((0 : BitVec 18) ++ BitVec.ofNat 6 p.sampleAddrBits ++ BitVec.ofNat 8 p.cacheSlots ++ BitVec.ofNat 32 p.heapCap)

/-- `NEXT_T` (rule R51): the minimum trigger tick, or `2^64 - 1` when the heap is empty. -/
def nextT (s : State) : Word64 :=
  match s.heap with
  | [] => 0xFFFFFFFFFFFFFFFF
  | e :: _ => e.t

/-- The code of an envelope stage (rule R44). -/
def envStateCode : EnvState → Word64
  | .idle => 0
  | .attack => 1
  | .decay => 2
  | .sustain => 3
  | .release => 4

/-- The registers of one voice block, by offset (rule R51); an unused offset reads 0 (rule R52). -/
def voiceRegister (v : Voice) (offset : Nat) : Word64 :=
  match offset with
  | 0x00 => v.phase.setWidth 64
  | 0x01 => v.inc.setWidth 64
  | 0x02 => v.shift.signExtend 64
  | 0x03 => v.flags.setWidth 64
  | 0x04 => v.lfsr.setWidth 64
  | 0x05 => (BitVec.ofBool v.latch).setWidth 64
  | 0x06 => v.gDirect.bits
  | 0x07 => v.gFilter.bits
  | 0x10 => envStateCode v.env.state
  | 0x11 => v.env.value.bits
  | 0x12 => v.env.nA.bits
  | 0x13 => v.env.nD.bits
  | 0x14 => v.env.sustain.bits
  | 0x15 => v.env.nR.bits
  | 0x16 => v.env.curveA.bits
  | 0x17 => v.env.curveD.bits
  | 0x18 => v.env.curveR.bits
  | 0x19 => v.env.coefA.bits
  | 0x1A => v.env.baseA.bits
  | 0x1B => v.env.coefD.bits
  | 0x1C => v.env.baseD.bits
  | 0x1D => v.env.coefR.bits
  | 0x1E => v.env.baseR.bits
  | _ => 0

/-- The registers below the voice blocks (rule R51); an unlisted address reads 0 (rule R52). -/
def unitRegister (s : State) (addr : Nat) : Word64 :=
  match addr with
  | 0x000 => idWord
  | 0x001 => config0 s.cfg
  | 0x002 => config1 s.cfg
  | 0x003 => statusWord s
  | 0x004 => (causeCode s.faultCause).setWidth 64
  | 0x005 => s.faultHdr.setWidth 64
  | 0x006 => s.faultArg
  | 0x007 => s.tick
  | 0x008 => nextT s
  | 0x009 => BitVec.ofNat 64 s.heap.length
  | 0x00A => s.cbId
  | 0x00B => s.sampleRate.bits
  | 0x00C => s.innerRate.bits
  | 0x00D => s.evTick
  | 0x00E => s.cfg.betaFir.bits
  | 0x00F => s.cfg.betaRs.bits
  | 0x020 => s.filter.lp.bits
  | 0x021 => s.filter.bp.bits
  | 0x022 => s.filter.hp.bits
  | 0x023 => s.filter.fc.bits
  | 0x024 => s.filter.q.bits
  | 0x025 => s.filter.w.bits
  | 0x026 => s.filter.d.bits
  | 0x027 => s.filter.off.bits
  | 0x028 => s.filter.gLp.bits
  | 0x029 => s.filter.gBp.bits
  | 0x02A => s.filter.gHp.bits
  | 0x040 => BitVec.ofNat 64 (rsBase s.cfg s.rs)
  | 0x041 => s.rs.frames.setWidth 64
  | 0x042 => s.rs.bufRate.bits
  | 0x043 => s.rs.bufPitch.bits
  | 0x044 => s.rs.pos
  | 0x045 => s.rs.inc.setWidth 64
  | _ => 0

/-- The value a read of a 12-bit word address returns (rules R50 to R52): below `0x100` the units' registers, from
there on the voice blocks of 32 addresses each, `0 ≤ i < N_OSC`. -/
def readRegister (s : State) (addr : BitVec 12) : Word64 :=
  if addr.toNat < 0x100 then unitRegister s addr.toNat
  else
    match s.voices[(addr.toNat - 0x100) / 0x20]? with
    | some v => voiceRegister v ((addr.toNat - 0x100) % 0x20)
    | none => 0

end Sys2Proof.Machine
end

