-- ==== Sys2Proof/Machine/Operands.lean ====
section
/-! DEFINITION. The operand kinds of 30_encoding.md rule R93, each with the check its rule names (60_exceptions.md
rule R391: `BAD_ARG`), and the check of the sample rate that rate-dependent commands make first (rule R395). -/

namespace Sys2Proof.Machine

/-- Kind `F`: a binary64 value; NaN and ±∞ raise `BAD_ARG` (00_scope.md rule R13). -/
def operandF (arg : Word64) : Except FaultCause F64 :=
  if (F64.mk arg).isFinite then .ok ⟨arg⟩ else .error .badArg

/-- Kind `U`: an unsigned 64-bit integer. -/
def operandU (arg : Word64) : Nat := arg.toNat

/-- Kind `S`: a signed two's-complement 64-bit integer. -/
def operandS (arg : Word64) : Int := arg.toInt

/-- Kind `FL`: the capability set in bits 6:0; a set bit above raises `BAD_ARG`. -/
def operandFL (arg : Word64) : Except FaultCause (BitVec 7) :=
  if arg.toNat / 2 ^ 7 = 0 then .ok (arg.extractLsb' 0 7) else .error .badArg

/-- Kind `WTW`: the table index in bits `16 + WT_BITS - 1 : 16` and the sample in bits 15:0; any other set bit raises
`BAD_ARG`. -/
def operandWTW (p : Params) (arg : Word64) : Except FaultCause (Nat × BitVec 16) :=
  if arg.toNat / 2 ^ (16 + p.wtBits) = 0 then .ok (arg.toNat / 2 ^ 16 % 2 ^ p.wtBits, arg.extractLsb' 0 16)
  else .error .badArg

/-- Kind `NONE`: the operand must be 0. -/
def operandNone (arg : Word64) : Except FaultCause Unit :=
  if arg = 0 then .ok () else .error .badArg

/-- The first check of a rate-dependent command: `SAMPLE_RATE = +0.0` raises `ZERO_SAMPLE_RATE` (10_state.md rule
R34, 60_exceptions.md rule R395). -/
def rateConfigured (s : State) : Except FaultCause Unit :=
  if s.sampleRate.eq F64.zero then .error .zeroSampleRate else .ok ()

/-- A check of an operand's domain. -/
def require (ok : Bool) (cause : FaultCause) : Except FaultCause Unit :=
  if ok then .ok () else .error cause

end Sys2Proof.Machine
end

