-- ==== Sys2Proof/Machine/Engine.lean ====
section
/-! DEFINITION. The engine commands `NOP` and `SET_SAMPLE_RATE` (47_engine.md rules R365, R366). -/

namespace Sys2Proof.Machine

/-- `NOP` (rule R365): nothing, but its operand must be 0. -/
def execNop (d : Bool) (arg : Word64) (s : State) : Result :=
  runCommand (.nop d arg) (fun s => do
    operandNone arg
    return s) s

/-- The inner rate of an output rate (10_state.md rule R36, 45_oversampler.md rule R300). -/
def innerRateOf (p : Params) (r : F64) : F64 := if p.oversample then r.mul (F64.ofNat p.ratio) else r

/-- A value is +∞. -/
def isPosInf (x : F64) : Bool := x.isInf && !x.sign

/-- `SET_SAMPLE_RATE` (rule R366): NaN and ±∞ are `BAD_ARG` before the sign is looked at (60_exceptions.md rule R395). -/
def execSetSampleRate (d : Bool) (arg : Word64) (s : State) : Result :=
  runCommand (.setSampleRate d arg) (fun s => do
    let r ← operandF arg
    require (F64.zero.lt r) .zeroSampleRate
    let ir := innerRateOf s.cfg r
    require (!isPosInf ir) .badArg
    return { s with sampleRate := r, innerRate := ir }) s

end Sys2Proof.Machine
end

