-- ==== Sys2Proof/Machine/Envelope.lean ====
section
/-! DEFINITION. The envelope generator: the commands of 42_envelope.md rules R210 to R218 and the step of rule R220.
Each voice owns one envelope; a command changes its own voice only. -/

namespace Sys2Proof.Machine

/-! ## Coefficients (rules R201 to R203) -/

/-- Recompute the attack coefficients (rule R201). -/
def recomputeAttack (e : Envelope) : Envelope :=
  let c := slopeCoef e.nA e.curveA
  { e with coefA := c, baseA := attackBase e.curveA c }

/-- Recompute the decay coefficients (rule R202). -/
def recomputeDecay (e : Envelope) : Envelope :=
  let c := slopeCoef e.nD e.curveD
  { e with coefD := c, baseD := decayBase e.sustain e.curveD c }

/-- Recompute the release coefficients (rule R203). -/
def recomputeRelease (e : Envelope) : Envelope :=
  let c := slopeCoef e.nR e.curveR
  { e with coefR := c, baseR := releaseBase e.curveR c }

/-- The stage length in inner samples of a time in seconds (rules R204, R212): a negative time and an overflowing count
are `BAD_ARG`. -/
def stageLength (s : State) (arg : Word64) : Except FaultCause F64 := do
  rateConfigured s
  let t ← operandF arg
  require (!t.lt F64.zero) .badArg
  let n := t.mul s.innerRate
  require (!isPosInf n) .badArg
  return n

/-- A curvature (rule R216): at least the smallest normal binary64 value. -/
def curvature (arg : Word64) : Except FaultCause F64 := do
  let c ← operandF arg
  require (F64.minNormal.le c) .badArg
  return c

/-! ## Commands -/

/-- `ENV_ON` (rule R210): to the attack stage, the value kept. -/
def execEnvOn (d : Bool) (v : BitVec 8) (arg : Word64) (s : State) : Result :=
  runVoice (.envOn d v arg) v (fun _ vo => do
    operandNone arg
    return { vo with env := { vo.env with state := .attack } }) s

/-- `ENV_OFF` (rule R211): to the release stage, but an idle envelope stays idle. -/
def execEnvOff (d : Bool) (v : BitVec 8) (arg : Word64) (s : State) : Result :=
  runVoice (.envOff d v arg) v (fun _ vo => do
    operandNone arg
    return (if vo.env.state = .idle then vo else { vo with env := { vo.env with state := .release } })) s

/-- `ENV_SET_ATTACK` (rule R212): the attack time in seconds. -/
def execEnvSetAttack (d : Bool) (v : BitVec 8) (arg : Word64) (s : State) : Result :=
  runVoice (.envSetAttack d v arg) v (fun s vo => do
    let n ← stageLength s arg
    return { vo with env := recomputeAttack { vo.env with nA := n } }) s

/-- `ENV_SET_DECAY` (rule R213): the decay time in seconds. -/
def execEnvSetDecay (d : Bool) (v : BitVec 8) (arg : Word64) (s : State) : Result :=
  runVoice (.envSetDecay d v arg) v (fun s vo => do
    let n ← stageLength s arg
    return { vo with env := recomputeDecay { vo.env with nD := n } }) s

/-- `ENV_SET_SUSTAIN` (rule R214): a level in `[0, 1]`; the decay coefficients follow it. -/
def execEnvSetSustain (d : Bool) (v : BitVec 8) (arg : Word64) (s : State) : Result :=
  runVoice (.envSetSustain d v arg) v (fun _ vo => do
    let level ← operandF arg
    require (F64.zero.le level && level.le F64.one) .badArg
    return { vo with env := recomputeDecay { vo.env with sustain := level } }) s

/-- `ENV_SET_RELEASE` (rule R215): the release time in seconds. -/
def execEnvSetRelease (d : Bool) (v : BitVec 8) (arg : Word64) (s : State) : Result :=
  runVoice (.envSetRelease d v arg) v (fun s vo => do
    let n ← stageLength s arg
    return { vo with env := recomputeRelease { vo.env with nR := n } }) s

/-- `ENV_SET_CURVE_ATTACK` (rule R216), from the stored stage length. -/
def execEnvSetCurveAttack (d : Bool) (v : BitVec 8) (arg : Word64) (s : State) : Result :=
  runVoice (.envSetCurveAttack d v arg) v (fun _ vo => do
    let c ← curvature arg
    return { vo with env := recomputeAttack { vo.env with curveA := c } }) s

/-- `ENV_SET_CURVE_DECAY` (rule R217), from the stored stage length. -/
def execEnvSetCurveDecay (d : Bool) (v : BitVec 8) (arg : Word64) (s : State) : Result :=
  runVoice (.envSetCurveDecay d v arg) v (fun _ vo => do
    let c ← curvature arg
    return { vo with env := recomputeDecay { vo.env with curveD := c } }) s

/-- `ENV_SET_CURVE_RELEASE` (rule R218), from the stored stage length. -/
def execEnvSetCurveRelease (d : Bool) (v : BitVec 8) (arg : Word64) (s : State) : Result :=
  runVoice (.envSetCurveRelease d v arg) v (fun _ vo => do
    let c ← curvature arg
    return { vo with env := recomputeRelease { vo.env with curveR := c } }) s

/-! ## The step (rule R220) -/

/-- `env_step` (rule R220), once per inner sample of a voice that is not muted; the value is the new `ENV_VALUE`.
The decay test is strict (90_conflicts.md C1). -/
def envStep (e : Envelope) : Envelope :=
  match e.state with
  | .idle => e
  | .attack =>
    let x := e.baseA.add (e.value.mul e.coefA)
    if F64.one.le x then { e with value := F64.one, state := .decay } else { e with value := x }
  | .decay =>
    let x := e.baseD.add (e.value.mul e.coefD)
    if x.lt e.sustain then { e with value := e.sustain, state := .sustain } else { e with value := x }
  | .sustain => { e with value := e.sustain }
  | .release =>
    let x := e.baseR.add (e.value.mul e.coefR)
    if x.le F64.zero then { e with value := F64.zero, state := .idle } else { e with value := x }

end Sys2Proof.Machine
end

