-- ==== Sys2Proof/Machine/FilterUnit.lean ====
section
/-! DEFINITION. The nonlinear resonant filter: the commands of 41_filter.md rules R180 to R184 and the per-sample
function of rules R173 to R178. -/

namespace Sys2Proof.Machine

/-! ## Commands: none writes a tap (rule R179) -/

/-- `FLT_SET_FC` (rule R180): the cutoff, clamped to `[0, 1]`, and the coefficients of rule R171. -/
def execFltSetFc (d : Bool) (arg : Word64) (s : State) : Result :=
  runCommand (.fltSetFc d arg) (fun s => do
    let x ← operandF arg
    let fc := x.clamp F64.zero F64.one
    return { s with filter := { s.filter with fc := fc, w := filterW s.cfg fc, off := filterOff s.cfg fc } }) s

/-- `FLT_SET_Q` (rule R181): the resonance, clamped to `[0, 1]`, and the coefficient of rule R172. -/
def execFltSetQ (d : Bool) (arg : Word64) (s : State) : Result :=
  runCommand (.fltSetQ d arg) (fun s => do
    let x ← operandF arg
    let q := x.clamp F64.zero F64.one
    return { s with filter := { s.filter with q := q, d := filterD s.cfg q } }) s

/-- `FLT_SET_GAIN_LP` (rule R182). -/
def execFltSetGainLp (d : Bool) (arg : Word64) (s : State) : Result :=
  runCommand (.fltSetGainLp d arg) (fun s => do
    let g ← operandF arg
    return { s with filter := { s.filter with gLp := g } }) s

/-- `FLT_SET_GAIN_BP` (rule R183). -/
def execFltSetGainBp (d : Bool) (arg : Word64) (s : State) : Result :=
  runCommand (.fltSetGainBp d arg) (fun s => do
    let g ← operandF arg
    return { s with filter := { s.filter with gBp := g } }) s

/-- `FLT_SET_GAIN_HP` (rule R184). -/
def execFltSetGainHp (d : Bool) (arg : Word64) (s : State) : Result :=
  runCommand (.fltSetGainHp d arg) (fun s => do
    let g ← operandF arg
    return { s with filter := { s.filter with gHp := g } }) s

/-! ## The per-sample function -/

/-- Soft clip (rule R174). -/
def softClip (p : Params) (v : F64) : F64 :=
  let a := v.abs
  if a.le p.vSat then v
  else
    let r := p.vSat.add (p.vHead.mul (fTanh ((a.sub p.vSat).div p.vHead)))
    if F64.zero.lt v then r else r.neg

/-- Distortion term (rule R175): `((DIST_K·W)·v)·(1 - F_exp(-(|v|/OFF)))`. -/
def distortion (p : Params) (f : Filter) (v : F64) : F64 :=
  ((p.distK.mul f.w).mul v).mul (F64.one.sub (fExp (v.abs.div f.off).neg))

/-- The tap recurrence, in exactly the order of rule R176. -/
def filterTaps (p : Params) (f : Filter) (vi : F64) : Filter :=
  let hp := (vi.sub f.lp).sub (f.d.mul f.bp)
  let bp := (f.bp.add (f.w.mul hp)).sub (distortion p f f.bp)
  let lp := (f.lp.add (f.w.mul bp)).sub (distortion p f f.lp)
  { f with hp := hp, bp := bp, lp := lp }

/-- The output (rule R177): the direct input and the gain-weighted taps, unmapped. -/
def filterOut (p : Params) (f : Filter) (vd : F64) : F64 :=
  (((vd.add (f.gLp.mul f.lp)).add (f.gBp.mul f.bp)).add (f.gHp.mul f.hp)).div p.vScale

/-- `filter_sample` (rule R178), or the function an instance has in its place (`FILTER_STEP`). -/
def filterSample (p : Params) (f : Filter) (direct filtered : F64) : F64 × Filter :=
  match p.filterStep with
  | .spec =>
    let vd := softClip p (p.vScale.mul direct)
    let vi := softClip p (p.vScale.mul filtered)
    let f' := filterTaps p f vi
    (filterOut p f' vd, f')
  | .custom =>
    let (lp, bp, hp, y) := Config.filterStep p f direct filtered
    (y, { f with lp := lp, bp := bp, hp := hp })

end Sys2Proof.Machine
end

