-- ==== Sys2Proof/Machine/Oscillator.lean ====
section
/-! DEFINITION. The oscillator bank: the commands of 40_oscillator.md rules R120 to R125 and the per-inner-sample
operation of rules R130 to R145. -/

namespace Sys2Proof.Machine

/-! ## Capability set (10_state.md rule R41) -/

def flagSaw (f : BitVec 7) : Bool := f.getLsbD 0
def flagSquare (f : BitVec 7) : Bool := f.getLsbD 1
def flagTriangle (f : BitVec 7) : Bool := f.getLsbD 2
def flagNoise (f : BitVec 7) : Bool := f.getLsbD 3
def flagWavetable (f : BitVec 7) : Bool := f.getLsbD 4
def flagSync (f : BitVec 7) : Bool := f.getLsbD 5
def flagMute (f : BitVec 7) : Bool := f.getLsbD 6

/-! ## Commands -/

/-- 2^28 = `PERIOD` as a binary64 value. -/
def periodF : F64 := F64.ofNat (2 ^ 28)

/-- The increment of a frequency at an inner rate (rule R120): `floor((hz·2^28)/INNER_RATE)`, saturated at
`2^28 - 1`. -/
def incrementOf (hz innerRate : F64) : BitVec 28 :=
  let q := (hz.mul periodF).div innerRate
  if (F64.ofNat (2 ^ 28 - 1)).le q then BitVec.ofNat 28 (2 ^ 28 - 1) else BitVec.ofInt 28 q.floorInt

/-- `OSC_SET_HZ` (rule R120). -/
def execOscSetHz (d : Bool) (v : BitVec 8) (arg : Word64) (s : State) : Result :=
  runVoice (.oscSetHz d v arg) v (fun s vo => do
    rateConfigured s
    let hz ← operandF arg
    require (!hz.lt F64.zero) .badArg
    return { vo with inc := incrementOf hz s.innerRate }) s

/-- The phase shift of a value in `[-1, 1]` (rule R121): `trunc(x·2^28)`. -/
def shiftOf (x : F64) : BitVec 30 :=
  BitVec.ofInt 30 ((x.clamp F64.one.neg F64.one).mul periodF).truncInt

/-- `OSC_SET_SHIFT` (rule R121). -/
def execOscSetShift (d : Bool) (v : BitVec 8) (arg : Word64) (s : State) : Result :=
  runVoice (.oscSetShift d v arg) v (fun _ vo => do
    let x ← operandF arg
    return { vo with shift := shiftOf x }) s

/-- `OSC_SET_FLAGS` (rule R122). -/
def execOscSetFlags (d : Bool) (v : BitVec 8) (arg : Word64) (s : State) : Result :=
  runVoice (.oscSetFlags d v arg) v (fun _ vo => do
    let f ← operandFL arg
    return { vo with flags := f }) s

/-- `OSC_SET_GAIN_DIRECT` (rule R123). -/
def execOscSetGainDirect (d : Bool) (v : BitVec 8) (arg : Word64) (s : State) : Result :=
  runVoice (.oscSetGainDirect d v arg) v (fun _ vo => do
    let g ← operandF arg
    return { vo with gDirect := g }) s

/-- `OSC_SET_GAIN_FILTER` (rule R124). -/
def execOscSetGainFilter (d : Bool) (v : BitVec 8) (arg : Word64) (s : State) : Result :=
  runVoice (.oscSetGainFilter d v arg) v (fun _ vo => do
    let g ← operandF arg
    return { vo with gFilter := g }) s

/-- `OSC_WT_WRITE` (rule R125): one entry of the voice's wavetable. -/
def execOscWtWrite (d : Bool) (v : BitVec 8) (arg : Word64) (s : State) : Result :=
  runVoice (.oscWtWrite d v arg) v (fun s vo => do
    let (j, sample) ← operandWTW s.cfg arg
    return { vo with wt := vo.wt.set j sample }) s

/-! ## Per-inner-sample operation -/

/-- Zero the phase of voice `i` (rule R130). -/
def zeroPhase (vs : List Voice) (i : Nat) : List Voice :=
  match vs[i]? with
  | some v => vs.set i { v with phase := 0 }
  | none => vs

/-- Voice `i` is a hard-sync slave. -/
def isSlave (vs : List Voice) (i : Nat) : Bool :=
  match vs[i]? with
  | some v => flagSync v.flags
  | none => false

/-- One turn of the sync pass (rule R130): voice `i` tests its predecessor, whose latch is always updated. -/
def syncVoice (vs : List Voice) (i : Nat) : List Voice :=
  let m := (i + vs.length - 1) % vs.length
  match vs[m]? with
  | none => vs
  | some master =>
    let cur := master.phase.getLsbD 27
    let edge := cur && !master.latch
    let vs' := vs.set m { master with latch := cur }
    if edge && isSlave vs i then zeroPhase vs' i else vs'

/-- `sync_pass()` (rule R130), strictly in array order. -/
def syncPass (vs : List Voice) : List Voice := (List.range vs.length).foldl syncVoice vs

/-- The shifted phase (rule R132): offset and clamped, not wrapped. -/
def shiftedPhase (phase : BitVec 28) (shift : BitVec 30) : BitVec 28 :=
  BitVec.ofInt 28 (min (max ((phase.toNat : Int) + shift.toInt) 0) (2 ^ 28 - 1))

/-- Square (rule R134). -/
def waveSquare (p : BitVec 28) : BitVec 28 := if p.getLsbD 27 then 0 else BitVec.allOnes 28

/-- Triangle (rule R137). -/
def waveTriangle (p : BitVec 28) : BitVec 28 :=
  (p ^^^ (if p.getLsbD 27 then BitVec.ofNat 28 (2 ^ 27 - 1) else 0)) <<< 1

/-- The LFSR step (rule R135): feedback from bits 22 and 17 into bit 0. -/
def lfsrStep (s : BitVec 23) : BitVec 23 :=
  (s <<< 1) ||| (BitVec.ofBool (s.getLsbD 22 ^^ s.getLsbD 17)).setWidth 23

/-- The noise clock (rule R135): a step when bit 23 of the phase rises and `NOISE` is set. -/
def noiseClock (flags : BitVec 7) (old new : BitVec 28) (lfsr : BitVec 23) : BitVec 23 :=
  if flagNoise flags && !old.getLsbD 23 && new.getLsbD 23 then lfsrStep lfsr else lfsr

/-- Noise (rule R136): the register in bits 27:5. -/
def waveNoise (lfsr : BitVec 23) : BitVec 28 := (lfsr.setWidth 28) <<< 5

/-- Wavetable (rule R138): the entry at the high phase bits, offset to unsigned, in bits 27:12. -/
def waveTable (wtBits : Nat) (wt : List (BitVec 16)) (p : BitVec 28) : BitVec 28 :=
  BitVec.ofInt 28 (((wt.getD (p.toNat >>> (28 - wtBits)) 0).toInt + 2 ^ 15) * 2 ^ 12)

/-- The waveforms active in a capability set, at shifted phase `p` with the noise register `lfsr`. -/
def activeWaves (wtBits : Nat) (flags : BitVec 7) (wt : List (BitVec 16)) (lfsr : BitVec 23) (p : BitVec 28) :
    List (BitVec 28) :=
  (if flagSaw flags then [p] else []) ++ (if flagSquare flags then [waveSquare p] else []) ++
    (if flagTriangle flags then [waveTriangle p] else []) ++ (if flagNoise flags then [waveNoise lfsr] else []) ++
    (if flagWavetable flags then [waveTable wtBits wt p] else [])

/-- The code (rule R139): the AND of the active waveforms; the empty set gives the mid code. -/
def codeOf (waves : List (BitVec 28)) : BitVec 28 :=
  if waves.isEmpty then BitVec.ofNat 28 (2 ^ 27) else waves.foldl (· &&& ·) (BitVec.allOnes 28)

/-- Scaling (rule R140): `code·2^-28 - 0.5`. -/
def scaleCode (code : BitVec 28) : F64 := ((F64.ofNat code.toNat).mul F64.twoPowNeg28).sub F64.half

/-- The phase and noise register of a voice after the advance and the noise clock (rules R131, R135). -/
def advancePhase (v : Voice) : Voice :=
  let phase := v.phase + v.inc
  { v with phase := phase, lfsr := noiseClock v.flags v.phase phase v.lfsr }

/-- The unscaled code of a voice that has advanced (rules R132 to R139). -/
def voiceCode (wtBits : Nat) (v : Voice) : BitVec 28 :=
  codeOf (activeWaves wtBits v.flags v.wt v.lfsr (shiftedPhase v.phase v.shift))

/-- `osc_sample` (rule R143): a muted voice gives `+0.0` and its envelope does not step (rule R141). -/
def oscSample (wtBits : Nat) (v : Voice) : F64 × Voice :=
  let v1 := advancePhase v
  let x := scaleCode (voiceCode wtBits v1)
  if flagMute v1.flags then (F64.zero, v1)
  else
    let e := envStep v1.env
    (x.mul e.value, { v1 with env := e })

/-- The mix (rule R144): the direct and the filtered sum, in index order. -/
def mixVoices (outs : List (F64 × Voice)) : F64 × F64 :=
  outs.foldl (fun acc o => (acc.1.add (o.1.mul o.2.gDirect), acc.2.add (o.1.mul o.2.gFilter))) (F64.zero, F64.zero)

/-- `bank_sample()` (rule R145): the sync pass, every voice's sample, the mix, the filter. -/
def bankSample (s : State) : F64 × State :=
  let outs := (syncPass s.voices).map (oscSample s.cfg.wtBits)
  let sums := mixVoices outs
  let (y, f) := filterSample s.cfg s.filter sums.1 sums.2
  (y, { s with voices := outs.map Prod.snd, filter := f })

end Sys2Proof.Machine
end

