-- ==== Sys2Proof/Machine/ResamplerUnit.lean ====
section
/-! DEFINITION. The polyphase resampler: the commands of 44_resampler.md rules R271 to R276 and the per-inner-sample
operation of rules R277, R278. -/

namespace Sys2Proof.Machine

/-! ## Commands -/

/-- `RS_SET_BUF_BASE` (rule R271), the check in mathematical integers.  With no frame bound the accepted operand may be
`2^SAMPLE_ADDR_BITS`; then the bit above those of `RS_BASE` holds it, so that `rsBase` is the operand (log entry 14). -/
def execRsSetBufBase (d : Bool) (arg : Word64) (s : State) : Result :=
  runCommand (.rsSetBufBase d arg) (fun s => do
    require (decide (operandU arg + s.rs.frames.toNat * s.cfg.channels ≤ 2 ^ s.cfg.sampleAddrBits)) .badBuffer
    return { s with rs := { s.rs with
      base := BitVec.ofNat 64 (operandU arg % 2 ^ s.cfg.sampleAddrBits)
      baseTop := decide (2 ^ s.cfg.sampleAddrBits ≤ operandU arg) } }) s

/-- `RS_SET_BUF_FRAMES` (rule R272): the count fits the cursor's range and the buffer fits sample memory. -/
def execRsSetBufFrames (d : Bool) (arg : Word64) (s : State) : Result :=
  runCommand (.rsSetBufFrames d arg) (fun s => do
    require (decide (operandU arg + s.cfg.half ≤ 2 ^ 31 - 1)) .badBuffer
    require (decide (rsBase s.cfg s.rs + operandU arg * s.cfg.channels ≤ 2 ^ s.cfg.sampleAddrBits)) .badBuffer
    return { s with rs := { s.rs with frames := BitVec.ofNat 32 (operandU arg) } }) s

/-- `RS_SET_BUF_RATE` (rule R273). -/
def execRsSetBufRate (d : Bool) (arg : Word64) (s : State) : Result :=
  runCommand (.rsSetBufRate d arg) (fun s => do
    let r ← operandF arg
    require (F64.zero.lt r) .badBuffer
    return { s with rs := { s.rs with bufRate := r } }) s

/-- `RS_SET_BUF_PITCH` (rule R274). -/
def execRsSetBufPitch (d : Bool) (arg : Word64) (s : State) : Result :=
  runCommand (.rsSetBufPitch d arg) (fun s => do
    let p ← operandF arg
    require (F64.zero.lt p) .badBuffer
    return { s with rs := { s.rs with bufPitch := p } }) s

/-- The cursor increment (rule R275): `floor((hz/pitch)·(bufRate/INNER_RATE)·2^32)`, saturated at `2^63 - 1`; 0 for
`hz = 0`, also when the rate quotient overflows and the product is a NaN.  For any other `hz` whose product is a NaN no
value is stated, and the increment is free (log entry 5). -/
def cursorIncrement (hz pitch bufRate innerRate : F64) : BitVec 63 :=
  let a := hz.div pitch
  let b := bufRate.div innerRate
  let q := (a.mul b).mul (F64.ofNat (2 ^ 32))
  if hz.eq F64.zero then 0
  else if (F64.ofNat (2 ^ 63)).le q then BitVec.ofNat 63 (2 ^ 63 - 1)
  else BitVec.ofInt 63 q.floorInt

/-- `RS_SET_HZ` (rule R275). -/
def execRsSetHz (d : Bool) (arg : Word64) (s : State) : Result :=
  runCommand (.rsSetHz d arg) (fun s => do
    rateConfigured s
    let hz ← operandF arg
    require (!hz.lt F64.zero) .badArg
    require (!(s.rs.bufPitch.eq F64.zero || s.rs.bufRate.eq F64.zero)) .badBuffer
    return { s with rs := { s.rs with inc := cursorIncrement hz s.rs.bufPitch s.rs.bufRate s.innerRate } }) s

/-- `RS_SET_POS` (rule R276): any raw Q31.32 position. -/
def execRsSetPos (d : Bool) (arg : Word64) (s : State) : Result :=
  runCommand (.rsSetPos d arg) (fun s => do
    return { s with rs := { s.rs with pos := BitVec.ofInt 64 (operandS arg) } }) s

/-! ## Per-inner-sample operation -/

/-- The kernel variant of an increment (rule R277), in exact integer arithmetic. -/
def variantOf (inc : BitVec 63) : Fin 3 :=
  if 3 * inc.toNat < 2 ^ 34 then 0 else if inc.toNat < 2 ^ 33 then 1 else 2

/-- The cursor's frame index and fraction (rule R270). -/
def cursorIndex (pos : BitVec 64) : Int := pos.toInt / 2 ^ 32
def cursorFraction (pos : BitVec 64) : Nat := pos.toNat % 2 ^ 32

/-- The cursor advance (rule R278): `sat64s(RS_POS + RS_INC)`. -/
def advanceCursor (rs : Resampler) : Resampler :=
  { rs with pos := BitVec.ofInt 64 (min (max (rs.pos.toInt + rs.inc.toNat) (-2 ^ 63)) (2 ^ 63 - 1)) }

/-- The kernel row for the cursor's phase and the increment's variant (rules R245, R277, R278). -/
def kernelRow (s : State) : Except Fault (List F64) :=
  match lookup s.slots (psincKey s.cfg (variantOf s.rs.inc)) with
  | none => .error .tableMissing
  | some table =>
    let ph := cursorFraction s.rs.pos / 2 ^ (32 - s.cfg.phaseBits)
    .ok ((table.drop (ph * (2 * s.cfg.half))).take (2 * s.cfg.half))

/-- One tap of one channel (rule R278): a frame outside the buffer counts as `+0.0` and is not read. -/
def rsTap (c : Nat) (row : List F64) (acc : F64 × State) (k : Nat) : Except Fault (F64 × State) :=
  let s := acc.2
  let j := cursorIndex s.rs.pos - s.cfg.half + 1 + k
  let weight := row.getD k F64.zero
  if 0 ≤ j ∧ j < s.rs.frames.toNat then do
    let (x, s') ← sampleRead (rsBase s.cfg s.rs + j.toNat * s.cfg.channels + c) s
    return (acc.1.add (weight.mul x), s')
  else return (acc.1.add (weight.mul F64.zero), s)

/-- One channel of the frame (rule R278). -/
def rsChannel (row : List F64) (acc : List F64 × State) (c : Nat) : Except Fault (List F64 × State) := do
  let (y, s') ← (List.range (2 * acc.2.cfg.half)).foldlM (rsTap c row) (F64.zero, acc.2)
  return (acc.1 ++ [y], s')

/-- The cursor is outside the buffer and its guard band (rule R278). -/
def outsideGuard (s : State) : Bool :=
  decide (cursorIndex s.rs.pos < -(s.cfg.guard : Int) ∨
    (s.rs.frames.toNat + s.cfg.guard : Int) ≤ cursorIndex s.rs.pos)

/-- `rs_sample()` (rule R278): the frame, and the cursor advanced. -/
def rsSample (s : State) : Except Fault (List F64 × State) :=
  if outsideGuard s then
    return (List.replicate s.cfg.channels F64.zero, { s with rs := advanceCursor s.rs })
  else do
    let row ← kernelRow s
    let (out, s') ← (List.range s.cfg.channels).foldlM (rsChannel row) ([], s)
    return (out, { s' with rs := advanceCursor s'.rs })

end Sys2Proof.Machine
end

