-- ==== Sys2Proof/Machine/Scheduler.lean ====
section
/-! DEFINITION. The scheduler's commands `EV_SET_TICK`, `HOST_CALLBACK` and `CB_ACK` (46_scheduler.md rules R321, R326,
R327).  The heap itself is in `Sys2Proof/Machine/Ops.lean`, the dispatch loop in `Sys2Proof/Machine/Tick.lean`. -/

namespace Sys2Proof.Machine

/-- `EV_SET_TICK` (rule R321). -/
def execEvSetTick (arg : Word64) (s : State) : Result :=
  runCommand (.evSetTick arg) (fun s => do
    return { s with evTick := arg }) s

/-- `HOST_CALLBACK` (rule R326): callbacks do not nest. -/
def execHostCallback (d : Bool) (arg : Word64) (s : State) : Result :=
  runCommand (.hostCallback d arg) (fun s => do
    require (!s.cbPending) .callbackState
    return { s with cbId := arg, cbPending := true }) s

/-- `CB_ACK` (rule R327): the pending callback is over.  With `IN_TICK = 1` and nothing pending the engine is due to
resume the suspended tick, which it does before the host's next action (`Sys2Proof.Machine.engineDue`). -/
def execCbAck (arg : Word64) (s : State) : Result :=
  runCommand (.cbAck arg) (fun s => do
    operandNone arg
    require s.cbPending .callbackState
    return { s with cbPending := false }) s

end Sys2Proof.Machine
end

