-- ==== Sys2Proof/Machine/Dispatch.lean ====
section
/-! DEFINITION. One arm per command: the meaning each command runs (30_encoding.md rule R94). -/

namespace Sys2Proof.Machine

def exec (i : Instr) (s : State) : Host.Outcome State Fault Refusal :=
  match i with
  | .nop d arg => Sys2Proof.Machine.execNop d arg s
  | .setSampleRate d arg => Sys2Proof.Machine.execSetSampleRate d arg s
  | .oscSetHz d v arg => Sys2Proof.Machine.execOscSetHz d v arg s
  | .oscSetShift d v arg => Sys2Proof.Machine.execOscSetShift d v arg s
  | .oscSetFlags d v arg => Sys2Proof.Machine.execOscSetFlags d v arg s
  | .oscSetGainDirect d v arg => Sys2Proof.Machine.execOscSetGainDirect d v arg s
  | .oscSetGainFilter d v arg => Sys2Proof.Machine.execOscSetGainFilter d v arg s
  | .oscWtWrite d v arg => Sys2Proof.Machine.execOscWtWrite d v arg s
  | .envOn d v arg => Sys2Proof.Machine.execEnvOn d v arg s
  | .envOff d v arg => Sys2Proof.Machine.execEnvOff d v arg s
  | .envSetAttack d v arg => Sys2Proof.Machine.execEnvSetAttack d v arg s
  | .envSetDecay d v arg => Sys2Proof.Machine.execEnvSetDecay d v arg s
  | .envSetSustain d v arg => Sys2Proof.Machine.execEnvSetSustain d v arg s
  | .envSetRelease d v arg => Sys2Proof.Machine.execEnvSetRelease d v arg s
  | .envSetCurveAttack d v arg => Sys2Proof.Machine.execEnvSetCurveAttack d v arg s
  | .envSetCurveDecay d v arg => Sys2Proof.Machine.execEnvSetCurveDecay d v arg s
  | .envSetCurveRelease d v arg => Sys2Proof.Machine.execEnvSetCurveRelease d v arg s
  | .fltSetFc d arg => Sys2Proof.Machine.execFltSetFc d arg s
  | .fltSetQ d arg => Sys2Proof.Machine.execFltSetQ d arg s
  | .fltSetGainLp d arg => Sys2Proof.Machine.execFltSetGainLp d arg s
  | .fltSetGainBp d arg => Sys2Proof.Machine.execFltSetGainBp d arg s
  | .fltSetGainHp d arg => Sys2Proof.Machine.execFltSetGainHp d arg s
  | .rsSetBufBase d arg => Sys2Proof.Machine.execRsSetBufBase d arg s
  | .rsSetBufFrames d arg => Sys2Proof.Machine.execRsSetBufFrames d arg s
  | .rsSetBufRate d arg => Sys2Proof.Machine.execRsSetBufRate d arg s
  | .rsSetBufPitch d arg => Sys2Proof.Machine.execRsSetBufPitch d arg s
  | .rsSetHz d arg => Sys2Proof.Machine.execRsSetHz d arg s
  | .rsSetPos d arg => Sys2Proof.Machine.execRsSetPos d arg s
  | .evSetTick arg => Sys2Proof.Machine.execEvSetTick arg s
  | .hostCallback d arg => Sys2Proof.Machine.execHostCallback d arg s
  | .cbAck arg => Sys2Proof.Machine.execCbAck arg s

end Sys2Proof.Machine
end

