-- ==== Sys2Proof/Machine/Oversampler.lean ====
section
/-! DEFINITION. The inner frame (47_engine.md rule R362) and the FIR oversampler around it (45_oversampler.md rules R301
to R303). -/

namespace Sys2Proof.Machine

/-- `inner_frame()` (47_engine.md rule R362): the bank's value to every channel, plus the resampler's value of the
channel; an absent source does not step. -/
def innerFrame (s : State) : Except Fault (List F64 × State) := do
  let (acc, s1) :=
    if s.cfg.srcOsc then
      let (y, s1) := bankSample s
      (List.replicate s.cfg.channels (F64.zero.add y), s1)
    else (List.replicate s.cfg.channels F64.zero, s)
  if s1.cfg.srcRs then
    let (r, s2) ← rsSample s1
    return (List.zipWith F64.add acc r, s2)
  else return (acc, s1)

/-- `push(s)` on one channel (rule R301): the oldest value leaves, the new one is last. -/
def pushValue (w : List F64) (x : F64) : List F64 := w.drop 1 ++ [x]

/-- `push(s)` (rule R301). -/
def pushFrame (frame : List F64) (s : State) : State := { s with osw := List.zipWith pushValue s.osw frame }

/-- One product of the decimation sum: the stored tap of offset `n` weights window element `k`. -/
def firProduct (ratio : Nat) (table w : List F64) (acc : F64) (n k : Nat) : F64 :=
  acc.add ((table.getD (firIdx ratio n) F64.zero).mul (w.getD k F64.zero))

/-- `fir_out` (rule R302): the older half outermost first, the centre, the newer half innermost first. -/
def firOut (ratio zc : Nat) (table w : List F64) : F64 :=
  let c := ratio * zc
  let older := (firOffsets ratio zc).reverse.foldl (fun acc n => firProduct ratio table w acc n (c - n)) F64.zero
  let centre := firProduct ratio table w older 0 c
  (firOffsets ratio zc).foldl (fun acc n => firProduct ratio table w acc n (c + n)) centre

/-- `RATIO` inner frames produced and pushed (rule R303). -/
def pullInner : Nat → State → Except Fault State
  | 0, s => return s
  | n + 1, s => do
    let (frame, s') ← innerFrame s
    pullInner n (pushFrame frame s')

/-- `os_frame()` (rule R303). -/
def osFrame (s : State) : Except Fault (List F64 × State) :=
  match lookup s.slots (firKey s.cfg) with
  | none => .error .tableMissing
  | some table => do
    let s' ← pullInner s.cfg.ratio s
    return (s'.osw.map (firOut s'.cfg.ratio s'.cfg.zc table), s')

end Sys2Proof.Machine
end

