-- ==== Sys2Proof/Machine/Tick.lean ====
section
/-! DEFINITION. The engine: executing a packet's command, the dispatch loop and the tick (46_scheduler.md rules R324,
R325; 47_engine.md rule R361). -/

namespace Sys2Proof.Machine

/-- The cause a packet that is no command raises (30_encoding.md rules R95, R96). -/
def decodeCause : DecodeError → FaultCause
  | .illegalCommand => .illegalCommand
  | .badIndex => .badIndex
  | .incomplete => .illegalCommand

/-- Execute the packet `(hdr, arg)` (30_encoding.md rule R96): the decoded command, or the fault its header raises. -/
def execPacket (hdr : BitVec 32) (arg : Word64) (s : State) : Result :=
  match decodePacket hdr arg with
  | .ok i => exec i s
  | .error e => raiseFault (decodeCause e) hdr arg s

/-- An event is due: `HEAP_COUNT > 0` and `HEAP[0].t ≤ TICK` (46_scheduler.md rule R324). -/
def eventDue (s : State) : Bool :=
  match s.heap with
  | [] => false
  | e :: _ => decide (e.t.toNat ≤ s.tick.toNat)

/-- `dispatch()` (46_scheduler.md rule R324): pop and execute events while one is due.  It stops early when an event
faults (60_exceptions.md rule R393) or raises a host callback, which suspends the tick.  An executed event inserts
none (rule R325), so `HEAP_COUNT` turns are enough. -/
def dispatch : Nat → State → Result
  | 0, s => .next s
  | fuel + 1, s =>
    if eventDue s then
      match popEvent s with
      | none => .next s
      | some (e, s1) =>
        match execPacket e.hdr e.arg s1 with
        | .next s2 => if s2.faulted || s2.cbPending then .next s2 else dispatch fuel s2
        | .fault r => .fault r
        | .refused r => .refused r
    else .next s

/-- The frame of a tick (47_engine.md rule R361). -/
def tickFrame (s : State) : Except Fault (List F64 × State) :=
  if s.cfg.oversample then osFrame s else innerFrame s

/-- The end of a tick (47_engine.md rules R361, R363): `TICK` advances, the pull completes with the frame. -/
def completeTick (s : State) : Result :=
  match tickFrame s with
  | .ok (frame, s') =>
    .next { s' with tick := s'.tick + 1, inTick := false, pull := false, reply := .frame frame }
  | .error r => .fault r

/-- The tick from its dispatch loop on (47_engine.md rule R361; 46_scheduler.md rule R327 resumes here): the due events,
then, unless one of them faulted or suspended the tick, the frame. -/
def continueTick (s : State) : Result :=
  match dispatch s.heap.length s with
  | .next s1 => if s1.faulted || s1.cbPending then .next s1 else completeTick s1
  | .fault r => .fault r
  | .refused r => .refused r

/-- `tick()` (47_engine.md rule R361), from its start. -/
def startTick (s : State) : Result :=
  if s.sampleRate.eq F64.zero then raiseFault .zeroSampleRate 0 0 s
  else continueTick { s with inTick := true }

/-- The engine acts next: a pull is outstanding and neither held nor suspended by a pending callback, the block is not
faulted and its tables are ready (47_engine.md rules R360, R361, R363).  The engine goes before the host's next action,
so that no host action falls inside a tick (20_memory.md rule R79). -/
def engineDue (s : State) : Bool := s.pull && !s.cbPending && !s.faulted && s.tablesReady

/-- The engine's action: start the tick of the outstanding pull, or resume the suspended one. -/
def engineAct (s : State) : Result := if s.inTick then continueTick s else startTick s

end Sys2Proof.Machine
end

