-- ==== Sys2Proof/Machine/HostPort.lean ====
section
/-! DEFINITION. The host's side: receiving command packets (20_memory.md rule R71, 60_exceptions.md rule R394), register
reads (rule R72), pulls (47_engine.md rule R363), reset and writes to sample memory; and which action comes next. -/

namespace Sys2Proof.Machine

/-- A whole packet has arrived: it executes, but a faulted block ignores it (60_exceptions.md rule R394). -/
def receivePacket (hdr : BitVec 32) (arg : Word64) (s : State) : Result :=
  if s.faulted then .next s else execPacket hdr arg s

/-- A pull (47_engine.md rule R363): refused at once when the block is faulted or its tables are not ready; otherwise it
is outstanding, held while a callback is pending.  A second one is not an enabled host action. -/
def receivePull (s : State) : Result :=
  if s.faulted || !s.tablesReady then .next { s with reply := .pullRefused }
  else if s.pull then .refused .secondPull
  else .next { s with pull := true }

/-- One action of the host (47_engine.md rule R360), or its write of one word of sample memory, ordered with its actions
(20_memory.md rule R80, log entry 25). -/
def hostAct (a : HostAction) (s : State) : Result :=
  match a with
  | .byte b => .next { s with port := s.port ++ [b] }
  | .read addr => .next { s with reply := .value (readRegister s addr) }
  | .pull => receivePull s
  | .reset => .next (resetBlock s)
  | .writeSample addr value => sampleWrite addr value s

/-- The machine's next action (20_memory.md rule R79, one total order): the engine's tick if one is due; else the
packet at the command port, if all its 12 bytes have arrived; else the host's next action; else nothing, since "the
engine never acts on its own" (47_engine.md rule R360).  A host write of sample memory, also the decoder's, is taken as
one more action of that order, so that none falls inside a running tick; rule R79 does not name such writes, and this is
the model's choice (DESIGN CHOICE, log entry 25). -/
def nextAction (s : State) : Result :=
  if engineDue s then engineAct s
  else
    match takePacket s.port with
    | some (hdr, arg, rest) => receivePacket hdr arg { s with port := rest }
    | none =>
      match s.inbox with
      | [] => .next s
      | a :: rest => hostAct a { s with inbox := rest }

/-- The state with a table word's packet at the front of the command port and nothing that would keep the next step from
executing it: no tick due and no fault state, both of which rules R361 and R394 put before a received packet. -/
def withPacketNext (s : State) (bytes : List Byte) : State :=
  { s with
    port := bytes ++ s.port
    faulted := false
    pull := s.pull && s.cbPending
    inTick := s.inTick && s.cbPending }

end Sys2Proof.Machine
end

