-- ==== Sys2Proof/Machine/Step.lean ====
section
/-! DEFINITION. One step: one action of the engine or of the host (47_engine.md rule R360). -/

namespace Sys2Proof.Machine

/-- One action of the block or of its host. -/
def step (s : State) : Host.Outcome State Fault Refusal := nextAction s

/-- The state whose next step executes the packet numbered `w` in spec/opcode_table.json. -/
def State.withFetchWord (s : State) (nbits w : Nat) : State := withPacketNext s (tableBytes nbits w)

end Sys2Proof.Machine
end

