-- ==== Sys2Proof/Safety.lean ====
section
/-! DEFINITION. What the claims speak of: a legal instance (00_scope.md rules R6, R170), the order of the event heap
(10_state.md rule R49), the invariant of the machine, and a safe step. -/

namespace Sys2Proof.Machine

/-! ## Legal instances -/

/-- The integer parameters of 00_scope.md rule R6 are in their ranges, and a source feeds the output. -/
abbrev paramsCounted (p : Params) : Prop :=
  (1 ≤ p.nOsc ∧ p.nOsc ≤ 64) ∧ (1 ≤ p.channels ∧ p.channels ≤ 8) ∧ (p.srcOsc = true ∨ p.srcRs = true) ∧
  (1 ≤ p.ratio ∧ p.ratio ≤ 16) ∧ (1 ≤ p.zc ∧ p.zc ≤ 64) ∧ p.phaseBits ≤ 12 ∧ (1 ≤ p.half ∧ p.half ≤ 32) ∧
  (1 ≤ p.wtBits ∧ p.wtBits ≤ 12) ∧ (1 ≤ p.heapCap ∧ p.heapCap < 2 ^ 32) ∧
  (1 ≤ p.cacheSlots ∧ p.cacheSlots ≤ 255) ∧ (1 ≤ p.sampleAddrBits ∧ p.sampleAddrBits ≤ 48)

/-- A kernel scale factor is finite and in `(0, 1]` (rule R6). -/
abbrev scaleLegal (x : F64) : Prop := x.isFinite = true ∧ F64.zero.lt x = true ∧ x.le F64.one = true

/-- The binary64 parameters of rules R6 and R170 are in their ranges. -/
abbrev paramsReal (p : Params) : Prop :=
  betaInRange p.betaFir = true ∧ betaInRange p.betaRs = true ∧
  scaleLegal p.rsScale0 ∧ scaleLegal p.rsScale1 ∧ scaleLegal p.rsScale2 ∧
  (∀ x ∈ [p.vScale, p.vSat, p.vHead, p.wMin, p.wMax, p.dMax, p.dMin, p.distK, p.offLo, p.offHi],
    x.isFinite = true) ∧
  F64.zero.lt p.vScale = true ∧ F64.zero.lt p.vSat = true ∧ F64.zero.lt p.vHead = true ∧
  F64.zero.lt p.wMin = true ∧ p.wMin.le p.wMax = true ∧ p.dMin.le p.dMax = true ∧
  F64.zero.le p.distK = true ∧ F64.zero.lt p.offLo = true ∧ p.offLo.le p.offHi = true

/-- A legal instance (rules R6, R170). -/
abbrev paramsLegal (p : Params) : Prop := paramsCounted p ∧ paramsReal p

/-! ## The event heap -/

/-- "parent always ≤ children" (10_state.md rule R49). -/
abbrev HeapOrdered (h : List Event) : Prop :=
  ∀ k, k < h.length → 0 < k → tickAt h ((k - 1) / 2) ≤ tickAt h k

/-- The events that shifting a heap until it is empty returns, in order (46_scheduler.md rule R332). -/
def shiftAll : Nat → List Event → List Event
  | 0, _ => []
  | fuel + 1, h =>
    match heapShift h with
    | none => []
    | some (e, rest) => e :: shiftAll fuel rest

/-- The heap that is left after shifting `n` times (rule R332). -/
def shiftTimes : Nat → List Event → List Event
  | 0, h => h
  | n + 1, h =>
    match heapShift h with
    | none => []
    | some (_, rest) => shiftTimes n rest

/-- An event's header passed the checks of 30_encoding.md rule R96 when it was inserted, and it is stored with `D = 0`
(46_scheduler.md rules R322, R325). -/
def eventChecked (nOsc : Nat) (e : Event) : Prop :=
  ∃ i, decodePacket e.hdr e.arg = .ok i ∧ i.deferred = false ∧ i.wellFormed nOsc = true

/-- The state after the first `k` events of a dispatch loop (46_scheduler.md rule R324) from `s`: each was due, was popped
and executed, and neither faulted nor raised a callback; `none` if there are no such `k` events. -/
def firedEvents : Nat → State → Option State
  | 0, s => some s
  | k + 1, s =>
    match firedEvents k s with
    | none => none
    | some a =>
      if eventDue a then
        match popEvent a with
        | none => none
        | some (e, s1) =>
          match execPacket e.hdr e.arg s1 with
          | .next u => if u.faulted || u.cbPending then none else some u
          | _ => none
      else none

/-! ## The frame of a tick -/

/-- `n` inner frames (47_engine.md rule R362) are produced one after the other from `s`, and each is pushed on every
channel's window (45_oversampler.md rules R301, R303): the oldest value leaves, the new one is last.  `u` is the state
after them. -/
def PullsInner (n : Nat) (s u : State) : Prop :=
  ∃ σ : Nat → State, σ 0 = s ∧ σ n = u ∧
    ∀ r < n, ∃ frame v, innerFrame (σ r) = .ok (frame, v) ∧
      σ (r + 1) = { v with osw := List.zipWith (fun w x => w.drop 1 ++ [x]) v.osw frame }

/-- From `s`, when its due events have fired, a tick delivers `frame` and computes the state `u` (47_engine.md rule
R361): without an oversampler the inner frame; with one, `RATIO` inner frames are pushed and channel `c` is the
decimation sum of the channel's window (45_oversampler.md rules R302, R303). -/
def TickDelivers (s : State) (frame : List F64) (u : State) : Prop :=
  if s.cfg.oversample then
    PullsInner s.cfg.ratio s u ∧ ∃ table, lookup s.slots (firKey s.cfg) = some table ∧
      frame = u.osw.map (firOut s.cfg.ratio s.cfg.zc table)
  else innerFrame s = .ok (frame, u)

/-- The state that completes a tick (rules R361, R363), from the state its samples left. -/
def tickCompleted (u : State) (frame : List F64) : State :=
  { u with tick := u.tick + 1, inTick := false, pull := false, reply := .frame frame }

/-! ## The invariant -/

/-- `0 ≤ x ≤ 1`; either zero is 0. -/
abbrev InUnit (x : F64) : Prop := F64.zero.le x = true ∧ x.le F64.one = true

/-- A stage length of 42_envelope.md rule R200: finite and not negative. -/
abbrev LengthLegal (n : F64) : Prop := n.isFinite = true ∧ F64.zero.le n = true

/-- A curvature of 42_envelope.md rules R200, R216: finite and at least `2^-1022`. -/
abbrev CurveLegal (c : F64) : Prop := c.isFinite = true ∧ F64.minNormal.le c = true

/-- An envelope's registers are in the ranges of 10_state.md rule R43 and 42_envelope.md rule R221, and its coefficients
are those that rules R201 to R203 compute from its parameters. -/
structure EnvInv (e : Envelope) : Prop where
  valueRange : InUnit e.value
  sustainRange : InUnit e.sustain
  lengths : LengthLegal e.nA ∧ LengthLegal e.nD ∧ LengthLegal e.nR
  curves : CurveLegal e.curveA ∧ CurveLegal e.curveD ∧ CurveLegal e.curveR
  attack : e.coefA = slopeCoef e.nA e.curveA ∧ e.baseA = attackBase e.curveA e.coefA
  decay : e.coefD = slopeCoef e.nD e.curveD ∧ e.baseD = decayBase e.sustain e.curveD e.coefD
  release : e.coefR = slopeCoef e.nR e.curveR ∧ e.baseR = releaseBase e.curveR e.coefR

/-- A voice's registers are in the ranges of 10_state.md rules R40, R42 and R43. -/
structure VoiceInv (p : Params) (v : Voice) : Prop where
  /-- `-2^28 ≤ SHIFT ≤ 2^28` (rule R40). -/
  shiftRange : -2 ^ 28 ≤ v.shift.toInt ∧ v.shift.toInt ≤ 2 ^ 28
  /-- "LFSR state never 0" (rule R42). -/
  lfsrNonzero : v.lfsr ≠ 0
  /-- `WT_LEN` entries (rule R40). -/
  tableLength : v.wt.length = p.wtLen
  envInv : EnvInv v.env

/-- The invariant of the machine: what holds at reset and is kept by every step. -/
structure Inv (s : State) : Prop where
  legal : paramsLegal s.cfg
  /-- No rate is configured, or a positive one whose inner rate rule R36 gives and is finite (10_state.md rules R34, R36). -/
  rates : (s.sampleRate = F64.zero ∧ s.innerRate = F64.zero) ∨
    (s.sampleRate.isFinite = true ∧ F64.zero.lt s.sampleRate = true ∧ s.innerRate.isFinite = true ∧
      s.innerRate = innerRateOf s.cfg s.sampleRate)
  voiceCount : s.voices.length = s.cfg.nOsc
  voiceInv : ∀ v ∈ s.voices, VoiceInv s.cfg v
  /-- `FC` and `Q` in `[0, 1]` (10_state.md rule R45). -/
  filterRange : InUnit s.filter.fc ∧ InUnit s.filter.q
  /-- `W`, `OFF` and `D` are those of the current `FC` and `Q` (41_filter.md rules R171, R172). -/
  filterDerived : s.filter.w = filterW s.cfg s.filter.fc ∧ s.filter.off = filterOff s.cfg s.filter.fc ∧
    s.filter.d = filterD s.cfg s.filter.q
  /-- `RS_BASE` is a value of `SAMPLE_ADDR_BITS` bits (10_state.md rule R46). -/
  baseFits : s.rs.base.toNat < 2 ^ s.cfg.sampleAddrBits
  /-- The bit above it is set by the base `2^SAMPLE_ADDR_BITS` only, with no frame bound (44_resampler.md rule R271). -/
  baseTopEmpty : s.rs.baseTop = true → s.rs.base = 0 ∧ s.rs.frames = 0
  /-- The bound extent is inside sample memory, and the cursor's range (44_resampler.md rules R271, R272). -/
  extentFits : rsBase s.cfg s.rs + s.rs.frames.toNat * s.cfg.channels ≤ 2 ^ s.cfg.sampleAddrBits
  framesFit : s.rs.frames.toNat + s.cfg.half ≤ 2 ^ 31 - 1
  /-- The window: `CHANNELS` rows of `L_FIR` values, or none (10_state.md rule R47). -/
  windowShape : if s.cfg.oversample then s.osw.length = s.cfg.channels ∧ ∀ w ∈ s.osw, w.length = s.cfg.lFir
    else s.osw = []
  /-- The heap (10_state.md rule R49): at most `HEAP_CAP` entries, in heap order, every one checked at insert. -/
  heapBound : s.heap.length ≤ s.cfg.heapCap
  heapOrdered : HeapOrdered s.heap
  heapChecked : ∀ e ∈ s.heap, eventChecked s.cfg.nOsc e
  slotCount : s.slots.length = s.cfg.cacheSlots
  /-- After reset either generation has completed or the block is faulted (43_table_cache.md rule R249). -/
  readyOrFaulted : s.tablesReady = true ∨ s.faulted = true
  /-- Every lookup the units make is a hit (43_table_cache.md rule R248). -/
  keysPresent : s.tablesReady = true → ∀ k ∈ resetKeys s.cfg, (lookup s.slots k).isSome = true
  memoryForm : Memory.wf s.mem
  /-- A raced word is a word of sample memory (20_memory.md rules R73, R80). -/
  racedInside : ∀ r ∈ s.raced, addrExists s.cfg r.1 = true
  /-- A faulted block is in no tick and has no pull outstanding (60_exceptions.md rule R393). -/
  faultIdle : s.faulted = true → s.inTick = false ∧ s.pull = false
  /-- A tick in progress is the tick of the outstanding pull (47_engine.md rules R361, R363). -/
  tickPulled : s.inTick = true → s.pull = true

/-! ## A safe step -/

/-- A step that answers a next state. -/
abbrev Continues (r : Result) : Prop := ∃ t, r = .next t

/-- The step is the host's action `a`: no tick is due, no whole packet has arrived, and `a` is the first in the inbox. -/
def HostActsNext (s : State) (a : HostAction) : Prop :=
  engineDue s = false ∧ takePacket s.port = none ∧ ∃ rest, s.inbox = a :: rest

/-- The step is a host write of a word that does not exist (20_memory.md rule R73). -/
def hostWritesOutside (s : State) : Prop :=
  ∃ addr value, HostActsNext s (.writeSample addr value) ∧ 2 ^ s.cfg.sampleAddrBits ≤ addr

/-- The step is a pull while one is outstanding (47_engine.md rule R363), which is then held or suspended by a pending
callback, or the tables are not ready. -/
def hostPullsTwice (s : State) : Prop := s.pull = true ∧ HostActsNext s .pull

/-- A safe step: the machine goes on, or it is the host that left its own rules. -/
def SafeStep (s : State) : Prop := Continues (step s) ∨ hostWritesOutside s ∨ hostPullsTwice s

end Sys2Proof.Machine
end

