-- ==== Sys2Proof/Certificates/Slice0/Obligations.lean ====
section
/-! DEFINITION. The statements for the provers: from the numbered rules of the spec, one proposition each. -/

open Sys2Proof Sys2Proof.Machine

/-- O1 (R90, R94, R96, R71). For every command i, with every defer bit, voice index and operand, and every byte list
rest, decoding the 12 bytes of i followed by rest answers i and rest: no bit of an encoding is dropped. -/
def Obligations.DecodeEncodeAgree : Prop :=
  ∀ (i : Instr) (rest : List Byte), decode (encode i ++ rest) = .ok (i, rest)

/-- O2 (R90, R95, R96, R97). If decoding a byte list answers a command i and the bytes rest, the byte list is the
encoding of i followed by rest: a command has one packet, and an accepted packet holds nothing beside it. -/
def Obligations.EncodeDecodeAgree : Prop :=
  ∀ (bytes : List Byte) (i : Instr) (rest : List Byte),
    decode bytes = .ok (i, rest) → bytes = encode i ++ rest

/-- O3 (R102). The headers and operands of rule R102, written out as hexadecimal words, decode to the commands the rule
writes beside them. -/
def Obligations.EncodingExamples : Prop :=
  decodePacket 0x00000001 0x40E5888000000000 = .ok (.setSampleRate false 0x40E5888000000000) ∧
  decodePacket 0x00000110 0x407B800000000000 = .ok (.oscSetHz false 1 0x407B800000000000) ∧
  decodePacket 0x00000012 0x0000000000000003 = .ok (.oscSetFlags false 0 3) ∧
  decodePacket 0x00000215 0x000000000005FFFF = .ok (.oscWtWrite false 2 0x5FFFF) ∧
  decodePacket 0x00000020 0x0000000000000000 = .ok (.envOn false 0 0) ∧
  decodePacket 0x80000321 0x0000000000000000 = .ok (.envOff true 3 0) ∧
  decodePacket 0x00000031 0x3FE0000000000000 = .ok (.fltSetQ false 0x3FE0000000000000) ∧
  decodePacket 0x00000045 0xFFFFFFFFFFFFFFFD = .ok (.rsSetPos false 0xFFFFFFFFFFFFFFFD) ∧
  decodePacket 0x00000050 0x0000000000002710 = .ok (.evSetTick 10000) ∧
  decodePacket 0x80000051 0x0000000000000007 = .ok (.hostCallback true 7) ∧
  decodePacket 0x00000052 0x0000000000000000 = .ok (.cbAck 0)

/-- O4 (R91, R92, R95, R96, R395). A packet whose opcode is in a gap of the opcode map, or whose RSV field is not 0, or
with D = 1 on EV_SET_TICK or CB_ACK, enters the fault state with ILLEGAL_COMMAND; a packet that passes these checks
faults with BAD_INDEX if it is a voice command (opcodes 0x10 to 0x15, 0x20 to 0x28) whose IDX is not below the
number of voices, or another command with IDX not 0. The operand and the event heap play no part, and nothing but
the fault is written. -/
def Obligations.HeaderChecks : Prop :=
  ∀ (hdr : BitVec 32) (arg : Word64) (s : State),
    let op := (hdr.extractLsb' 0 8).toNat
    let idx := (hdr.extractLsb' 8 8).toNat
    let isVoice := (0x10 ≤ op ∧ op ≤ 0x15) ∨ (0x20 ≤ op ∧ op ≤ 0x28)
    let isOther := op = 0x00 ∨ op = 0x01 ∨ (0x30 ≤ op ∧ op ≤ 0x34) ∨ (0x40 ≤ op ∧ op ≤ 0x45) ∨
      (0x50 ≤ op ∧ op ≤ 0x52)
    let illegal := (¬ isVoice ∧ ¬ isOther) ∨ hdr.extractLsb' 16 15 ≠ 0 ∨
      (hdr.getLsbD 31 = true ∧ (op = 0x50 ∨ op = 0x52))
    (illegal → execPacket hdr arg s = .next (enterFault .illegalCommand hdr arg s)) ∧
    (¬ illegal → ((isVoice ∧ s.voices.length ≤ idx) ∨ (isOther ∧ idx ≠ 0)) →
      execPacket hdr arg s = .next (enterFault .badIndex hdr arg s))

/-- O5 (R71, R79, R364). When no tick is due, the block is not faulted and the bytes at the command port decode to the
command i followed by the bytes rest, the step is exec of i on the state whose port holds rest: the step takes the
12 bytes and adds nothing else. -/
def Obligations.StepRunsDecodedInstruction : Prop :=
  ∀ (s : State) (i : Instr) (rest : List Byte), engineDue s = false → s.faulted = false →
    decode s.port = .ok (i, rest) → step s = exec i { s with port := rest }

/-- O6 (R390, R393, R394, R398). Fault entry writes FAULT_CAUSE, FAULT_HDR and FAULT_ARG, sets FAULTED (IRQ_FAULT
asserted), clears IN_TICK and refuses an outstanding pull; every other element keeps its value. In the fault state a
received packet, whatever its bits, only leaves the command port, no tick is due, a pull only answers the refusal,
and a register read only answers the register's value. -/
def Obligations.FaultStateRules : Prop :=
  (∀ (c : FaultCause) (hdr : BitVec 32) (arg : Word64) (s : State),
      raiseFault c hdr arg s =
        .next { s with
          faultCause := c, faultHdr := hdr, faultArg := arg, faulted := true, inTick := false, pull := false,
          reply := if s.pull = true then .pullRefused else s.reply } ∧
      irqFault (enterFault c hdr arg s) = true) ∧
  ∀ (s : State), s.faulted = true →
    engineDue s = false ∧
    (∀ hdr arg rest, takePacket s.port = some (hdr, arg, rest) → step s = .next { s with port := rest }) ∧
    (∀ rest, takePacket s.port = none → s.inbox = .pull :: rest →
      step s = .next { s with inbox := rest, reply := .pullRefused }) ∧
    (∀ addr rest, takePacket s.port = none → s.inbox = .read addr :: rest →
      step s = .next { s with inbox := rest, reply := .value (readRegister s addr) })

/-- O7 (R92, R322, R333). Every command with D = 1 whose voice index, if it has one, is below the number of voices is
not executed: with room in the heap the next state differs only by the insert of the event (EV_TICK, header with bit
31 clear, operand), the operand unchecked; with HEAP_COUNT = HEAP_CAP the block faults with QUEUE_FULL and inserts
nothing. -/
def Obligations.DeferredCommandIsInserted : Prop :=
  ∀ (i : Instr) (s : State), i.deferred = true → i.wellFormed s.voices.length = true →
    (s.heap.length < s.cfg.heapCap →
      exec i s = .next { s with heap := heapInsert s.heap ⟨s.evTick, headerOf false i.idx i.opcode, i.operand⟩ }) ∧
    (s.cfg.heapCap ≤ s.heap.length →
      exec i s = .next (enterFault .queueFull (headerOf true i.idx i.opcode) i.operand s))

/-- O8 (R91, R96). Every voice command whose index is at least the number of voices enters the fault state with
BAD_INDEX, its own header and its own operand, and writes nothing else. -/
def Obligations.AbsentVoiceIsBadIndex : Prop :=
  ∀ (i : Instr) (v : BitVec 8) (s : State), i.voice = some v → s.voices.length ≤ v.toNat →
    exec i s = .next (enterFault .badIndex i.header i.operand s)

/-- O9 (R96, R364, R393, R401). For every command and every state exec answers a next state; if the state was not
faulted and the next one is, the next state is the old one after fault entry with some cause, the command's own
header and its own operand. -/
def Obligations.CommandsCompleteOrFaultPrecisely : Prop :=
  ∀ (i : Instr) (s : State), ∃ t, exec i s = .next t ∧
    (s.faulted = false → t.faulted = true → ∃ c, t = enterFault c i.header i.operand s)

/-- O10 (R6, R33, R40, R43, R45, R74, R84, R179, R306). Whatever command runs, on every state and to every next state:
the parameters, TICK, TABLES_READY, the filter taps LP, BP, HP, every voice's PHASE, LFSR, LATCH and ENV_VALUE, the
oversampler window, the cache slots, what every byte of sample memory reads as, the bytes at the command port and
the host's further actions are unchanged. -/
def Obligations.CommandFrame : Prop :=
  ∀ (i : Instr) (s t : State), exec i s = .next t →
    t.cfg = s.cfg ∧ t.tick = s.tick ∧ t.tablesReady = s.tablesReady ∧
    t.filter.lp = s.filter.lp ∧ t.filter.bp = s.filter.bp ∧ t.filter.hp = s.filter.hp ∧
    t.voices.map (fun v => (v.phase, v.lfsr, v.latch, v.env.value)) =
      s.voices.map (fun v => (v.phase, v.lfsr, v.latch, v.env.value)) ∧
    t.osw = s.osw ∧ t.slots = s.slots ∧ (∀ x, memRead t.mem x = memRead s.mem x) ∧
    t.port = s.port ∧ t.inbox = s.inbox

/-- O11 (R365). NOP with operand 0 leaves the whole state as it is; with any other operand it faults with BAD_ARG and
header 0; NOP.d with room in the heap inserts an event, its operand unchecked, which occupies a slot. When that
event fires, in whatever state, it leaves the whole state as it is if its operand is 0 and faults with BAD_ARG
otherwise. -/
def Obligations.NopDoesNothing : Prop :=
  ∀ (arg : Word64) (s : State),
    (arg = 0 → exec (.nop false arg) s = .next s) ∧
    (arg ≠ 0 → exec (.nop false arg) s = .next (enterFault .badArg 0x00000000 arg s)) ∧
    (s.heap.length < s.cfg.heapCap →
      exec (.nop true arg) s = .next { s with heap := heapInsert s.heap ⟨s.evTick, 0x00000000, arg⟩ } ∧
      (heapInsert s.heap ⟨s.evTick, 0x00000000, arg⟩).length = s.heap.length + 1) ∧
    ∀ u : State, execPacket 0x00000000 arg u =
      .next (if arg = 0 then u else enterFault .badArg 0x00000000 arg u)

/-- O12 (R366). A finite positive rate whose inner rate (the rate times RATIO with an oversampler, else the rate) is not
+infinity is written to SAMPLE_RATE with its INNER_RATE, and nothing else changes; NaN and infinities, and an inner
rate that overflows, are BAD_ARG; a finite rate that is not positive is ZERO_SAMPLE_RATE. -/
def Obligations.SetSampleRateResult : Prop :=
  ∀ (arg : Word64) (s : State),
    let r : F64 := ⟨arg⟩
    let ir := if s.cfg.oversample = true then r.mul (F64.ofNat s.cfg.ratio) else r
    (r.isFinite = true → F64.zero.lt r = true → ir.bits ≠ 0x7FF0000000000000 →
      exec (.setSampleRate false arg) s = .next { s with sampleRate := r, innerRate := ir }) ∧
    (r.isFinite = false →
      exec (.setSampleRate false arg) s = .next (enterFault .badArg 0x00000001 arg s)) ∧
    (r.isFinite = true → F64.zero.lt r = false →
      exec (.setSampleRate false arg) s = .next (enterFault .zeroSampleRate 0x00000001 arg s)) ∧
    (r.isFinite = true → F64.zero.lt r = true → ir.bits = 0x7FF0000000000000 →
      exec (.setSampleRate false arg) s = .next (enterFault .badArg 0x00000001 arg s))

/-- O13 (R120). On an existing voice: with SAMPLE_RATE = +0.0 it is ZERO_SAMPLE_RATE, whatever the operand; else a non-
finite or negative hz is BAD_ARG; else INC of that voice becomes 2^28 - 1 when (hz times 2^28) / INNER_RATE is at
least 2^28 - 1, and its floor otherwise, and nothing else changes. -/
def Obligations.OscSetHzResult : Prop :=
  ∀ (v : BitVec 8) (arg : Word64) (s : State) (vo : Voice), s.voices[v.toNat]? = some vo →
    let hz : F64 := ⟨arg⟩
    let q := (hz.mul ⟨0x41B0000000000000⟩).div s.innerRate
    (s.sampleRate.eq F64.zero = true →
      exec (.oscSetHz false v arg) s = .next (enterFault .zeroSampleRate (headerOf false v 0x10) arg s)) ∧
    (s.sampleRate.eq F64.zero = false → (hz.isFinite = false ∨ hz.lt F64.zero = true) →
      exec (.oscSetHz false v arg) s = .next (enterFault .badArg (headerOf false v 0x10) arg s)) ∧
    (s.sampleRate.eq F64.zero = false → hz.isFinite = true → hz.lt F64.zero = false →
      exec (.oscSetHz false v arg) s =
        .next { s with voices := (s.voices.set v.toNat
          { vo with inc := if (F64.mk 0x41AFFFFFFE000000).le q = true then 0xFFFFFFF
                           else BitVec.ofInt 28 q.floorInt }) })

/-- O14 (R121). On an existing voice a finite x writes SHIFT with the truncated product of x, clamped to [-1, 1], and
2^28, and nothing else changes; NaN and infinities are BAD_ARG. A clamped value of +1 or -1 gives +2^28 or -2^28. -/
def Obligations.OscSetShiftResult : Prop :=
  ∀ (v : BitVec 8) (arg : Word64) (s : State) (vo : Voice), s.voices[v.toNat]? = some vo →
    let x : F64 := ⟨arg⟩
    let y := F64.min (F64.max x ⟨0xBFF0000000000000⟩) ⟨0x3FF0000000000000⟩
    (x.isFinite = true →
      exec (.oscSetShift false v arg) s =
        .next { s with voices := (s.voices.set v.toNat
          { vo with shift := BitVec.ofInt 30 (y.mul ⟨0x41B0000000000000⟩).truncInt }) }) ∧
    (x.isFinite = false →
      exec (.oscSetShift false v arg) s = .next (enterFault .badArg (headerOf false v 0x11) arg s))

/-- O15 (R40, R121). For every finite operand the 30-bit shift written is between -2^28 and 2^28; every finite operand
that is at least 1 gives 2^28 and every finite operand that is at most -1 gives -2^28. -/
def Obligations.ShiftStaysInRange : Prop :=
  ∀ x : F64, x.isFinite = true →
    (-2 ^ 28 ≤ (shiftOf x).toInt ∧ (shiftOf x).toInt ≤ 2 ^ 28) ∧
    (F64.one.le x = true → (shiftOf x).toInt = 2 ^ 28) ∧
    (x.le F64.one.neg = true → (shiftOf x).toInt = -2 ^ 28)

/-- O16 (R122, R125). On an existing voice: OSC_SET_FLAGS with an operand below 128 replaces the voice's seven flags by
its low bits; OSC_WT_WRITE with an operand below 2^(16 + WT_BITS) writes its low 16 bits to the wavetable entry that
its bits from 16 on name; nothing else changes. Any other operand is BAD_ARG. -/
def Obligations.OscFlagsAndWavetableResults : Prop :=
  ∀ (v : BitVec 8) (arg : Word64) (s : State) (vo : Voice), s.voices[v.toNat]? = some vo →
    (arg.toNat < 128 →
      exec (.oscSetFlags false v arg) s =
        .next { s with voices := s.voices.set v.toNat { vo with flags := BitVec.ofNat 7 arg.toNat } }) ∧
    (128 ≤ arg.toNat →
      exec (.oscSetFlags false v arg) s = .next (enterFault .badArg (headerOf false v 0x12) arg s)) ∧
    (arg.toNat < 2 ^ (16 + s.cfg.wtBits) →
      exec (.oscWtWrite false v arg) s =
        .next { s with voices := (s.voices.set v.toNat
          { vo with wt := vo.wt.set (arg.toNat / 2 ^ 16) (BitVec.ofNat 16 arg.toNat) }) }) ∧
    (2 ^ (16 + s.cfg.wtBits) ≤ arg.toNat →
      exec (.oscWtWrite false v arg) s = .next (enterFault .badArg (headerOf false v 0x15) arg s))

/-- O17 (R123, R124, R182, R183, R184). A finite operand, of either sign and zero included, is written to G_DIRECT or
G_FILTER of an existing voice (OSC_SET_GAIN_DIRECT, OSC_SET_GAIN_FILTER), or to G_LP, G_BP or G_HP (FLT_SET_GAIN_LP,
_BP, _HP), and nothing else changes; NaN and infinities are BAD_ARG. -/
def Obligations.GainResults : Prop :=
  ∀ (arg : Word64) (s : State),
    ((F64.mk arg).isFinite = true →
      exec (.fltSetGainLp false arg) s = .next { s with filter := { s.filter with gLp := ⟨arg⟩ } } ∧
      exec (.fltSetGainBp false arg) s = .next { s with filter := { s.filter with gBp := ⟨arg⟩ } } ∧
      exec (.fltSetGainHp false arg) s = .next { s with filter := { s.filter with gHp := ⟨arg⟩ } } ∧
      ∀ (v : BitVec 8) (vo : Voice), s.voices[v.toNat]? = some vo →
        exec (.oscSetGainDirect false v arg) s =
          .next { s with voices := s.voices.set v.toNat { vo with gDirect := ⟨arg⟩ } } ∧
        exec (.oscSetGainFilter false v arg) s =
          .next { s with voices := s.voices.set v.toNat { vo with gFilter := ⟨arg⟩ } }) ∧
    ((F64.mk arg).isFinite = false →
      exec (.fltSetGainLp false arg) s = .next (enterFault .badArg 0x00000032 arg s) ∧
      exec (.fltSetGainBp false arg) s = .next (enterFault .badArg 0x00000033 arg s) ∧
      exec (.fltSetGainHp false arg) s = .next (enterFault .badArg 0x00000034 arg s) ∧
      ∀ (v : BitVec 8) (vo : Voice), s.voices[v.toNat]? = some vo →
        exec (.oscSetGainDirect false v arg) s = .next (enterFault .badArg (headerOf false v 0x13) arg s) ∧
        exec (.oscSetGainFilter false v arg) s = .next (enterFault .badArg (headerOf false v 0x14) arg s))

/-- O18 (R210, R211). On an existing voice, with operand 0: ENV_ON sets the stage to ATTACK, whatever it was, and
changes nothing else; ENV_OFF leaves the whole state as it is when the stage is IDLE, and otherwise sets the stage
to RELEASE and changes nothing else. A non-zero operand is BAD_ARG for both. -/
def Obligations.EnvOnAndOffResults : Prop :=
  ∀ (v : BitVec 8) (arg : Word64) (s : State) (vo : Voice), s.voices[v.toNat]? = some vo →
    (arg = 0 →
      exec (.envOn false v arg) s =
        .next { s with voices := s.voices.set v.toNat { vo with env := { vo.env with state := .attack } } }) ∧
    (arg = 0 → vo.env.state = .idle → exec (.envOff false v arg) s = .next s) ∧
    (arg = 0 → vo.env.state ≠ .idle →
      exec (.envOff false v arg) s =
        .next { s with voices := s.voices.set v.toNat { vo with env := { vo.env with state := .release } } }) ∧
    (arg ≠ 0 → exec (.envOn false v arg) s = .next (enterFault .badArg (headerOf false v 0x20) arg s) ∧
      exec (.envOff false v arg) s = .next (enterFault .badArg (headerOf false v 0x21) arg s))

/-- O19 (R200, R201, R202, R203, R204, R212, R213, R215). On an existing voice, for each of the three commands: with
SAMPLE_RATE = +0.0 it is ZERO_SAMPLE_RATE; else a non-finite or negative time, or a length t times INNER_RATE that
is +infinity, is BAD_ARG; else the length is stored, the stage's coefficient, which is +0.0 for a zero length and
else F_exp(-(F_ln((1 + curvature) / curvature) / length)), and its base are recomputed, and nothing else changes. -/
def Obligations.EnvStageTimeResults : Prop :=
  ∀ (v : BitVec 8) (arg : Word64) (s : State) (vo : Voice), s.voices[v.toNat]? = some vo →
    let t : F64 := ⟨arg⟩
    let n := t.mul s.innerRate
    let e := vo.env
    let coef : F64 → F64 → F64 := fun n c => if n.eq F64.zero = true then ⟨0x0000000000000000⟩
      else fExp ((fLn ((F64.one.add c).div c)).div n).neg
    let a := coef n e.curveA
    let d := coef n e.curveD
    let r := coef n e.curveR
    (s.sampleRate.eq F64.zero = true →
      exec (.envSetAttack false v arg) s = .next (enterFault .zeroSampleRate (headerOf false v 0x22) arg s) ∧
      exec (.envSetDecay false v arg) s = .next (enterFault .zeroSampleRate (headerOf false v 0x23) arg s) ∧
      exec (.envSetRelease false v arg) s = .next (enterFault .zeroSampleRate (headerOf false v 0x25) arg s)) ∧
    (s.sampleRate.eq F64.zero = false →
      (t.isFinite = false ∨ t.lt F64.zero = true ∨ n.bits = 0x7FF0000000000000) →
      exec (.envSetAttack false v arg) s = .next (enterFault .badArg (headerOf false v 0x22) arg s) ∧
      exec (.envSetDecay false v arg) s = .next (enterFault .badArg (headerOf false v 0x23) arg s) ∧
      exec (.envSetRelease false v arg) s = .next (enterFault .badArg (headerOf false v 0x25) arg s)) ∧
    (s.sampleRate.eq F64.zero = false → t.isFinite = true → t.lt F64.zero = false →
      n.bits ≠ 0x7FF0000000000000 →
      exec (.envSetAttack false v arg) s =
        .next { s with voices := s.voices.set v.toNat { vo with env := { e with
            nA := n, coefA := a, baseA := (F64.one.add e.curveA).mul (F64.one.sub a) } } } ∧
      exec (.envSetDecay false v arg) s =
        .next { s with voices := s.voices.set v.toNat { vo with env := { e with
            nD := n, coefD := d, baseD := (e.sustain.sub e.curveD).mul (F64.one.sub d) } } } ∧
      exec (.envSetRelease false v arg) s =
        .next { s with voices := s.voices.set v.toNat { vo with env := { e with
            nR := n, coefR := r, baseR := (F64.zero.sub e.curveR).mul (F64.one.sub r) } } })

/-- O20 (R200, R202, R214). On an existing voice a finite level between 0 and 1 is written to ENV_SUSTAIN, the decay
coefficient, the formula of rule R200 written out, and the decay base are recomputed from the stored length and the
new level, and nothing else changes; any other operand is BAD_ARG. No sample rate is needed. -/
def Obligations.EnvSetSustainResult : Prop :=
  ∀ (v : BitVec 8) (arg : Word64) (s : State) (vo : Voice), s.voices[v.toNat]? = some vo →
    let x : F64 := ⟨arg⟩
    let e := vo.env
    let coef : F64 → F64 → F64 := fun n c => if n.eq F64.zero = true then ⟨0x0000000000000000⟩
      else fExp ((fLn ((F64.one.add c).div c)).div n).neg
    let d := coef e.nD e.curveD
    (F64.zero.le x = true → x.le F64.one = true →
      exec (.envSetSustain false v arg) s =
        .next { s with voices := s.voices.set v.toNat { vo with env := { e with
            sustain := x, coefD := d, baseD := (x.sub e.curveD).mul (F64.one.sub d) } } }) ∧
    ((F64.zero.le x = false ∨ x.le F64.one = false) →
      exec (.envSetSustain false v arg) s = .next (enterFault .badArg (headerOf false v 0x24) arg s))

/-- O21 (R200, R201, R202, R203, R216, R217, R218). On an existing voice, for each of the three commands: a finite
curvature of at least 2^-1022 is written, the stage's coefficient, the formula of rule R200 written out, and its
base are recomputed from the stored length, and nothing else changes; a smaller, negative, NaN or infinite operand
is BAD_ARG. No sample rate is needed. -/
def Obligations.EnvCurveResults : Prop :=
  ∀ (v : BitVec 8) (arg : Word64) (s : State) (vo : Voice), s.voices[v.toNat]? = some vo →
    let c : F64 := ⟨arg⟩
    let e := vo.env
    let coef : F64 → F64 → F64 := fun n c => if n.eq F64.zero = true then ⟨0x0000000000000000⟩
      else fExp ((fLn ((F64.one.add c).div c)).div n).neg
    let a := coef e.nA c
    let d := coef e.nD c
    let r := coef e.nR c
    (c.isFinite = true → (F64.mk 0x0010000000000000).le c = true →
      exec (.envSetCurveAttack false v arg) s =
        .next { s with voices := s.voices.set v.toNat { vo with env := { e with
            curveA := c, coefA := a, baseA := (F64.one.add c).mul (F64.one.sub a) } } } ∧
      exec (.envSetCurveDecay false v arg) s =
        .next { s with voices := s.voices.set v.toNat { vo with env := { e with
            curveD := c, coefD := d, baseD := (e.sustain.sub c).mul (F64.one.sub d) } } } ∧
      exec (.envSetCurveRelease false v arg) s =
        .next { s with voices := s.voices.set v.toNat { vo with env := { e with
            curveR := c, coefR := r, baseR := (F64.zero.sub c).mul (F64.one.sub r) } } }) ∧
    ((c.isFinite = false ∨ (F64.mk 0x0010000000000000).le c = false) →
      exec (.envSetCurveAttack false v arg) s = .next (enterFault .badArg (headerOf false v 0x26) arg s) ∧
      exec (.envSetCurveDecay false v arg) s = .next (enterFault .badArg (headerOf false v 0x27) arg s) ∧
      exec (.envSetCurveRelease false v arg) s = .next (enterFault .badArg (headerOf false v 0x28) arg s))

/-- O22 (R200, R220, R221). Idle changes nothing and sustain gives the sustain level. In attack x = base + value times
coef is stored unless it is at least 1, which stores 1 and enters decay; in decay it is stored unless it is below
the sustain level, which stores that level and enters sustain; in release it is stored unless it is at most 0, which
stores +0.0 and enters idle. Nothing else changes. The slope coefficient of a finite length of at least 0 and a
finite curvature of at least 2^-1022 lies in [0, 1]. From an envelope whose value and sustain level lie in [0, 1],
whose lengths and curvatures are such, and whose coefficients and bases are those of rules R201 to R203, the step
stores a value in [0, 1]; that F_exp(-inf) is a rounding of 0 is the model's reading (log entry 3). -/
def Obligations.EnvelopeStepRules : Prop :=
  (∀ n c : F64, LengthLegal n → CurveLegal c → InUnit (slopeCoef n c)) ∧
  ∀ e : Envelope,
    (EnvInv e → InUnit (envStep e).value) ∧
    (e.state = .idle → envStep e = e) ∧
    (e.state = .sustain → envStep e = { e with value := e.sustain }) ∧
    (e.state = .attack →
      envStep e = if F64.one.le (e.baseA.add (e.value.mul e.coefA)) = true
        then { e with value := ⟨0x3FF0000000000000⟩, state := .decay }
        else { e with value := e.baseA.add (e.value.mul e.coefA) }) ∧
    (e.state = .decay →
      envStep e = if (e.baseD.add (e.value.mul e.coefD)).lt e.sustain = true
        then { e with value := e.sustain, state := .sustain }
        else { e with value := e.baseD.add (e.value.mul e.coefD) }) ∧
    (e.state = .release →
      envStep e = if (e.baseR.add (e.value.mul e.coefR)).le F64.zero = true
        then { e with value := ⟨0x0000000000000000⟩, state := .idle }
        else { e with value := e.baseR.add (e.value.mul e.coefR) })

/-- O23 (R180, R181). A finite operand of FLT_SET_FC writes FC with it clamped to [0, 1], W with W_MIN times F_exp(FC
times F_ln(W_MAX / W_MIN)) and OFF with OFF_LO + FC times (OFF_HI - OFF_LO), and nothing else; one of FLT_SET_Q
writes Q with it clamped to [0, 1] and D with D_MAX - Q times (D_MAX - D_MIN), and nothing else; NaN and infinities
are BAD_ARG. -/
def Obligations.FilterCutoffAndResonanceResults : Prop :=
  ∀ (arg : Word64) (s : State),
    let x : F64 := ⟨arg⟩
    let y := F64.min (F64.max x ⟨0x0000000000000000⟩) ⟨0x3FF0000000000000⟩
    let w := s.cfg.wMin.mul (fExp (y.mul (fLn (s.cfg.wMax.div s.cfg.wMin))))
    let off := s.cfg.offLo.add (y.mul (s.cfg.offHi.sub s.cfg.offLo))
    let d := s.cfg.dMax.sub (y.mul (s.cfg.dMax.sub s.cfg.dMin))
    (x.isFinite = true →
      exec (.fltSetFc false arg) s = .next { s with filter := { s.filter with fc := y, w := w, off := off } } ∧
      exec (.fltSetQ false arg) s = .next { s with filter := { s.filter with q := y, d := d } }) ∧
    (x.isFinite = false →
      exec (.fltSetFc false arg) s = .next (enterFault .badArg 0x00000030 arg s) ∧
      exec (.fltSetQ false arg) s = .next (enterFault .badArg 0x00000031 arg s))

/-- O24 (R173, R174, R178). With the default FILTER_STEP, one sample maps the two inputs by V_SCALE and clips them (a
magnitude up to V_SAT passes; above it the result is V_SAT + V_HEAD times F_tanh of the excess over V_HEAD, with the
input's sign), then computes HP, then BP (its distortion from the old BP), then LP (its distortion from the old LP,
moving toward the new BP), and returns the direct input plus the gain-weighted taps over V_SCALE; no other filter
register changes. -/
def Obligations.FilterSampleOrder : Prop :=
  ∀ (p : Params) (f : Filter) (direct filtered : F64), p.filterStep = .spec →
    let clip : F64 → F64 := fun v =>
      let r := p.vSat.add (p.vHead.mul (fTanh ((v.abs.sub p.vSat).div p.vHead)))
      if v.abs.le p.vSat = true then v else if F64.zero.lt v = true then r else r.neg
    let vd := clip (p.vScale.mul direct)
    let vi := clip (p.vScale.mul filtered)
    let hp := (vi.sub f.lp).sub (f.d.mul f.bp)
    let bp := (f.bp.add (f.w.mul hp)).sub
      (((p.distK.mul f.w).mul f.bp).mul (F64.one.sub (fExp (f.bp.abs.div f.off).neg)))
    let lp := (f.lp.add (f.w.mul bp)).sub
      (((p.distK.mul f.w).mul f.lp).mul (F64.one.sub (fExp (f.lp.abs.div f.off).neg)))
    let y := (((vd.add (f.gLp.mul lp)).add (f.gBp.mul bp)).add (f.gHp.mul hp)).div p.vScale
    filterSample p f direct filtered = (y, { f with hp := hp, bp := bp, lp := lp })

/-- O25 (R179). With the default FILTER_STEP, taps +0.0, a filtered input +0.0, a finite positive V_SCALE and V_SAT, a
finite D and W, a finite product of DIST_K and W, and a finite positive OFF, one sample leaves all three taps
exactly +0.0. -/
def Obligations.SilentFilterKeepsZeroTaps : Prop :=
  ∀ (p : Params) (f : Filter) (direct : F64), p.filterStep = .spec →
    p.vScale.isFinite = true → F64.zero.lt p.vScale = true →
    p.vSat.isFinite = true → F64.zero.lt p.vSat = true →
    f.w.isFinite = true → f.d.isFinite = true → (p.distK.mul f.w).isFinite = true →
    f.off.isFinite = true → F64.zero.lt f.off = true →
    f.lp = F64.zero → f.bp = F64.zero → f.hp = F64.zero →
    let f' := (filterSample p f direct F64.zero).2
    f'.lp = F64.zero ∧ f'.bp = F64.zero ∧ f'.hp = F64.zero

/-- O26 (R46, R271, R272). RS_SET_BUF_BASE: when the operand plus RS_FRAMES times CHANNELS is at most 2^SAMPLE_ADDR_BITS
(mathematical integers), the base becomes the operand: RS_BASE itself for an operand below 2^SAMPLE_ADDR_BITS; for
2^SAMPLE_ADDR_BITS, with no frame bound, the bits of RS_BASE are 0 and the bit above them is 1 (how it is held is
the model's choice, log entry 14); a larger extent is BAD_BUFFER. RS_SET_BUF_FRAMES: when the operand is at most
2^31 - 1 - HALF and the base plus the operand times CHANNELS is at most 2^SAMPLE_ADDR_BITS, RS_FRAMES becomes the
operand; otherwise BAD_BUFFER. Nothing else changes. -/
def Obligations.RsBufferExtentResults : Prop :=
  ∀ (arg : Word64) (s : State),
    let fits := arg.toNat + s.rs.frames.toNat * s.cfg.channels ≤ 2 ^ s.cfg.sampleAddrBits
    let counted : Resampler := { s.rs with frames := BitVec.ofNat 32 arg.toNat }
    (fits → arg.toNat < 2 ^ s.cfg.sampleAddrBits →
      exec (.rsSetBufBase false arg) s = .next { s with rs := { s.rs with base := arg, baseTop := false } }) ∧
    (fits → arg.toNat = 2 ^ s.cfg.sampleAddrBits →
      exec (.rsSetBufBase false arg) s = .next { s with rs := { s.rs with base := 0, baseTop := true } }) ∧
    (fits → ∀ t, exec (.rsSetBufBase false arg) s = .next t → rsBase t.cfg t.rs = arg.toNat) ∧
    (¬ fits → exec (.rsSetBufBase false arg) s = .next (enterFault .badBuffer 0x00000040 arg s)) ∧
    (arg.toNat + s.cfg.half ≤ 2 ^ 31 - 1 →
      rsBase s.cfg s.rs + arg.toNat * s.cfg.channels ≤ 2 ^ s.cfg.sampleAddrBits →
      exec (.rsSetBufFrames false arg) s = .next { s with rs := counted } ∧ counted.frames.toNat = arg.toNat) ∧
    ((2 ^ 31 - 1 < arg.toNat + s.cfg.half ∨
        2 ^ s.cfg.sampleAddrBits < rsBase s.cfg s.rs + arg.toNat * s.cfg.channels) →
      exec (.rsSetBufFrames false arg) s = .next (enterFault .badBuffer 0x00000041 arg s))

/-- O27 (R273, R274). A finite positive operand is written to RS_BUF_RATE (respectively RS_BUF_PITCH) and nothing else
changes, RS_INC among it; NaN and infinities are BAD_ARG; a finite operand that is not positive is BAD_BUFFER. -/
def Obligations.RsBufferRateAndPitchResults : Prop :=
  ∀ (arg : Word64) (s : State),
    let x : F64 := ⟨arg⟩
    (x.isFinite = true → F64.zero.lt x = true →
      exec (.rsSetBufRate false arg) s = .next { s with rs := { s.rs with bufRate := x } } ∧
      exec (.rsSetBufPitch false arg) s = .next { s with rs := { s.rs with bufPitch := x } }) ∧
    (x.isFinite = false →
      exec (.rsSetBufRate false arg) s = .next (enterFault .badArg 0x00000042 arg s) ∧
      exec (.rsSetBufPitch false arg) s = .next (enterFault .badArg 0x00000043 arg s)) ∧
    (x.isFinite = true → F64.zero.lt x = false →
      exec (.rsSetBufRate false arg) s = .next (enterFault .badBuffer 0x00000042 arg s) ∧
      exec (.rsSetBufPitch false arg) s = .next (enterFault .badBuffer 0x00000043 arg s))

/-- O28 (R275). With SAMPLE_RATE = +0.0 it is ZERO_SAMPLE_RATE; else a non-finite or negative hz is BAD_ARG; else with
no buffer pitch or rate it is BAD_BUFFER; else RS_INC becomes 0 for hz = 0, whatever the quotients are, and for any
other hz 2^63 - 1 when q = ((hz / pitch) times (buffer rate / INNER_RATE)) times 2^32 is at least 2^63, and floor(q)
otherwise (for a q that is NaN the conversion's value is free, log entry 5), and nothing else changes. -/
def Obligations.RsSetHzResult : Prop :=
  ∀ (arg : Word64) (s : State),
    let hz : F64 := ⟨arg⟩
    let q := ((hz.div s.rs.bufPitch).mul (s.rs.bufRate.div s.innerRate)).mul ⟨0x41F0000000000000⟩
    let unbound := s.rs.bufPitch.eq F64.zero = true ∨ s.rs.bufRate.eq F64.zero = true
    (s.sampleRate.eq F64.zero = true →
      exec (.rsSetHz false arg) s = .next (enterFault .zeroSampleRate 0x00000044 arg s)) ∧
    (s.sampleRate.eq F64.zero = false → (hz.isFinite = false ∨ hz.lt F64.zero = true) →
      exec (.rsSetHz false arg) s = .next (enterFault .badArg 0x00000044 arg s)) ∧
    (s.sampleRate.eq F64.zero = false → hz.isFinite = true → hz.lt F64.zero = false → unbound →
      exec (.rsSetHz false arg) s = .next (enterFault .badBuffer 0x00000044 arg s)) ∧
    (s.sampleRate.eq F64.zero = false → hz.eq F64.zero = true → ¬ unbound →
      exec (.rsSetHz false arg) s = .next { s with rs := { s.rs with inc := 0 } }) ∧
    (s.sampleRate.eq F64.zero = false → hz.isFinite = true → F64.zero.lt hz = true → ¬ unbound →
      exec (.rsSetHz false arg) s =
        .next { s with rs := { s.rs with
          inc := if (F64.mk 0x43E0000000000000).le q = true then 0x7FFFFFFFFFFFFFFF
                 else BitVec.ofInt 63 q.floorInt } })

/-- O29 (R276, R321). RS_SET_POS writes the cursor with the operand, bit for bit, and EV_SET_TICK the staged tick
EV_TICK; nothing else changes and nothing faults. -/
def Obligations.RsSetPosAndEvSetTickResults : Prop :=
  ∀ (arg : Word64) (s : State),
    exec (.rsSetPos false arg) s = .next { s with rs := { s.rs with pos := arg } } ∧
    exec (.evSetTick arg) s = .next { s with evTick := arg }

/-- O30 (R270, R277, R278). For every cursor and increment the advanced cursor, read as a signed 64-bit integer, is the
smaller of their sum and 2^63 - 1, and nothing else changes; the variant of an increment is 0 when 3 times it is
below 2^34, else 1 when it is below 2^33, else 2. -/
def Obligations.CursorAdvanceAndKernelVariant : Prop :=
  ∀ rs : Resampler,
    (advanceCursor rs).pos.toInt = min (rs.pos.toInt + (rs.inc.toNat : Int)) (2 ^ 63 - 1) ∧
    advanceCursor rs = { rs with pos := (advanceCursor rs).pos } ∧
    (3 * rs.inc.toNat < 2 ^ 34 → variantOf rs.inc = 0) ∧
    (2 ^ 34 ≤ 3 * rs.inc.toNat → rs.inc.toNat < 2 ^ 33 → variantOf rs.inc = 1) ∧
    (2 ^ 33 ≤ rs.inc.toNat → variantOf rs.inc = 2)

/-- O31 (R80, R245, R270, R277, R278, R279, R441). When the cursor's frame index is below -GUARD or at least RS_FRAMES +
GUARD, a resampler sample answers CHANNELS values +0.0 and changes nothing but the cursor, which advances; sample
memory, the tables and the racing words play no part. A saturated cursor (2^63 - 1) stays there and gives zero
frames, as long as RS_FRAMES + GUARD is at most 2^31 - 1. Inside the guard band, with the table of the increment's
variant in the cache and the bound extent inside sample memory, channel c of the frame is the sum from +0.0, in
increasing k below 2 HALF, of entry ph 2 HALF + k of the table times x(c, k); ph is the cursor's fraction div 2^(32
- PHASE_BITS), and for j = index - HALF + 1 + k the value x(c, k) is +0.0 when frame j is outside the buffer, and
else the word at RS_BASE + j CHANNELS + c or, only if the host wrote it while bound, an earlier value of it (R80,
R441; which earlier values is the model's choice, log entry 8). Nothing else changes but the cursor and the count of
free choices. -/
def Obligations.ResamplerSampleRules : Prop :=
  ∀ s : State,
    ((s.rs.pos.toInt / 2 ^ 32 < -(s.cfg.half : Int) ∨
        (s.rs.frames.toNat : Int) + s.cfg.half ≤ s.rs.pos.toInt / 2 ^ 32) →
      rsSample s = .ok (List.replicate s.cfg.channels ⟨0x0000000000000000⟩,
        { s with rs := advanceCursor s.rs })) ∧
    (s.rs.pos = 0x7FFFFFFFFFFFFFFF → s.rs.frames.toNat + s.cfg.half ≤ 2 ^ 31 - 1 →
      rsSample s = .ok (List.replicate s.cfg.channels ⟨0x0000000000000000⟩, s)) ∧
    ∀ table : List F64, lookup s.slots (psincKey s.cfg (variantOf s.rs.inc)) = some table →
      rsBase s.cfg s.rs + s.rs.frames.toNat * s.cfg.channels ≤ 2 ^ s.cfg.sampleAddrBits →
      -(s.cfg.half : Int) ≤ s.rs.pos.toInt / 2 ^ 32 →
      s.rs.pos.toInt / 2 ^ 32 < (s.rs.frames.toNat : Int) + s.cfg.half →
      ∃ (x : Nat → Nat → F64) (n : Nat),
        (∀ c k, c < s.cfg.channels → k < 2 * s.cfg.half →
          let j : Int := s.rs.pos.toInt / 2 ^ 32 - s.cfg.half + 1 + k
          let a := rsBase s.cfg s.rs + j.toNat * s.cfg.channels + c
          if 0 ≤ j ∧ j < s.rs.frames.toNat then (x c k).bits = wordRead s.mem a ∨ (a, (x c k).bits) ∈ s.raced
          else x c k = ⟨0x0000000000000000⟩) ∧
        rsSample s = .ok ((List.range s.cfg.channels).map (fun c =>
            (List.range (2 * s.cfg.half)).foldl (fun acc k => acc.add ((table.getD
              (s.rs.pos.toNat % 2 ^ 32 / 2 ^ (32 - s.cfg.phaseBits) * (2 * s.cfg.half) + k)
              ⟨0x0000000000000000⟩).mul (x c k))) ⟨0x0000000000000000⟩),
          { s with rs := advanceCursor s.rs, draws := n })

/-- O32 (R326, R398). With no callback pending CB_ID becomes the operand and CB_PENDING 1 (IRQ_CB asserted), and nothing
else changes; with one pending it is CALLBACK_STATE. -/
def Obligations.HostCallbackResult : Prop :=
  ∀ (arg : Word64) (s : State),
    (s.cbPending = false →
      exec (.hostCallback false arg) s = .next { s with cbId := arg, cbPending := true } ∧
      irqCb { s with cbId := arg, cbPending := true } = true) ∧
    (s.cbPending = true →
      exec (.hostCallback false arg) s = .next (enterFault .callbackState 0x00000051 arg s))

/-- O33 (R327). With operand 0 and a callback pending CB_PENDING becomes 0, CB_ID keeps its value and nothing else
changes, and if the block is not faulted, its tables are ready and a pull is outstanding, the engine is due; a non-
zero operand is BAD_ARG, also when none is pending; with operand 0 and none pending it is CALLBACK_STATE. -/
def Obligations.CbAckResult : Prop :=
  ∀ (arg : Word64) (s : State),
    (arg = 0 → s.cbPending = true →
      exec (.cbAck arg) s = .next { s with cbPending := false } ∧
      (s.pull = true → s.faulted = false → s.tablesReady = true →
        engineDue { s with cbPending := false } = true)) ∧
    (arg ≠ 0 → exec (.cbAck arg) s = .next (enterFault .badArg 0x00000052 arg s)) ∧
    (arg = 0 → s.cbPending = false →
      exec (.cbAck arg) s = .next (enterFault .callbackState 0x00000052 arg s))

/-- O34 (R49, R330). From a heap in min-heap order the insert of any event gives a heap in min-heap order that holds the
old events and the new one, each as often as before; shift answers the first entry, no entry has a smaller tick, and
the rest is a heap in min-heap order that holds the other entries, each as often as before. -/
def Obligations.HeapOperationsKeepOrder : Prop :=
  (∀ (h : List Event) (e : Event), HeapOrdered h →
      HeapOrdered (heapInsert h e) ∧ (heapInsert h e).Perm (e :: h)) ∧
  ∀ (h rest : List Event) (e : Event), HeapOrdered h → heapShift h = some (e, rest) →
    h[0]? = some e ∧ (∀ x ∈ h, e.t.toNat ≤ x.t.toNat) ∧ HeapOrdered rest ∧ h.Perm (e :: rest)

/-- O35 (R332). For every list of events, inserting them one by one into the empty heap and shifting until it is empty
yields exactly those events, each as often as it was inserted, in non-decreasing order of tick; and in every state
whose heap is what is left after k pops, k below the number of events, NEXT_T is the tick of a remaining event and
no remaining event has a smaller one. -/
def Obligations.HeapPopsInTickOrder : Prop :=
  ∀ es : List Event,
    let h := es.foldl heapInsert []
    (shiftAll es.length h).Perm es ∧
    (shiftAll es.length h).Pairwise (fun a b => a.t.toNat ≤ b.t.toNat) ∧
    ∀ (k : Nat) (s : State), k < es.length → s.heap = shiftTimes k h →
      (∃ x ∈ s.heap, nextT s = x.t) ∧ ∀ x ∈ s.heap, (nextT s).toNat ≤ x.t.toNat

/-- O36 (R331). From a heap in min-heap order a pop answers an event of the heap whose tick no other is below, and
leaves a heap in min-heap order that holds the others, in both settings of EQ_TICK_ORDER and for every value of the
free choice; nothing but the heap and the count of free choices changes. -/
def Obligations.PopTakesSomeMinimum : Prop :=
  ∀ (s t : State) (e : Event), HeapOrdered s.heap → popEvent s = some (e, t) →
    (∀ x ∈ s.heap, e.t.toNat ≤ x.t.toNat) ∧ s.heap.Perm (e :: t.heap) ∧ HeapOrdered t.heap ∧
    t = { s with heap := t.heap, draws := t.draws }

/-- O37 (R42, R135, R146). The LFSR step is injective on 23-bit values, maps 0 to 0 and no other value to 0; bit 0 of
the new value is the exclusive or of bits 22 and 17, and bit k + 1 is the old bit k. -/
def Obligations.NoiseRegisterNeverZero : Prop :=
  (∀ a b : BitVec 23, lfsrStep a = lfsrStep b → a = b) ∧ lfsrStep 0 = 0 ∧
  (∀ a : BitVec 23, a ≠ 0 → lfsrStep a ≠ 0) ∧
  ∀ a : BitVec 23, (lfsrStep a).getLsbD 0 = (a.getLsbD 22 ^^ a.getLsbD 17) ∧
    ∀ k, k < 22 → (lfsrStep a).getLsbD (k + 1) = a.getLsbD k

/-- O38 (R132, R133, R134, R136, R137, R138, R139). The shifted phase is the sum of the phase and the signed shift,
clamped to [0, 2^28 - 1]; the square is 2^28 - 1 below 2^27 and 0 from there on; the triangle is 2p below 2^27 and
2(2^28 - 1 - p) from there on; the noise is the register times 32; the wavetable is 2^12 times the sum of 2^15 and
the signed entry that the top WT_BITS phase bits name. The active waveforms at p are exactly: p itself with SAW (bit
0), the square with bit 1, the triangle with bit 2, the noise with bit 3, the wavetable with bit 4. -/
def Obligations.WaveformsOverThePhase : Prop :=
  (∀ (phase : BitVec 28) (shift : BitVec 30),
      ((shiftedPhase phase shift).toNat : Int) = min (max ((phase.toNat : Int) + shift.toInt) 0) (2 ^ 28 - 1)) ∧
  (∀ p : BitVec 28, (waveSquare p).toNat = if p.toNat < 2 ^ 27 then 2 ^ 28 - 1 else 0) ∧
  (∀ p : BitVec 28, (waveTriangle p).toNat =
      if p.toNat < 2 ^ 27 then 2 * p.toNat else 2 * (2 ^ 28 - 1 - p.toNat)) ∧
  (∀ lfsr : BitVec 23, (waveNoise lfsr).toNat = 2 ^ 5 * lfsr.toNat) ∧
  (∀ (wtBits : Nat) (wt : List (BitVec 16)) (p : BitVec 28),
      ((waveTable wtBits wt p).toNat : Int) = ((wt.getD (p.toNat / 2 ^ (28 - wtBits)) 0).toInt + 2 ^ 15) * 2 ^ 12) ∧
  ∀ (wtBits : Nat) (f : BitVec 7) (wt : List (BitVec 16)) (lfsr : BitVec 23) (p w : BitVec 28),
    w ∈ activeWaves wtBits f wt lfsr p ↔
      (f.getLsbD 0 = true ∧ w = p) ∨ (f.getLsbD 1 = true ∧ w = waveSquare p) ∨
      (f.getLsbD 2 = true ∧ w = waveTriangle p) ∨ (f.getLsbD 3 = true ∧ w = waveNoise lfsr) ∨
      (f.getLsbD 4 = true ∧ w = waveTable wtBits wt p)

/-- O39 (R140). For every 28-bit code the scaled value is finite and, in units of 2^-1074, equal to code times 2^1046
minus 2^1073; code 2^27 gives the pattern of +0.0. -/
def Obligations.ScalingIsExact : Prop :=
  (∀ c : BitVec 28, (scaleCode c).isFinite = true ∧
      (scaleCode c).scaled = (c.toNat : Int) * 2 ^ 1046 - 2 ^ 1073) ∧
  scaleCode 0x8000000 = ⟨0x0000000000000000⟩

/-- O40 (R130). After the sync pass there are as many voices as before, and each differs from the old one at most in its
latch and its phase. Voice i tests voice m = i - 1 (voice 0 the last one): the phase it sees is m's after m's own
possible zeroing, but for voice 0, which sees the last voice's before it. Voice i's phase becomes 0 exactly when its
SYNC flag is set, bit 27 of the phase seen is 1 and m's old latch is 0, and is the old one otherwise; m's latch
becomes bit 27 of the phase seen. -/
def Obligations.SyncPassZeroesSlavesOnly : Prop :=
  ∀ vs : List Voice, (syncPass vs).length = vs.length ∧
    (∀ (i : Nat) (v w : Voice), vs[i]? = some v → (syncPass vs)[i]? = some w →
      w = { v with phase := w.phase, latch := w.latch }) ∧
    ∀ (i : Nat) (v w m m' seen : Voice), vs[i]? = some v → (syncPass vs)[i]? = some w →
      vs[(i + vs.length - 1) % vs.length]? = some m → (syncPass vs)[(i + vs.length - 1) % vs.length]? = some m' →
      (if i = 0 then vs[vs.length - 1]? else (syncPass vs)[i - 1]?) = some seen →
      w.phase = (if v.flags.getLsbD 5 = true ∧ seen.phase.getLsbD 27 = true ∧ m.latch = false then 0 else v.phase) ∧
      m'.latch = seen.phase.getLsbD 27

/-- O41 (R131, R135, R141, R142, R143, R144, R145, R362). One sample advances the phase by the increment modulo 2^28 and
steps the noise register when NOISE is set and bit 23 of the phase rises; a muted voice outputs +0.0 with its
envelope unchanged; any other steps its envelope once and outputs its scaled code times the new envelope value; no
other register changes. A bank sample makes the sync pass, samples every voice, sums their outputs times G_DIRECT
and times G_FILTER, each from +0.0 in index order, filters the two sums, and changes only the voices and the filter.
The inner frame starts from +0.0 in every channel; with SRC_OSC the bank's value is added to every channel, with
SRC_RS then the resampler's frame, channel by channel; a source that is absent does not step. -/
def Obligations.VoiceAndBankSampleRules : Prop :=
  (∀ (wtBits : Nat) (v : Voice),
      let w := (oscSample wtBits v).2
      w.phase.toNat = (v.phase.toNat + v.inc.toNat) % 2 ^ 28 ∧
      w.lfsr = (if v.flags.getLsbD 3 = true ∧ v.phase.getLsbD 23 = false ∧ w.phase.getLsbD 23 = true
        then lfsrStep v.lfsr else v.lfsr) ∧
      w = { v with phase := w.phase, lfsr := w.lfsr, env := w.env } ∧
      (v.flags.getLsbD 6 = true → (oscSample wtBits v).1 = ⟨0x0000000000000000⟩ ∧ w.env = v.env) ∧
      (v.flags.getLsbD 6 = false → w.env = envStep v.env ∧
        (oscSample wtBits v).1 = (scaleCode (voiceCode wtBits w)).mul (envStep v.env).value)) ∧
  (∀ s : State,
    let outs := (syncPass s.voices).map (oscSample s.cfg.wtBits)
    let sum : (Voice → F64) → F64 := fun g => outs.foldl (fun acc o => acc.add (o.1.mul (g o.2))) ⟨0x0000000000000000⟩
    let r := filterSample s.cfg s.filter (sum Voice.gDirect) (sum Voice.gFilter)
    bankSample s = (r.1, { s with voices := outs.map Prod.snd, filter := r.2 })) ∧
  ∀ s : State,
    let zeros := List.replicate s.cfg.channels (F64.mk 0x0000000000000000)
    let banked := List.replicate s.cfg.channels ((F64.mk 0x0000000000000000).add (bankSample s).1)
    let plus : List F64 → List F64 × State → List F64 × State := fun acc r => (List.zipWith F64.add acc r.1, r.2)
    (s.cfg.srcOsc = true → s.cfg.srcRs = false → innerFrame s = .ok (banked, (bankSample s).2)) ∧
    (s.cfg.srcOsc = false → s.cfg.srcRs = true → innerFrame s = (rsSample s).map (plus zeros)) ∧
    (s.cfg.srcOsc = true → s.cfg.srcRs = true → innerFrame s = (rsSample (bankSample s).2).map (plus banked)) ∧
    (s.cfg.srcOsc = false → s.cfg.srcRs = false → innerFrame s = .ok (zeros, s))

/-- O42 (R139, R146). With flags {SQUARE} and shift 0 the code is 2^28 - 1 while bit 27 of the phase is clear and 0
while it is set; with no waveform flag the code is 2^27 at every phase, whatever SYNC and MUTE are; the code of a
voice with an active waveform has exactly the bits that every active waveform has. -/
def Obligations.SquareVoiceHasTwoLevels : Prop :=
  ∀ (wtBits : Nat) (v : Voice),
    (v.flags = 0x02 → v.shift = 0 →
      voiceCode wtBits v = if v.phase.getLsbD 27 = true then 0 else 0xFFFFFFF) ∧
    (v.flags.extractLsb' 0 5 = 0 → voiceCode wtBits v = 0x8000000) ∧
    (activeWaves wtBits v.flags v.wt v.lfsr (shiftedPhase v.phase v.shift) ≠ [] → ∀ k, k < 28 →
      ((voiceCode wtBits v).getLsbD k = true ↔
        ∀ w ∈ activeWaves wtBits v.flags v.wt v.lfsr (shiftedPhase v.phase v.shift), w.getLsbD k = true))

/-- O43 (R243, R301, R302, R303, R304, R361). For every RATIO and ZC from 1 the decimation output is, with C = RATIO ZC,
the sum from +0.0, in increasing window index k below 2 C, of table entry n - n div RATIO times window entry k, over
the k whose distance n from C is 0 or no multiple of RATIO: the older half outermost first, the centre, the newer
half innermost first. A push of a frame drops the oldest value of every channel's window, stores the channel's value
last and changes nothing else. The frame of a tick is the inner frame without an oversampler; with one, exactly
RATIO inner frames are produced, each pushed on every window, and channel c is the decimation output of window c
over the cached table. With RATIO = 1 the stored table is [1.0] for every ZC and Kaiser beta, and the output is
numerically equal to a finite midpoint, entry ZC; so the output after a finite value and then ZC more values have
been pushed into a window of 2 ZC + 1 is numerically equal to that value. -/
def Obligations.OversamplerRules : Prop :=
  (∀ (ratio zc : Nat) (table w : List F64), 1 ≤ ratio → 1 ≤ zc →
      let c := ratio * zc
      let distance : Nat → Nat := fun k => (c - k) + (k - c)
      firOut ratio zc table w =
        ((List.range (2 * c)).filter fun k => decide (distance k = 0 ∨ distance k % ratio ≠ 0)).foldl
          (fun acc k => acc.add ((table.getD (distance k - distance k / ratio) ⟨0x0000000000000000⟩).mul
            (w.getD k ⟨0x0000000000000000⟩))) ⟨0x0000000000000000⟩) ∧
  (∀ (frame : List F64) (s : State),
      pushFrame frame s = { s with osw := (pushFrame frame s).osw } ∧
      (pushFrame frame s).osw.length = min s.osw.length frame.length ∧
      ∀ (c : Nat) (w : List F64) (x : F64), s.osw[c]? = some w → frame[c]? = some x →
        (pushFrame frame s).osw[c]? = some (w.drop 1 ++ [x])) ∧
  (∀ (s u : State) (frame : List F64), tickFrame s = .ok (frame, u) ↔ TickDelivers s frame u) ∧
  (∀ (zc : Nat) (w : List F64), (w.getD zc F64.zero).isFinite = true →
      (firOut 1 zc [F64.one] w).eq (w.getD zc F64.zero) = true) ∧
  (∀ (w : List F64) (x : F64) (k : Nat), w ≠ [] →
    (pushValue w x).length = w.length ∧
    (pushValue w x).getD (w.length - 1) F64.zero = x ∧
    (k + 1 < w.length → (pushValue w x).getD k F64.zero = w.getD (k + 1) F64.zero)) ∧
  (∀ (zc : Nat) (beta : F64), firEntries 1 zc beta = [⟨0x3FF0000000000000⟩]) ∧
  ∀ (zc : Nat) (w xs : List F64) (x : F64), w.length = 2 * zc + 1 → xs.length = zc → x.isFinite = true →
    (firOut 1 zc [F64.one] (xs.foldl pushValue (pushValue w x))).eq x = true

/-- O44 (R240, R241, R242, R243, R244, R245, R246). For a positive RATIO the index map n - n div RATIO takes the offsets
below RATIO ZC that are no multiple of RATIO, in increasing order, to exactly 1, 2, ..., ZC (RATIO - 1), and 0 to 0;
so the FIR table has 1 + ZC (RATIO - 1) entries. Entry 0 is 1 / S and entry n - n div RATIO is h(n) / S, for h(n) =
sinc(n / RATIO) times kaiser(n / (RATIO ZC), beta) and S = 1 + 2 times the sum of the h(n). The phased-sinc table
has 2^PHASE_BITS rows of 2 HALF entries; entry k of row ph is h(k) / s, for h(k) = (sc sinc(sc d)) kaiser(d / HALF,
beta), d = (k - HALF + 1) - ph / 2^PHASE_BITS and s the row's sum. sinc is 1 at 0, +0.0 at every other integer, else
F_sin(PI x) / (PI x); kaiser is +0.0 beyond 1 in magnitude, else I0(beta sqrt(1 - t t)) / I0(beta). I0(x) is the sum
s at the first k, from 1, whose term t is below s 2^-53, or at k = 1000; from s = t = 1, term k is the one before
times the square of (x / 2) / k. For a key in range, row 0 at scale 1 is 1.0 at k = HALF - 1 and +0.0 elsewhere. -/
def Obligations.TableEntriesAndTapIndexMap : Prop :=
  (∀ (ratio zc : Nat) (beta : F64), 1 ≤ ratio →
    (firOffsets ratio zc).map (firIdx ratio) = (List.range (zc * (ratio - 1))).map (· + 1) ∧
    firIdx ratio 0 = 0 ∧ (firEntries ratio zc beta).length = 1 + zc * (ratio - 1) ∧
    (∀ n, n ∈ firOffsets ratio zc ↔ 1 ≤ n ∧ n < ratio * zc ∧ n % ratio ≠ 0) ∧
    let h : Nat → F64 := fun n => (sinc ((F64.ofNat n).div (F64.ofNat ratio))).mul
      (kaiser ((F64.ofNat n).div (F64.ofNat (ratio * zc))) beta)
    let offsets := (List.range (ratio * zc)).filter fun n => decide (n % ratio ≠ 0)
    let sum := F64.one.add (F64.two.mul ((offsets.map h).foldl F64.add ⟨0x0000000000000000⟩))
    (keyEntries (.fir ratio zc beta))[0]? = some (F64.one.div sum) ∧
    ∀ n, 1 ≤ n → n < ratio * zc → n % ratio ≠ 0 →
      (keyEntries (.fir ratio zc beta))[n - n / ratio]? = some ((h n).div sum)) ∧
  (∀ (bits half : Nat) (beta sc : F64),
    let h : Nat → Nat → F64 := fun ph k =>
      let d := (F64.ofInt ((k : Int) - half + 1)).sub ((F64.ofNat ph).div (F64.ofNat (2 ^ bits)))
      (sc.mul (sinc (sc.mul d))).mul (kaiser (d.div (F64.ofNat half)) beta)
    (keyEntries (.psinc bits half beta sc)).length = 2 ^ bits * (2 * half) ∧
    ∀ ph k, ph < 2 ^ bits → k < 2 * half →
      (keyEntries (.psinc bits half beta sc))[ph * (2 * half) + k]? =
        some ((h ph k).div (((List.range (2 * half)).map (h ph)).foldl F64.add ⟨0x0000000000000000⟩))) ∧
  (∀ x : F64, (x.eq F64.zero = true → sinc x = ⟨0x3FF0000000000000⟩) ∧
    (x.eq F64.zero = false → x.isFinite = true → x.scaled % 2 ^ 1074 = 0 → sinc x = ⟨0x0000000000000000⟩) ∧
    ((x.isFinite = false ∨ x.scaled % 2 ^ 1074 ≠ 0) →
      sinc x = (fSin (F64.mul ⟨0x400921FB54442D18⟩ x)).div (F64.mul ⟨0x400921FB54442D18⟩ x))) ∧
  (∀ t beta : F64, (F64.one.lt t.abs = true → kaiser t beta = ⟨0x0000000000000000⟩) ∧
    (F64.one.lt t.abs = false →
      kaiser t beta = (besselI0 (beta.mul (F64.one.sub (t.mul t)).sqrt)).div (besselI0 beta))) ∧
  (∀ (x : F64) (s t : Nat → F64) (last : Nat), s 0 = F64.one → t 0 = F64.one →
    (∀ k, k < last →
      t (k + 1) = (t k).mul (((x.div F64.two).div (F64.ofNat (k + 1))).mul
        ((x.div F64.two).div (F64.ofNat (k + 1)))) ∧
      s (k + 1) = (s k).add (t (k + 1))) →
    1 ≤ last → last ≤ 1000 → (∀ k, 1 ≤ k → k < last → (t k).lt ((s k).mul ⟨0x3CA0000000000000⟩) = false) →
    (last < 1000 → (t last).lt ((s last).mul ⟨0x3CA0000000000000⟩) = true) → besselI0 x = s last) ∧
  ∀ (bits half : Nat) (beta : F64), keyInRange (.psinc bits half beta F64.one) = true → ∀ k, k < 2 * half →
    (keyEntries (.psinc bits half beta F64.one))[k]? =
      some (if k + 1 = half then ⟨0x3FF0000000000000⟩ else ⟨0x0000000000000000⟩)

/-- O45 (R6, R243, R246, R247, R248, R249, R392). If generation raises no fault, there are CACHE_SLOTS slots and for
every key the instance uses the lookup answers the table its generator gives. It raises none exactly when every key
is in range, every normalisation sum is accepted and there are no more distinct keys than slots. At the first key
that fails, not among the ones before it: out of range is TABLE_PARAMS; in range with no slot left is CACHE_FULL; in
range with a slot left and a sum refused is TABLE_PARAMS. A key is in range as rule R6 says (both betas finite, 0 to
50, scales finite, above 0, at most 1), and a sum is accepted when it is finite and not at most 0. A cause leaves
the block faulted with that cause after reset, header 0, operand 0, and TABLES_READY = 0. -/
def Obligations.TableGenerationFillsOrFaults : Prop :=
  (∀ (p : Params) (slots : List (Option Slot)), generateTables p = (slots, none) →
      slots.length = p.cacheSlots ∧ ∀ k ∈ resetKeys p, lookup slots k = some (keyEntries k)) ∧
  (∀ p : Params, (generateTables p).2 = none ↔
      (∀ k ∈ resetKeys p, keyInRange k = true ∧ keySumsAccepted k = true) ∧
      (resetKeys p).dedup.length ≤ p.cacheSlots) ∧
  (∀ (p : Params) (pre post : List Key) (k : Key), resetKeys p = pre ++ k :: post →
      (∀ l ∈ pre, keyInRange l = true ∧ keySumsAccepted l = true) → k ∉ pre → pre.dedup.length ≤ p.cacheSlots →
      (keyInRange k = false → (generateTables p).2 = some .tableParams) ∧
      (keyInRange k = true → pre.dedup.length = p.cacheSlots → (generateTables p).2 = some .cacheFull) ∧
      (keyInRange k = true → pre.dedup.length < p.cacheSlots → keySumsAccepted k = false →
        (generateTables p).2 = some .tableParams)) ∧
  (∀ (n h : Nat) (b sc : F64),
    let betaLegal := b.isFinite = true ∧ F64.zero.le b = true ∧ b.le ⟨0x4049000000000000⟩ = true
    let accepted : F64 → Prop := fun x => x.isFinite = true ∧ x.le F64.zero = false
    (keyInRange (.fir n h b) = true ↔ (1 ≤ n ∧ n ≤ 16) ∧ (1 ≤ h ∧ h ≤ 64) ∧ betaLegal) ∧
    (keyInRange (.psinc n h b sc) = true ↔ n ≤ 12 ∧ (1 ≤ h ∧ h ≤ 32) ∧ betaLegal ∧
      sc.isFinite = true ∧ F64.zero.lt sc = true ∧ sc.le F64.one = true) ∧
    (keySumsAccepted (.fir n h b) = true ↔ accepted (firSum n h b)) ∧
    (keySumsAccepted (.psinc n h b sc) = true ↔
      ∀ ph, ph < 2 ^ n → accepted (sumList (psincRaw (2 ^ n) h b sc ph)))) ∧
  ∀ (s : State) (c : FaultCause), (generateTables s.cfg).2 = some c →
    (resetBlock s).faulted = true ∧ (resetBlock s).faultCause = c ∧ (resetBlock s).faultHdr = 0 ∧
    (resetBlock s).faultArg = 0 ∧ (resetBlock s).tablesReady = false

/-- O46 (R40, R43, R45, R46, R390, R430, R431, R392). From every state, faulted or not, with a tick suspended or a pull
outstanding: if table generation succeeds, STATUS is 12, no fault is recorded, TICK, SAMPLE_RATE, INNER_RATE,
EV_TICK, CB_ID, the heap, the voices, the filter, the resampler and the window have their reset values, written out
register by register (W by the formula of rule R171 at FC = 1, OFF and D by those of R171 and R172, which with the
default constants are OFF_HI and D_MAX), and an outstanding pull is refused; if it raises a cause, the block is
faulted with that cause, header 0 and operand 0, and TABLES_READY is 0. Sample memory and the parameters are
unchanged. -/
def Obligations.ResetWritesEveryRegister : Prop :=
  ∀ s : State,
    let t := resetBlock s
    let zero : F64 := ⟨0x0000000000000000⟩
    let one : F64 := ⟨0x3FF0000000000000⟩
    t.cfg = s.cfg ∧ t.mem = s.mem ∧ t.pull = false ∧
    (s.pull = true → t.reply = .pullRefused) ∧
    t.tick = 0 ∧ t.sampleRate = F64.zero ∧ t.innerRate = F64.zero ∧ t.evTick = 0 ∧ t.cbId = 0 ∧ t.heap = [] ∧
    t.voices = List.replicate s.cfg.nOsc {
      phase := 0, inc := 0, shift := 0, flags := 0, lfsr := 1, latch := false, gDirect := zero, gFilter := zero,
      wt := List.replicate (2 ^ s.cfg.wtBits) 0,
      env := {
        state := .idle, value := zero, nA := zero, nD := zero, nR := zero, sustain := one,
        curveA := ⟨0x3FD3333333333333⟩, curveD := ⟨0x3F1A36E2EB1C432D⟩, curveR := ⟨0x3F1A36E2EB1C432D⟩,
        coefA := zero, baseA := ⟨0x3FF4CCCCCCCCCCCD⟩, coefD := zero, baseD := ⟨0x3FEFFF2E48E8A71E⟩,
        coefR := zero, baseR := ⟨0xBF1A36E2EB1C432D⟩ } } ∧
    t.filter = {
      lp := zero, bp := zero, hp := zero, fc := one, q := zero,
      w := s.cfg.wMin.mul (fExp (one.mul (fLn (s.cfg.wMax.div s.cfg.wMin)))),
      off := s.cfg.offLo.add (one.mul (s.cfg.offHi.sub s.cfg.offLo)),
      d := s.cfg.dMax.sub (zero.mul (s.cfg.dMax.sub s.cfg.dMin)), gLp := one, gBp := zero, gHp := zero } ∧
    (s.cfg = Params.default → t.filter.off = s.cfg.offHi ∧ t.filter.d = s.cfg.dMax) ∧
    t.rs = { base := 0, baseTop := false, frames := 0, bufRate := zero, bufPitch := zero, pos := 0, inc := 0 } ∧
    t.osw = (if s.cfg.oversample = true
      then List.replicate s.cfg.channels (List.replicate s.cfg.lFir F64.zero) else []) ∧
    ((generateTables s.cfg).2 = none → statusWord t = 0b01100 ∧
      t.faultCause = .none ∧ t.faultHdr = 0 ∧ t.faultArg = 0 ∧ t.slots = (generateTables s.cfg).1) ∧
    (∀ c, (generateTables s.cfg).2 = some c → statusWord t = 0b00101 ∧
      t.faultCause = c ∧ t.faultHdr = 0 ∧ t.faultArg = 0)

/-- O47 (R31, R33, R34, R35, R36, R37, R38, R39, R50, R51, R52, R72). A read that is the host's next action answers the
register's value and changes nothing else, at every 12-bit address; the addresses 0x010 to 0x01F, 0x02B to 0x03F,
0x046 to 0x0FF, and those of a voice block at or beyond the number of voices read 0, as do offsets 8 to 15 and 31 of
a voice block. Every listed address of the engine, the filter, the resampler and of the block of each existing voice
reads its register: STATUS bit by bit, the fault record with its cause code, TICK, NEXT_T, HEAP_COUNT, CB_ID, the
rates and EV_TICK; binary64 registers as their pattern, SHIFT sign-extended, narrower registers zero-extended,
RS_BASE with the bit above its own (log entry 14). (ID, CONFIG0, CONFIG1, BETA_FIR and BETA_RS have a statement of
their own.) -/
def Obligations.RegisterReads : Prop :=
  ∀ (s : State) (addr : BitVec 12) (rest : List HostAction),
    (engineDue s = false → takePacket s.port = none → s.inbox = .read addr :: rest →
      step s = .next { s with inbox := rest, reply := .value (readRegister s addr) }) ∧
    ((0x010 ≤ addr.toNat ∧ addr.toNat ≤ 0x01F) ∨ (0x02B ≤ addr.toNat ∧ addr.toNat ≤ 0x03F) ∨
        (0x046 ≤ addr.toNat ∧ addr.toNat ≤ 0x0FF) ∨ 0x100 + 0x20 * s.voices.length ≤ addr.toNat →
      readRegister s addr = 0) ∧
    (0x100 ≤ addr.toNat → ((8 ≤ addr.toNat % 32 ∧ addr.toNat % 32 ≤ 15) ∨ addr.toNat % 32 = 31) →
      readRegister s addr = 0) ∧
    ((readRegister s 0x003).getLsbD 0 = s.faulted ∧ (readRegister s 0x003).getLsbD 1 = s.cbPending ∧
      (readRegister s 0x003).getLsbD 2 = s.heap.isEmpty ∧ (readRegister s 0x003).getLsbD 3 = s.tablesReady ∧
      (readRegister s 0x003).getLsbD 4 = s.inTick ∧ ∀ k, 5 ≤ k → (readRegister s 0x003).getLsbD k = false) ∧
    (∀ q ∈ [(FaultCause.none, 0), (.illegalCommand, 1), (.badIndex, 2), (.zeroSampleRate, 3), (.badArg, 4),
        (.badBuffer, 5), (.queueFull, 6), (.callbackState, 7), (.tableParams, 8), (.cacheFull, 9)],
      s.faultCause = q.1 → readRegister s 0x004 = q.2) ∧
    (s.heap = [] → readRegister s 0x008 = 0xFFFFFFFFFFFFFFFF) ∧
    (∀ e events, s.heap = e :: events → readRegister s 0x008 = e.t) ∧
    (∀ q ∈ [((0x005 : BitVec 12), s.faultHdr.setWidth 64), (0x006, s.faultArg), (0x007, s.tick),
        (0x009, BitVec.ofNat 64 s.heap.length), (0x00A, s.cbId), (0x00B, s.sampleRate.bits),
        (0x00C, s.innerRate.bits), (0x00D, s.evTick), (0x020, s.filter.lp.bits), (0x021, s.filter.bp.bits),
        (0x022, s.filter.hp.bits), (0x023, s.filter.fc.bits), (0x024, s.filter.q.bits), (0x025, s.filter.w.bits),
        (0x026, s.filter.d.bits), (0x027, s.filter.off.bits), (0x028, s.filter.gLp.bits),
        (0x029, s.filter.gBp.bits), (0x02A, s.filter.gHp.bits), (0x040, BitVec.ofNat 64 (rsBase s.cfg s.rs)),
        (0x041, s.rs.frames.setWidth 64),
        (0x042, s.rs.bufRate.bits), (0x043, s.rs.bufPitch.bits), (0x044, s.rs.pos), (0x045, s.rs.inc.setWidth 64)],
      readRegister s q.1 = q.2) ∧
    ∀ (i : Nat) (v : Voice), i < 64 → s.voices[i]? = some v →
      (∀ q ∈ [(EnvState.idle, 0), (.attack, 1), (.decay, 2), (.sustain, 3), (.release, 4)],
        v.env.state = q.1 → readRegister s (BitVec.ofNat 12 (0x100 + 0x20 * i + 0x10)) = q.2) ∧
      ∀ q ∈ [(0x00, v.phase.setWidth 64), (0x01, v.inc.setWidth 64), (0x02, v.shift.signExtend 64),
          (0x03, v.flags.setWidth 64), (0x04, v.lfsr.setWidth 64), (0x05, if v.latch = true then 1 else 0),
          (0x06, v.gDirect.bits), (0x07, v.gFilter.bits), (0x11, v.env.value.bits), (0x12, v.env.nA.bits),
          (0x13, v.env.nD.bits), (0x14, v.env.sustain.bits), (0x15, v.env.nR.bits), (0x16, v.env.curveA.bits),
          (0x17, v.env.curveD.bits), (0x18, v.env.curveR.bits), (0x19, v.env.coefA.bits), (0x1A, v.env.baseA.bits),
          (0x1B, v.env.coefD.bits), (0x1C, v.env.baseD.bits), (0x1D, v.env.coefR.bits), (0x1E, v.env.baseR.bits)],
        readRegister s (BitVec.ofNat 12 (0x100 + 0x20 * i + q.1)) = q.2

/-- O48 (R31, R32, R51). On every state: address 0 reads 0x534E445052470001; for parameters in the ranges of rule R6 the
fields of CONFIG0 are N_OSC, CHANNELS, SRC_OSC, SRC_RS, OVERSAMPLE, EQ_TICK_ORDER (0 for heap), RATIO, ZC,
PHASE_BITS, HALF, WT_BITS and zeros, and those of CONFIG1 HEAP_CAP, CACHE_SLOTS, SAMPLE_ADDR_BITS and zeros. -/
def Obligations.ConfigurationReflected : Prop :=
  ∀ s : State, paramsCounted s.cfg →
    let c0 := (readRegister s 0x001).toNat
    let c1 := (readRegister s 0x002).toNat
    let bit : Bool → Nat := fun b => if b = true then 1 else 0
    readRegister s 0x000 = 0x534E445052470001 ∧
    c0 = s.cfg.nOsc + 2 ^ 8 * s.cfg.channels + 2 ^ 12 * bit s.cfg.srcOsc + 2 ^ 13 * bit s.cfg.srcRs +
      2 ^ 14 * bit s.cfg.oversample + 2 ^ 15 * bit (decide (s.cfg.eqTickOrder ≠ .heap)) +
      2 ^ 16 * s.cfg.ratio + 2 ^ 24 * s.cfg.zc + 2 ^ 32 * s.cfg.phaseBits + 2 ^ 36 * s.cfg.half +
      2 ^ 42 * s.cfg.wtBits ∧
    c1 = s.cfg.heapCap + 2 ^ 32 * s.cfg.cacheSlots + 2 ^ 40 * s.cfg.sampleAddrBits ∧
    readRegister s 0x00E = s.cfg.betaFir.bits ∧ readRegister s 0x00F = s.cfg.betaRs.bits

/-- O49 (R73, R75, R80, R441). After a write of word a, word a reads as the written value and every other word as
before. A SampleRead inside the address space answers the word, or, only for a word the host wrote while it was
bound, an earlier value of it, and changes nothing but the count of free choices. A host write of a word that is not
bound is the only value that a read of it then answers; a write of a bound word keeps the value before it among
those a read may answer. Which earlier values may return is the model's choice (log entry 8), and so is that an
access outside the address space stops with a fault (log entry 18). -/
def Obligations.SampleWordReadAfterWrite : Prop :=
  (∀ (m : Memory) (a b : Nat) (v : Word64),
      wordRead (wordWrite m a v) b = if b = a then v else wordRead m b) ∧
  ∀ (s : State) (a : Nat),
    (a < 2 ^ s.cfg.sampleAddrBits → ∃ x n, sampleRead a s = .ok (x, { s with draws := n }) ∧
      (x.bits = wordRead s.mem a ∨ (a, x.bits) ∈ s.raced)) ∧
    (2 ^ s.cfg.sampleAddrBits ≤ a → sampleRead a s = .error .sampleAddress) ∧
    ∀ v : Word64,
      (a < 2 ^ s.cfg.sampleAddrBits → ∃ t, sampleWrite a v s = .next t ∧ wordRead t.mem a = v ∧
        t = { s with mem := t.mem, raced := t.raced } ∧
        (∀ x, memRead t.mem x = if x / 8 = a then byteOf v (x % 8) else memRead s.mem x) ∧
        (inExtent s.cfg s.rs a = false → sampleRead a t = .ok (⟨v⟩, t)) ∧
        (inExtent s.cfg s.rs a = true → (a, wordRead s.mem a) ∈ t.raced)) ∧
      (2 ^ s.cfg.sampleAddrBits ≤ a → sampleWrite a v s = .fault .sampleAddress)

/-- O50 (R302, R303, R361, R362, R363, R368). In every state that meets the invariant, when a pull's tick is due, has
not started, a sample rate is set and no event is due, the step answers a next state whose answer is a frame of
CHANNELS values, the inner frame without an oversampler, and with one, after RATIO inner frames pushed on every
window, each channel's decimation output; the next state is what those samples left, completed; TICK is one more
(mod 2^64), IN_TICK is 0, no pull is outstanding, and the heap, the parameters, the rates, the whole fault record,
TABLES_READY, the callback state, the slots, what every byte of sample memory reads as and the host's actions are
unchanged. -/
def Obligations.QuietTickDeliversFrame : Prop :=
  ∀ s : State, Inv s → engineDue s = true → s.inTick = false → s.sampleRate.eq F64.zero = false →
    eventDue s = false →
    ∃ t frame u, step s = .next t ∧ TickDelivers { s with inTick := true } frame u ∧ t = tickCompleted u frame ∧
      t.reply = .frame frame ∧ frame.length = s.cfg.channels ∧
      t.tick = s.tick + 1 ∧ t.inTick = false ∧ t.pull = false ∧ t.faulted = false ∧ t.heap = s.heap ∧
      t.cfg = s.cfg ∧ t.sampleRate = s.sampleRate ∧ t.innerRate = s.innerRate ∧ t.evTick = s.evTick ∧
      t.faultCause = s.faultCause ∧ t.faultHdr = s.faultHdr ∧ t.faultArg = s.faultArg ∧
      t.tablesReady = s.tablesReady ∧ t.cbId = s.cbId ∧ t.cbPending = false ∧ t.slots = s.slots ∧
      (∀ x, memRead t.mem x = memRead s.mem x) ∧ t.port = s.port ∧ t.inbox = s.inbox

/-- O51 (R324, R325, R326, R327, R361). In every state that meets the invariant with a tick due, started (a suspended
tick that resumes) or not started with a sample rate set: if after k events that ran without a fault or a callback
another is due, the event popped decodes to a command, and its execution answers a state that is faulted or has a
callback pending, then the step answers exactly that state. TICK does not move and no sample is computed: the
oversampler window, the filter taps and every voice's phase are as before the step. The heap before the last event
holds that event and the heap of the next state, each event as often: it stays removed, and the rest stays. -/
def Obligations.EventStopsTick : Prop :=
  ∀ (s a s1 u : State) (k : Nat) (e : Event) (i : Instr), Inv s → engineDue s = true →
    (s.inTick = true ∨ s.sampleRate.eq F64.zero = false) →
    firedEvents k { s with inTick := true } = some a → eventDue a = true → popEvent a = some (e, s1) →
    decodePacket e.hdr e.arg = .ok i → exec i s1 = .next u → (u.faulted = true ∨ u.cbPending = true) →
    step s = .next u ∧ u.tick = s.tick ∧ a.heap.Perm (e :: u.heap) ∧ u.osw = s.osw ∧
    u.filter.lp = s.filter.lp ∧ u.filter.bp = s.filter.bp ∧ u.filter.hp = s.filter.hp ∧
    u.voices.map Voice.phase = s.voices.map Voice.phase ∧ s.heap.length = a.heap.length + k

/-- O52 (R303, R324, R361, R363). In every state that meets the invariant, if the engine's step answers a state that is
neither faulted nor waiting for a callback, then some number of due events, each popped while due, executed without
a fault or a callback, one after the other, and the tick was completed from the state they left, in which none is
due, with the frame of rule R361 (the inner frame, or the oversampled one); TICK is one more, the pull is answered
with that frame, and every event left in the heap has a trigger tick above the tick that was produced. -/
def Obligations.CompletedTickLeavesNoDueEvent : Prop :=
  ∀ s t : State, Inv s → engineDue s = true → step s = .next t → t.faulted = false → t.cbPending = false →
    (∃ k a, firedEvents k { s with inTick := true } = some a ∧ eventDue a = false ∧
      (∃ frame u, TickDelivers a frame u ∧ t = tickCompleted u frame) ∧
      s.heap.length = a.heap.length + k) ∧
    t.tick = s.tick + 1 ∧ t.pull = false ∧ (∃ frame, t.reply = .frame frame) ∧
    ∀ e ∈ t.heap, s.tick.toNat < e.t.toNat

/-- O53 (R34, R361, R363, R443). When a pull is the host's next action: faulted or without tables it answers the refusal
and changes nothing else; otherwise, with none outstanding, it becomes outstanding, and its tick is due exactly when
no callback is pending. A due tick that has not started, with SAMPLE_RATE zero, enters the fault state with
ZERO_SAMPLE_RATE, header 0 and operand 0, and its pull is refused. -/
def Obligations.PullProtocol : Prop :=
  (∀ (s : State) (rest : List HostAction), engineDue s = false → takePacket s.port = none →
      s.inbox = .pull :: rest →
      ((s.faulted = true ∨ s.tablesReady = false) →
        step s = .next { s with inbox := rest, reply := .pullRefused }) ∧
      (s.faulted = false → s.tablesReady = true → s.pull = false →
        step s = .next { s with inbox := rest, pull := true } ∧
        engineDue { s with inbox := rest, pull := true } = !s.cbPending)) ∧
  ∀ s : State, engineDue s = true → s.inTick = false → s.sampleRate.eq F64.zero = true →
    step s = .next (enterFault .zeroSampleRate 0 0 s) ∧
    (enterFault .zeroSampleRate 0 0 s).reply = .pullRefused

/-- O54 (R431, R42, R49). The machine right after reset meets the invariant. That the default instance's table
generation succeeds is the model's choice (log entry 1). -/
def Obligations.ResetMeetsInvariant : Prop :=
  Inv State.reset

/-- O55 (R36, R40, R42, R43, R45, R46, R49, R73, R221, R248, R272, R393). From every state that meets the invariant, if
the step answers a next state, that state meets it: shifts between -2^28 and 2^28, non-zero noise registers,
wavetable and window shapes, envelope values, sustain levels, FC and Q in [0, 1], legal stage lengths and
curvatures, envelope and filter coefficients that are those of their parameters, INNER_RATE that of SAMPLE_RATE,
RS_BASE an address, the bit above it set only with RS_BASE 0 and no frame bound, and the bound extent inside sample
memory, the heap bounded, ordered and holding only checked commands, every needed table present, sample memory in
canonical form, racing words inside sample memory, a faulted block idle, and a tick in progress only under an
outstanding pull. -/
def Obligations.StepKeepsInvariant : Prop :=
  ∀ s t : State, Inv s → step s = .next t → Inv t

/-- O56 (R248, R279, R360, R401). In every state that meets the invariant the step answers a next state, unless no tick
is due, no whole packet has arrived and the host's next action is a write of a sample-memory word that does not
exist or a second pull (the model's own stops, log entries 17 and 18): no table lookup misses, no resampler read
leaves sample memory, and no command or event stops the machine. -/
def Obligations.MachineNeverStops : Prop :=
  ∀ s : State, Inv s → SafeStep s

/-- O57 (R6). Whatever the state, a step that answers a next state leaves every instance parameter as it was; reset too. -/
def Obligations.ParametersNeverChange : Prop :=
  ∀ s t : State, step s = .next t → t.cfg = s.cfg

/-- O58 (R12). For finite operands whose sum is finite, no finite value is nearer to the exact sum than the result, and
if another value is equally near the result's fraction is even. All are counted exactly, in units of 2^-1074. -/
def Obligations.AdditionRoundsToNearest : Prop :=
  ∀ a b c : F64, a.isFinite = true → b.isFinite = true → c.isFinite = true → (a.add b).isFinite = true →
    let exact := a.scaled + b.scaled
    ((a.add b).scaled - exact).natAbs ≤ (c.scaled - exact).natAbs ∧
    (((a.add b).scaled - exact).natAbs = (c.scaled - exact).natAbs → c.scaled ≠ (a.add b).scaled →
      (a.add b).frac % 2 = 0)

/-- O59 (R12). For finite operands, a non-zero divisor and a finite result, no finite value is nearer to the exact
product (respectively quotient) than the result. All are counted exactly, in units of 2^-1074 cross-multiplied by
the denominator. -/
def Obligations.ProductAndQuotientRoundToNearest : Prop :=
  ∀ a b c : F64, a.isFinite = true → b.isFinite = true → c.isFinite = true →
    ((a.mul b).isFinite = true →
      ((a.mul b).scaled * 2 ^ 1074 - a.scaled * b.scaled).natAbs ≤
        (c.scaled * 2 ^ 1074 - a.scaled * b.scaled).natAbs) ∧
    (b.isZero = false → (a.div b).isFinite = true →
      ((a.div b).scaled * b.scaled - a.scaled * 2 ^ 1074).natAbs ≤
        (c.scaled * b.scaled - a.scaled * 2 ^ 1074).natAbs)

/-- O60 (R16). For every value that is not NaN, F_tanh of its negation is the negation of F_tanh and its magnitude is at
most 1; F_exp of either zero is exactly 1. -/
def Obligations.TanhIsOddAndBounded : Prop :=
  (∀ x : F64, x.isNaN = false → fTanh x.neg = (fTanh x).neg ∧ (fTanh x).abs.le F64.one = true) ∧
  fExp ⟨0x0000000000000000⟩ = ⟨0x3FF0000000000000⟩ ∧ fExp ⟨0x8000000000000000⟩ = ⟨0x3FF0000000000000⟩
end

