-- ==== Sys2Proof/Laws/Float.lean ====
section
/-! SUPPORT. What the binary64 operations can answer (00_scope.md rule R12): the fields of a rounded result, a bound that
no rounding passes, a pattern from its sign and its magnitude, and the ranges of sums, products, quotients and square
roots of bounded values. -/

namespace Sys2Proof

/-! ## Patterns and rounding -/

/-- The fields of a packed pattern below the infinity. -/
theorem F64.pack_fields (neg : Bool) {low : Nat} (h : low < 2 ^ 63) :
    (F64.pack neg low).sign = neg ∧ (F64.pack neg low).expField = low / 2 ^ 52 ∧
    (F64.pack neg low).frac = low % 2 ^ 52 ∧ (F64.pack neg low).low63 = low := by
  have hm : low % 2 ^ 63 = low := Nat.mod_eq_of_lt h
  cases neg
  · have hb : (F64.pack false low).bits.toNat = low := by
      simp only [F64.pack, hm, BitVec.toNat_ofNat]; norm_num; omega
    refine ⟨?_, ?_, ?_, ?_⟩
    · simp only [F64.sign, BitVec.getLsbD, hb]; exact Nat.testBit_lt_two_pow h
    · simp only [F64.expField, hb, Nat.shiftRight_eq_div_pow]; omega
    · simp only [F64.frac, hb]
    · simp only [F64.low63, hb]; omega
  · have hb : (F64.pack true low).bits.toNat = 2 ^ 63 + low := by
      simp only [F64.pack, hm, BitVec.toNat_ofNat]; norm_num; omega
    refine ⟨?_, ?_, ?_, ?_⟩
    · simp only [F64.sign, BitVec.getLsbD, hb]; rw [Nat.testBit_two_pow_add_eq]; simp [Nat.testBit_lt_two_pow h]
    · simp only [F64.expField, hb, Nat.shiftRight_eq_div_pow]; omega
    · simp only [F64.frac, hb]; omega
    · simp only [F64.low63, hb]; omega

/-- The value a rounding stores. -/
theorem F64.pack_lowOf (neg : Bool) {n k : Nat} (hn : n ≤ 2 ^ 53) (hk : 2 ^ 52 ≤ n ∨ k = 0)
    (hf : k * 2 ^ 52 + n < F64.infLow) :
    (F64.pack neg (F64.lowOf n k)).isFinite = true ∧ (F64.pack neg (F64.lowOf n k)).sign = neg ∧
    (F64.pack neg (F64.lowOf n k)).mag = n * 2 ^ k := by
  have hi : F64.infLow = 2047 * 2 ^ 52 := by decide
  have hl : F64.lowOf n k = k * 2 ^ 52 + n := Nat.min_eq_left (Nat.le_of_lt hf)
  rw [hl]
  rw [hi] at hf
  obtain ⟨h1, h2, h3, -⟩ := F64.pack_fields neg (low := k * 2 ^ 52 + n) (by omega)
  refine ⟨?_, h1, ?_⟩
  · simp only [F64.isFinite, h2, bne_iff_ne, ne_eq]; omega
  · simp only [F64.mag, h2, h3, Nat.shiftLeft_eq]
    rcases hk with hk | rfl
    · rcases Nat.lt_or_ge n (2 ^ 53) with hn' | hn'
      · have e1 : (k * 2 ^ 52 + n) / 2 ^ 52 = k + 1 := by omega
        have e2 : 2 ^ 52 + (k * 2 ^ 52 + n) % 2 ^ 52 = n := by omega
        rw [if_neg (by omega), e1, e2, Nat.add_sub_cancel]
      · have e0 : n = 2 ^ 53 := by omega
        have e1 : (k * 2 ^ 52 + n) / 2 ^ 52 = k + 2 := by omega
        have e2 : 2 ^ 52 + (k * 2 ^ 52 + n) % 2 ^ 52 = 2 ^ 52 := by omega
        rw [if_neg (by omega), e1, e2, e0]
        show 2 ^ 52 * 2 ^ (k + 1) = 2 ^ 53 * 2 ^ k
        rw [← pow_add, ← pow_add]; congr 1; omega
    · rcases Nat.lt_or_ge n (2 ^ 52) with hn' | hn'
      · rw [if_pos (by omega)]; omega
      · rcases Nat.lt_or_ge n (2 ^ 53) with h | h
        · have e1 : (0 * 2 ^ 52 + n) / 2 ^ 52 = 1 := by omega
          rw [if_neg (by omega), e1]; omega
        · have e1 : (0 * 2 ^ 52 + n) / 2 ^ 52 = 2 := by omega
          rw [if_neg (by omega), e1]; omega

/-- Rounding to nearest never passes a representable bound (00_scope.md rule R12). -/
theorem F64.pack_roundMag (neg : Bool) {num den m j : Nat} (hd : 0 < den) (hm : m < 2 ^ 53)
    (hB : m * 2 ^ j ≤ 2 ^ 2097) (h : num ≤ den * (m * 2 ^ j)) :
    (F64.pack neg (F64.roundMag num den)).isFinite = true ∧ (F64.pack neg (F64.roundMag num den)).sign = neg ∧
    (F64.pack neg (F64.roundMag num den)).mag ≤ m * 2 ^ j ∧
    ∀ l f, l < 2 ^ 53 → den * (l * 2 ^ f) ≤ num → l * 2 ^ f ≤ (F64.pack neg (F64.roundMag num den)).mag := by
  have hq : num / den ≤ m * 2 ^ j := Nat.div_le_of_le_mul h
  generalize hk : F64.dropBits num den = k
  have hkd : (num / den).log2 - 52 = k := hk
  have hn0 : num / (den * 2 ^ k) = num / den / 2 ^ k := (Nat.div_div_eq_div_mul _ _ _).symm
  -- the quotient has at most 53 bits
  have hlt : num / den / 2 ^ k < 2 ^ 53 := by
    rw [Nat.div_lt_iff_lt_mul (Nat.two_pow_pos _), ← pow_add]
    exact lt_of_lt_of_le Nat.lt_log2_self (Nat.pow_le_pow_right (by decide) (by omega))
  have hge : 2 ^ 52 ≤ num / den / 2 ^ k ∨ k = 0 := by
    rcases Nat.eq_zero_or_pos k with h0 | h0
    · exact .inr h0
    · left
      have hne : num / den ≠ 0 := by intro h1; rw [h1] at hkd; simp at hkd; omega
      rw [Nat.le_div_iff_mul_le (Nat.two_pow_pos _), ← pow_add]
      exact le_trans (Nat.pow_le_pow_right (by decide) (by omega)) (Nat.log2_self_le hne)
  have hkj : k ≤ j := by
    rcases hge with h1 | h1
    · rw [Nat.le_div_iff_mul_le (Nat.two_pow_pos _)] at h1
      have h2 : 2 ^ 52 * 2 ^ k < 2 ^ 53 * 2 ^ j :=
        lt_of_le_of_lt (le_trans h1 hq) (Nat.mul_lt_mul_of_pos_right hm (Nat.two_pow_pos _))
      rw [← pow_add, ← pow_add] at h2
      have := (Nat.pow_lt_pow_iff_right (by decide)).mp h2
      omega
    · omega
  have hd' : 0 < den * 2 ^ k := Nat.mul_pos hd (Nat.two_pow_pos _)
  have hsplit : den * (m * 2 ^ j) = (den * 2 ^ k) * (m * 2 ^ (j - k)) := by
    have : (2 : Nat) ^ j = 2 ^ k * 2 ^ (j - k) := by rw [← pow_add]; congr 1; omega
    rw [this]; ring
  -- what is stored
  obtain ⟨n, hn, hlow, hhi⟩ : ∃ n, F64.roundMag num den = F64.lowOf n k ∧
      num / den / 2 ^ k ≤ n ∧ n ≤ m * 2 ^ (j - k) ∧ n ≤ 2 ^ 53 := by
    refine ⟨_, by rw [F64.roundMag, hk], ?_, ?_, ?_⟩
    · rw [hn0]; split <;> omega
    · split
      · rename_i hr
        have hr0 : num % (den * 2 ^ k) ≠ 0 := by
          intro h0; rw [h0] at hr; omega
        have h1 : num / (den * 2 ^ k) < m * 2 ^ (j - k) := by
          by_contra hc
          have h2 := Nat.div_add_mod num (den * 2 ^ k)
          have h3 : den * 2 ^ k * (m * 2 ^ (j - k)) ≤ den * 2 ^ k * (num / (den * 2 ^ k)) :=
            Nat.mul_le_mul_left _ (Nat.le_of_not_lt hc)
          rw [hsplit] at h
          omega
        omega
      · exact Nat.div_le_of_le_mul (hsplit ▸ h)
    · rw [hn0]; split <;> omega
  have hge' : 2 ^ 52 ≤ n ∨ k = 0 := hge.imp_left (fun h1 => le_trans h1 hlow)
  have hval : n * 2 ^ k ≤ m * 2 ^ j := by
    calc n * 2 ^ k ≤ m * 2 ^ (j - k) * 2 ^ k := Nat.mul_le_mul_right _ hhi.1
      _ = m * 2 ^ j := by rw [mul_assoc, ← pow_add]; congr 2; omega
  have hfin : k * 2 ^ 52 + n < F64.infLow := by
    have hi : F64.infLow = 2047 * 2 ^ 52 := by decide
    rw [hi]
    rcases hge' with h1 | h1
    · have h2 : 2 ^ 52 * 2 ^ k ≤ 2 ^ 2097 := le_trans (Nat.mul_le_mul_right _ h1) (le_trans hval hB)
      rw [← pow_add] at h2
      have h3 := (Nat.pow_le_pow_iff_right (by decide)).mp h2
      rcases Nat.lt_or_ge k 2045 with h4 | h4
      · have h5 := hhi.2; omega
      · have h4' : k = 2045 := by omega
        subst h4'
        have h5 : n * 2 ^ 2045 ≤ 2 ^ 52 * 2 ^ 2045 := le_trans hval (by rw [← pow_add]; exact hB)
        have := Nat.le_of_mul_le_mul_right h5 (Nat.two_pow_pos _)
        omega
    · subst h1; have h5 := hhi.2; omega
  obtain ⟨f1, f2, f3⟩ := F64.pack_lowOf neg hhi.2 hge' hfin
  rw [hn]
  refine ⟨f1, f2, by rw [f3]; exact hval, ?_⟩
  intro l f hl hf
  rw [f3]
  rcases Nat.lt_or_ge f k with h1 | h1
  · rcases hge' with h2 | h2
    · calc l * 2 ^ f ≤ 2 ^ 53 * 2 ^ f := Nat.mul_le_mul_right _ (Nat.le_of_lt hl)
        _ = 2 ^ 52 * 2 ^ (f + 1) := by rw [← pow_add, ← pow_add]; congr 1; omega
        _ ≤ n * 2 ^ k := Nat.mul_le_mul h2 (Nat.pow_le_pow_right (by decide) (by omega))
    · omega
  · have h2 : l * 2 ^ (f - k) ≤ num / den / 2 ^ k := by
      rw [← hn0, Nat.le_div_iff_mul_le hd']
      calc l * 2 ^ (f - k) * (den * 2 ^ k) = den * (l * (2 ^ (f - k) * 2 ^ k)) := by ring
        _ = den * (l * 2 ^ f) := by rw [← pow_add]; congr 3; omega
        _ ≤ num := hf
    calc l * 2 ^ f = l * 2 ^ (f - k) * 2 ^ k := by rw [mul_assoc, ← pow_add]; congr 2; omega
      _ ≤ n * 2 ^ k := Nat.mul_le_mul_right _ (le_trans h2 hlow)

/-! ## Finite values -/

theorem F64.frac_lt (x : F64) : x.frac < 2 ^ 52 := Nat.mod_lt _ (by decide)

theorem F64.expField_lt (x : F64) : x.expField < 2048 := Nat.mod_lt _ (by decide)

theorem F64.low63_eq (x : F64) : x.low63 = x.expField * 2 ^ 52 + x.frac := by
  simp only [F64.low63, F64.expField, F64.frac, Nat.shiftRight_eq_div_pow]; omega

theorem F64.sign_eq (x : F64) : x.sign = decide (2 ^ 63 ≤ x.bits.toNat) := by
  have h := x.bits.isLt
  rw [F64.sign, BitVec.getLsbD, Nat.testBit_eq_decide_div_mod_eq]
  congr 1
  have : x.bits.toNat / 2 ^ 63 ≤ 1 := by omega
  apply propext; constructor <;> intro h1 <;> omega

/-- A pattern is its sign and its 63 low bits. -/
theorem F64.ext_low {x y : F64} (hs : x.sign = y.sign) (hl : x.low63 = y.low63) : x = y := by
  have hx := x.bits.isLt
  have hy := y.bits.isLt
  rw [F64.sign_eq, F64.sign_eq, decide_eq_decide] at hs
  simp only [F64.low63] at hl
  have : x.bits = y.bits := BitVec.eq_of_toNat_eq (by omega)
  cases x; cases y; simpa using this

@[simp] theorem F64.isNaN_of_finite {x : F64} (h : x.isFinite = true) : x.isNaN = false := by
  simp only [F64.isFinite, bne_iff_ne] at h; simp [F64.isNaN, h]

@[simp] theorem F64.isInf_of_finite {x : F64} (h : x.isFinite = true) : x.isInf = false := by
  simp only [F64.isFinite, bne_iff_ne] at h; simp [F64.isInf, h]

/-- Every magnitude is a 53-bit integer times a power of two. -/
theorem F64.mag_eq (x : F64) : ∃ m j, m < 2 ^ 53 ∧ x.mag = m * 2 ^ j ∧ (x.isFinite = true → x.mag ≤ 2 ^ 2098) ∧
    ((2 ^ 52 ≤ m ∧ j + 1 = x.expField ∧ m = 2 ^ 52 + x.frac) ∨ (m < 2 ^ 52 ∧ j = 0 ∧ x.expField = 0 ∧ m = x.frac)) := by
  have hf := x.frac_lt
  have he := x.expField_lt
  by_cases h : x.expField = 0
  · refine ⟨x.frac, 0, by omega, by simp [F64.mag, h], fun _ => ?_, .inr ⟨hf, rfl, h, rfl⟩⟩
    simp only [F64.mag, h, if_true]
    exact le_trans (Nat.le_of_lt hf) (Nat.pow_le_pow_right (by decide) (by decide))
  · refine ⟨2 ^ 52 + x.frac, x.expField - 1, by omega, by simp [F64.mag, h, Nat.shiftLeft_eq], fun hx => ?_,
      .inl ⟨by omega, by omega, rfl⟩⟩
    simp only [F64.isFinite, bne_iff_ne] at hx
    simp only [F64.mag, h, if_false, Nat.shiftLeft_eq]
    calc (2 ^ 52 + x.frac) * 2 ^ (x.expField - 1) ≤ 2 ^ 53 * 2 ^ 2045 :=
          Nat.mul_le_mul (by omega) (Nat.pow_le_pow_right (by decide) (by omega))
      _ = 2 ^ 2098 := by rw [← pow_add]

/-- A pattern is its sign and its magnitude. -/
theorem F64.ext_mag {x y : F64} (hs : x.sign = y.sign) (hm : x.mag = y.mag) : x = y := by
  apply F64.ext_low hs
  rw [F64.low63_eq, F64.low63_eq]
  obtain ⟨m, j, h1, h2, -, h3⟩ := x.mag_eq
  obtain ⟨n, k, g1, g2, -, g3⟩ := y.mag_eq
  have e : m * 2 ^ j = n * 2 ^ k := by rw [← h2, ← g2, hm]
  have aux : ∀ {m j n k : Nat}, m < 2 ^ 53 → 2 ^ 52 ≤ n → m * 2 ^ j = n * 2 ^ k → k ≤ j := by
    intro m j n k a b c
    have : 2 ^ 52 * 2 ^ k < 2 ^ 53 * 2 ^ j :=
      lt_of_le_of_lt (c ▸ Nat.mul_le_mul_right _ b) (Nat.mul_lt_mul_of_pos_right a (Nat.two_pow_pos _))
    rw [← pow_add, ← pow_add] at this
    have := (Nat.pow_lt_pow_iff_right (by decide)).mp this
    omega
  rcases h3 with ⟨a, b, c⟩ | ⟨a, b, c, d⟩ <;> rcases g3 with ⟨a', b', c'⟩ | ⟨a', b', c', d'⟩
  · have hjk : j = k := Nat.le_antisymm (aux g1 a e.symm) (aux h1 a' e)
    subst hjk
    have := Nat.eq_of_mul_eq_mul_right (Nat.two_pow_pos j) e
    omega
  · have := aux g1 a e.symm
    have hj : j = 0 := by omega
    subst hj; subst b'; omega
  · have := aux h1 a' e
    have hk : k = 0 := by omega
    subst hk; subst b; omega
  · subst b; subst b'; omega

theorem F64.isZero_iff (x : F64) : x.isZero = true ↔ x.mag = 0 := by
  rw [F64.isZero, beq_iff_eq, F64.low63_eq]
  have hf := x.frac_lt
  obtain ⟨m, j, h1, h2, -, h3⟩ := x.mag_eq
  rw [h2]
  have hp := Nat.two_pow_pos j
  rcases h3 with ⟨a, b, c⟩ | ⟨a, b, c, d⟩
  · constructor
    · intro h; omega
    · intro h; rcases Nat.mul_eq_zero.mp h with h | h <;> omega
  · subst b; omega

/-! ## Bounds of a result -/

/-- Finite, and at most `b` units of 2^-1074 in magnitude. -/
def F64.Within (x : F64) (b : Nat) : Prop := x.isFinite = true ∧ x.mag ≤ b

theorem F64.Within.mono {x : F64} {b c : Nat} (h : x.Within b) (hbc : b ≤ c) : x.Within c := ⟨h.1, le_trans h.2 hbc⟩

theorem F64.pack_zero_within (neg : Bool) (b : Nat) : (F64.pack neg 0).Within b ∧ (F64.pack neg 0).sign = neg ∧
    (F64.pack neg 0).mag = 0 := by
  obtain ⟨h1, h2, h3, -⟩ := F64.pack_fields neg (low := 0) (by decide)
  have hm : (F64.pack neg 0).mag = 0 := by simp [F64.mag, h2, h3]
  exact ⟨⟨by simp [F64.isFinite, h2], by omega⟩, h1, hm⟩

theorem F64.mul_within {x y : F64} {a b m j : Nat} (hx : x.Within a) (hy : y.Within b) (hm : m < 2 ^ 53)
    (hB : m * 2 ^ j ≤ 2 ^ 2097) (h : a * b ≤ 2 ^ 1074 * (m * 2 ^ j)) :
    (x.mul y).Within (m * 2 ^ j) ∧ (x.mul y).sign = (x.sign != y.sign) := by
  simp only [F64.mul, F64.isNaN_of_finite hx.1, F64.isNaN_of_finite hy.1, F64.isInf_of_finite hx.1,
    F64.isInf_of_finite hy.1, Bool.or_self, Bool.false_eq_true, if_false]
  split
  · exact ⟨(F64.pack_zero_within _ _).1, (F64.pack_zero_within _ 0).2.1⟩
  · obtain ⟨h1, h2, h3, -⟩ := F64.pack_roundMag (x.sign != y.sign) (num := x.mag * y.mag) (den := 2 ^ 1074)
      (Nat.two_pow_pos _) hm hB (le_trans (Nat.mul_le_mul hx.2 hy.2) h)
    exact ⟨⟨h1, h3⟩, h2⟩

theorem F64.div_within {x y : F64} {a d m j : Nat} (hx : x.Within a) (hy : y.isFinite = true) (hd : d ≤ y.mag)
    (hd0 : 0 < d) (hm : m < 2 ^ 53) (hB : m * 2 ^ j ≤ 2 ^ 2097) (h : a * 2 ^ 1074 ≤ d * (m * 2 ^ j)) :
    (x.div y).Within (m * 2 ^ j) ∧ (x.div y).sign = (x.sign != y.sign) := by
  have hz : y.isZero = false := by
    cases hc : y.isZero
    · rfl
    · rw [F64.isZero_iff] at hc; omega
  simp only [F64.div, F64.isNaN_of_finite hx.1, F64.isNaN_of_finite hy, F64.isInf_of_finite hx.1,
    F64.isInf_of_finite hy, hz, Bool.or_self, Bool.false_eq_true, if_false]
  split
  · exact ⟨(F64.pack_zero_within _ _).1, (F64.pack_zero_within _ 0).2.1⟩
  · obtain ⟨h1, h2, h3, -⟩ := F64.pack_roundMag (x.sign != y.sign) (num := x.mag * 2 ^ 1074) (den := y.mag)
      (by omega) hm hB
      (le_trans (Nat.mul_le_mul_right _ hx.2) (le_trans h (Nat.mul_le_mul_right _ hd)))
    exact ⟨⟨h1, h3⟩, h2⟩

theorem F64.mul_pow {x y : F64} {a b e : Nat} (hx : x.Within (2 ^ a)) (hy : y.Within (2 ^ b)) (he : e ≤ 2097)
    (h : a + b ≤ 1074 + e) : (x.mul y).Within (2 ^ e) ∧ (x.mul y).sign = (x.sign != y.sign) := by
  have := F64.mul_within (m := 1) (j := e) hx hy (by decide)
    (by rw [Nat.one_mul]; exact Nat.pow_le_pow_right (by decide) he)
    (by rw [Nat.one_mul, ← pow_add, ← pow_add]; exact Nat.pow_le_pow_right (by decide) h)
  rwa [Nat.one_mul] at this

theorem F64.div_pow {x y : F64} {a d e : Nat} (hx : x.Within (2 ^ a)) (hy : y.isFinite = true) (hd : 2 ^ d ≤ y.mag)
    (he : e ≤ 2097) (h : a + 1074 ≤ d + e) : (x.div y).Within (2 ^ e) ∧ (x.div y).sign = (x.sign != y.sign) := by
  have := F64.div_within (m := 1) (j := e) hx hy hd (Nat.two_pow_pos _) (by decide)
    (by rw [Nat.one_mul]; exact Nat.pow_le_pow_right (by decide) he)
    (by rw [Nat.one_mul, ← pow_add, ← pow_add]; exact Nat.pow_le_pow_right (by decide) h)
  rwa [Nat.one_mul] at this

/-- The sum of two values that are not negative. -/
theorem F64.add_within {x y : F64} {a b m j : Nat} (hx : x.Within a) (hy : y.Within b) (sx : x.sign = false)
    (sy : y.sign = false) (hm : m < 2 ^ 53) (hB : m * 2 ^ j ≤ 2 ^ 2097) (h : a + b ≤ m * 2 ^ j) :
    (x.add y).Within (m * 2 ^ j) ∧ (x.add y).sign = false ∧ ∀ f, 2 ^ f ≤ x.mag → 2 ^ f ≤ (x.add y).mag := by
  have hi : x.scaled + y.scaled = ((x.mag + y.mag : Nat) : Int) := by simp [F64.scaled, sx, sy]
  simp only [F64.add, F64.addAs, F64.isNaN_of_finite hx.1, F64.isNaN_of_finite hy.1, F64.isInf_of_finite hx.1,
    F64.isInf_of_finite hy.1, Bool.or_self, Bool.false_eq_true, if_false, F64.addFinite, F64.ofScaled, hi, sx, sy,
    Bool.and_self, Int.natAbs_natCast]
  split
  · rename_i h0
    refine ⟨(F64.pack_zero_within _ _).1, (F64.pack_zero_within _ 0).2.1, fun f hf => ?_⟩
    have := Nat.two_pow_pos f
    omega
  · have hneg : decide (((x.mag + y.mag : Nat) : Int) < 0) = false := decide_eq_false (by omega)
    rw [hneg]
    have hx2 := hx.2
    have hy2 := hy.2
    obtain ⟨h1, h2, h3, h4⟩ := F64.pack_roundMag false (num := x.mag + y.mag) (den := 1) (by decide) hm hB (by omega)
    exact ⟨⟨h1, h3⟩, h2, fun f hf => by have := h4 1 f (by decide) (by omega); omega⟩

/-- A small positive integer, converted. -/
theorem F64.ofNat_within {k m : Nat} (h1 : 1 ≤ k) (hm : k ≤ m) (h2 : m < 2 ^ 53) :
    (F64.ofNat k).Within (m * 2 ^ 1074) ∧ (F64.ofNat k).sign = false ∧ ∀ f, 2 ^ f ≤ k → 2 ^ (f + 1074) ≤ (F64.ofNat k).mag := by
  have hc : ((k : Int) * 2 ^ 1074) = ((k * 2 ^ 1074 : Nat) : Int) := by push_cast; ring
  have hp : 0 < k * 2 ^ 1074 := Nat.mul_pos h1 (Nat.two_pow_pos _)
  have hneg : decide (((k * 2 ^ 1074 : Nat) : Int) < 0) = false := decide_eq_false (by omega)
  simp only [F64.ofNat, F64.ofInt, F64.ofScaled, hc, Int.natAbs_natCast]
  rw [if_neg (by omega), hneg]
  obtain ⟨g1, g2, g3, g4⟩ := F64.pack_roundMag false (num := k * 2 ^ 1074) (den := 1) (m := m) (j := 1074) (by decide) h2
    (by
      calc m * 2 ^ 1074 ≤ 2 ^ 53 * 2 ^ 1074 := Nat.mul_le_mul_right _ (Nat.le_of_lt h2)
        _ ≤ 2 ^ 2097 := by rw [← pow_add]; exact Nat.pow_le_pow_right (by decide) (by decide))
    (by rw [Nat.one_mul]; exact Nat.mul_le_mul_right _ hm)
  refine ⟨⟨g1, g3⟩, g2, fun f hf => ?_⟩
  have := g4 1 (f + 1074) (by decide) (by
    rw [Nat.one_mul, Nat.one_mul, pow_add]; exact Nat.mul_le_mul_right _ hf)
  omega

/-- Multiplying by 1 is exact. -/
theorem F64.mul_one_eq {x : F64} (hx : x.Within (2 ^ 2097)) : x.mul F64.one = x := by
  have h1 : F64.one.isFinite = true ∧ F64.one.sign = false ∧ F64.one.mag = 2 ^ 1074 ∧ F64.one.isZero = false := by
    decide +kernel
  simp only [F64.mul, F64.isNaN_of_finite hx.1, F64.isNaN_of_finite h1.1, F64.isInf_of_finite hx.1,
    F64.isInf_of_finite h1.1, h1.2.1, h1.2.2, Bool.or_self, Bool.or_false, Bool.false_eq_true, if_false, Bool.bne_false]
  split
  · rename_i hz
    exact F64.ext_mag (F64.pack_zero_within _ 0).2.1
      ((F64.pack_zero_within _ 0).2.2.trans ((F64.isZero_iff x).mp hz).symm)
  · obtain ⟨m, j, g1, g2, -, -⟩ := x.mag_eq
    have hc : ∀ c, x.mag * c = c * (m * 2 ^ j) := fun c => by rw [g2, Nat.mul_comm]
    obtain ⟨-, r2, r3, r4⟩ := F64.pack_roundMag x.sign (num := x.mag * 2 ^ 1074) (den := 2 ^ 1074) (Nat.two_pow_pos _) g1
      (g2 ▸ hx.2) (Nat.le_of_eq (hc _))
    exact F64.ext_mag r2 ((Nat.le_antisymm r3 (r4 m j g1 (Nat.le_of_eq (hc _).symm))).trans g2.symm)

/-- A finite value that is not 0, divided by itself, is 1. -/
theorem F64.div_self_eq {x : F64} (hx : x.isFinite = true) (h0 : 0 < x.mag) : x.div x = F64.one := by
  have hz : x.isZero = false := by
    cases hc : x.isZero
    · rfl
    · rw [F64.isZero_iff] at hc; omega
  simp only [F64.div, F64.isNaN_of_finite hx, F64.isInf_of_finite hx, hz, Bool.or_self, Bool.false_eq_true, if_false,
    bne_self_eq_false]
  obtain ⟨-, r2, r3, r4⟩ := F64.pack_roundMag false (num := x.mag * 2 ^ 1074) (den := x.mag) (m := 1) (j := 1074) h0
    (by decide) (by rw [Nat.one_mul]; exact Nat.pow_le_pow_right (by decide) (by decide))
    (Nat.le_of_eq (congrArg _ (Nat.one_mul _).symm))
  have h1 : F64.one.sign = false ∧ F64.one.mag = 1 * 2 ^ 1074 := by decide +kernel
  exact F64.ext_mag (r2.trans h1.1.symm)
    ((Nat.le_antisymm r3 (r4 1 1074 (by decide) (Nat.le_of_eq (congrArg _ (Nat.one_mul _))))).trans h1.2.symm)

/-- `+0.0` times a finite value that is not negative is `+0.0`. -/
theorem F64.zero_mul_eq {x : F64} (hx : x.isFinite = true) (hs : x.sign = false) : F64.zero.mul x = F64.zero := by
  have h0 : F64.zero.isNaN = false ∧ F64.zero.isInf = false ∧ F64.zero.isZero = true ∧ F64.zero.sign = false ∧
      F64.pack false 0 = F64.zero := by decide
  simp [F64.mul, F64.isNaN_of_finite hx, F64.isInf_of_finite hx, h0, hs]

/-! ## Order and square root -/

theorem two_pow_congr {a b : Nat} (h : a = b) : (2 : Nat) ^ a = 2 ^ b := by rw [h]

theorem F64.mag_lt_of_low63_lt {x y : F64} (h : x.low63 < y.low63) : x.mag < y.mag := by
  rw [F64.low63_eq, F64.low63_eq] at h
  have hx := x.frac_lt
  obtain ⟨m, j, h1, h2, -, h3⟩ := x.mag_eq
  obtain ⟨n, k, g1, g2, -, g3⟩ := y.mag_eq
  rw [h2, g2]
  rcases h3 with ⟨a, b, c⟩ | ⟨a, b, c, d⟩ <;> rcases g3 with ⟨a', b', c'⟩ | ⟨a', b', c', d'⟩
  · rcases Nat.lt_or_ge j k with hjk | hjk
    · calc m * 2 ^ j < 2 ^ 53 * 2 ^ j := Nat.mul_lt_mul_of_pos_right h1 (Nat.two_pow_pos _)
        _ = 2 ^ 52 * 2 ^ (j + 1) := by rw [← pow_add, ← pow_add]; congr 1; omega
        _ ≤ n * 2 ^ k := Nat.mul_le_mul a' (Nat.pow_le_pow_right (by decide) hjk)
    · have : j = k := by omega
      subst this
      exact Nat.mul_lt_mul_of_pos_right (by omega) (Nat.two_pow_pos _)
  · omega
  · subst b
    calc m * 2 ^ 0 < 2 ^ 52 * 2 ^ 0 := by omega
      _ ≤ n * 2 ^ k := Nat.mul_le_mul a' (Nat.pow_le_pow_right (by decide) (Nat.zero_le _))
  · subst b; subst b'; omega

/-- A value of at most 1 in magnitude is not beyond 1. -/
theorem F64.one_lt_abs {x : F64} (hx : x.Within (2 ^ 1074)) : F64.one.lt x.abs = false := by
  have h1 : F64.one.order = (F64.one.low63 : Int) ∧ F64.one.mag = 2 ^ 1074 := by decide +kernel
  obtain ⟨a1, -, -, a4⟩ := F64.pack_fields false (low := x.low63) (Nat.mod_lt _ (by decide))
  have ho : x.abs.order = (x.low63 : Int) := by simp [F64.order, F64.abs, a1, a4]
  have hn : ¬ F64.one.low63 < x.low63 := by
    intro hc
    have h2 := F64.mag_lt_of_low63_lt hc
    have h3 := hx.2
    omega
  simp only [F64.lt, h1.1, ho, Bool.and_eq_false_iff]
  right
  exact decide_eq_false (by omega)

theorem F64.neg_fields (x : F64) : x.neg.sign = (!x.sign) ∧ x.neg.mag = x.mag ∧ x.neg.isFinite = x.isFinite := by
  have hf := x.frac_lt
  obtain ⟨a1, a2, a3, -⟩ := F64.pack_fields (!x.sign) (low := x.low63) (Nat.mod_lt _ (by decide))
  have e2 : x.neg.expField = x.expField := a2.trans (by rw [F64.low63_eq]; omega)
  have e3 : x.neg.frac = x.frac := a3.trans (by rw [F64.low63_eq]; omega)
  exact ⟨a1, by simp [F64.mag, e2, e3], by simp [F64.isFinite, e2]⟩

/-- `1 - x` for `x` in `[0, 1]`. -/
theorem F64.one_sub_within {x : F64} (hx : x.Within (2 ^ 1074)) (hs : x.sign = false) :
    (F64.one.sub x).Within (2 ^ 1074) ∧ (F64.one.sub x).sign = false := by
  have h1 : F64.one.isFinite = true ∧ F64.one.scaled = ((2 ^ 1074 : Nat) : Int) ∧ F64.one.sign = false := by decide +kernel
  obtain ⟨n1, n2, n3⟩ := F64.neg_fields x
  have hx2 := hx.2
  have hi : F64.one.scaled + x.neg.scaled = ((2 ^ 1074 - x.mag : Nat) : Int) := by
    rw [h1.2.1, F64.scaled, n1, hs, n2]
    simp only [Bool.not_false, if_true]
    generalize 2 ^ 1074 = c at hx2 ⊢
    omega
  simp only [F64.sub, F64.addAs, F64.isNaN_of_finite h1.1, F64.isInf_of_finite h1.1,
    F64.isNaN_of_finite (n3.trans hx.1), F64.isInf_of_finite (n3.trans hx.1), Bool.or_self, Bool.false_eq_true, if_false,
    F64.addFinite, F64.ofScaled, hi, h1.2.2, Bool.false_and, Int.natAbs_natCast]
  split
  · exact ⟨(F64.pack_zero_within _ _).1, (F64.pack_zero_within _ 0).2.1⟩
  · have hneg : decide (((2 ^ 1074 - x.mag : Nat) : Int) < 0) = false := decide_eq_false (by omega)
    rw [hneg]
    obtain ⟨g1, g2, g3, -⟩ := F64.pack_roundMag false (num := 2 ^ 1074 - x.mag) (den := 1) (m := 1) (j := 1074) (by decide)
      (by decide) (by rw [Nat.one_mul]; exact Nat.pow_le_pow_right (by decide) (by decide))
      (by rw [Nat.one_mul, Nat.one_mul]; exact Nat.sub_le _ _)
    rw [Nat.one_mul] at g3
    exact ⟨⟨g1, g3⟩, g2⟩

/-- The integer square root by bits. -/
theorem F64.isqrtBits_spec (a : Nat) : ∀ n r, r * r ≤ a → a < (r + 2 ^ n) * (r + 2 ^ n) →
    F64.isqrtBits n a r * F64.isqrtBits n a r ≤ a ∧ a < (F64.isqrtBits n a r + 1) * (F64.isqrtBits n a r + 1) := by
  intro n
  induction n with
  | zero => intro r h1 h2; simpa [F64.isqrtBits] using And.intro h1 h2
  | succ n ih =>
    intro r h1 h2
    rw [F64.isqrtBits]
    split
    · rename_i h
      exact ih _ h (by rw [Nat.add_assoc, ← Nat.two_mul, ← Nat.pow_succ']; exact h2)
    · rename_i h
      exact ih _ h1 (Nat.lt_of_not_le h)

/-- The square root of a value in `[0, 1]` is in `[0, 1]`. -/
theorem F64.sqrt_within {x : F64} (hx : x.Within (2 ^ 1074)) (hs : x.sign = false) :
    x.sqrt.Within (2 ^ 1074) ∧ x.sqrt.sign = false := by
  simp only [F64.sqrt, F64.isNaN_of_finite hx.1, F64.isInf_of_finite hx.1, hs, Bool.false_eq_true, if_false]
  split
  · exact ⟨hx, hs⟩
  · rename_i hz
    have hm0 : x.mag ≠ 0 := fun h => hz ((F64.isZero_iff x).mpr h)
    generalize ha : x.mag * 2 ^ 1074 = a
    generalize hk : a.log2 / 2 - 52 = k
    have ha0 : a ≠ 0 := ha ▸ Nat.mul_ne_zero hm0 (Nat.two_pow_pos _).ne'
    have hle : a ≤ 2 ^ (2 * 1074) := by
      rw [← ha, show 2 * 1074 = 1074 + 1074 from rfl, pow_add]; exact Nat.mul_le_mul_right _ hx.2
    have h4 : ∀ e, (4 : Nat) ^ e = 2 ^ (2 * e) := fun e => by rw [pow_mul]; norm_num
    have hlog : a.log2 ≤ 2148 := by
      by_contra hc
      have h5 : 2 ^ 2149 ≤ a := le_trans (Nat.pow_le_pow_right (by decide) (by omega)) (Nat.log2_self_le ha0)
      have h6 : (2 : Nat) ^ (2 * 1074) < 2 ^ 2149 := Nat.pow_lt_pow_right (by decide) (by decide)
      omega
    have hq : a / 4 ^ k < 2 ^ 54 * 2 ^ 54 := by
      rw [h4, Nat.div_lt_iff_lt_mul (Nat.two_pow_pos _), ← pow_add, ← pow_add]
      exact lt_of_lt_of_le Nat.lt_log2_self (Nat.pow_le_pow_right (by decide) (by omega))
    have hq' : a / 4 ^ k < 2 ^ 106 := by
      rw [h4, Nat.div_lt_iff_lt_mul (Nat.two_pow_pos _), ← pow_add]
      exact lt_of_lt_of_le Nat.lt_log2_self (Nat.pow_le_pow_right (by decide) (by omega))
    obtain ⟨r1, r2⟩ := F64.isqrtBits_spec (a / 4 ^ k) 54 0 (Nat.zero_le _) (by rw [Nat.zero_add]; exact hq)
    generalize F64.isqrtBits 54 (a / 4 ^ k) 0 = n at r1 r2 ⊢
    have hn53 : n < 2 ^ 53 := by
      by_contra hc
      have : 2 ^ 53 * 2 ^ 53 ≤ n * n := Nat.mul_le_mul (Nat.le_of_not_lt hc) (Nat.le_of_not_lt hc)
      rw [← pow_add] at this; omega
    have hn52 : 2 ^ 52 ≤ n ∨ k = 0 := by
      rcases Nat.eq_zero_or_pos k with h0 | h0
      · exact .inr h0
      · left
        have h5 : 2 ^ 104 ≤ a / 4 ^ k := by
          rw [h4, Nat.le_div_iff_mul_le (Nat.two_pow_pos _), ← pow_add]
          exact le_trans (Nat.pow_le_pow_right (by decide) (by omega)) (Nat.log2_self_le ha0)
        by_contra hc
        have : (n + 1) * (n + 1) ≤ 2 ^ 52 * 2 ^ 52 := Nat.mul_le_mul (by omega) (by omega)
        rw [← pow_add] at this; omega
    have hk1 : k ≤ 1022 := by omega
    -- the stored integer
    have hbound : ∀ n', n' = n ∨ (n' = n + 1 ∧ (2 * n + 1) * (2 * n + 1) * 4 ^ k < 4 * a) → n' ≤ 2 ^ (1074 - k) := by
      intro n' hn'
      by_contra hc
      have hlt : 2 ^ (1074 - k) < n' := Nat.lt_of_not_le hc
      have hsq : 2 ^ (2 * 1074) = 2 ^ (1074 - k) * 2 ^ (1074 - k) * 4 ^ k := by
        rw [h4, ← pow_add, ← pow_add]; exact two_pow_congr (by omega)
      rcases hn' with rfl | ⟨rfl, h5⟩
      · have h6 : n' * n' * 4 ^ k ≤ a := le_trans (Nat.mul_le_mul_right _ r1) (Nat.div_mul_le_self _ _)
        have h7 : 2 ^ (1074 - k) * 2 ^ (1074 - k) < n' * n' := Nat.mul_lt_mul'' hlt hlt
        have h8 := Nat.mul_lt_mul_of_pos_right h7 (show 0 < 4 ^ k from Nat.pow_pos (by decide))
        omega
      · have h6 : 2 * 2 ^ (1074 - k) < 2 * n + 1 := by omega
        have h7 := Nat.mul_lt_mul'' h6 h6
        have h8 := Nat.mul_lt_mul_of_pos_right h7 (show 0 < 4 ^ k from Nat.pow_pos (by decide))
        have h9 : 2 * 2 ^ (1074 - k) * (2 * 2 ^ (1074 - k)) * 4 ^ k = 4 * (2 ^ (1074 - k) * 2 ^ (1074 - k) * 4 ^ k) := by ring
        rw [h9, ← hsq] at h8
        omega
    have store : ∀ n', n' ≤ 2 ^ (1074 - k) → n ≤ n' → n' ≤ n + 1 →
        (F64.pack false (F64.lowOf n' k)).Within (2 ^ 1074) ∧ (F64.pack false (F64.lowOf n' k)).sign = false := by
      intro n' h1 h2 h3
      have hi : F64.infLow = 2047 * 2 ^ 52 := by decide
      obtain ⟨f1, f2, f3⟩ := F64.pack_lowOf false (n := n') (k := k) (by omega) (hn52.imp_left fun h => le_trans h h2)
        (by rw [hi]; omega)
      refine ⟨⟨f1, ?_⟩, f2⟩
      rw [f3]
      calc n' * 2 ^ k ≤ 2 ^ (1074 - k) * 2 ^ k := Nat.mul_le_mul_right _ h1
        _ = 2 ^ 1074 := by rw [← pow_add]; exact two_pow_congr (by omega)
    split
    · rename_i h5
      exact store (n + 1) (hbound _ (.inr ⟨rfl, h5⟩)) (Nat.le_succ _) (Nat.le_refl _)
    · exact store n (hbound _ (.inl rfl)) (Nat.le_refl _) (Nat.le_succ _)

end Sys2Proof
end

