-- ==== Sys2Proof/Laws/Header.lean ====
section
/-! SUPPORT. The header and the operand of each command (30_encoding.md rules R90, R94), one lemma each. -/

namespace Sys2Proof

@[simp] theorem header_nop (d : Bool) (arg : Word64) :
    (Instr.nop d arg).header = if d then 0x80000000 else 0x00000000 := by
  cases d
  · exact (by decide : headerOf false 0 0x0 = 0x00000000)
  · exact (by decide : headerOf true 0 0x0 = 0x80000000)
@[simp] theorem operand_nop (d : Bool) (arg : Word64) :
    (Instr.nop d arg).operand = arg := rfl

@[simp] theorem header_setSampleRate (d : Bool) (arg : Word64) :
    (Instr.setSampleRate d arg).header = if d then 0x80000001 else 0x00000001 := by
  cases d
  · exact (by decide : headerOf false 0 0x1 = 0x00000001)
  · exact (by decide : headerOf true 0 0x1 = 0x80000001)
@[simp] theorem operand_setSampleRate (d : Bool) (arg : Word64) :
    (Instr.setSampleRate d arg).operand = arg := rfl

@[simp] theorem header_oscSetHz (d : Bool) (v : BitVec 8) (arg : Word64) :
    (Instr.oscSetHz d v arg).header = headerOf d v 0x10 := rfl
@[simp] theorem operand_oscSetHz (d : Bool) (v : BitVec 8) (arg : Word64) :
    (Instr.oscSetHz d v arg).operand = arg := rfl

@[simp] theorem header_oscSetShift (d : Bool) (v : BitVec 8) (arg : Word64) :
    (Instr.oscSetShift d v arg).header = headerOf d v 0x11 := rfl
@[simp] theorem operand_oscSetShift (d : Bool) (v : BitVec 8) (arg : Word64) :
    (Instr.oscSetShift d v arg).operand = arg := rfl

@[simp] theorem header_oscSetFlags (d : Bool) (v : BitVec 8) (arg : Word64) :
    (Instr.oscSetFlags d v arg).header = headerOf d v 0x12 := rfl
@[simp] theorem operand_oscSetFlags (d : Bool) (v : BitVec 8) (arg : Word64) :
    (Instr.oscSetFlags d v arg).operand = arg := rfl

@[simp] theorem header_oscSetGainDirect (d : Bool) (v : BitVec 8) (arg : Word64) :
    (Instr.oscSetGainDirect d v arg).header = headerOf d v 0x13 := rfl
@[simp] theorem operand_oscSetGainDirect (d : Bool) (v : BitVec 8) (arg : Word64) :
    (Instr.oscSetGainDirect d v arg).operand = arg := rfl

@[simp] theorem header_oscSetGainFilter (d : Bool) (v : BitVec 8) (arg : Word64) :
    (Instr.oscSetGainFilter d v arg).header = headerOf d v 0x14 := rfl
@[simp] theorem operand_oscSetGainFilter (d : Bool) (v : BitVec 8) (arg : Word64) :
    (Instr.oscSetGainFilter d v arg).operand = arg := rfl

@[simp] theorem header_oscWtWrite (d : Bool) (v : BitVec 8) (arg : Word64) :
    (Instr.oscWtWrite d v arg).header = headerOf d v 0x15 := rfl
@[simp] theorem operand_oscWtWrite (d : Bool) (v : BitVec 8) (arg : Word64) :
    (Instr.oscWtWrite d v arg).operand = arg := rfl

@[simp] theorem header_envOn (d : Bool) (v : BitVec 8) (arg : Word64) :
    (Instr.envOn d v arg).header = headerOf d v 0x20 := rfl
@[simp] theorem operand_envOn (d : Bool) (v : BitVec 8) (arg : Word64) :
    (Instr.envOn d v arg).operand = arg := rfl

@[simp] theorem header_envOff (d : Bool) (v : BitVec 8) (arg : Word64) :
    (Instr.envOff d v arg).header = headerOf d v 0x21 := rfl
@[simp] theorem operand_envOff (d : Bool) (v : BitVec 8) (arg : Word64) :
    (Instr.envOff d v arg).operand = arg := rfl

@[simp] theorem header_envSetAttack (d : Bool) (v : BitVec 8) (arg : Word64) :
    (Instr.envSetAttack d v arg).header = headerOf d v 0x22 := rfl
@[simp] theorem operand_envSetAttack (d : Bool) (v : BitVec 8) (arg : Word64) :
    (Instr.envSetAttack d v arg).operand = arg := rfl

@[simp] theorem header_envSetDecay (d : Bool) (v : BitVec 8) (arg : Word64) :
    (Instr.envSetDecay d v arg).header = headerOf d v 0x23 := rfl
@[simp] theorem operand_envSetDecay (d : Bool) (v : BitVec 8) (arg : Word64) :
    (Instr.envSetDecay d v arg).operand = arg := rfl

@[simp] theorem header_envSetSustain (d : Bool) (v : BitVec 8) (arg : Word64) :
    (Instr.envSetSustain d v arg).header = headerOf d v 0x24 := rfl
@[simp] theorem operand_envSetSustain (d : Bool) (v : BitVec 8) (arg : Word64) :
    (Instr.envSetSustain d v arg).operand = arg := rfl

@[simp] theorem header_envSetRelease (d : Bool) (v : BitVec 8) (arg : Word64) :
    (Instr.envSetRelease d v arg).header = headerOf d v 0x25 := rfl
@[simp] theorem operand_envSetRelease (d : Bool) (v : BitVec 8) (arg : Word64) :
    (Instr.envSetRelease d v arg).operand = arg := rfl

@[simp] theorem header_envSetCurveAttack (d : Bool) (v : BitVec 8) (arg : Word64) :
    (Instr.envSetCurveAttack d v arg).header = headerOf d v 0x26 := rfl
@[simp] theorem operand_envSetCurveAttack (d : Bool) (v : BitVec 8) (arg : Word64) :
    (Instr.envSetCurveAttack d v arg).operand = arg := rfl

@[simp] theorem header_envSetCurveDecay (d : Bool) (v : BitVec 8) (arg : Word64) :
    (Instr.envSetCurveDecay d v arg).header = headerOf d v 0x27 := rfl
@[simp] theorem operand_envSetCurveDecay (d : Bool) (v : BitVec 8) (arg : Word64) :
    (Instr.envSetCurveDecay d v arg).operand = arg := rfl

@[simp] theorem header_envSetCurveRelease (d : Bool) (v : BitVec 8) (arg : Word64) :
    (Instr.envSetCurveRelease d v arg).header = headerOf d v 0x28 := rfl
@[simp] theorem operand_envSetCurveRelease (d : Bool) (v : BitVec 8) (arg : Word64) :
    (Instr.envSetCurveRelease d v arg).operand = arg := rfl

@[simp] theorem header_fltSetFc (d : Bool) (arg : Word64) :
    (Instr.fltSetFc d arg).header = if d then 0x80000030 else 0x00000030 := by
  cases d
  · exact (by decide : headerOf false 0 0x30 = 0x00000030)
  · exact (by decide : headerOf true 0 0x30 = 0x80000030)
@[simp] theorem operand_fltSetFc (d : Bool) (arg : Word64) :
    (Instr.fltSetFc d arg).operand = arg := rfl

@[simp] theorem header_fltSetQ (d : Bool) (arg : Word64) :
    (Instr.fltSetQ d arg).header = if d then 0x80000031 else 0x00000031 := by
  cases d
  · exact (by decide : headerOf false 0 0x31 = 0x00000031)
  · exact (by decide : headerOf true 0 0x31 = 0x80000031)
@[simp] theorem operand_fltSetQ (d : Bool) (arg : Word64) :
    (Instr.fltSetQ d arg).operand = arg := rfl

@[simp] theorem header_fltSetGainLp (d : Bool) (arg : Word64) :
    (Instr.fltSetGainLp d arg).header = if d then 0x80000032 else 0x00000032 := by
  cases d
  · exact (by decide : headerOf false 0 0x32 = 0x00000032)
  · exact (by decide : headerOf true 0 0x32 = 0x80000032)
@[simp] theorem operand_fltSetGainLp (d : Bool) (arg : Word64) :
    (Instr.fltSetGainLp d arg).operand = arg := rfl

@[simp] theorem header_fltSetGainBp (d : Bool) (arg : Word64) :
    (Instr.fltSetGainBp d arg).header = if d then 0x80000033 else 0x00000033 := by
  cases d
  · exact (by decide : headerOf false 0 0x33 = 0x00000033)
  · exact (by decide : headerOf true 0 0x33 = 0x80000033)
@[simp] theorem operand_fltSetGainBp (d : Bool) (arg : Word64) :
    (Instr.fltSetGainBp d arg).operand = arg := rfl

@[simp] theorem header_fltSetGainHp (d : Bool) (arg : Word64) :
    (Instr.fltSetGainHp d arg).header = if d then 0x80000034 else 0x00000034 := by
  cases d
  · exact (by decide : headerOf false 0 0x34 = 0x00000034)
  · exact (by decide : headerOf true 0 0x34 = 0x80000034)
@[simp] theorem operand_fltSetGainHp (d : Bool) (arg : Word64) :
    (Instr.fltSetGainHp d arg).operand = arg := rfl

@[simp] theorem header_rsSetBufBase (d : Bool) (arg : Word64) :
    (Instr.rsSetBufBase d arg).header = if d then 0x80000040 else 0x00000040 := by
  cases d
  · exact (by decide : headerOf false 0 0x40 = 0x00000040)
  · exact (by decide : headerOf true 0 0x40 = 0x80000040)
@[simp] theorem operand_rsSetBufBase (d : Bool) (arg : Word64) :
    (Instr.rsSetBufBase d arg).operand = arg := rfl

@[simp] theorem header_rsSetBufFrames (d : Bool) (arg : Word64) :
    (Instr.rsSetBufFrames d arg).header = if d then 0x80000041 else 0x00000041 := by
  cases d
  · exact (by decide : headerOf false 0 0x41 = 0x00000041)
  · exact (by decide : headerOf true 0 0x41 = 0x80000041)
@[simp] theorem operand_rsSetBufFrames (d : Bool) (arg : Word64) :
    (Instr.rsSetBufFrames d arg).operand = arg := rfl

@[simp] theorem header_rsSetBufRate (d : Bool) (arg : Word64) :
    (Instr.rsSetBufRate d arg).header = if d then 0x80000042 else 0x00000042 := by
  cases d
  · exact (by decide : headerOf false 0 0x42 = 0x00000042)
  · exact (by decide : headerOf true 0 0x42 = 0x80000042)
@[simp] theorem operand_rsSetBufRate (d : Bool) (arg : Word64) :
    (Instr.rsSetBufRate d arg).operand = arg := rfl

@[simp] theorem header_rsSetBufPitch (d : Bool) (arg : Word64) :
    (Instr.rsSetBufPitch d arg).header = if d then 0x80000043 else 0x00000043 := by
  cases d
  · exact (by decide : headerOf false 0 0x43 = 0x00000043)
  · exact (by decide : headerOf true 0 0x43 = 0x80000043)
@[simp] theorem operand_rsSetBufPitch (d : Bool) (arg : Word64) :
    (Instr.rsSetBufPitch d arg).operand = arg := rfl

@[simp] theorem header_rsSetHz (d : Bool) (arg : Word64) :
    (Instr.rsSetHz d arg).header = if d then 0x80000044 else 0x00000044 := by
  cases d
  · exact (by decide : headerOf false 0 0x44 = 0x00000044)
  · exact (by decide : headerOf true 0 0x44 = 0x80000044)
@[simp] theorem operand_rsSetHz (d : Bool) (arg : Word64) :
    (Instr.rsSetHz d arg).operand = arg := rfl

@[simp] theorem header_rsSetPos (d : Bool) (arg : Word64) :
    (Instr.rsSetPos d arg).header = if d then 0x80000045 else 0x00000045 := by
  cases d
  · exact (by decide : headerOf false 0 0x45 = 0x00000045)
  · exact (by decide : headerOf true 0 0x45 = 0x80000045)
@[simp] theorem operand_rsSetPos (d : Bool) (arg : Word64) :
    (Instr.rsSetPos d arg).operand = arg := rfl

@[simp] theorem header_evSetTick (arg : Word64) :
    (Instr.evSetTick arg).header = 0x00000050 := by
  show headerOf false 0 0x50 = _; decide
@[simp] theorem operand_evSetTick (arg : Word64) :
    (Instr.evSetTick arg).operand = arg := rfl

@[simp] theorem header_hostCallback (d : Bool) (arg : Word64) :
    (Instr.hostCallback d arg).header = if d then 0x80000051 else 0x00000051 := by
  cases d
  · exact (by decide : headerOf false 0 0x51 = 0x00000051)
  · exact (by decide : headerOf true 0 0x51 = 0x80000051)
@[simp] theorem operand_hostCallback (d : Bool) (arg : Word64) :
    (Instr.hostCallback d arg).operand = arg := rfl

@[simp] theorem header_cbAck (arg : Word64) :
    (Instr.cbAck arg).header = 0x00000052 := by
  show headerOf false 0 0x52 = _; decide
@[simp] theorem operand_cbAck (arg : Word64) :
    (Instr.cbAck arg).operand = arg := rfl

end Sys2Proof
end

