-- ==== Sys2Proof/Laws/State.lean ====
section
/-! SUPPORT. One lemma per field for each update of the state, true by `rfl`, so that no proof unfolds an update. -/

namespace Sys2Proof.Machine

/-! ## `enterFault` -/

section
variable (c : FaultCause) (hdr : BitVec 32) (arg : Word64) (s : State)

@[simp] theorem enterFault_cfg : (enterFault c hdr arg s).cfg = s.cfg := rfl
@[simp] theorem enterFault_tick : (enterFault c hdr arg s).tick = s.tick := rfl
@[simp] theorem enterFault_sampleRate : (enterFault c hdr arg s).sampleRate = s.sampleRate := rfl
@[simp] theorem enterFault_evTick : (enterFault c hdr arg s).evTick = s.evTick := rfl
@[simp] theorem enterFault_innerRate : (enterFault c hdr arg s).innerRate = s.innerRate := rfl
@[simp] theorem enterFault_faulted : (enterFault c hdr arg s).faulted = true := rfl
@[simp] theorem enterFault_cbPending : (enterFault c hdr arg s).cbPending = s.cbPending := rfl
@[simp] theorem enterFault_tablesReady : (enterFault c hdr arg s).tablesReady = s.tablesReady := rfl
@[simp] theorem enterFault_inTick : (enterFault c hdr arg s).inTick = false := rfl
@[simp] theorem enterFault_faultCause : (enterFault c hdr arg s).faultCause = c := rfl
@[simp] theorem enterFault_faultHdr : (enterFault c hdr arg s).faultHdr = hdr := rfl
@[simp] theorem enterFault_faultArg : (enterFault c hdr arg s).faultArg = arg := rfl
@[simp] theorem enterFault_cbId : (enterFault c hdr arg s).cbId = s.cbId := rfl
@[simp] theorem enterFault_voices : (enterFault c hdr arg s).voices = s.voices := rfl
@[simp] theorem enterFault_filter : (enterFault c hdr arg s).filter = s.filter := rfl
@[simp] theorem enterFault_rs : (enterFault c hdr arg s).rs = s.rs := rfl
@[simp] theorem enterFault_osw : (enterFault c hdr arg s).osw = s.osw := rfl
@[simp] theorem enterFault_slots : (enterFault c hdr arg s).slots = s.slots := rfl
@[simp] theorem enterFault_heap : (enterFault c hdr arg s).heap = s.heap := rfl
@[simp] theorem enterFault_mem : (enterFault c hdr arg s).mem = s.mem := rfl
@[simp] theorem enterFault_pull : (enterFault c hdr arg s).pull = false := rfl
@[simp] theorem enterFault_port : (enterFault c hdr arg s).port = s.port := rfl
@[simp] theorem enterFault_inbox : (enterFault c hdr arg s).inbox = s.inbox := rfl
@[simp] theorem enterFault_reply : (enterFault c hdr arg s).reply = if s.pull then .pullRefused else s.reply := rfl
@[simp] theorem enterFault_draws : (enterFault c hdr arg s).draws = s.draws := rfl
@[simp] theorem enterFault_raced : (enterFault c hdr arg s).raced = s.raced := rfl

end

/-! ## `pushFrame` -/

section
variable (frame : List F64) (s : State)

@[simp] theorem pushFrame_cfg : (pushFrame frame s).cfg = s.cfg := rfl
@[simp] theorem pushFrame_tick : (pushFrame frame s).tick = s.tick := rfl
@[simp] theorem pushFrame_sampleRate : (pushFrame frame s).sampleRate = s.sampleRate := rfl
@[simp] theorem pushFrame_evTick : (pushFrame frame s).evTick = s.evTick := rfl
@[simp] theorem pushFrame_innerRate : (pushFrame frame s).innerRate = s.innerRate := rfl
@[simp] theorem pushFrame_faulted : (pushFrame frame s).faulted = s.faulted := rfl
@[simp] theorem pushFrame_cbPending : (pushFrame frame s).cbPending = s.cbPending := rfl
@[simp] theorem pushFrame_tablesReady : (pushFrame frame s).tablesReady = s.tablesReady := rfl
@[simp] theorem pushFrame_inTick : (pushFrame frame s).inTick = s.inTick := rfl
@[simp] theorem pushFrame_faultCause : (pushFrame frame s).faultCause = s.faultCause := rfl
@[simp] theorem pushFrame_faultHdr : (pushFrame frame s).faultHdr = s.faultHdr := rfl
@[simp] theorem pushFrame_faultArg : (pushFrame frame s).faultArg = s.faultArg := rfl
@[simp] theorem pushFrame_cbId : (pushFrame frame s).cbId = s.cbId := rfl
@[simp] theorem pushFrame_voices : (pushFrame frame s).voices = s.voices := rfl
@[simp] theorem pushFrame_filter : (pushFrame frame s).filter = s.filter := rfl
@[simp] theorem pushFrame_rs : (pushFrame frame s).rs = s.rs := rfl
@[simp] theorem pushFrame_osw : (pushFrame frame s).osw = List.zipWith pushValue s.osw frame := rfl
@[simp] theorem pushFrame_slots : (pushFrame frame s).slots = s.slots := rfl
@[simp] theorem pushFrame_heap : (pushFrame frame s).heap = s.heap := rfl
@[simp] theorem pushFrame_mem : (pushFrame frame s).mem = s.mem := rfl
@[simp] theorem pushFrame_pull : (pushFrame frame s).pull = s.pull := rfl
@[simp] theorem pushFrame_port : (pushFrame frame s).port = s.port := rfl
@[simp] theorem pushFrame_inbox : (pushFrame frame s).inbox = s.inbox := rfl
@[simp] theorem pushFrame_reply : (pushFrame frame s).reply = s.reply := rfl
@[simp] theorem pushFrame_draws : (pushFrame frame s).draws = s.draws := rfl
@[simp] theorem pushFrame_raced : (pushFrame frame s).raced = s.raced := rfl

end

/-! ## `withPacketNext` -/

section
variable (s : State) (bytes : List Byte)

@[simp] theorem withPacketNext_cfg : (withPacketNext s bytes).cfg = s.cfg := rfl
@[simp] theorem withPacketNext_tick : (withPacketNext s bytes).tick = s.tick := rfl
@[simp] theorem withPacketNext_sampleRate : (withPacketNext s bytes).sampleRate = s.sampleRate := rfl
@[simp] theorem withPacketNext_evTick : (withPacketNext s bytes).evTick = s.evTick := rfl
@[simp] theorem withPacketNext_innerRate : (withPacketNext s bytes).innerRate = s.innerRate := rfl
@[simp] theorem withPacketNext_faulted : (withPacketNext s bytes).faulted = false := rfl
@[simp] theorem withPacketNext_cbPending : (withPacketNext s bytes).cbPending = s.cbPending := rfl
@[simp] theorem withPacketNext_tablesReady : (withPacketNext s bytes).tablesReady = s.tablesReady := rfl
@[simp] theorem withPacketNext_inTick : (withPacketNext s bytes).inTick = (s.inTick && s.cbPending) := rfl
@[simp] theorem withPacketNext_faultCause : (withPacketNext s bytes).faultCause = s.faultCause := rfl
@[simp] theorem withPacketNext_faultHdr : (withPacketNext s bytes).faultHdr = s.faultHdr := rfl
@[simp] theorem withPacketNext_faultArg : (withPacketNext s bytes).faultArg = s.faultArg := rfl
@[simp] theorem withPacketNext_cbId : (withPacketNext s bytes).cbId = s.cbId := rfl
@[simp] theorem withPacketNext_voices : (withPacketNext s bytes).voices = s.voices := rfl
@[simp] theorem withPacketNext_filter : (withPacketNext s bytes).filter = s.filter := rfl
@[simp] theorem withPacketNext_rs : (withPacketNext s bytes).rs = s.rs := rfl
@[simp] theorem withPacketNext_osw : (withPacketNext s bytes).osw = s.osw := rfl
@[simp] theorem withPacketNext_slots : (withPacketNext s bytes).slots = s.slots := rfl
@[simp] theorem withPacketNext_heap : (withPacketNext s bytes).heap = s.heap := rfl
@[simp] theorem withPacketNext_mem : (withPacketNext s bytes).mem = s.mem := rfl
@[simp] theorem withPacketNext_pull : (withPacketNext s bytes).pull = (s.pull && s.cbPending) := rfl
@[simp] theorem withPacketNext_port : (withPacketNext s bytes).port = bytes ++ s.port := rfl
@[simp] theorem withPacketNext_inbox : (withPacketNext s bytes).inbox = s.inbox := rfl
@[simp] theorem withPacketNext_reply : (withPacketNext s bytes).reply = s.reply := rfl
@[simp] theorem withPacketNext_draws : (withPacketNext s bytes).draws = s.draws := rfl
@[simp] theorem withPacketNext_raced : (withPacketNext s bytes).raced = s.raced := rfl

end

/-! ## `stateCleared` -/

section
variable (p : Params)

@[simp] theorem stateCleared_cfg : (stateCleared p).cfg = p := rfl
@[simp] theorem stateCleared_tick : (stateCleared p).tick = 0 := rfl
@[simp] theorem stateCleared_sampleRate : (stateCleared p).sampleRate = F64.zero := rfl
@[simp] theorem stateCleared_evTick : (stateCleared p).evTick = 0 := rfl
@[simp] theorem stateCleared_innerRate : (stateCleared p).innerRate = F64.zero := rfl
@[simp] theorem stateCleared_faulted : (stateCleared p).faulted = false := rfl
@[simp] theorem stateCleared_cbPending : (stateCleared p).cbPending = false := rfl
@[simp] theorem stateCleared_tablesReady : (stateCleared p).tablesReady = false := rfl
@[simp] theorem stateCleared_inTick : (stateCleared p).inTick = false := rfl
@[simp] theorem stateCleared_faultCause : (stateCleared p).faultCause = .none := rfl
@[simp] theorem stateCleared_faultHdr : (stateCleared p).faultHdr = 0 := rfl
@[simp] theorem stateCleared_faultArg : (stateCleared p).faultArg = 0 := rfl
@[simp] theorem stateCleared_cbId : (stateCleared p).cbId = 0 := rfl
@[simp] theorem stateCleared_voices : (stateCleared p).voices = List.replicate p.nOsc (voiceReset p) := rfl
@[simp] theorem stateCleared_filter : (stateCleared p).filter = filterReset p := rfl
@[simp] theorem stateCleared_rs : (stateCleared p).rs = resamplerReset := rfl
@[simp] theorem stateCleared_osw : (stateCleared p).osw = if p.oversample then List.replicate p.channels (List.replicate p.lFir F64.zero) else [] := rfl
@[simp] theorem stateCleared_slots : (stateCleared p).slots = List.replicate p.cacheSlots none := rfl
@[simp] theorem stateCleared_heap : (stateCleared p).heap = [] := rfl
@[simp] theorem stateCleared_mem : (stateCleared p).mem = [] := rfl
@[simp] theorem stateCleared_pull : (stateCleared p).pull = false := rfl
@[simp] theorem stateCleared_port : (stateCleared p).port = [] := rfl
@[simp] theorem stateCleared_inbox : (stateCleared p).inbox = [] := rfl
@[simp] theorem stateCleared_reply : (stateCleared p).reply = .none := rfl
@[simp] theorem stateCleared_draws : (stateCleared p).draws = 0 := rfl
@[simp] theorem stateCleared_raced : (stateCleared p).raced = [] := rfl

end

/-! ## `stateReady` -/

section
variable (p : Params) (slots : List (Option Slot))

@[simp] theorem stateReady_cfg : (stateReady p slots).cfg = p := rfl
@[simp] theorem stateReady_tick : (stateReady p slots).tick = 0 := rfl
@[simp] theorem stateReady_sampleRate : (stateReady p slots).sampleRate = F64.zero := rfl
@[simp] theorem stateReady_evTick : (stateReady p slots).evTick = 0 := rfl
@[simp] theorem stateReady_innerRate : (stateReady p slots).innerRate = F64.zero := rfl
@[simp] theorem stateReady_faulted : (stateReady p slots).faulted = false := rfl
@[simp] theorem stateReady_cbPending : (stateReady p slots).cbPending = false := rfl
@[simp] theorem stateReady_tablesReady : (stateReady p slots).tablesReady = true := rfl
@[simp] theorem stateReady_inTick : (stateReady p slots).inTick = false := rfl
@[simp] theorem stateReady_faultCause : (stateReady p slots).faultCause = .none := rfl
@[simp] theorem stateReady_faultHdr : (stateReady p slots).faultHdr = 0 := rfl
@[simp] theorem stateReady_faultArg : (stateReady p slots).faultArg = 0 := rfl
@[simp] theorem stateReady_cbId : (stateReady p slots).cbId = 0 := rfl
@[simp] theorem stateReady_voices : (stateReady p slots).voices = List.replicate p.nOsc (voiceReset p) := rfl
@[simp] theorem stateReady_filter : (stateReady p slots).filter = filterReset p := rfl
@[simp] theorem stateReady_rs : (stateReady p slots).rs = resamplerReset := rfl
@[simp] theorem stateReady_osw : (stateReady p slots).osw = if p.oversample then List.replicate p.channels (List.replicate p.lFir F64.zero) else [] := rfl
@[simp] theorem stateReady_slots : (stateReady p slots).slots = slots := rfl
@[simp] theorem stateReady_heap : (stateReady p slots).heap = [] := rfl
@[simp] theorem stateReady_mem : (stateReady p slots).mem = [] := rfl
@[simp] theorem stateReady_pull : (stateReady p slots).pull = false := rfl
@[simp] theorem stateReady_port : (stateReady p slots).port = [] := rfl
@[simp] theorem stateReady_inbox : (stateReady p slots).inbox = [] := rfl
@[simp] theorem stateReady_reply : (stateReady p slots).reply = .none := rfl
@[simp] theorem stateReady_draws : (stateReady p slots).draws = 0 := rfl
@[simp] theorem stateReady_raced : (stateReady p slots).raced = [] := rfl

end

end Sys2Proof.Machine
end

