-- ==== Sys2Proof/Laws/Memory.lean ====
section
/-! SUPPORT. Sample memory: reading after writing, what a write leaves alone, and that every memory operation keeps the
canonical form. -/

namespace Sys2Proof.Machine

/-! ## One byte -/

@[simp] theorem memByte_memSet_same (m : Memory) (x : Nat) (v : Byte) : memByte (memSet m x v) x = some v := by
  induction m with
  | nil => simp [memSet, memByte]
  | cons p m ih =>
    obtain ⟨a, b⟩ := p
    rcases Nat.lt_trichotomy x a with h | h | h
    · simp [memSet, memByte, h, Nat.ne_of_lt h]
    · simp [memSet, memByte, h]
    · simp [memSet, memByte, Nat.ne_of_gt h, Nat.not_lt.mpr (Nat.le_of_lt h), ih]

@[simp] theorem memByte_memSet_other (m : Memory) (x y : Nat) (v : Byte) (h : y ≠ x) :
    memByte (memSet m x v) y = memByte m y := by
  induction m with
  | nil => simp [memSet, memByte, h]
  | cons p m ih =>
    obtain ⟨a, b⟩ := p
    by_cases h1 : x = a
    · subst h1; simp [memSet, memByte, h]
    · by_cases h2 : x < a
      · simp only [memSet, if_neg h1, if_pos h2, memByte, if_neg h]
        by_cases h3 : y < x
        · have h4 : y ≠ a := by omega
          have h5 : y < a := by omega
          simp [h3, h4, h5]
        · simp [h3]
      · simp only [memSet, if_neg h1, if_neg h2, memByte, ih]

theorem memRead_memSet (m : Memory) (x y : Nat) (v : Byte) :
    memRead (memSet m x v) y = if y = x then v else memRead m y := by
  by_cases h : y = x
  · subst h; simp [memRead]
  · simp [memRead, h]

/-! ## The canonical form -/

theorem memSet_mem_bound {m : Memory} {x : Nat} {v : Byte} {c : Host.Cell} (h : c ∈ memSet m x v) :
    c.1 = x ∨ c ∈ m := by
  induction m with
  | nil => simp [memSet] at h; exact .inl (by rw [h])
  | cons p m ih =>
    obtain ⟨a, b⟩ := p
    simp only [memSet] at h
    split at h
    · rcases List.mem_cons.mp h with rfl | h
      · left; simp_all
      · right; simp [h]
    · split at h
      · rcases List.mem_cons.mp h with rfl | h
        · left; rfl
        · right; exact h
      · rcases List.mem_cons.mp h with rfl | h
        · right; simp
        · rcases ih h with h | h
          · left; exact h
          · right; simp [h]

theorem memSet_wf {m : Memory} (h : Memory.wf m) (x : Nat) (v : Byte) : Memory.wf (memSet m x v) := by
  induction m with
  | nil => simp [memSet, Memory.wf]
  | cons p m ih =>
    obtain ⟨a, b⟩ := p
    have hm := List.pairwise_cons.mp h
    simp only [memSet]
    split
    · exact List.pairwise_cons.mpr ⟨hm.1, hm.2⟩
    · split
      · rename_i h1 h2
        refine List.pairwise_cons.mpr ⟨fun c hc => ?_, h⟩
        rcases List.mem_cons.mp hc with rfl | hc
        · exact h2
        · exact Nat.lt_trans h2 (hm.1 c hc)
      · rename_i h1 h2
        refine List.pairwise_cons.mpr ⟨fun c hc => ?_, ih hm.2⟩
        rcases memSet_mem_bound hc with hc | hc
        · show a < c.1; omega
        · exact hm.1 c hc

theorem wordWrite_wf {m : Memory} (h : Memory.wf m) (a : Nat) (v : Word64) : Memory.wf (wordWrite m a v) := by
  unfold wordWrite
  generalize List.range 8 = ks
  induction ks generalizing m with
  | nil => exact h
  | cons k ks ih => exact ih (memSet_wf h _ _)

theorem stateCleared_memory_wf (p : Params) : Memory.wf (stateCleared p).mem := List.Pairwise.nil

theorem reset_memory_wf : Memory.wf State.reset.mem := List.Pairwise.nil

/-! ## One word -/

/-- A write of a word changes the eight bytes of that word and no other. -/
theorem memRead_wordWrite (m : Memory) (a : Nat) (v : Word64) (y : Nat) :
    memRead (wordWrite m a v) y = if y / 8 = a then byteOf v (y % 8) else memRead m y := by
  have hr : List.range 8 = [0, 1, 2, 3, 4, 5, 6, 7] := by decide
  simp only [wordWrite, hr, List.foldl_cons, List.foldl_nil, memRead_memSet]
  by_cases h : y / 8 = a
  · have hy : y = 8 * a + y % 8 := by omega
    have hlt : y % 8 < 8 := Nat.mod_lt _ (by omega)
    rw [if_pos h]
    interval_cases hk : y % 8 <;> rw [hy] <;> simp
  · have : ∀ k, k < 8 → y ≠ 8 * a + k := by omega
    simp [h, this 1 (by omega), this 2 (by omega), this 3 (by omega), this 4 (by omega),
      this 5 (by omega), this 6 (by omega), this 7 (by omega)]
    intro h'
    exact absurd h' (by simpa using this 0 (by omega))

/-! ## The operations of the machine on memory -/

/-- Everything a host write of sample memory can do (20_memory.md rules R73, R80). -/
theorem sampleWrite_spec {a : Nat} {v : Word64} {s t : State} (h : sampleWrite a v s = .next t) :
    a < 2 ^ s.cfg.sampleAddrBits ∧
    t = { s with mem := wordWrite s.mem a v,
                 raced := if inExtent s.cfg s.rs a then (a, wordRead s.mem a) :: s.raced
                          else s.raced.filter fun r => r.1 != a } := by
  unfold sampleWrite addrExists at h
  split at h
  · rename_i hb
    refine ⟨by simpa using hb, ?_⟩
    injection h with h
    exact h.symm
  · cases h

theorem sampleWrite_wf {a : Nat} {v : Word64} {s t : State} (h : sampleWrite a v s = .next t)
    (hw : Memory.wf s.mem) : Memory.wf t.mem := by
  obtain ⟨-, rfl⟩ := sampleWrite_spec h
  exact wordWrite_wf hw a v

/-- Everything a `SampleRead` can do (rules R73, R80): it changes nothing but the count of free choices. -/
theorem sampleRead_spec {a : Nat} {s t : State} {x : F64} (h : sampleRead a s = .ok (x, t)) :
    a < 2 ^ s.cfg.sampleAddrBits ∧ (∃ n, t = { s with draws := n }) ∧
    (x.bits = wordRead s.mem a ∨ x.bits ∈ racedValues s a) := by
  unfold sampleRead addrExists at h
  split at h
  · rename_i hb
    refine ⟨by simpa using hb, ?_⟩
    split at h
    · obtain ⟨rfl, rfl⟩ := (Prod.mk.injEq ..).mp (Except.ok.inj h)
      exact ⟨⟨s.draws, rfl⟩, .inl rfl⟩
    · rename_i old olds hr
      obtain ⟨rfl, rfl⟩ := (Prod.mk.injEq ..).mp (Except.ok.inj h)
      refine ⟨⟨_, rfl⟩, ?_⟩
      rw [hr]
      have hl : Config.racePick s.draws % (wordRead s.mem a :: old :: olds).length <
          (wordRead s.mem a :: old :: olds).length := Nat.mod_lt _ (by simp)
      rw [List.getD_eq_getElem _ _ hl]
      exact List.mem_cons.mp (List.getElem_mem hl)
  · cases h

end Sys2Proof.Machine
end

