-- ==== Sys2Proof/Laws/Ops.lean ====
section
/-! SUPPORT. What each shared operation of `Sys2Proof/Machine/Ops.lean` can do, said once, for citing in place of
unfolding it. -/

namespace Sys2Proof.Machine

/-! ## Running a command -/

@[simp] theorem raiseFault_eq (c : FaultCause) (hdr : BitVec 32) (arg : Word64) (s : State) :
    raiseFault c hdr arg s = .next (enterFault c hdr arg s) := rfl

/-- A deferred insert into a heap that has room (46_scheduler.md rule R322). -/
theorem deferCommand_room {i : Instr} {s : State} (h : s.heap.length < s.cfg.heapCap) :
    deferCommand i s =
      .next { s with heap := heapInsert s.heap ⟨s.evTick, clearDefer i.header, i.operand⟩ } := by
  simp [deferCommand, h]

/-- A deferred insert into a full heap (rules R322, R333). -/
theorem deferCommand_full {i : Instr} {s : State} (h : ¬ s.heap.length < s.cfg.heapCap) :
    deferCommand i s = .next (enterFault .queueFull i.header i.operand s) := by
  simp [deferCommand, h]

@[simp] theorem executeNow_ok (i : Instr) (t s : State) : executeNow i (.ok t) s = .next t := rfl

@[simp] theorem executeNow_error (i : Instr) (c : FaultCause) (s : State) :
    executeNow i (.error c) s = .next (enterFault c i.header i.operand s) := rfl

@[simp] theorem runCommand_deferred {i : Instr} (h : i.deferred = true) (f : State → Except FaultCause State)
    (s : State) : runCommand i f s = deferCommand i s := by
  simp [runCommand, h]

@[simp] theorem runCommand_now {i : Instr} (h : i.deferred = false) (f : State → Except FaultCause State)
    (s : State) : runCommand i f s = executeNow i (f s) s := by
  simp [runCommand, h]

/-- A voice command for a voice that does not exist, deferred or not (30_encoding.md rules R91, R96). -/
theorem runVoice_absent {i : Instr} {v : BitVec 8} {s : State} (h : s.voices[v.toNat]? = none)
    (f : State → Voice → Except FaultCause Voice) :
    runVoice i v f s = .next (enterFault .badIndex i.header i.operand s) := by
  simp [runVoice, h]

theorem runVoice_deferred {i : Instr} {v : BitVec 8} {s : State} {vo : Voice} (h : s.voices[v.toNat]? = some vo)
    (hd : i.deferred = true) (f : State → Voice → Except FaultCause Voice) :
    runVoice i v f s = deferCommand i s := by
  simp [runVoice, h, hd]

theorem runVoice_now {i : Instr} {v : BitVec 8} {s : State} {vo : Voice} (h : s.voices[v.toNat]? = some vo)
    (hd : i.deferred = false) (f : State → Voice → Except FaultCause Voice) :
    runVoice i v f s =
      executeNow i ((f s vo).map fun vo' => { s with voices := s.voices.set v.toNat vo' }) s := by
  simp [runVoice, h, hd]

/-- Everything a command that takes no voice can do. -/
theorem runCommand_cases {i : Instr} {f : State → Except FaultCause State} {s t : State}
    (h : runCommand i f s = .next t) :
    (i.deferred = true ∧ s.heap.length < s.cfg.heapCap ∧
        t = { s with heap := heapInsert s.heap ⟨s.evTick, clearDefer i.header, i.operand⟩ }) ∨
    (i.deferred = true ∧ ¬ s.heap.length < s.cfg.heapCap ∧ t = enterFault .queueFull i.header i.operand s) ∨
    (i.deferred = false ∧ f s = .ok t) ∨
    (i.deferred = false ∧ ∃ c, f s = .error c ∧ t = enterFault c i.header i.operand s) := by
  cases hd : i.deferred
  · rw [runCommand_now hd] at h
    cases hf : f s with
    | ok u => rw [hf] at h; right; right; left; exact ⟨rfl, by injection h with h; rw [h]⟩
    | error c => rw [hf] at h; right; right; right; exact ⟨rfl, c, rfl, by injection h with h; exact h.symm⟩
  · rw [runCommand_deferred hd] at h
    by_cases hl : s.heap.length < s.cfg.heapCap
    · rw [deferCommand_room hl] at h
      left; exact ⟨rfl, hl, by injection h with h; exact h.symm⟩
    · rw [deferCommand_full hl] at h
      right; left; exact ⟨rfl, hl, by injection h with h; exact h.symm⟩

/-- Everything a voice command can do. -/
theorem runVoice_cases {i : Instr} {v : BitVec 8} {f : State → Voice → Except FaultCause Voice} {s t : State}
    (h : runVoice i v f s = .next t) :
    (s.voices[v.toNat]? = none ∧ t = enterFault .badIndex i.header i.operand s) ∨
    ∃ vo, s.voices[v.toNat]? = some vo ∧
      ((i.deferred = true ∧ s.heap.length < s.cfg.heapCap ∧
          t = { s with heap := heapInsert s.heap ⟨s.evTick, clearDefer i.header, i.operand⟩ }) ∨
       (i.deferred = true ∧ ¬ s.heap.length < s.cfg.heapCap ∧ t = enterFault .queueFull i.header i.operand s) ∨
       (i.deferred = false ∧ ∃ vo', f s vo = .ok vo' ∧ t = { s with voices := s.voices.set v.toNat vo' }) ∨
       (i.deferred = false ∧ ∃ c, f s vo = .error c ∧ t = enterFault c i.header i.operand s)) := by
  cases hv : s.voices[v.toNat]? with
  | none =>
    rw [runVoice_absent hv] at h
    left; exact ⟨rfl, by injection h with h; exact h.symm⟩
  | some vo =>
    right; refine ⟨vo, rfl, ?_⟩
    have hr : runVoice i v f s = runCommand i
        (fun s => (f s vo).map fun vo' => { s with voices := s.voices.set v.toNat vo' }) s := by
      simp [runVoice, runCommand, hv]
    rw [hr] at h
    rcases runCommand_cases h with h | h | ⟨hd, h⟩ | ⟨hd, c, h, ht⟩
    · exact .inl h
    · exact .inr (.inl h)
    · right; right; left
      cases hf : f s vo with
      | ok vo' => rw [hf] at h; exact ⟨hd, vo', rfl, (Except.ok.inj h).symm⟩
      | error c => rw [hf] at h; cases h
    · right; right; right
      cases hf : f s vo with
      | ok vo' => rw [hf] at h; cases h
      | error c' => rw [hf] at h; exact ⟨hd, c', rfl, by rw [Except.error.inj h]; exact ht⟩

/-! ## The heap -/

@[simp] theorem swapAt_length (h : List Event) (i j : Nat) : (swapAt h i j).length = h.length := by
  unfold swapAt
  split <;> simp

@[simp] theorem siftUp_length (fuel : Nat) (h : List Event) (k : Nat) : (siftUp fuel h k).length = h.length := by
  induction fuel generalizing h k with
  | zero => rfl
  | succ n ih =>
    simp only [siftUp]
    split
    · rfl
    · split
      · rw [ih, swapAt_length]
      · rfl

@[simp] theorem siftDown_length (fuel : Nat) (h : List Event) (k : Nat) : (siftDown fuel h k).length = h.length := by
  induction fuel generalizing h k with
  | zero => rfl
  | succ n ih =>
    simp only [siftDown]
    split
    · rfl
    · split
      · rw [ih, swapAt_length]
      · rfl

@[simp] theorem heapInsert_length (h : List Event) (e : Event) : (heapInsert h e).length = h.length + 1 := by
  simp [heapInsert]

theorem heapShift_length {h rest : List Event} {e : Event} (hs : heapShift h = some (e, rest)) :
    h.length = rest.length + 1 := by
  cases h with
  | nil => cases hs
  | cons a l =>
    simp only [heapShift] at hs
    split at hs
    · rename_i hl
      cases hs
      have : l = [] := by simpa using hl
      simp [this]
    · rename_i last hl
      cases hs
      have : l ≠ [] := by rintro rfl; simp at hl
      have := List.length_pos_iff.mpr this
      simp; omega

/-- Everything popping an event can do: it changes the heap, and the count of free choices. -/
theorem popEvent_spec {s t : State} {e : Event} (h : popEvent s = some (e, t)) :
    s.heap.length = t.heap.length + 1 ∧ t = { s with heap := t.heap, draws := t.draws } := by
  unfold popEvent at h
  simp only at h
  split at h
  · split at h
    · rename_i hs
      cases h
      refine ⟨?_, rfl⟩
      have := heapShift_length hs
      simpa using this
    · cases h
  · split at h
    · rename_i hs
      cases h
      exact ⟨heapShift_length hs, rfl⟩
    · cases h

/-- An empty heap has nothing to pop, any other has. -/
theorem popEvent_isSome (s : State) : (popEvent s).isSome = !s.heap.isEmpty := by
  have hk : ∀ h : List Event, (heapShift h).isSome = !h.isEmpty := by
    intro h
    cases h with
    | nil => rfl
    | cons a l => simp only [heapShift]; split <;> rfl
  have he : ∀ i j, (swapAt s.heap i j).isEmpty = s.heap.isEmpty := by
    intro i j
    rw [Bool.eq_iff_iff, List.isEmpty_iff, List.isEmpty_iff, ← List.length_eq_zero_iff, swapAt_length,
      List.length_eq_zero_iff]
  unfold popEvent
  simp only
  split
  · rename_i hc
    split
    · rename_i hs
      have := hk (swapAt s.heap 0 ((minEntries s.heap).getD (Config.eqTickPick s.draws % (minEntries s.heap).length) 0))
      rw [hs, he] at this
      simpa using this
    · rename_i hs
      have := hk (swapAt s.heap 0 ((minEntries s.heap).getD (Config.eqTickPick s.draws % (minEntries s.heap).length) 0))
      rw [hs, he] at this
      simpa using this
  · split
    · rename_i hs
      have := hk s.heap
      rw [hs] at this
      simpa using this
    · rename_i hs
      have := hk s.heap
      rw [hs] at this
      simpa using this

/-! ## The tick -/

/-- A tick that is due neither faults at its start nor waits: what it does next (47_engine.md rule R361). -/
theorem startTick_rate {s : State} (h : s.sampleRate.eq F64.zero = false) :
    startTick s = continueTick { s with inTick := true } := by
  simp [startTick, h]

theorem startTick_noRate {s : State} (h : s.sampleRate.eq F64.zero = true) :
    startTick s = .next (enterFault .zeroSampleRate 0 0 s) := by
  simp [startTick, h]

theorem dispatch_none {s : State} (h : eventDue s = false) (fuel : Nat) : dispatch fuel s = .next s := by
  cases fuel <;> simp [dispatch, h]

/-! ## The step -/

/-- With no tick due and a whole packet at the command port, the step receives the packet. -/
theorem step_packet {s : State} {hdr : BitVec 32} {arg : Word64} {rest : List Byte} (he : engineDue s = false)
    (hp : takePacket s.port = some (hdr, arg, rest)) :
    step s = receivePacket hdr arg { s with port := rest } := by
  simp [step, nextAction, he, hp]

/-- With no tick due and no whole packet at the command port, the step is the host's next action. -/
theorem step_host {s : State} {a : HostAction} {rest : List HostAction} (he : engineDue s = false)
    (hp : takePacket s.port = none) (hi : s.inbox = a :: rest) :
    step s = hostAct a { s with inbox := rest } := by
  simp [step, nextAction, he, hp, hi]

/-- With nothing to do the block keeps its state (60_exceptions.md rule R412). -/
theorem step_idle {s : State} (he : engineDue s = false) (hp : takePacket s.port = none) (hi : s.inbox = []) :
    step s = .next s := by
  simp [step, nextAction, he, hp, hi]

theorem step_engine {s : State} (he : engineDue s = true) : step s = engineAct s := by
  simp [step, nextAction, he]

/-! ## The base of the bound buffer (10_state.md rule R46, 44_resampler.md rule R271) -/

@[simp] theorem rsBase_low (p : Params) {rs : Resampler} (h : rs.baseTop = false) : rsBase p rs = rs.base.toNat := by
  simp [rsBase, h]

/-- What `RS_SET_BUF_BASE` stores for an operand that is not above `2^SAMPLE_ADDR_BITS` is that operand. -/
theorem rsBase_stored (p : Params) (rs : Resampler) {a : Nat} (h : a ≤ 2 ^ p.sampleAddrBits) (ha : a < 2 ^ 64) :
    rsBase p { rs with
      base := BitVec.ofNat 64 (a % 2 ^ p.sampleAddrBits)
      baseTop := decide (2 ^ p.sampleAddrBits ≤ a) } = a := by
  rcases Nat.lt_or_ge a (2 ^ p.sampleAddrBits) with h1 | h1
  · simp only [rsBase, Nat.mod_eq_of_lt h1, BitVec.toNat_ofNat, Nat.mod_eq_of_lt ha,
      decide_eq_false (Nat.not_le.mpr h1)]
    simp
  · have h2 : a = 2 ^ p.sampleAddrBits := Nat.le_antisymm h h1
    simp [rsBase, h2]

end Sys2Proof.Machine
end

