-- ==== Sys2Proof/Laws/PerInstr.lean ====
section
/-! SUPPORT. The encoding of each command, one lemma per constructor: the header's fields read back as they were written
(30_encoding.md rules R90 to R92), and the opcode map gives the constructor back (rule R94). -/

namespace Sys2Proof.Laws

/-! ## The header's fields -/

/-- Every bit of a header. -/
theorem headerOf_bit (d : Bool) (idx op : BitVec 8) (i : Nat) :
    (headerOf d idx op).getLsbD i =
      if i < 8 then op.getLsbD i else if i < 16 then idx.getLsbD (i - 8) else decide (i = 31) && d := by
  unfold headerOf
  simp only [BitVec.getLsbD_append]
  by_cases h1 : i < 8
  · simp [h1]
  · by_cases h2 : i < 16
    · have : i - 8 < 8 := by omega
      simp [h1, h2, this]
    · by_cases h3 : i = 31
      · subst h3; cases d <;> rfl
      · have h4 : ¬ i - 8 < 8 := by omega
        by_cases h5 : i - 8 - 8 < 15
        · simp [h1, h2, h3, h4, h5]
        · have h6 : i - 8 - 8 - 15 ≠ 0 := by omega
          cases d <;> simp [h1, h2, h3, h4, h5, h6]

theorem hdrOp_headerOf (d : Bool) (idx op : BitVec 8) : hdrOp (headerOf d idx op) = op := by
  apply BitVec.eq_of_getLsbD_eq
  intro i hi
  simp only [hdrOp, BitVec.getLsbD_extractLsb', headerOf_bit, hi]
  simp [hi]

theorem hdrIdx_headerOf (d : Bool) (idx op : BitVec 8) : hdrIdx (headerOf d idx op) = idx := by
  apply BitVec.eq_of_getLsbD_eq
  intro i hi
  have h : 8 + i < 16 := by omega
  simp only [hdrIdx, BitVec.getLsbD_extractLsb', headerOf_bit, hi]
  simp [h]

theorem hdrRsv_headerOf (d : Bool) (idx op : BitVec 8) : hdrRsv (headerOf d idx op) = 0 := by
  apply BitVec.eq_of_getLsbD_eq
  intro i hi
  have h1 : ¬ 16 + i < 8 := by omega
  have h2 : ¬ 16 + i < 16 := by omega
  have h3 : 16 + i ≠ 31 := by omega
  simp only [hdrRsv, BitVec.getLsbD_extractLsb', headerOf_bit, hi]
  simp [h1, h3]

theorem hdrDefer_headerOf (d : Bool) (idx op : BitVec 8) : hdrDefer (headerOf d idx op) = d := by
  simp only [hdrDefer, headerOf_bit]
  simp

/-- Clearing bit 31 clears the `D` field and no other. -/
theorem clearDefer_headerOf (d : Bool) (idx op : BitVec 8) :
    clearDefer (headerOf d idx op) = headerOf false idx op := by
  apply BitVec.eq_of_getLsbD_eq
  intro i hi
  have hm : (0x7FFFFFFF : BitVec 32).getLsbD i = decide (i < 31) := by
    interval_cases i <;> decide
  simp only [clearDefer, BitVec.getLsbD_and, hm, headerOf_bit]
  by_cases h : i = 31
  · subst h; simp
  · have h31 : i < 31 := by omega
    simp [h, h31]

/-! ## The statement -/

/-- What the encoding of a command keeps (rules R90 to R92, R94). -/
def EncodingShape.Statement (i : Instr) : Prop :=
  hdrOp i.header = i.opcode ∧ hdrIdx i.header = i.idx ∧ hdrRsv i.header = 0 ∧ hdrDefer i.header = i.deferred ∧
  (opNeverDeferred i.opcode = true → i.deferred = false) ∧
  instrAt i.opcode i.deferred i.idx i.operand = some i ∧ (encode i).length = 12

/-- From what is particular to a command to its statement. -/
theorem EncodingShape.of_fields {i : Instr} (hd : opNeverDeferred i.opcode = true → i.deferred = false)
    (hi : instrAt i.opcode i.deferred i.idx i.operand = some i) : EncodingShape.Statement i :=
  ⟨hdrOp_headerOf _ _ _, hdrIdx_headerOf _ _ _, hdrRsv_headerOf _ _ _, hdrDefer_headerOf _ _ _, hd, hi, rfl⟩

/-! ## One lemma per command -/

theorem EncodingShape.nop (d : Bool) (arg : Word64) :
    EncodingShape.Statement (.nop d arg) :=
  EncodingShape.of_fields (fun h => Bool.noConfusion h) rfl

theorem EncodingShape.setSampleRate (d : Bool) (arg : Word64) :
    EncodingShape.Statement (.setSampleRate d arg) :=
  EncodingShape.of_fields (fun h => Bool.noConfusion h) rfl

theorem EncodingShape.oscSetHz (d : Bool) (v : BitVec 8) (arg : Word64) :
    EncodingShape.Statement (.oscSetHz d v arg) :=
  EncodingShape.of_fields (fun h => Bool.noConfusion h) rfl

theorem EncodingShape.oscSetShift (d : Bool) (v : BitVec 8) (arg : Word64) :
    EncodingShape.Statement (.oscSetShift d v arg) :=
  EncodingShape.of_fields (fun h => Bool.noConfusion h) rfl

theorem EncodingShape.oscSetFlags (d : Bool) (v : BitVec 8) (arg : Word64) :
    EncodingShape.Statement (.oscSetFlags d v arg) :=
  EncodingShape.of_fields (fun h => Bool.noConfusion h) rfl

theorem EncodingShape.oscSetGainDirect (d : Bool) (v : BitVec 8) (arg : Word64) :
    EncodingShape.Statement (.oscSetGainDirect d v arg) :=
  EncodingShape.of_fields (fun h => Bool.noConfusion h) rfl

theorem EncodingShape.oscSetGainFilter (d : Bool) (v : BitVec 8) (arg : Word64) :
    EncodingShape.Statement (.oscSetGainFilter d v arg) :=
  EncodingShape.of_fields (fun h => Bool.noConfusion h) rfl

theorem EncodingShape.oscWtWrite (d : Bool) (v : BitVec 8) (arg : Word64) :
    EncodingShape.Statement (.oscWtWrite d v arg) :=
  EncodingShape.of_fields (fun h => Bool.noConfusion h) rfl

theorem EncodingShape.envOn (d : Bool) (v : BitVec 8) (arg : Word64) :
    EncodingShape.Statement (.envOn d v arg) :=
  EncodingShape.of_fields (fun h => Bool.noConfusion h) rfl

theorem EncodingShape.envOff (d : Bool) (v : BitVec 8) (arg : Word64) :
    EncodingShape.Statement (.envOff d v arg) :=
  EncodingShape.of_fields (fun h => Bool.noConfusion h) rfl

theorem EncodingShape.envSetAttack (d : Bool) (v : BitVec 8) (arg : Word64) :
    EncodingShape.Statement (.envSetAttack d v arg) :=
  EncodingShape.of_fields (fun h => Bool.noConfusion h) rfl

theorem EncodingShape.envSetDecay (d : Bool) (v : BitVec 8) (arg : Word64) :
    EncodingShape.Statement (.envSetDecay d v arg) :=
  EncodingShape.of_fields (fun h => Bool.noConfusion h) rfl

theorem EncodingShape.envSetSustain (d : Bool) (v : BitVec 8) (arg : Word64) :
    EncodingShape.Statement (.envSetSustain d v arg) :=
  EncodingShape.of_fields (fun h => Bool.noConfusion h) rfl

theorem EncodingShape.envSetRelease (d : Bool) (v : BitVec 8) (arg : Word64) :
    EncodingShape.Statement (.envSetRelease d v arg) :=
  EncodingShape.of_fields (fun h => Bool.noConfusion h) rfl

theorem EncodingShape.envSetCurveAttack (d : Bool) (v : BitVec 8) (arg : Word64) :
    EncodingShape.Statement (.envSetCurveAttack d v arg) :=
  EncodingShape.of_fields (fun h => Bool.noConfusion h) rfl

theorem EncodingShape.envSetCurveDecay (d : Bool) (v : BitVec 8) (arg : Word64) :
    EncodingShape.Statement (.envSetCurveDecay d v arg) :=
  EncodingShape.of_fields (fun h => Bool.noConfusion h) rfl

theorem EncodingShape.envSetCurveRelease (d : Bool) (v : BitVec 8) (arg : Word64) :
    EncodingShape.Statement (.envSetCurveRelease d v arg) :=
  EncodingShape.of_fields (fun h => Bool.noConfusion h) rfl

theorem EncodingShape.fltSetFc (d : Bool) (arg : Word64) :
    EncodingShape.Statement (.fltSetFc d arg) :=
  EncodingShape.of_fields (fun h => Bool.noConfusion h) rfl

theorem EncodingShape.fltSetQ (d : Bool) (arg : Word64) :
    EncodingShape.Statement (.fltSetQ d arg) :=
  EncodingShape.of_fields (fun h => Bool.noConfusion h) rfl

theorem EncodingShape.fltSetGainLp (d : Bool) (arg : Word64) :
    EncodingShape.Statement (.fltSetGainLp d arg) :=
  EncodingShape.of_fields (fun h => Bool.noConfusion h) rfl

theorem EncodingShape.fltSetGainBp (d : Bool) (arg : Word64) :
    EncodingShape.Statement (.fltSetGainBp d arg) :=
  EncodingShape.of_fields (fun h => Bool.noConfusion h) rfl

theorem EncodingShape.fltSetGainHp (d : Bool) (arg : Word64) :
    EncodingShape.Statement (.fltSetGainHp d arg) :=
  EncodingShape.of_fields (fun h => Bool.noConfusion h) rfl

theorem EncodingShape.rsSetBufBase (d : Bool) (arg : Word64) :
    EncodingShape.Statement (.rsSetBufBase d arg) :=
  EncodingShape.of_fields (fun h => Bool.noConfusion h) rfl

theorem EncodingShape.rsSetBufFrames (d : Bool) (arg : Word64) :
    EncodingShape.Statement (.rsSetBufFrames d arg) :=
  EncodingShape.of_fields (fun h => Bool.noConfusion h) rfl

theorem EncodingShape.rsSetBufRate (d : Bool) (arg : Word64) :
    EncodingShape.Statement (.rsSetBufRate d arg) :=
  EncodingShape.of_fields (fun h => Bool.noConfusion h) rfl

theorem EncodingShape.rsSetBufPitch (d : Bool) (arg : Word64) :
    EncodingShape.Statement (.rsSetBufPitch d arg) :=
  EncodingShape.of_fields (fun h => Bool.noConfusion h) rfl

theorem EncodingShape.rsSetHz (d : Bool) (arg : Word64) :
    EncodingShape.Statement (.rsSetHz d arg) :=
  EncodingShape.of_fields (fun h => Bool.noConfusion h) rfl

theorem EncodingShape.rsSetPos (d : Bool) (arg : Word64) :
    EncodingShape.Statement (.rsSetPos d arg) :=
  EncodingShape.of_fields (fun h => Bool.noConfusion h) rfl

theorem EncodingShape.evSetTick (arg : Word64) :
    EncodingShape.Statement (.evSetTick arg) :=
  EncodingShape.of_fields (fun _ => rfl) rfl

theorem EncodingShape.hostCallback (d : Bool) (arg : Word64) :
    EncodingShape.Statement (.hostCallback d arg) :=
  EncodingShape.of_fields (fun h => Bool.noConfusion h) rfl

theorem EncodingShape.cbAck (arg : Word64) :
    EncodingShape.Statement (.cbAck arg) :=
  EncodingShape.of_fields (fun _ => rfl) rfl

end Sys2Proof.Laws
end

