-- ==== Sys2Proof/Laws/Tables.lean ====
section
/-! SUPPORT. The window of the table generators (43_table_cache.md rules R240, R241): for a legal beta it is positive and
finite inside its support, and exactly 1 at its centre; and the taps of phase 0 at scale 1 (rule R246). -/

namespace Sys2Proof

/-! ## `I0` (43_table_cache.md rule R240) -/

/-- From iteration `k` on, with a half-argument of at most `2^5`, the loop answers a positive finite value. -/
theorem i0Loop_pos (fuel : Nat) : ∀ (k : Nat) (y s t : F64), 1 ≤ k → k + fuel ≤ 1001 → y.Within (2 ^ 1079) →
    t.Within (2 ^ (1074 + 10 * min (k - 1) 32)) → t.sign = false → s.Within (k * 2 ^ 1394) → s.sign = false →
    2 ^ 1074 ≤ s.mag →
    (i0Loop fuel k y s t).Within (1001 * 2 ^ 1394) ∧ (i0Loop fuel k y s t).sign = false ∧
      2 ^ 1074 ≤ (i0Loop fuel k y s t).mag := by
  induction fuel with
  | zero =>
    intro k y s t hk hkf hy ht st hs ss hs1
    exact ⟨hs.mono (Nat.mul_le_mul_right _ (by omega)), ss, hs1⟩
  | succ fuel ih =>
    intro k y s t hk hkf hy ht st hs ss hs1
    obtain ⟨hkw, hks, hkl⟩ := F64.ofNat_within (k := k) (m := 1001) hk (by omega) (by decide)
    -- the square of `y / k`
    obtain ⟨e, he, huu, hus⟩ : ∃ e, min (k - 1) 32 * 10 + e ≤ 10 * min k 32 ∧
        ((y.div (F64.ofNat k)).mul (y.div (F64.ofNat k))).Within (2 ^ (1074 + e)) ∧
        ((y.div (F64.ofNat k)).mul (y.div (F64.ofNat k))).sign = false := by
      rcases Nat.lt_or_ge k 32 with h32 | h32
      · have hu := (F64.div_pow (d := 0 + 1074) (e := 1079) hy hkw.1 (hkl 0 (by omega)) (by decide) (by decide)).1
        obtain ⟨h1, h2⟩ := F64.mul_pow (e := 1084) hu hu (by decide) (by decide)
        exact ⟨10, by omega, h1, by rw [h2]; simp⟩
      · have hu := (F64.div_pow (d := 5 + 1074) (e := 1074) hy hkw.1 (hkl 5 (by omega)) (by decide) (by decide)).1
        obtain ⟨h1, h2⟩ := F64.mul_pow (e := 1074) hu hu (by decide) (by decide)
        exact ⟨0, by omega, h1, by rw [h2]; simp⟩
    -- the next term
    obtain ⟨ht', hts'⟩ := F64.mul_pow (e := 1074 + 10 * min k 32) ht huu (by omega) (by omega)
    rw [st, hus] at hts'
    -- the next sum
    obtain ⟨hs', hss', hl'⟩ := F64.add_within (m := k + 1) (j := 1394) hs
      (ht'.mono (Nat.pow_le_pow_right (n := 2) (by decide) (show 1074 + 10 * min k 32 ≤ 1394 by omega))) ss hts'
      (by omega)
      (by
        calc (k + 1) * 2 ^ 1394 ≤ 2 ^ 10 * 2 ^ 1394 := Nat.mul_le_mul_right _ (by omega)
          _ ≤ 2 ^ 2097 := by rw [← pow_add]; exact Nat.pow_le_pow_right (by decide) (by decide))
      (by rw [Nat.succ_mul])
    simp only [i0Loop]
    split
    · exact ⟨hs'.mono (Nat.mul_le_mul_right _ (by omega)), hss', hl' 1074 hs1⟩
    · exact ih (k + 1) y _ _ (by omega) (by omega) hy (by rw [Nat.add_sub_cancel]; exact ht') hts' hs' hss' (hl' 1074 hs1)

/-- `I0` of a value of at most `2^6` in magnitude is a positive finite value, at least 1. -/
theorem besselI0_pos {x : F64} (hx : x.Within (2 ^ 1080)) :
    (besselI0 x).Within (1001 * 2 ^ 1394) ∧ (besselI0 x).sign = false ∧ 2 ^ 1074 ≤ (besselI0 x).mag := by
  have h1 : F64.one.Within (2 ^ 1074) ∧ F64.one.sign = false ∧ F64.one.mag = 2 ^ 1074 :=
    ⟨⟨by decide +kernel, by decide +kernel⟩, by decide +kernel, by decide +kernel⟩
  have h2 : F64.two.isFinite = true ∧ F64.two.mag = 2 ^ 1075 := by decide +kernel
  have hy := (F64.div_pow (d := 1075) (e := 1079) hx h2.1 (Nat.le_of_eq h2.2.symm) (by decide) (by decide)).1
  exact i0Loop_pos 1000 1 _ _ _ (by decide) (by decide) hy (h1.1.mono (Nat.le_of_eq (by simp))) h1.2.1
    (h1.1.mono (by rw [Nat.one_mul]; exact Nat.pow_le_pow_right (by decide) (by decide))) h1.2.1
    (Nat.le_of_eq h1.2.2.symm)

/-! ## The Kaiser window (rule R241) -/

/-- A legal beta is at most 50 in magnitude. -/
theorem beta_within {beta : F64} (h : Machine.betaInRange beta = true) : beta.Within (2 ^ 1080) := by
  simp only [Machine.betaInRange, Bool.and_eq_true, F64.le, decide_eq_true_eq] at h
  obtain ⟨⟨h1, -, h2⟩, -, h3⟩ := h
  refine ⟨h1, ?_⟩
  have hz : F64.zero.order = 0 := by decide
  have h50 : (F64.mk 0x4049000000000000).order = 0x4049000000000000 := by decide
  rw [hz] at h2
  rw [h50] at h3
  have hl : beta.low63 ≤ 0x4049000000000000 := by
    simp only [F64.order] at h2 h3
    cases hs : beta.sign <;> simp only [hs, if_true, if_false, Bool.false_eq_true] at h2 h3 <;> omega
  rw [F64.low63_eq] at hl
  obtain ⟨m, j, g1, g2, -, g3⟩ := beta.mag_eq
  rw [g2]
  calc m * 2 ^ j ≤ 2 ^ 53 * 2 ^ 1027 :=
        Nat.mul_le_mul (Nat.le_of_lt g1) (Nat.pow_le_pow_right (by decide) (by omega))
    _ = 2 ^ 1080 := by rw [← pow_add]

/-- Inside its support the window of a legal beta is finite and not negative. -/
theorem kaiser_within {t beta : F64} (hb : Machine.betaInRange beta = true) (ht : t.Within (2 ^ 1074)) :
    (kaiser t beta).Within (1001 * 2 ^ 1394) ∧ (kaiser t beta).sign = false := by
  have hbw := beta_within hb
  obtain ⟨s1, s2⟩ := F64.mul_pow (e := 1074) ht ht (by decide) (by decide)
  rw [bne_self_eq_false] at s2
  obtain ⟨o1, o2⟩ := F64.one_sub_within s1 s2
  have hr := (F64.sqrt_within o1 o2).1
  have hm := (F64.mul_pow (e := 1080) hbw hr (by decide) (by decide)).1
  obtain ⟨n1, n2, -⟩ := besselI0_pos hm
  obtain ⟨d1, d2, d3⟩ := besselI0_pos hbw
  obtain ⟨r1, r2⟩ := F64.div_within (m := 1001) (j := 1394) n1 d1.1 d3 (Nat.two_pow_pos _) (by decide)
    (by
      calc 1001 * 2 ^ 1394 ≤ 2 ^ 10 * 2 ^ 1394 := Nat.mul_le_mul_right _ (by decide)
        _ ≤ 2 ^ 2097 := by rw [← pow_add]; exact Nat.pow_le_pow_right (by decide) (by decide))
    (Nat.le_of_eq (Nat.mul_comm _ _))
  simp only [kaiser, F64.one_lt_abs ht, Bool.false_eq_true, if_false]
  exact ⟨r1, by rw [r2, n2, d2]; rfl⟩

/-- A quotient of a value by one of at least its magnitude lies in the support. -/
theorem ratio_within {d h : F64} (hd : d.isFinite = true) (hh : h.isFinite = true) (h0 : 0 < h.mag) (hle : d.mag ≤ h.mag) :
    (d.div h).Within (2 ^ 1074) := by
  have := (F64.div_within (m := 1) (j := 1074) ⟨hd, hle⟩ hh (Nat.le_refl _) h0 (by decide)
    (by rw [Nat.one_mul]; exact Nat.pow_le_pow_right (by decide) (by decide))
    (Nat.le_of_eq (congrArg _ (Nat.one_mul _).symm))).1
  rwa [Nat.one_mul] at this

/-- At its centre the window of a legal beta is exactly 1. -/
theorem kaiser_zero {beta : F64} (hb : Machine.betaInRange beta = true) : kaiser F64.zero beta = F64.one := by
  have h1 : F64.one.lt F64.zero.abs = false ∧ (F64.one.sub (F64.zero.mul F64.zero)).sqrt = F64.one := by decide +kernel
  have hbw := beta_within hb
  obtain ⟨d1, -, d3⟩ := besselI0_pos hbw
  simp only [kaiser, h1.1, Bool.false_eq_true, if_false, h1.2]
  rw [F64.mul_one_eq (hbw.mono (Nat.pow_le_pow_right (by decide) (by decide))),
    F64.div_self_eq d1.1 (Nat.lt_of_lt_of_le (Nat.two_pow_pos _) d3)]

/-! ## Phase 0 at scale 1 (rules R242, R246) -/

/-- The distances of phase 0, `-31` to `32`, are exact, and the sinc of every one but 0 is `+0.0`. -/
theorem sinc_of_distance : ∀ i ∈ List.range 64, ∀ d, d = (F64.ofInt ((i : Int) - 31)).sub F64.zero →
    d.isFinite = true ∧ d.mag = ((i : Int) - 31).natAbs * 2 ^ 1074 ∧
    sinc (F64.one.mul d) = if i = 31 then F64.one else F64.zero := by
  intro i hi d hd
  subst hd
  revert i
  decide +kernel

/-- The widths `HALF`, exact. -/
theorem ofNat_of_half : ∀ h ∈ List.range 33, (F64.ofNat h).isFinite = true ∧ (F64.ofNat h).mag = h * 2 ^ 1074 ∧
    F64.zero.div (F64.ofNat (h + 1)) = F64.zero := by decide +kernel

/-- Phase 0 is at distance `+0.0` from its frame. -/
theorem phase_zero : ∀ b ∈ List.range 13, (F64.ofNat 0).div (F64.ofNat (2 ^ b)) = F64.zero := by decide +kernel

/-- The unnormalised taps of phase 0 at scale 1: 1 at distance 0, `+0.0` elsewhere. -/
theorem psincTap_phase_zero {bits half k : Nat} {beta : F64} (hb : bits ≤ 12) (h : Machine.betaInRange beta = true)
    (h1 : 1 ≤ half) (h2 : half ≤ 32) (hk : k < 2 * half) :
    psincTap (2 ^ bits) half beta F64.one 0 k = if k + 1 = half then F64.one else F64.zero := by
  have hp := phase_zero bits (List.mem_range.mpr (by omega))
  have hs := sinc_of_distance (k + 32 - half) (List.mem_range.mpr (by omega)) _ rfl
  have hh := ofNat_of_half half (List.mem_range.mpr (by omega))
  have hz := (ofNat_of_half (half - 1) (List.mem_range.mpr (by omega))).2.2
  rw [show half - 1 + 1 = half by omega] at hz
  rw [show ((k + 32 - half : Nat) : Int) - 31 = (k : Int) - half + 1 by omega] at hs
  have hc1 : (F64.ofInt 0).sub F64.zero = F64.zero ∧ F64.one.mul F64.zero = F64.zero ∧
      (F64.one.mul F64.one).mul F64.one = F64.one := by decide +kernel
  simp only [psincTap, hp, hs.2.2]
  by_cases hc : k + 1 = half
  · rw [show (k : Int) - half + 1 = 0 by omega, hc1.1, hz, kaiser_zero h, if_pos (by omega), if_pos hc, hc1.2.2]
  · have hw := kaiser_within h (ratio_within hs.1 hh.1 (hh.2.1 ▸ Nat.mul_pos h1 (Nat.two_pow_pos _))
      (by rw [hh.2.1, hs.2.1]; exact Nat.mul_le_mul_right _ (by omega)))
    rw [if_neg (by omega), if_neg hc, hc1.2.1, F64.zero_mul_eq hw.1.1 hw.2]

end Sys2Proof
end

