-- ==== Sys2Proof/Laws/Units.lean ====
section
/-! SUPPORT. What the functions under the units' registers can answer where a register's range rests on it: `F_exp` of a
quotient that overflows. -/

namespace Sys2Proof

/-! ## `F_exp` below every finite value (00_scope.md rule R16, 42_envelope.md rule R200) -/

theorem roundMag_farBelow :
    F64.pack false (F64.roundMagDown (expBoundsFarBelow.loN * F64.unit) expBoundsFarBelow.loD) = ⟨0⟩ ∧
    F64.pack false (F64.roundMagUp (expBoundsFarBelow.hiN * F64.unit) expBoundsFarBelow.hiD) = ⟨1⟩ := by
  decide +kernel

/-- Whichever way it is rounded, it is `+0.0` or `2^-1074`. -/
theorem faithful_farBelow (x : F64) : F64.faithful .exp x false expBoundsFarBelow = ⟨0⟩ ∨
    F64.faithful .exp x false expBoundsFarBelow = ⟨1⟩ := by
  rw [F64.faithful, roundMag_farBelow.1, roundMag_farBelow.2]
  split
  · exact .inr rfl
  · exact .inl rfl

/-- `F_exp(-∞)`, which a quotient of rule R200 that overflows evaluates, is in `[0, 1]`. -/
theorem fExp_negInf_inUnit : F64.zero.le (fExp ⟨0xFFF0000000000000⟩) = true ∧
    (fExp ⟨0xFFF0000000000000⟩).le F64.one = true := by
  have h : fExp ⟨0xFFF0000000000000⟩ = F64.faithful .exp ⟨0xFFF0000000000000⟩ false expBoundsFarBelow := rfl
  rw [h]
  rcases faithful_farBelow ⟨0xFFF0000000000000⟩ with e | e <;> rw [e] <;> decide +kernel

end Sys2Proof
end

