-- ==== Sys2Proof/Tests/Slice0.lean ====
section
/-! SUPPORT. Tests: the checks of `WellFormed`, the decoding of one packet of each command, one step of the commands and of
the units on small states, and states that meet the hypotheses of the statements.  Expected values are those of
95_test_vectors.md (its vector is named) or worked out by hand from the rule named. -/

namespace Sys2Proof.Tests

open Sys2Proof.Machine

set_option Elab.async false

/-! ## WellFormed (30_encoding.md rule R91) -/

theorem test_wellFormed_refuses_voice : (Instr.oscSetHz false 4 0).wellFormed 4 = false := by decide
theorem test_wellFormed_refuses_voice_deferred : (Instr.envOff true 255 0).wellFormed 64 = false := by decide
theorem test_wellFormed_takes_voice : (Instr.oscSetHz false 3 0).wellFormed 4 = true := by decide
theorem test_wellFormed_takes_unit : (Instr.setSampleRate true 0).wellFormed 0 = true := by decide

/-! ## Decoding: one packet of each command, written out from 30_encoding.md rules R90 to R94, R102 and the packets of
95_test_vectors.md -/

theorem test_decode_nop : decodePacket 0x00000000 0x0 = .ok (.nop false 0) := by decide
theorem test_decode_setSampleRate : decodePacket 0x00000001 0x40E5888000000000 = .ok (.setSampleRate false 0x40E5888000000000) := by decide
theorem test_decode_oscSetHz : decodePacket 0x00000110 0x407B800000000000 = .ok (.oscSetHz false 1 0x407B800000000000) := by decide
theorem test_decode_oscSetShift : decodePacket 0x00000211 0xBFD0000000000000 = .ok (.oscSetShift false 2 0xBFD0000000000000) := by decide
theorem test_decode_oscSetFlags : decodePacket 0x80000012 0x1 = .ok (.oscSetFlags true 0 1) := by decide
theorem test_decode_oscSetGainDirect : decodePacket 0x00000113 0x3FF0000000000000 = .ok (.oscSetGainDirect false 1 0x3FF0000000000000) := by decide
theorem test_decode_oscSetGainFilter : decodePacket 0x00000014 0x3FE0000000000000 = .ok (.oscSetGainFilter false 0 0x3FE0000000000000) := by decide
theorem test_decode_oscWtWrite : decodePacket 0x00000215 0x5FFFF = .ok (.oscWtWrite false 2 0x5FFFF) := by decide
theorem test_decode_envOn : decodePacket 0x80000120 0x0 = .ok (.envOn true 1 0) := by decide
theorem test_decode_envOff : decodePacket 0x80000321 0x0 = .ok (.envOff true 3 0) := by decide
theorem test_decode_envSetAttack : decodePacket 0x00000022 0x3F847AE147AE147B = .ok (.envSetAttack false 0 0x3F847AE147AE147B) := by decide
theorem test_decode_envSetDecay : decodePacket 0x00000123 0x3FB999999999999A = .ok (.envSetDecay false 1 0x3FB999999999999A) := by decide
theorem test_decode_envSetSustain : decodePacket 0x00000024 0x3FB999999999999A = .ok (.envSetSustain false 0 0x3FB999999999999A) := by decide
theorem test_decode_envSetRelease : decodePacket 0x00000125 0x3FE0000000000000 = .ok (.envSetRelease false 1 0x3FE0000000000000) := by decide
theorem test_decode_envSetCurveAttack : decodePacket 0x00000026 0x10000000000000 = .ok (.envSetCurveAttack false 0 0x10000000000000) := by decide
theorem test_decode_envSetCurveDecay : decodePacket 0x00000327 0x3FD3333333333333 = .ok (.envSetCurveDecay false 3 0x3FD3333333333333) := by decide
theorem test_decode_envSetCurveRelease : decodePacket 0x00000228 0x3FD3333333333333 = .ok (.envSetCurveRelease false 2 0x3FD3333333333333) := by decide
theorem test_decode_fltSetFc : decodePacket 0x80000030 0x3FC3333333333333 = .ok (.fltSetFc true 0x3FC3333333333333) := by decide
theorem test_decode_fltSetQ : decodePacket 0x00000031 0x3FE0000000000000 = .ok (.fltSetQ false 0x3FE0000000000000) := by decide
theorem test_decode_fltSetGainLp : decodePacket 0x80000032 0x4000000000000000 = .ok (.fltSetGainLp true 0x4000000000000000) := by decide
theorem test_decode_fltSetGainBp : decodePacket 0x00000033 0x3FF0000000000000 = .ok (.fltSetGainBp false 0x3FF0000000000000) := by decide
theorem test_decode_fltSetGainHp : decodePacket 0x00000034 0x3FF0000000000000 = .ok (.fltSetGainHp false 0x3FF0000000000000) := by decide
theorem test_decode_rsSetBufBase : decodePacket 0x00000040 0x100 = .ok (.rsSetBufBase false 0x100) := by decide
theorem test_decode_rsSetBufFrames : decodePacket 0x00000041 0x4 = .ok (.rsSetBufFrames false 4) := by decide
theorem test_decode_rsSetBufRate : decodePacket 0x00000042 0x40E5888000000000 = .ok (.rsSetBufRate false 0x40E5888000000000) := by decide
theorem test_decode_rsSetBufPitch : decodePacket 0x00000043 0x407B800000000000 = .ok (.rsSetBufPitch false 0x407B800000000000) := by decide
theorem test_decode_rsSetHz : decodePacket 0x00000044 0x406B800000000000 = .ok (.rsSetHz false 0x406B800000000000) := by decide
theorem test_decode_rsSetPos : decodePacket 0x00000045 0xFFFFFFFFFFFFFFFD = .ok (.rsSetPos false 0xFFFFFFFFFFFFFFFD) := by decide
theorem test_decode_evSetTick : decodePacket 0x00000050 0x2710 = .ok (.evSetTick 10000) := by decide
theorem test_decode_hostCallback : decodePacket 0x80000051 0x7 = .ok (.hostCallback true 7) := by decide
theorem test_decode_cbAck : decodePacket 0x00000052 0x0 = .ok (.cbAck 0) := by decide

/-- The 12 bytes of V9. -/
theorem test_decode_bytes : decode [0x10, 0x01, 0, 0, 0, 0, 0, 0, 0, 0x80, 0x7B, 0x40, 0xAA] =
    .ok (.oscSetHz false 1 0x407B800000000000, [0xAA]) := by decide
theorem test_encode_bytes : encode (.oscSetHz false 1 0x407B800000000000) =
    [0x10, 0x01, 0, 0, 0, 0, 0, 0, 0, 0x80, 0x7B, 0x40] := by decide
theorem test_decode_incomplete : decode [0x10, 0x01, 0, 0, 0, 0, 0, 0, 0, 0x80, 0x7B] = .error .incomplete := by decide
theorem test_decode_table_word : decodeTableWord 32 0x80000321 = some (.envOff true 3 0) := by decide

/-! V1: illegal packets; V2: an index on a command that takes none. -/

theorem test_illegal_opcode_02 : decodePacket 0x00000002 0 = .error .illegalCommand := by decide
theorem test_illegal_opcode_16 : decodePacket 0x00000016 0 = .error .illegalCommand := by decide
theorem test_illegal_opcode_53 : decodePacket 0x00000053 0 = .error .illegalCommand := by decide
theorem test_illegal_rsv : decodePacket 0x00010000 0 = .error .illegalCommand := by decide
theorem test_illegal_defer_evSetTick : decodePacket 0x80000050 5 = .error .illegalCommand := by decide
theorem test_illegal_defer_cbAck : decodePacket 0x80000052 0 = .error .illegalCommand := by decide
theorem test_illegal_before_index : decodePacket 0x000009FF 0 = .error .illegalCommand := by decide
theorem test_bad_index_unit : decodePacket 0x00000101 0x40E5888000000000 = .error .badIndex := by decide
theorem test_bad_index_evSetTick : decodePacket 0x00000150 0 = .error .badIndex := by decide

/-! ## Small states -/

/-- The state after a packet; the state itself where the machine does not go on. -/
def after (s : State) (hdr : BitVec 32) (arg : Word64) : State :=
  match execPacket hdr arg s with
  | .next t => t
  | _ => s

/-- The fault record of a state, and whether it is faulted. -/
def fault (s : State) : Bool × FaultCause × BitVec 32 × Word64 := (s.faulted, s.faultCause, s.faultHdr, s.faultArg)

/-- The default instance with `SAMPLE_RATE` 44100 and `INNER_RATE` 176400 (V45). -/
def rated : State := { State.reset with sampleRate := ⟨0x40E5888000000000⟩, innerRate := ⟨0x4105888000000000⟩ }

/-- `rated` with a buffer of rate 44100 and pitch 440. -/
def bound : State :=
  { rated with rs := { rated.rs with bufRate := ⟨0x40E5888000000000⟩, bufPitch := ⟨0x407B800000000000⟩ } }

/-- `rated` with one event per listed tick, a `NOP` each. -/
def queued (ticks : List Word64) : State := { rated with heap := ticks.map fun t => ⟨t, 0, 0⟩ }

/-- The default instance with a heap of one entry, which is full. -/
def full : State := { State.reset with cfg := { Params.default with heapCap := 1 }, heap := [⟨0, 0, 0⟩] }

/-- A voice at reset with the given phase and flags. -/
def voiceAt (phase : BitVec 28) (flags : BitVec 7) : Voice :=
  { voiceReset Params.default with phase := phase, flags := flags }

/-- A faulted state with a packet at its port. -/
def faulted : State := { enterFault .badArg 1 2 State.reset with port := encode (.nop false 0) }

/-! ## Reset (V50, V47, V19) -/

theorem test_reset_status : readRegister State.reset 0x003 = 12 := by decide +kernel
theorem test_reset_next_t : readRegister State.reset 0x008 = 0xFFFFFFFFFFFFFFFF := by decide +kernel
theorem test_reset_lfsr : readRegister State.reset 0x104 = 1 := by decide +kernel
theorem test_reset_base_a : readRegister State.reset 0x11A = 0x3FF4CCCCCCCCCCCD := by decide +kernel
theorem test_reset_base_d : readRegister State.reset 0x11C = 0x3FEFFF2E48E8A71E := by decide +kernel
theorem test_reset_base_r : readRegister State.reset 0x11E = 0xBF1A36E2EB1C432D := by decide +kernel
theorem test_reset_flt_d : readRegister State.reset 0x026 = 0x4000000000000000 := by decide +kernel
theorem test_reset_flt_off : readRegister State.reset 0x027 = 0x40B0000000000000 := by decide +kernel
theorem test_read_id : readRegister State.reset 0x000 = 0x534E445052470001 := by decide +kernel
theorem test_read_config0 : readRegister State.reset 0x001 = 0x000020880804D104 := by decide +kernel
theorem test_read_config1 : readRegister State.reset 0x002 = 0x0000180400000100 := by decide +kernel
theorem test_read_config0_p1 :
    config0 { Params.default with nOsc := 1, oversample := false } = 0x0000208808049101 := by decide +kernel
theorem test_read_config0_p3 :
    config0 { Params.default with srcOsc := false, srcRs := true, oversample := false } = 0x000020880804A104 := by
  decide +kernel
theorem test_read_unlisted : readRegister State.reset 0x108 = 0 ∧ readRegister State.reset 0x180 = 0 := by decide +kernel
/-- V33: the seventh row, a beta of 60. -/
theorem test_reset_table_params :
    (resetBlock { State.reset with cfg := { Params.default with betaFir := ⟨0x404E000000000000⟩ } }).faultCause =
      .tableParams := by decide +kernel

/-! ## Commands, one step each -/

theorem test_nop : fault (after State.reset 0x00000000 1) = (true, .badArg, 0, 1) := by decide +kernel
/-- V45. -/
theorem test_setSampleRate :
    (after State.reset 0x00000001 0x40E5888000000000).innerRate = ⟨0x4105888000000000⟩ := by decide +kernel
/-- V4: 4.5e307 times 4 overflows; V3: −0.0. -/
theorem test_setSampleRate_faults :
    fault (after State.reset 0x00000001 0x7FD005419221015D) = (true, .badArg, 1, 0x7FD005419221015D) ∧
    (after State.reset 0x00000001 0x8000000000000000).faultCause = .zeroSampleRate := by decide +kernel
/-- V10. -/
theorem test_oscSetHz : (after rated 0x00000110 0x407B800000000000).voices.map Voice.inc = [0, 669566, 0, 0] := by
  decide +kernel
/-- V3: the rate check comes before the operand check. -/
theorem test_oscSetHz_saturates_and_faults :
    (after rated 0x00000010 0x41CDCD6500000000).voices.map Voice.inc = [0xFFFFFFF, 0, 0, 0] ∧
    (after State.reset 0x00000010 0x7FF8000000000000).faultCause = .zeroSampleRate := by decide +kernel
/-- V11. -/
theorem test_oscSetShift : (after State.reset 0x00000011 0x3FD3333333333333).voices.map Voice.shift =
    [80530636, 0, 0, 0] := by decide +kernel
theorem test_oscSetShift_clamps :
    (shiftOf ⟨0xBFF8000000000000⟩).toInt = -268435456 ∧ (shiftOf ⟨0xBFD0000000000000⟩).toInt = -67108864 := by
  decide +kernel
theorem test_oscSetFlags : (after State.reset 0x00000312 0x41).voices.map Voice.flags = [0, 0, 0, 0x41] := by
  decide +kernel
theorem test_oscSetFlags_reserved : (after State.reset 0x00000012 0x80).faultCause = .badArg := by decide +kernel
theorem test_oscSetGainDirect : (after State.reset 0x00000113 0x3FF0000000000000).voices.map Voice.gDirect =
    [⟨0⟩, ⟨0x3FF0000000000000⟩, ⟨0⟩, ⟨0⟩] := by decide +kernel
theorem test_oscSetGainFilter : (after State.reset 0x00000014 0x3FE0000000000000).voices.map Voice.gFilter =
    [⟨0x3FE0000000000000⟩, ⟨0⟩, ⟨0⟩, ⟨0⟩] := by decide +kernel
/-- V17: `OSC_WT_WRITE v0, 5, -1`. -/
theorem test_oscWtWrite : (after State.reset 0x00000015 0x5FFFF).voices.map (fun v => v.wt.getD 5 0) =
    [0xFFFF, 0, 0, 0] := by decide +kernel
/-- V4: an index bit above `WT_BITS`. -/
theorem test_oscWtWrite_index : (after State.reset 0x00000015 0x1000000).faultCause = .badArg := by decide +kernel
theorem test_envOn : (after State.reset 0x00000120 0).voices.map (fun v => v.env.state) =
    [.idle, .attack, .idle, .idle] := by decide +kernel
theorem test_envOff_idle : (after State.reset 0x00000021 0).voices.map (fun v => v.env.state) =
    [.idle, .idle, .idle, .idle] := by decide +kernel
theorem test_envOff : (after (after State.reset 0x00000020 0) 0x00000021 0).voices.map (fun v => v.env.state) =
    [.release, .idle, .idle, .idle] := by decide +kernel
/-- V25: 0.01 s is 1764 inner samples. -/
theorem test_envSetAttack : (after rated 0x00000022 0x3F847AE147AE147B).voices.map (fun v => v.env.nA.bits) =
    [0x409B900000000000, 0, 0, 0] := by decide +kernel
/-- V4: 1e306 s overflows. -/
theorem test_envSetAttack_overflow : (after rated 0x00000022 0x7F76C8E5CA239029).faultCause = .badArg := by
  decide +kernel
/-- A zero-length decay (42_envelope.md rule R213): coefficient 0, base `SUSTAIN - CURVE_D`. -/
theorem test_envSetDecay : (after rated 0x00000023 0).voices.map (fun v => (v.env.coefD.bits, v.env.baseD.bits)) =
    List.replicate 4 (0, 0x3FEFFF2E48E8A71E) := by decide +kernel
/-- 42_envelope.md rule R214: `s = 0.5` gives `BASE_D = 0.4999`. -/
theorem test_envSetSustain : (after State.reset 0x00000024 0x3FE0000000000000).voices.map
    (fun v => v.env.baseD.bits) = [0x3FDFFE5C91D14E3C, 0x3FEFFF2E48E8A71E, 0x3FEFFF2E48E8A71E, 0x3FEFFF2E48E8A71E] := by
  decide +kernel
theorem test_envSetSustain_above : (after State.reset 0x00000024 0x3FF8000000000000).faultCause = .badArg := by
  decide +kernel
/-- A zero-length release (rule R215): base `-CURVE_R`. -/
theorem test_envSetRelease : (after rated 0x00000025 0).voices.map (fun v => (v.env.coefR.bits, v.env.baseR.bits)) =
    List.replicate 4 (0, 0xBF1A36E2EB1C432D) := by decide +kernel
/-- V4: the smallest normal curvature is accepted, and gives `BASE_A = 1` with a zero length. -/
theorem test_envSetCurveAttack : (after State.reset 0x00000026 0x10000000000000).voices.map
    (fun v => v.env.baseA.bits) = [0x3FF0000000000000, 0x3FF4CCCCCCCCCCCD, 0x3FF4CCCCCCCCCCCD, 0x3FF4CCCCCCCCCCCD] := by
  decide +kernel
theorem test_envSetCurveAttack_subnormal : (after State.reset 0x00000026 1).faultCause = .badArg := by decide +kernel
theorem test_envSetCurveDecay : (after State.reset 0x00000027 0x3FE0000000000000).voices.map
    (fun v => v.env.baseD.bits) = [0x3FE0000000000000, 0x3FEFFF2E48E8A71E, 0x3FEFFF2E48E8A71E, 0x3FEFFF2E48E8A71E] := by
  decide +kernel
theorem test_envSetCurveRelease : (after State.reset 0x00000028 0x3FE0000000000000).voices.map
    (fun v => v.env.baseR.bits) = [0xBFE0000000000000, 0xBF1A36E2EB1C432D, 0xBF1A36E2EB1C432D, 0xBF1A36E2EB1C432D] := by
  decide +kernel
/-- V26. -/
theorem test_fltSetFc : (after State.reset 0x00000030 0x3FE0000000000000).filter.off = ⟨0x40A4000000000000⟩ := by
  decide +kernel
theorem test_fltSetFc_clamps : (after State.reset 0x00000030 0x4000000000000000).filter.fc = ⟨0x3FF0000000000000⟩ := by
  decide +kernel
theorem test_fltSetQ : (after State.reset 0x00000031 0x3FE0000000000000).filter.d = ⟨0x3FF0666666666666⟩ := by
  decide +kernel
theorem test_fltSetGainLp : (after State.reset 0x00000032 0).filter.gLp = ⟨0⟩ := by decide +kernel
theorem test_fltSetGainBp : (after State.reset 0x00000033 0x3FF0000000000000).filter.gBp = ⟨0x3FF0000000000000⟩ := by
  decide +kernel
theorem test_fltSetGainHp : (after State.reset 0x00000034 0xFFF0000000000000).faultCause = .badArg := by
  decide +kernel
/-- The last address; V5: `2^24` is accepted too, and a frame bound after it does not fit. -/
theorem test_rsSetBufBase : (after State.reset 0x00000040 0xFFFFFF).rs.base = 0xFFFFFF ∧
    readRegister (after State.reset 0x00000040 0x1000000) 0x040 = 0x1000000 ∧
    (after (after State.reset 0x00000040 0x1000000) 0x00000041 1).faultCause = .badBuffer := by decide +kernel
theorem test_rsSetBufBase_outside : (after State.reset 0x00000040 0x1000001).faultCause = .badBuffer := by
  decide +kernel
theorem test_rsSetBufFrames : (after (after State.reset 0x00000040 0x100) 0x00000041 0xFFFF00).rs.frames = 0xFFFF00 := by
  decide +kernel
theorem test_rsSetBufFrames_outside :
    (after (after State.reset 0x00000040 0x100) 0x00000041 0xFFFF01).faultCause = .badBuffer := by decide +kernel
theorem test_rsSetBufRate : (after State.reset 0x00000042 0xBFF0000000000000).faultCause = .badBuffer := by decide +kernel
theorem test_rsSetBufPitch : (after State.reset 0x00000043 0x407B800000000000).rs.bufPitch = ⟨0x407B800000000000⟩ := by
  decide +kernel
/-- V34, with an oversampler: one quarter of a frame per inner sample. -/
theorem test_rsSetHz : (after bound 0x00000044 0x407B800000000000).rs.inc = 1073741824 := by decide +kernel
/-- Rule R275's corner case: `hz = 0` freezes the cursor, also when 1e308 Hz over 0.1 Hz overflows. -/
theorem test_rsSetHz_zero :
    cursorIncrement ⟨0⟩ ⟨0x407B800000000000⟩ ⟨0x7FE1CCF385EBC8A0⟩ ⟨0x3FB999999999999A⟩ = 0 ∧
    cursorIncrement ⟨0x8000000000000000⟩ ⟨0x407B800000000000⟩ ⟨0x7FE1CCF385EBC8A0⟩ ⟨0x3FB999999999999A⟩ = 0 := by
  decide +kernel
theorem test_rsSetHz_unbound : (after rated 0x00000044 0x407B800000000000).faultCause = .badBuffer := by decide +kernel
theorem test_rsSetPos : (after State.reset 0x00000045 0x8000000000000000).rs.pos.toInt = -2 ^ 63 := by decide +kernel
theorem test_evSetTick : (after State.reset 0x00000050 10000).evTick = 10000 := by decide +kernel
/-- V5. -/
theorem test_hostCallback : statusWord (after State.reset 0x00000051 7) = 14 := by decide +kernel
theorem test_hostCallback_pending : fault (after (after State.reset 0x00000051 7) 0x00000051 8) =
    (true, .callbackState, 0x51, 8) := by decide +kernel
theorem test_cbAck : statusWord (after (after State.reset 0x00000051 7) 0x00000052 0) = 12 := by decide +kernel
/-- V4: the operand check comes before the pending check. -/
theorem test_cbAck_faults : (after State.reset 0x00000052 0).faultCause = .callbackState ∧
    (after State.reset 0x00000052 1).faultCause = .badArg := by decide +kernel
/-- V6. -/
theorem test_deferred : (after (after State.reset 0x00000050 5) 0x80000012 1).heap = [⟨5, 0x00000012, 1⟩] := by
  decide +kernel
theorem test_queue_full : fault (after full 0x80000000 0) = (true, .queueFull, 0x80000000, 0) := by decide +kernel
theorem test_bad_index_before_queue_full : (after full 0x80000410 0).faultCause = .badIndex := by decide +kernel

/-! ## Numbers (00_scope.md rule R12; 95_test_vectors.md V30) -/

/-- 0.1 + 0.2 rounds up to 0.30000000000000004. -/
theorem test_add : F64.add ⟨0x3FB999999999999A⟩ ⟨0x3FC999999999999A⟩ = ⟨0x3FD3333333333334⟩ := by decide +kernel
/-- 1 + 2^-53 is a tie, which goes to the even 1. -/
theorem test_add_tie : F64.one.add F64.twoPowNeg53 = F64.one := by decide +kernel
theorem test_div : F64.one.div ⟨0x4008000000000000⟩ = ⟨0x3FD5555555555555⟩ := by decide +kernel
theorem test_mul_subnormal : F64.mul ⟨0x0010000000000000⟩ F64.half = ⟨0x0008000000000000⟩ := by decide +kernel
theorem test_mul_overflow : F64.mul ⟨0x7FE0000000000000⟩ F64.two = F64.inf false := by decide +kernel
theorem test_sqrt : F64.two.sqrt = ⟨0x3FF6A09E667F3BCD⟩ := by decide +kernel
theorem test_floor : F64.floorInt ⟨0xBFE0000000000000⟩ = -1 ∧ F64.truncInt ⟨0xBFE0000000000000⟩ = 0 := by decide +kernel
/-- `I0(1)`, `I0(8)`, `kaiser(0.5, 8)`. -/
theorem test_i0_1 : besselI0 F64.one = ⟨0x3FF441CE4B386C2C⟩ := by decide +kernel
theorem test_i0_8 : besselI0 ⟨0x4020000000000000⟩ = ⟨0x407AB9069E3504F9⟩ := by decide +kernel
theorem test_kaiser : kaiser F64.half ⟨0x4020000000000000⟩ = ⟨0x3FD79D3FC43011C0⟩ := by decide +kernel
theorem test_sinc : sinc ⟨0xC000000000000000⟩ = F64.zero ∧ sinc F64.zero = F64.one := by decide +kernel
/-- V31: `RATIO = 1`. -/
theorem test_fir_table : firEntries 1 3 ⟨0x4020000000000000⟩ = [F64.one] := by decide +kernel
/-- V32: one phase, `HALF = 1`, scale 1. -/
theorem test_psinc_row : psincRow 1 1 ⟨0x4020000000000000⟩ F64.one 0 = [F64.one, F64.zero] := by decide +kernel

/-! ## The units -/

/-- V14: the first steps of the noise register that use the feedback, and `step(0x7FFFFF)`. -/
theorem test_lfsr : lfsrStep 0x20000 = 0x40001 ∧ lfsrStep 0x400010 = 0x21 ∧ lfsrStep 0x7FFFFF = 0x7FFFFE := by decide
/-- V12, at `p = 0x1234567` and `p = 0xC000000`. -/
theorem test_square : waveSquare 0x1234567 = 0xFFFFFFF ∧ waveSquare 0xC000000 = 0 := by decide
theorem test_triangle : waveTriangle 0x1234567 = 0x2468ACE ∧ waveTriangle 0xC000000 = 0x7FFFFFE := by decide
/-- V13. -/
theorem test_code_empty : voiceCode 8 (voiceAt 0x1234567 0x20) = 0x8000000 := by decide +kernel
theorem test_code_saw_triangle : voiceCode 8 (voiceAt 0x3000000 0x05) = 0x2000000 := by decide +kernel
theorem test_code_noise : waveNoise 0x7FFFFF = 0xFFFFFE0 := by decide
/-- V17. -/
theorem test_wavetable : waveTable 8 ((List.replicate 256 0).set 5 0xFFFF) 0x0500000 = 0x7FFF000 := by decide +kernel
theorem test_wavetable_top : waveTable 4 ((List.replicate 16 0).set 15 100) 0xFFFFFFF = 0x8064000 := by decide +kernel
theorem test_shift_clamps : shiftedPhase 0x1000000 (BitVec.ofInt 30 (-0x2000000)) = 0 ∧
    shiftedPhase 0xF000000 0x2000000 = 0xFFFFFFF := by decide
theorem test_scale : scaleCode 0xFFFFFFF = ⟨0x3FDFFFFFFC000000⟩ ∧ scaleCode 0 = ⟨0xBFE0000000000000⟩ := by decide +kernel
/-- V15: bit 23 of the phase rises. -/
theorem test_noise_clock : noiseClock 0x08 0x0000000 0x0800000 1 = 2 ∧ noiseClock 0x08 0x0800000 0x1000000 2 = 2 := by
  decide
/-- P4: the master's phase has risen past the midpoint; the slave is zeroed. -/
theorem test_sync : (syncPass [voiceAt 0x8000000 0, voiceAt 0x1800000 0x21]).map (fun v => (v.phase, v.latch)) =
    [(0x8000000, true), (0, false)] := by decide +kernel
/-- V22: the first two steps with the reset parameters. -/
theorem test_env_attack : (envStep { envelopeReset with state := .attack }).state = .decay ∧
    (envStep { envelopeReset with state := .attack }).value = F64.one := by decide +kernel
theorem test_env_decay : (envStep { envelopeReset with state := .decay, value := F64.one }).state = .sustain := by
  decide +kernel
/-- V29. -/
theorem test_soft_clip : softClip Params.default ⟨0xC0A8000000000000⟩ = ⟨0xC0A8000000000000⟩ := by decide +kernel
/-- V29: the direct path is exact below the threshold, and silent taps stay zero. -/
theorem test_filter_direct : filterSample Params.default { filterReset Params.default with w := F64.half }
    F64.half F64.zero = (F64.half, { filterReset Params.default with w := F64.half }) := by decide +kernel
/-- V34: the kernel variants at their thresholds. -/
theorem test_variants : variantOf 5726623061 = 0 ∧ variantOf 5726623062 = 1 ∧ variantOf 0x1FFFFFFFF = 1 ∧
    variantOf 0x200000000 = 2 := by decide

/-- A resampler on two frames 1.0, 2.0, its cursor at frame 1, with the unit-impulse kernel of V32's first row. -/
def playing : State :=
  { State.reset with
    cfg := { Params.default with srcOsc := false, srcRs := true, oversample := false, phaseBits := 0, half := 1 }
    slots := [some ⟨.psinc 0 1 ⟨0x4020000000000000⟩ ⟨0x3FF0000000000000⟩, [F64.one, F64.zero]⟩]
    mem := wordWrite (wordWrite [] 0 0x3FF0000000000000) 1 0x4000000000000000
    rs := { resamplerReset with frames := 2, pos := 0x100000000, inc := 0x100000000 } }

theorem test_rsSample : (rsSample playing).map (fun r => (r.1, r.2.rs.pos)) = .ok ([F64.two], 0x200000000) := by
  decide +kernel
/-- V37: the cursor saturates. -/
theorem test_cursor_saturates : (advanceCursor { playing.rs with pos := 0x7FFFFFFF80000000 }).pos =
    0x7FFFFFFFFFFFFFFF := by decide +kernel
/-- V39: with `RATIO = 1`, `ZC = 3` the output is the value three pushes before the newest. -/
theorem test_oversampler_delay : firOut 1 3 [F64.one] [F64.zero, F64.zero, F64.zero, F64.one, F64.two, F64.two, F64.two] =
    F64.one := by decide +kernel
/-- Rules R301 to R303, by hand: two inner samples 2.0 and 0.0 are pushed on a window of zeros; then `0.25·2.0`. -/
theorem test_tickFrame :
    let cfg := { playing.cfg with oversample := true, ratio := 2, zc := 1 }
    let s := { playing with
      cfg := cfg
      slots := some ⟨firKey cfg, [F64.half, ⟨0x3FD0000000000000⟩]⟩ :: playing.slots
      osw := [List.replicate 5 F64.zero] }
    (tickFrame s).map (fun r => (r.1, r.2.osw)) = .ok ([F64.half], [[F64.zero, F64.zero, F64.zero, F64.two, F64.zero]]) := by
  decide +kernel
/-- V43: the heap array after the eight inserts, and the order of the pops. -/
theorem test_heap_insert : (([5, 3, 8, 3, 1, 9, 2, 3].map (fun t => (⟨t, 0, 0⟩ : Event))).foldl heapInsert []).map
    Event.t = [1, 3, 2, 3, 3, 9, 8, 5] := by decide +kernel
theorem test_heap_pops : (shiftAll 8 ((([5, 3, 8, 3, 1, 9, 2, 3].zip [0, 1, 2, 3, 4, 5, 6, 7]).map
    (fun t => (⟨t.1, 0, t.2⟩ : Event))).foldl heapInsert [])).map (fun e => (e.t, e.arg)) =
    [(1, 4), (2, 6), (3, 1), (3, 7), (3, 3), (5, 0), (8, 2), (9, 5)] := by decide +kernel

/-! ## Sample memory (20_memory.md rule R73) -/

theorem test_memory_bytes : wordWrite [] 1 0x0102030405060708 =
    [(8, 8), (9, 7), (10, 6), (11, 5), (12, 4), (13, 3), (14, 2), (15, 1)] := by decide
theorem test_memory_word : wordRead (wordWrite (wordWrite [] 5 1) 4 0xFEDCBA9876543210) 4 = 0xFEDCBA9876543210 := by
  decide +kernel
/-- `playing` after the host wrote its bound word 1. -/
def racing : State :=
  match sampleWrite 1 7 playing with
  | .next t => t
  | _ => playing

/-- Rule R80: a word written while it is bound keeps its old value among those a read may return. -/
theorem test_race : racing.raced = [(1, 0x4000000000000000)] := by decide +kernel
/-- 70_reset_and_hazards.md rule R441: also after the word was unbound and bound again, and after reset. -/
theorem test_race_outlives_rebinding :
    (after (after racing 0x00000041 0) 0x00000041 2).raced = [(1, 0x4000000000000000)] ∧
    (resetBlock { racing with cfg := { racing.cfg with srcRs := false } }).raced = [(1, 0x4000000000000000)] := by
  decide +kernel
/-- Rule R80: a write of a word that is not bound is seen. -/
theorem test_race_ends : (match sampleWrite 1 9 (after racing 0x00000041 0) with
    | .next t => (t.raced, wordRead t.mem 1) | _ => ([], 0)) = ([], 9) := by decide +kernel

/-! ## Ticks -/

/-- V7: a pull before any rate is refused and faults. -/
theorem test_pull_no_rate : (match step { State.reset with pull := true } with
    | .next t => (fault t, t.reply, t.tick) | _ => ((false, .none, 0, 0), .none, 1)) =
    ((true, .zeroSampleRate, 0, 0), .pullRefused, 0) := by decide +kernel
/-- V44: a callback event suspends its tick: `STATUS` is 30. -/
theorem test_callback_suspends : (match step { rated with pull := true, heap := [⟨0, 0x51, 5⟩] } with
    | .next t => (statusWord t, t.tick, t.cbId) | _ => (0, 1, 0)) = (30, 0, 5) := by decide +kernel
/-- V8: an event that faults is removed, and `TICK` does not move. -/
theorem test_event_faults : (match step { rated with
      pull := true
      heap := [⟨0, 0x110, 0x7FF8000000000000⟩, ⟨0, 0, 0⟩]
      cfg := { Params.default with eqTickOrder := .heap } } with
    | .next t => (fault t, t.heap.length, t.tick) | _ => ((false, .none, 0, 0), 0, 1)) =
    ((true, .badArg, 0x110, 0x7FF8000000000000), 1, 0) := by decide +kernel
/-- One tick of `playing`: the frame is the buffer's, and `TICK` advances (P3). -/
theorem test_tick : (match step { playing with pull := true, sampleRate := F64.one } with
    | .next t => (t.reply, t.tick) | _ => (.none, 0)) = (.frame [F64.two], 1) := by decide +kernel

/-! ## States and operands that meet the hypotheses of the statements

One theorem per statement that has hypotheses, one clause of it per clause of the statement, at the ends of the ranges
and where clauses meet. -/

/-- The voice every slot of a reset instance holds. -/
def v0 : Voice := voiceReset Params.default

/-- `rated` with a tick due; with a tick suspended and acknowledged; with one due and no rate. -/
def due : State := { rated with pull := true }
def resumed : State := { due with inTick := true, heap := [⟨9, 0x20, 0⟩] }
def dueUnrated : State := { State.reset with pull := true }

/-- A result is a next state that is neither faulted nor waiting for a callback. -/
def completes (r : Result) : Bool :=
  match r with
  | .next t => !t.faulted && !t.cbPending
  | _ => false

theorem next_of_completes {r : Result} (h : completes r = true) :
    ∃ t, r = .next t ∧ t.faulted = false ∧ t.cbPending = false := by
  cases r with
  | next t => exact ⟨t, rfl, by simpa [completes] using h⟩
  | fault f => cases h
  | refused f => cases h

theorem envInv_reset : EnvInv envelopeReset :=
  ⟨by decide +kernel, by decide +kernel, by decide +kernel, by decide +kernel,
    by dsimp only [envelopeReset]; exact ⟨rfl, rfl⟩, by dsimp only [envelopeReset]; exact ⟨rfl, rfl⟩, by dsimp only [envelopeReset]; exact ⟨rfl, rfl⟩⟩

theorem filterDerived_reset (p : Params) :
    (filterReset p).w = filterW p (filterReset p).fc ∧ (filterReset p).off = filterOff p (filterReset p).fc ∧
    (filterReset p).d = filterD p (filterReset p).q := by dsimp only [filterReset]; exact ⟨rfl, rfl, rfl⟩

/-- The invariant of a default instance with a sample rate of 44100 Hz whose voices, filter, resampler, window, slots and
memory are those of reset. -/
theorem inv_of_reset_units {s : State} (hc : s.cfg = State.reset.cfg) (hv : s.voices = State.reset.voices)
    (hf : s.filter = State.reset.filter) (hr : s.rs = State.reset.rs) (ho : s.osw = State.reset.osw)
    (hs : s.slots = State.reset.slots) (hm : s.mem = []) (hra : s.raced = []) (ht : s.tablesReady = true)
    (hsr : s.sampleRate = rated.sampleRate) (hir : s.innerRate = rated.innerRate)
    (hl : s.heap.length ≤ 256) (hh : HeapOrdered s.heap) (he : ∀ e ∈ s.heap, eventChecked 4 e)
    (hi : s.faulted = true → s.inTick = false ∧ s.pull = false) (hp : s.inTick = true → s.pull = true) : Inv s where
  legal := by rw [hc]; decide +kernel
  rates := by rw [hsr, hir, hc]; right; decide +kernel
  voiceCount := by rw [hv, hc]; decide +kernel
  voiceInv := by
    rw [hv, hc]
    intro v h
    have h' : v = v0 := (List.mem_replicate.mp h).2
    subst h'
    exact ⟨by decide +kernel, by decide +kernel, by decide +kernel, envInv_reset⟩
  filterRange := by rw [hf]; decide +kernel
  filterDerived := by rw [hf, hc]; exact filterDerived_reset _
  baseFits := by rw [hr, hc]; decide +kernel
  baseTopEmpty := by rw [hr]; decide
  extentFits := by rw [hr, hc]; decide +kernel
  framesFit := by rw [hr, hc]; decide +kernel
  windowShape := by rw [ho, hc]; decide +kernel
  heapBound := by rw [hc]; exact hl
  heapOrdered := hh
  heapChecked := by rw [hc]; exact he
  slotCount := by rw [hs, hc]; rfl
  readyOrFaulted := .inl ht
  keysPresent := by rw [hs, hc]; intro _ k hk; cases List.mem_singleton.mp hk; rfl
  memoryForm := by rw [hm]; exact List.Pairwise.nil
  racedInside := by rw [hra]; intro r h; cases h
  faultIdle := hi
  tickPulled := hp

theorem inv_due : Inv due :=
  inv_of_reset_units rfl rfl rfl rfl rfl rfl rfl rfl rfl rfl rfl (by decide) (by decide) nofun nofun nofun

theorem inv_resumed : Inv resumed :=
  inv_of_reset_units rfl rfl rfl rfl rfl rfl rfl rfl rfl rfl rfl (by decide) (by decide)
    (by intro e h; cases List.mem_singleton.mp h; exact ⟨.envOn false 0 0, rfl, rfl, rfl⟩) nofun (fun _ => rfl)

theorem witness_DecodeEncodeAgree : decode (encode (.envOff true 255 0xFFFFFFFFFFFFFFFF) ++ [1, 2]) =
    .ok (.envOff true 255 0xFFFFFFFFFFFFFFFF, [1, 2]) := by decide

theorem witness_EncodeDecodeAgree : decode [0x45, 0, 0, 0, 0xFD, 0xFF, 0xFF, 0xFF, 0xFF, 0xFF, 0xFF, 0xFF, 0xAA] =
    .ok (.rsSetPos false 0xFFFFFFFFFFFFFFFD, [0xAA]) := by decide

/-- The ends of the gaps of the opcode map, the lowest and highest RSV bit, `D` on the two commands that cannot be
deferred; then the first absent voice and the last index, and the first index of a command that takes none. -/
theorem witness_HeaderChecks :
    (∀ op ∈ [0x02, 0x0F, 0x16, 0x1F, 0x29, 0x2F, 0x35, 0x3F, 0x46, 0x4F, 0x53, 0xFF],
      ((BitVec.ofNat 32 op).extractLsb' 0 8).toNat = op ∧
      ¬ ((0x10 ≤ op ∧ op ≤ 0x15) ∨ (0x20 ≤ op ∧ op ≤ 0x28)) ∧
      ¬ (op = 0x00 ∨ op = 0x01 ∨ (0x30 ≤ op ∧ op ≤ 0x34) ∨ (0x40 ≤ op ∧ op ≤ 0x45) ∨ (0x50 ≤ op ∧ op ≤ 0x52))) ∧
    (0x00010000 : BitVec 32).extractLsb' 16 15 ≠ 0 ∧ (0x40000000 : BitVec 32).extractLsb' 16 15 ≠ 0 ∧
    (0x80000050 : BitVec 32).getLsbD 31 = true ∧ (0x80000052 : BitVec 32).getLsbD 31 = true ∧
    State.reset.voices.length ≤ ((0x00000410 : BitVec 32).extractLsb' 8 8).toNat ∧
    ((0x8000FF28 : BitVec 32).extractLsb' 8 8).toNat = 255 ∧
    (0x8000FF28 : BitVec 32).extractLsb' 16 15 = 0 ∧
    ((0x00000145 : BitVec 32).extractLsb' 8 8).toNat ≠ 0 := by decide +kernel

theorem witness_StepRunsDecodedInstruction :
    let s := { State.reset with port := encode (.evSetTick 5) ++ [0x20] }
    engineDue s = false ∧ s.faulted = false ∧ decode s.port = .ok (.evSetTick 5, [0x20]) := by decide +kernel

theorem witness_FaultStateRules :
    faulted.faulted = true ∧ takePacket faulted.port = some (0, 0, []) ∧
    takePacket { faulted with port := [0x10], inbox := [.pull] }.port = none ∧
    takePacket { faulted with port := [], inbox := [.read 3] }.port = none := by decide +kernel

/-- An empty heap and one with a single place left; a full heap. -/
theorem witness_DeferredCommandIsInserted :
    (Instr.oscSetHz true 3 0).deferred = true ∧ (Instr.oscSetHz true 3 0).wellFormed State.reset.voices.length = true ∧
    State.reset.heap.length < State.reset.cfg.heapCap ∧
    ({ State.reset with cfg := full.cfg }).heap.length + 1 = full.cfg.heapCap ∧
    full.cfg.heapCap ≤ full.heap.length := by decide +kernel

theorem witness_AbsentVoiceIsBadIndex : (Instr.oscSetHz false 4 0).voice = some 4 ∧ (Instr.envOff true 255 0).voice =
    some 255 ∧ State.reset.voices.length ≤ (4 : BitVec 8).toNat := by decide +kernel

theorem witness_CommandsCompleteOrFaultPrecisely : State.reset.faulted = false ∧
    (after State.reset 0x00000000 1).faulted = true := by decide +kernel

theorem witness_CommandFrame : exec (.evSetTick 5) State.reset = .next { State.reset with evTick := 5 } := rfl

theorem witness_NopDoesNothing : (1 : Word64) ≠ 0 ∧ State.reset.heap.length < State.reset.cfg.heapCap := by
  decide +kernel

/-- The smallest subnormal rate; −0.0 and −1; NaN; 2^1022, whose inner rate overflows, and 2^1021, whose does not. -/
theorem witness_SetSampleRateResult :
    F64.zero.lt ⟨1⟩ = true ∧ (F64.mk 1).isFinite = true ∧
    ((F64.mk 1).mul (F64.ofNat State.reset.cfg.ratio)).bits ≠ 0x7FF0000000000000 ∧
    ((F64.mk 0x7FC0000000000000).mul (F64.ofNat 4)).bits ≠ 0x7FF0000000000000 ∧
    (F64.mk 0x7FD0000000000000).isFinite = true ∧ F64.zero.lt ⟨0x7FD0000000000000⟩ = true ∧
    ((F64.mk 0x7FD0000000000000).mul (F64.ofNat State.reset.cfg.ratio)).bits = 0x7FF0000000000000 ∧
    (F64.mk 0x7FF0000000000000).isFinite = false ∧ (F64.mk 0x7FF8000000000000).isFinite = false ∧
    F64.zero.lt ⟨0x8000000000000000⟩ = false ∧ F64.zero.lt ⟨0xBFF0000000000000⟩ = false ∧
    (F64.mk 0xBFF0000000000000).isFinite = true := by decide +kernel

/-- No rate; a rate, with 0, −0.0 (not negative), the smallest negative value and an infinity as operand; 44100 Hz is
below saturation, 176400 Hz reaches it. -/
theorem witness_OscSetHzResult :
    rated.voices[(3 : BitVec 8).toNat]? = some v0 ∧ State.reset.voices[(0 : BitVec 8).toNat]? = some v0 ∧
    State.reset.sampleRate.eq F64.zero = true ∧ rated.sampleRate.eq F64.zero = false ∧
    (F64.mk 0x8000000000000000).lt F64.zero = false ∧ (F64.mk 0x8000000000000001).lt F64.zero = true ∧
    (F64.mk 0xFFF0000000000000).isFinite = false ∧
    (F64.mk 0x41AFFFFFFE000000).le (((F64.mk 0x40E5888000000000).mul ⟨0x41B0000000000000⟩).div rated.innerRate) =
      false ∧
    (F64.mk 0x41AFFFFFFE000000).le (((F64.mk 0x4105888000000000).mul ⟨0x41B0000000000000⟩).div rated.innerRate) =
      true := by decide +kernel

theorem witness_OscSetShiftResult : State.reset.voices[(3 : BitVec 8).toNat]? = some v0 ∧
    (F64.mk 0x3FF0000000000001).isFinite = true ∧ (F64.mk 0x7FF0000000000001).isFinite = false := by decide +kernel

theorem witness_ShiftStaysInRange : (F64.mk 0x7FEFFFFFFFFFFFFF).isFinite = true ∧ F64.one.le F64.one = true ∧
    F64.one.neg.le F64.one.neg = true ∧ F64.one.le ⟨0x3FEFFFFFFFFFFFFF⟩ = false := by decide +kernel

/-- 127 and 128; `2^24 - 1` and `2^24`. -/
theorem witness_OscFlagsAndWavetableResults : State.reset.voices[(3 : BitVec 8).toNat]? = some v0 ∧
    (127 : Word64).toNat < 128 ∧ 128 ≤ (128 : Word64).toNat ∧
    (0xFFFFFF : Word64).toNat < 2 ^ (16 + State.reset.cfg.wtBits) ∧
    2 ^ (16 + State.reset.cfg.wtBits) ≤ (0x1000000 : Word64).toNat := by decide +kernel

theorem witness_GainResults : (F64.mk 0x8000000000000000).isFinite = true ∧ (F64.mk 0x7FEFFFFFFFFFFFFF).isFinite = true ∧
    (F64.mk 0xFFF0000000000000).isFinite = false ∧ State.reset.voices[(3 : BitVec 8).toNat]? = some v0 := by
  decide +kernel

theorem witness_EnvOnAndOffResults : State.reset.voices[(3 : BitVec 8).toNat]? = some v0 ∧ v0.env.state = .idle ∧
    (∀ st ∈ [EnvState.attack, .decay, .sustain, .release], st ≠ .idle) ∧ (1 : Word64) ≠ 0 := by decide +kernel

/-- No rate; −1 s; an overflowing length; 0 s, −0.0 s and the greatest length that does not overflow. -/
theorem witness_EnvStageTimeResults : rated.voices[(3 : BitVec 8).toNat]? = some v0 ∧
    State.reset.sampleRate.eq F64.zero = true ∧ rated.sampleRate.eq F64.zero = false ∧
    (F64.mk 0x7FF8000000000000).isFinite = false ∧ (F64.mk 0xBFF0000000000000).lt F64.zero = true ∧
    ((F64.mk 0x7EEFFFFFFFFFFFFF).mul rated.innerRate).bits = 0x7FF0000000000000 ∧
    (F64.mk 0x8000000000000000).lt F64.zero = false ∧
    ((F64.mk 0x8000000000000000).mul rated.innerRate).bits ≠ 0x7FF0000000000000 ∧
    ((F64.mk 0x7ED0000000000000).mul rated.innerRate).bits ≠ 0x7FF0000000000000 := by decide +kernel

/-- −0.0 and 1 are levels; the values next below 0 and next above 1, and NaN, are not. -/
theorem witness_EnvSetSustainResult : State.reset.voices[(3 : BitVec 8).toNat]? = some v0 ∧
    F64.zero.le ⟨0x8000000000000000⟩ = true ∧ F64.one.le F64.one = true ∧
    F64.zero.le ⟨0x8000000000000001⟩ = false ∧ (F64.mk 0x3FF0000000000001).le F64.one = false ∧
    F64.zero.le ⟨0x7FF8000000000000⟩ = false := by decide +kernel

/-- The smallest normal value and the greatest subnormal one. -/
theorem witness_EnvCurveResults : State.reset.voices[(3 : BitVec 8).toNat]? = some v0 ∧
    (F64.mk 0x0010000000000000).isFinite = true ∧ (F64.mk 0x0010000000000000).le ⟨0x0010000000000000⟩ = true ∧
    (F64.mk 0x0010000000000000).le ⟨0x000FFFFFFFFFFFFF⟩ = false ∧ (F64.mk 0x7FF0000000000000).isFinite = false := by
  decide +kernel

/-- The shortest length above 0, whose quotient overflows, and −0.0; the smallest curvature; every stage. -/
theorem witness_EnvelopeStepRules : (LengthLegal ⟨1⟩ ∧ LengthLegal ⟨0x8000000000000000⟩ ∧ CurveLegal F64.minNormal) ∧
    EnvInv envelopeReset ∧ envelopeReset.state = .idle ∧
    ∀ st : EnvState, { envelopeReset with state := st }.state = st :=
  ⟨by decide +kernel, envInv_reset, rfl, fun _ => rfl⟩

theorem witness_FilterCutoffAndResonanceResults : (F64.mk 0x8000000000000000).isFinite = true ∧
    (F64.mk 0x7FF0000000000000).isFinite = false := by decide +kernel

theorem witness_FilterSampleOrder : Params.default.filterStep = .spec := rfl

/-- With `W = 0.5` and `OFF = 1024`. -/
theorem witness_SilentFilterKeepsZeroTaps :
    let p := Params.default
    let f := { filterReset p with w := F64.half }
    p.filterStep = .spec ∧ p.vScale.isFinite = true ∧ F64.zero.lt p.vScale = true ∧ p.vSat.isFinite = true ∧
    F64.zero.lt p.vSat = true ∧ f.w.isFinite = true ∧ f.d.isFinite = true ∧ (p.distK.mul f.w).isFinite = true ∧
    f.off.isFinite = true ∧ F64.zero.lt f.off = true ∧ f.lp = F64.zero ∧ f.bp = F64.zero ∧ f.hp = F64.zero := by
  decide +kernel

/-- The last address, the one accepted operand beyond it and the first that does not fit; with base `0x100`, the last
frame count and the first that does not fit; in a memory of 2^48 words, the last count the cursor admits and the first it
does not. -/
theorem witness_RsBufferExtentResults :
    let s := { State.reset with rs := { resamplerReset with base := 0x100 } }
    let wide := { State.reset with cfg := { Params.default with sampleAddrBits := 48 } }
    (0xFFFFFF : Word64).toNat + s.rs.frames.toNat * s.cfg.channels ≤ 2 ^ s.cfg.sampleAddrBits ∧
    (0xFFFFFF : Word64).toNat < 2 ^ s.cfg.sampleAddrBits ∧
    (0x1000000 : Word64).toNat = 2 ^ s.cfg.sampleAddrBits ∧
    (0x1000000 : Word64).toNat + s.rs.frames.toNat * s.cfg.channels ≤ 2 ^ s.cfg.sampleAddrBits ∧
    2 ^ s.cfg.sampleAddrBits < (0x1000001 : Word64).toNat + s.rs.frames.toNat * s.cfg.channels ∧
    (0xFFFF00 : Word64).toNat + s.cfg.half ≤ 2 ^ 31 - 1 ∧
    rsBase s.cfg s.rs + (0xFFFF00 : Word64).toNat * s.cfg.channels ≤ 2 ^ s.cfg.sampleAddrBits ∧
    2 ^ s.cfg.sampleAddrBits < rsBase s.cfg s.rs + (0xFFFF01 : Word64).toNat * s.cfg.channels ∧
    (0x7FFFFFF7 : Word64).toNat + wide.cfg.half ≤ 2 ^ 31 - 1 ∧
    rsBase wide.cfg wide.rs + (0x7FFFFFF7 : Word64).toNat * wide.cfg.channels ≤ 2 ^ wide.cfg.sampleAddrBits ∧
    2 ^ 31 - 1 < (0x7FFFFFF8 : Word64).toNat + wide.cfg.half := by decide +kernel

theorem witness_RsBufferRateAndPitchResults : (F64.mk 1).isFinite = true ∧ F64.zero.lt ⟨1⟩ = true ∧
    (F64.mk 0x7FF0000000000000).isFinite = false ∧ (F64.mk 0x8000000000000000).isFinite = true ∧
    F64.zero.lt ⟨0x8000000000000000⟩ = false ∧ F64.zero.lt F64.zero = false := by decide +kernel

/-- No rate; a rate, with a bad operand; −0.0 and the smallest hz above 0; no pitch; no buffer rate; a bound buffer. -/
theorem witness_RsSetHzResult :
    (F64.mk 0x8000000000000000).eq F64.zero = true ∧ F64.zero.lt ⟨1⟩ = true ∧ (F64.mk 1).isFinite = true ∧
    State.reset.sampleRate.eq F64.zero = true ∧ bound.sampleRate.eq F64.zero = false ∧
    (F64.mk 0x7FF8000000000000).isFinite = false ∧ (F64.mk 0x8000000000000001).lt F64.zero = true ∧
    (F64.mk 0x407B800000000000).lt F64.zero = false ∧ rated.sampleRate.eq F64.zero = false ∧
    rated.rs.bufPitch.eq F64.zero = true ∧ rated.rs.bufRate.eq F64.zero = true ∧
    ¬ (bound.rs.bufPitch.eq F64.zero = true ∨ bound.rs.bufRate.eq F64.zero = true) := by decide +kernel

theorem witness_CursorAdvanceAndKernelVariant :
    3 * (5726623061 : BitVec 63).toNat < 2 ^ 34 ∧ 2 ^ 34 ≤ 3 * (5726623062 : BitVec 63).toNat ∧
    (0x1FFFFFFFF : BitVec 63).toNat < 2 ^ 33 ∧ 2 ^ 33 ≤ (0x200000000 : BitVec 63).toNat := by decide

/-- One frame before the guard band, the first frame after it, the saturated cursor; `playing`, and `playing` with a raced
word, its cursor in the buffer and at both ends of the guard band. -/
theorem witness_ResamplerSampleRules :
    ((lookup playing.slots (psincKey playing.cfg (variantOf playing.rs.inc))).isSome = true ∧
      rsBase playing.cfg playing.rs + playing.rs.frames.toNat * playing.cfg.channels ≤ 2 ^ playing.cfg.sampleAddrBits ∧
      -(playing.cfg.half : Int) ≤ playing.rs.pos.toInt / 2 ^ 32 ∧
      playing.rs.pos.toInt / 2 ^ 32 < (playing.rs.frames.toNat : Int) + playing.cfg.half) ∧
    -(playing.cfg.half : Int) ≤ (0xFFFFFFFF00000000 : BitVec 64).toInt / 2 ^ 32 ∧
    (0x2FFFFFFFF : BitVec 64).toInt / 2 ^ 32 < (playing.rs.frames.toNat : Int) + playing.cfg.half ∧
    (racing.rs, racing.raced) = (playing.rs, [(1, 0x4000000000000000)]) ∧
    (0xFFFFFFF7FFFFFFFF : BitVec 64).toInt / 2 ^ 32 < -(State.reset.cfg.half : Int) ∧
    (State.reset.rs.frames.toNat : Int) + State.reset.cfg.half ≤ (0x0000000800000000 : BitVec 64).toInt / 2 ^ 32 ∧
    ({ resamplerReset with pos := 0x7FFFFFFFFFFFFFFF }).pos = 0x7FFFFFFFFFFFFFFF ∧
    ({ resamplerReset with frames := 0x7FFFFFF7 }).frames.toNat + State.reset.cfg.half ≤ 2 ^ 31 - 1 := by
  decide +kernel

theorem witness_HostCallbackResult : State.reset.cbPending = false ∧
    { State.reset with cbPending := true }.cbPending = true := ⟨rfl, rfl⟩

theorem witness_CbAckResult : (1 : Word64) ≠ 0 ∧ State.reset.cbPending = false ∧
    { resumed with cbPending := true }.cbPending = true ∧ resumed.pull = true ∧ resumed.faulted = false ∧
    resumed.tablesReady = true := ⟨by decide, rfl, rfl, rfl, rfl, rfl⟩

/-- The empty heap, one entry, and a heap with equal ticks. -/
theorem witness_HeapOperationsKeepOrder : HeapOrdered [] ∧
    HeapOrdered [⟨1, 0, 0⟩, ⟨3, 0, 0⟩, ⟨1, 0, 1⟩, ⟨3, 0, 2⟩] ∧
    heapShift [⟨1, 0, 0⟩] = some (⟨1, 0, 0⟩, []) ∧
    (heapShift [⟨1, 0, 0⟩, ⟨3, 0, 0⟩, ⟨1, 0, 1⟩, ⟨3, 0, 2⟩]).isSome = true := by decide

theorem witness_HeapPopsInTickOrder : (1 : Nat) < [(⟨5, 0, 0⟩ : Event), ⟨3, 0, 0⟩].length ∧
    { State.reset with heap := [⟨5, 0, 0⟩] }.heap = shiftTimes 1 (List.foldl heapInsert [] [⟨5, 0, 0⟩, ⟨3, 0, 0⟩]) := by
  decide

theorem witness_PopTakesSomeMinimum : HeapOrdered (queued [7]).heap ∧ (queued [7]).cfg.eqTickOrder = .any ∧
    (popEvent (queued [7])).isSome = true ∧ HeapOrdered (queued [7, 7]).heap ∧
    (popEvent { queued [7, 7] with cfg := { Params.default with eqTickOrder := .heap } }).isSome = true := by
  decide +kernel

theorem witness_NoiseRegisterNeverZero : (0x400000 : BitVec 23) ≠ 0 ∧ lfsrStep 0x7FFFFF = lfsrStep 0x7FFFFF ∧ 21 < 22 := by
  decide

/-- Voice 1 of two, a slave whose predecessor has an edge; and voice 0, which sees the last voice before the pass. -/
theorem witness_SyncPassZeroesSlavesOnly :
    let vs := [voiceAt 0x8000000 0, voiceAt 3 0x21]
    (vs[1]? = some (voiceAt 3 0x21) ∧ (syncPass vs)[1]? = some (voiceAt 0 0x21) ∧
      vs[(1 + vs.length - 1) % vs.length]? = some (voiceAt 0x8000000 0) ∧
      (syncPass vs)[(1 + vs.length - 1) % vs.length]? = some { voiceAt 0x8000000 0 with latch := true } ∧
      (syncPass vs)[1 - 1]? = some { voiceAt 0x8000000 0 with latch := true }) ∧
    (vs[0]? = some (voiceAt 0x8000000 0) ∧ vs[(0 + vs.length - 1) % vs.length]? = some (voiceAt 3 0x21) ∧
      vs[vs.length - 1]? = some (voiceAt 3 0x21) ∧
      (syncPass vs)[(0 + vs.length - 1) % vs.length]? = some (voiceAt 0 0x21)) := by decide +kernel

theorem witness_VoiceAndBankSampleRules :
    (State.reset.cfg.srcOsc = true ∧ State.reset.cfg.srcRs = false) ∧
    (playing.cfg.srcOsc = false ∧ playing.cfg.srcRs = true) ∧
    { Params.default with srcRs := true }.srcOsc = true ∧ { Params.default with srcOsc := false }.srcRs = false ∧
    (voiceAt 0x07FFFFF 0x48).flags.getLsbD 6 = true ∧
    (voiceAt 0x07FFFFF 0x48).flags.getLsbD 3 = true ∧ (voiceAt 0x07FFFFF 0x48).phase.getLsbD 23 = false ∧
    (oscSample 8 { voiceAt 0x07FFFFF 0x48 with inc := 1 }).2.phase.getLsbD 23 = true ∧
    (voiceAt 0 0x3F).flags.getLsbD 6 = false := by decide +kernel

theorem witness_SquareVoiceHasTwoLevels : (voiceAt 0x7FFFFFF 0x02).flags = 0x02 ∧ (voiceAt 0x7FFFFFF 0x02).shift = 0 ∧
    (voiceAt 0 0x60).flags.extractLsb' 0 5 = 0 ∧
    activeWaves 8 0x0B [] 1 (shiftedPhase 3 0) ≠ [] ∧ 27 < 28 := by decide +kernel

/-- Beside the delay's: the shortest window of an oversampler, and one channel of it. -/
theorem witness_OversamplerRules : (1 ≤ 1 ∧ [[F64.zero]][0]? = some [F64.zero] ∧ [F64.one][0]? = some F64.one) ∧
    (List.getD [F64.zero, F64.one, F64.two] 1 F64.zero).isFinite = true ∧
    [F64.one] ≠ [] ∧ 1 + 1 < [F64.zero, F64.one, F64.two].length ∧
    [F64.zero, F64.zero, F64.zero].length = 2 * 1 + 1 ∧ [F64.two].length = 1 ∧ F64.one.isFinite = true ∧
    [F64.zero].length = 2 * 0 + 1 ∧ ([] : List F64).length = 0 := by decide +kernel

/-- Offsets 1 and `RATIO ZC - 1`; 0 and −0.0, 3.0 and 0.5 for the sinc; 1 and the value above it for the window; `x = 0`,
whose first term ends the series; both ends of the betas, the first and the last entry of the widest row. -/
theorem witness_TableEntriesAndTapIndexMap :
    (1 ≤ 1 ∧ (1 < 4 * 8 ∧ 1 % 4 ≠ 0) ∧ (31 < 4 * 8 ∧ 31 % 4 ≠ 0)) ∧ (0 < 2 ^ 0 ∧ 0 < 2 * 1) ∧
    ((F64.mk 0x8000000000000000).eq F64.zero = true ∧ (F64.mk 0x4008000000000000).eq F64.zero = false ∧
      (F64.mk 0x4008000000000000).isFinite = true ∧ (F64.mk 0x4008000000000000).scaled % 2 ^ 1074 = 0 ∧
      F64.half.scaled % 2 ^ 1074 ≠ 0 ∧ (F64.mk 0x7FF0000000000000).isFinite = false) ∧
    (F64.one.lt (F64.abs ⟨0xBFF0000000000001⟩) = true ∧ F64.one.lt (F64.abs ⟨0xBFF0000000000000⟩) = false) ∧
    (let u := (F64.zero.div F64.two).div (F64.ofNat 1)
     F64.zero = F64.one.mul (u.mul u) ∧ F64.one = F64.one.add F64.zero ∧
      F64.zero.lt (F64.one.mul ⟨0x3CA0000000000000⟩) = true) ∧
    (keyInRange (.psinc 0 1 ⟨0x8000000000000000⟩ F64.one) = true ∧
      keyInRange (.psinc 12 32 ⟨0x4049000000000000⟩ F64.one) = true ∧ 0 < 2 * 1 ∧ 63 < 2 * 32) := by
  decide +kernel

/-- An instance whose only table is that of `RATIO = 1`; a second key with one slot, and with a beta next above 50; and a
legal scale, 2^-1074, whose row of phase 1 sums to 0. -/
theorem witness_TableGenerationFillsOrFaults :
    let one := { Params.default with ratio := 1, srcRs := true, cacheSlots := 1 }
    let bad := { one with betaRs := ⟨0x4049000000000001⟩, cacheSlots := 4 }
    let tiny := { Params.default with oversample := false, srcRs := true, phaseBits := 1, half := 1, rsScale0 := ⟨1⟩ }
    (generateTables { Params.default with ratio := 1 }).2 = none ∧
    (resetKeys { Params.default with ratio := 1 }).length = 1 ∧
    (resetKeys one = [firKey one] ++ psincKey one 0 :: [psincKey one 1, psincKey one 2] ∧
      (keyInRange (firKey one) = true ∧ keySumsAccepted (firKey one) = true) ∧ psincKey one 0 ∉ [firKey one] ∧
      keyInRange (psincKey one 0) = true ∧ [firKey one].dedup.length = one.cacheSlots) ∧
    (resetKeys bad = [firKey bad] ++ psincKey bad 0 :: [psincKey bad 1, psincKey bad 2] ∧
      keyInRange (firKey bad) = true ∧ psincKey bad 0 ∉ [firKey bad] ∧ keyInRange (psincKey bad 0) = false) ∧
    (resetKeys tiny = [] ++ psincKey tiny 0 :: [psincKey tiny 1, psincKey tiny 2] ∧
      keyInRange (psincKey tiny 0) = true ∧ 0 < tiny.cacheSlots ∧ keySumsAccepted (psincKey tiny 0) = false) :=
  ⟨by decide +kernel, by decide +kernel, by decide +kernel, by decide +kernel, by decide +kernel, by decide +kernel,
    by decide +kernel, List.all_eq_false.mpr ⟨1, by decide, by decide +kernel⟩⟩

theorem witness_ResetWritesEveryRegister : due.pull = true ∧ due.cfg = Params.default ∧
    (generateTables { due with cfg := { Params.default with ratio := 1 } }.cfg).2 = none ∧
    (generateTables { due with cfg := { Params.default with betaFir := ⟨0x404E000000000000⟩ } }.cfg).2 =
      some .tableParams := by decide +kernel

theorem witness_RegisterReads :
    let s := { State.reset with inbox := [.read 0x104] }
    engineDue s = false ∧ takePacket s.port = none ∧ s.inbox = .read 0x104 :: [] ∧
    0x100 + 0x20 * s.voices.length ≤ (0x180 : BitVec 12).toNat ∧
    (8 ≤ (0x108 : BitVec 12).toNat % 32 ∧ (0x10F : BitVec 12).toNat % 32 ≤ 15) ∧
    (0x11F : BitVec 12).toNat % 32 = 31 ∧ s.heap = [] ∧ (queued [7]).heap = ⟨7, 0, 0⟩ :: [] ∧
    s.faultCause = .none ∧ faulted.faultCause = .badArg ∧ 3 < 64 ∧ s.voices[3]? = some v0 ∧ v0.env.state = .idle := by
  decide +kernel

/-- The default instance, and the greatest value of every field. -/
theorem witness_ConfigurationReflected : paramsCounted Params.default ∧
    paramsCounted { Params.default with
      nOsc := 64, channels := 8, ratio := 16, zc := 64, phaseBits := 12, half := 32, wtBits := 12,
      heapCap := 0xFFFFFFFF, cacheSlots := 255, sampleAddrBits := 48 } := by decide +kernel

theorem witness_SampleWordReadAfterWrite : 0xFFFFFF < 2 ^ State.reset.cfg.sampleAddrBits ∧
    2 ^ State.reset.cfg.sampleAddrBits ≤ 0x1000000 ∧ inExtent playing.cfg playing.rs 1 = true ∧
    inExtent playing.cfg playing.rs 2 = false ∧ (1, 0x4000000000000000) ∈ racing.raced := by decide +kernel

theorem witness_QuietTickDeliversFrame : Inv due ∧ engineDue due = true ∧ due.inTick = false ∧
    due.sampleRate.eq F64.zero = false ∧ eventDue due = false :=
  ⟨inv_due, by decide +kernel, rfl, by decide +kernel, by decide +kernel⟩

/-- `due`, at TICK 1, with a `NOP` due before an event that raises a callback; `resumed` with an event that faults. -/
def stopping : State := { due with tick := 1, heap := [⟨0, 0x00, 0⟩, ⟨1, 0x51, 5⟩] }
def stoppingFirst : State := { resumed with heap := [⟨0, 0x00, 1⟩] }

theorem inv_stopping : Inv stopping :=
  inv_of_reset_units rfl rfl rfl rfl rfl rfl rfl rfl rfl rfl rfl (by decide) (by decide)
    (by
      intro e h
      rcases List.mem_cons.mp h with rfl | h
      · exact ⟨.nop false 0, rfl, rfl, rfl⟩
      · cases List.mem_singleton.mp h
        exact ⟨.hostCallback false 5, rfl, rfl, rfl⟩)
    nofun nofun

theorem inv_stoppingFirst : Inv stoppingFirst :=
  inv_of_reset_units rfl rfl rfl rfl rfl rfl rfl rfl rfl rfl rfl (by decide) (by decide)
    (by intro e h; cases List.mem_singleton.mp h; exact ⟨.nop false 1, rfl, rfl, rfl⟩) nofun (fun _ => rfl)

/-- The second event of a tick raises a callback; the first event of a resumed tick faults. -/
theorem witness_EventStopsTick :
    (Inv stopping ∧ engineDue stopping = true ∧ stopping.sampleRate.eq F64.zero = false ∧
      firedEvents 1 { stopping with inTick := true } =
        some { stopping with inTick := true, heap := [⟨1, 0x51, 5⟩] } ∧
      eventDue { stopping with heap := [⟨1, 0x51, 5⟩] } = true ∧
      popEvent { stopping with inTick := true, heap := [⟨1, 0x51, 5⟩] } =
        some (⟨1, 0x51, 5⟩, { stopping with inTick := true, heap := [] }) ∧
      decodePacket 0x51 5 = .ok (.hostCallback false 5) ∧
      (after { stopping with heap := [] } 0x51 5).cbPending = true) ∧
    (Inv stoppingFirst ∧ engineDue stoppingFirst = true ∧ stoppingFirst.inTick = true ∧
      firedEvents 0 { stoppingFirst with inTick := true } = some stoppingFirst ∧ eventDue stoppingFirst = true ∧
      popEvent stoppingFirst = some (⟨0, 0x00, 1⟩, { stoppingFirst with heap := [] }) ∧
      decodePacket 0x00 1 = .ok (.nop false 1) ∧
      (after { stoppingFirst with heap := [] } 0x00 1).faulted = true) :=
  ⟨⟨inv_stopping, by decide +kernel, by decide +kernel, rfl, by decide +kernel, rfl, rfl, by decide +kernel⟩,
    ⟨inv_stoppingFirst, by decide +kernel, rfl, rfl, by decide +kernel, rfl, rfl, by decide +kernel⟩⟩

/-- A tick from its start and a resumed one. -/
theorem witness_CompletedTickLeavesNoDueEvent :
    (Inv due ∧ engineDue due = true ∧ ∃ t, step due = .next t ∧ t.faulted = false ∧ t.cbPending = false) ∧
    (Inv resumed ∧ engineDue resumed = true ∧ ∃ t, step resumed = .next t ∧ t.faulted = false ∧ t.cbPending = false) :=
  ⟨⟨inv_due, by decide +kernel, next_of_completes (by decide +kernel)⟩,
    ⟨inv_resumed, by decide +kernel, next_of_completes (by decide +kernel)⟩⟩

theorem witness_PullProtocol :
    let s := { rated with inbox := [.pull] }
    engineDue s = false ∧ takePacket s.port = none ∧ s.faulted = false ∧ s.tablesReady = true ∧ s.pull = false ∧
    takePacket { faulted with port := [] }.port = none ∧ { s with tablesReady := false }.tablesReady = false ∧
    engineDue dueUnrated = true ∧ dueUnrated.inTick = false ∧ dueUnrated.sampleRate.eq F64.zero = true := by
  decide +kernel

theorem witness_StepKeepsInvariant : Inv due ∧ ∃ t, step due = .next t :=
  ⟨inv_due, (next_of_completes (r := step due) (by decide +kernel)).imp fun _ h => h.1⟩

theorem witness_MachineNeverStops : Inv due ∧ Inv resumed := ⟨inv_due, inv_resumed⟩

theorem witness_ParametersNeverChange : step { State.reset with inbox := [.byte 1] } =
    .next { State.reset with port := [1] } := rfl

theorem witness_AdditionRoundsToNearest : F64.one.isFinite = true ∧ F64.twoPowNeg53.isFinite = true ∧
    (F64.one.add F64.twoPowNeg53).isFinite = true := by decide +kernel

theorem witness_ProductAndQuotientRoundToNearest : (F64.one.mul F64.twoPowNeg53).isFinite = true ∧
    F64.two.isZero = false ∧ (F64.one.div F64.two).isFinite = true := by decide +kernel

theorem witness_TanhIsOddAndBounded : (F64.mk 0xFFF0000000000000).isNaN = false ∧ F64.one.isNaN = false := by
  decide +kernel

end Sys2Proof.Tests
end

/-! PROOFS. What no command touches (O10): the frame of a command that takes no voice and of a voice command, from the
frame of its effect, and the effect of each command. -/

namespace Sys2Proof.Machine

/-! ## Computations that may raise a fault -/

/-- Every result the computation can answer has the property. -/
def Yields {ε β : Type} (P : β → Prop) (x : Except ε β) : Prop := ∀ b, x = .ok b → P b

theorem Yields.pure {ε β : Type} {P : β → Prop} {b : β} (h : P b) : Yields P (Pure.pure b : Except ε β) := by
  intro c hc
  cases hc
  exact h

/-- The result of two computations in a row is the second one's. -/
theorem Yields.bind {ε α β : Type} {P : β → Prop} {x : Except ε α} {f : α → Except ε β}
    (h : ∀ a, x = .ok a → Yields P (f a)) : Yields P (x >>= f) := by
  intro c hc
  cases x with
  | error e => cases hc
  | ok a => exact h a rfl c hc

/-! ## The frame of a command -/

/-- What a voice holds that no command writes (10_state.md rules R40, R43). -/
def Voice.kept (v : Voice) : BitVec 28 × BitVec 23 × Bool × F64 := (v.phase, v.lfsr, v.latch, v.env.value)

/-- A voice that a command has written agrees with the old one in what no command writes. -/
structure Voice.Keeps (vo vo' : Voice) : Prop where
  phase : vo'.phase = vo.phase
  lfsr : vo'.lfsr = vo.lfsr
  latch : vo'.latch = vo.latch
  value : vo'.env.value = vo.env.value

theorem Voice.Keeps.kept_eq {vo vo' : Voice} (h : Voice.Keeps vo vo') : vo'.kept = vo.kept := by
  simp [Voice.kept, h.phase, h.lfsr, h.latch, h.value]

/-- `t` differs from `s` at most in what a command can write. -/
structure CommandKeeps (s t : State) : Prop where
  cfg : t.cfg = s.cfg
  tick : t.tick = s.tick
  tablesReady : t.tablesReady = s.tablesReady
  lp : t.filter.lp = s.filter.lp
  bp : t.filter.bp = s.filter.bp
  hp : t.filter.hp = s.filter.hp
  voices : t.voices.map Voice.kept = s.voices.map Voice.kept
  osw : t.osw = s.osw
  slots : t.slots = s.slots
  mem : t.mem = s.mem
  port : t.port = s.port
  inbox : t.inbox = s.inbox

theorem CommandKeeps.refl (s : State) : CommandKeeps s s := by constructor <;> rfl

theorem CommandKeeps.enterFault (c : FaultCause) (hdr : BitVec 32) (arg : Word64) (s : State) :
    CommandKeeps s (enterFault c hdr arg s) := by constructor <;> rfl

theorem CommandKeeps.insert (h : List Event) (s : State) : CommandKeeps s { s with heap := h } := by
  constructor <;> rfl

/-- Replacing a voice by one that agrees with it outside what a command can write. -/
theorem CommandKeeps.setVoice {s : State} {n : Nat} {vo vo' : Voice} (h : s.voices[n]? = some vo)
    (hk : Voice.Keeps vo vo') : CommandKeeps s { s with voices := s.voices.set n vo' } := by
  have hv : (s.voices.set n vo').map Voice.kept = s.voices.map Voice.kept := by
    obtain ⟨hn, hvo⟩ := List.getElem?_eq_some_iff.mp h
    rw [List.map_set, hk.kept_eq, ← hvo, ← List.getElem_map Voice.kept (h := by simpa using hn)]
    exact List.set_getElem_self _
  exact { CommandKeeps.refl s with voices := hv }

/-- A command that takes no voice keeps what its effect keeps: refusing and inserting write less. -/
theorem runCommand_keeps {i : Instr} {f : State → Except FaultCause State} {s t : State}
    (h : runCommand i f s = .next t) (hf : Yields (CommandKeeps s) (f s)) : CommandKeeps s t := by
  rcases runCommand_cases h with ⟨-, -, rfl⟩ | ⟨-, -, rfl⟩ | ⟨-, hok⟩ | ⟨-, c, -, rfl⟩
  · exact CommandKeeps.insert _ s
  · exact CommandKeeps.enterFault ..
  · exact hf t hok
  · exact CommandKeeps.enterFault ..

/-- A voice command whose effect keeps the voice's phase, noise register, latch and envelope value. -/
theorem runVoice_keeps {i : Instr} {v : BitVec 8} {f : State → Voice → Except FaultCause Voice} {s t : State}
    (h : runVoice i v f s = .next t) (hf : ∀ vo, Yields (Voice.Keeps vo) (f s vo)) : CommandKeeps s t := by
  rcases runVoice_cases h with ⟨-, rfl⟩ | ⟨vo, hv, ⟨-, -, rfl⟩ | ⟨-, -, rfl⟩ | ⟨-, vo', hok, rfl⟩ | ⟨-, c, -, rfl⟩⟩
  · exact CommandKeeps.enterFault ..
  · exact CommandKeeps.insert _ s
  · exact CommandKeeps.enterFault ..
  · exact CommandKeeps.setVoice hv (hf vo vo' hok)
  · exact CommandKeeps.enterFault ..

/-! ## One lemma per command: what its effect writes once its checks have passed -/

section
variable {d : Bool} {v : BitVec 8} {arg : Word64} {s t : State}

theorem execNop_keeps (h : execNop d arg s = .next t) : CommandKeeps s t :=
  runCommand_keeps h (.bind fun _ _ => .pure { CommandKeeps.refl s with })

theorem execSetSampleRate_keeps (h : execSetSampleRate d arg s = .next t) : CommandKeeps s t :=
  runCommand_keeps h (.bind fun _ _ => .bind fun _ _ => .bind fun _ _ => .pure { CommandKeeps.refl s with })

theorem execOscSetHz_keeps (h : execOscSetHz d v arg s = .next t) : CommandKeeps s t :=
  runVoice_keeps h fun _ => .bind fun _ _ => .bind fun _ _ => .bind fun _ _ => .pure ⟨rfl, rfl, rfl, rfl⟩

theorem execOscSetShift_keeps (h : execOscSetShift d v arg s = .next t) : CommandKeeps s t :=
  runVoice_keeps h fun _ => .bind fun _ _ => .pure ⟨rfl, rfl, rfl, rfl⟩

theorem execOscSetFlags_keeps (h : execOscSetFlags d v arg s = .next t) : CommandKeeps s t :=
  runVoice_keeps h fun _ => .bind fun _ _ => .pure ⟨rfl, rfl, rfl, rfl⟩

theorem execOscSetGainDirect_keeps (h : execOscSetGainDirect d v arg s = .next t) : CommandKeeps s t :=
  runVoice_keeps h fun _ => .bind fun _ _ => .pure ⟨rfl, rfl, rfl, rfl⟩

theorem execOscSetGainFilter_keeps (h : execOscSetGainFilter d v arg s = .next t) : CommandKeeps s t :=
  runVoice_keeps h fun _ => .bind fun _ _ => .pure ⟨rfl, rfl, rfl, rfl⟩

theorem execOscWtWrite_keeps (h : execOscWtWrite d v arg s = .next t) : CommandKeeps s t :=
  runVoice_keeps h fun _ => .bind fun _ _ => .pure ⟨rfl, rfl, rfl, rfl⟩

theorem execEnvOn_keeps (h : execEnvOn d v arg s = .next t) : CommandKeeps s t :=
  runVoice_keeps h fun _ => .bind fun _ _ => .pure ⟨rfl, rfl, rfl, rfl⟩

theorem execEnvOff_keeps (h : execEnvOff d v arg s = .next t) : CommandKeeps s t :=
  runVoice_keeps h fun _ => .bind fun _ _ => .pure (by split <;> exact ⟨rfl, rfl, rfl, rfl⟩)

theorem execEnvSetAttack_keeps (h : execEnvSetAttack d v arg s = .next t) : CommandKeeps s t :=
  runVoice_keeps h fun _ => .bind fun _ _ => .pure ⟨rfl, rfl, rfl, rfl⟩

theorem execEnvSetDecay_keeps (h : execEnvSetDecay d v arg s = .next t) : CommandKeeps s t :=
  runVoice_keeps h fun _ => .bind fun _ _ => .pure ⟨rfl, rfl, rfl, rfl⟩

theorem execEnvSetSustain_keeps (h : execEnvSetSustain d v arg s = .next t) : CommandKeeps s t :=
  runVoice_keeps h fun _ => .bind fun _ _ => .bind fun _ _ => .pure ⟨rfl, rfl, rfl, rfl⟩

theorem execEnvSetRelease_keeps (h : execEnvSetRelease d v arg s = .next t) : CommandKeeps s t :=
  runVoice_keeps h fun _ => .bind fun _ _ => .pure ⟨rfl, rfl, rfl, rfl⟩

theorem execEnvSetCurveAttack_keeps (h : execEnvSetCurveAttack d v arg s = .next t) : CommandKeeps s t :=
  runVoice_keeps h fun _ => .bind fun _ _ => .pure ⟨rfl, rfl, rfl, rfl⟩

theorem execEnvSetCurveDecay_keeps (h : execEnvSetCurveDecay d v arg s = .next t) : CommandKeeps s t :=
  runVoice_keeps h fun _ => .bind fun _ _ => .pure ⟨rfl, rfl, rfl, rfl⟩

theorem execEnvSetCurveRelease_keeps (h : execEnvSetCurveRelease d v arg s = .next t) : CommandKeeps s t :=
  runVoice_keeps h fun _ => .bind fun _ _ => .pure ⟨rfl, rfl, rfl, rfl⟩

theorem execFltSetFc_keeps (h : execFltSetFc d arg s = .next t) : CommandKeeps s t :=
  runCommand_keeps h (.bind fun _ _ => .pure { CommandKeeps.refl s with })

theorem execFltSetQ_keeps (h : execFltSetQ d arg s = .next t) : CommandKeeps s t :=
  runCommand_keeps h (.bind fun _ _ => .pure { CommandKeeps.refl s with })

theorem execFltSetGainLp_keeps (h : execFltSetGainLp d arg s = .next t) : CommandKeeps s t :=
  runCommand_keeps h (.bind fun _ _ => .pure { CommandKeeps.refl s with })

theorem execFltSetGainBp_keeps (h : execFltSetGainBp d arg s = .next t) : CommandKeeps s t :=
  runCommand_keeps h (.bind fun _ _ => .pure { CommandKeeps.refl s with })

theorem execFltSetGainHp_keeps (h : execFltSetGainHp d arg s = .next t) : CommandKeeps s t :=
  runCommand_keeps h (.bind fun _ _ => .pure { CommandKeeps.refl s with })

theorem execRsSetBufBase_keeps (h : execRsSetBufBase d arg s = .next t) : CommandKeeps s t :=
  runCommand_keeps h (.bind fun _ _ => .pure { CommandKeeps.refl s with })

theorem execRsSetBufFrames_keeps (h : execRsSetBufFrames d arg s = .next t) : CommandKeeps s t :=
  runCommand_keeps h (.bind fun _ _ => .bind fun _ _ => .pure { CommandKeeps.refl s with })

theorem execRsSetBufRate_keeps (h : execRsSetBufRate d arg s = .next t) : CommandKeeps s t :=
  runCommand_keeps h (.bind fun _ _ => .bind fun _ _ => .pure { CommandKeeps.refl s with })

theorem execRsSetBufPitch_keeps (h : execRsSetBufPitch d arg s = .next t) : CommandKeeps s t :=
  runCommand_keeps h (.bind fun _ _ => .bind fun _ _ => .pure { CommandKeeps.refl s with })

theorem execRsSetHz_keeps (h : execRsSetHz d arg s = .next t) : CommandKeeps s t :=
  runCommand_keeps h (.bind fun _ _ => .bind fun _ _ => .bind fun _ _ => .bind fun _ _ =>
    .pure { CommandKeeps.refl s with })

theorem execRsSetPos_keeps (h : execRsSetPos d arg s = .next t) : CommandKeeps s t :=
  runCommand_keeps h (.pure { CommandKeeps.refl s with })

theorem execEvSetTick_keeps (h : execEvSetTick arg s = .next t) : CommandKeeps s t :=
  runCommand_keeps h (.pure { CommandKeeps.refl s with })

theorem execHostCallback_keeps (h : execHostCallback d arg s = .next t) : CommandKeeps s t :=
  runCommand_keeps h (.bind fun _ _ => .pure { CommandKeeps.refl s with })

theorem execCbAck_keeps (h : execCbAck arg s = .next t) : CommandKeeps s t :=
  runCommand_keeps h (.bind fun _ _ => .bind fun _ _ => .pure { CommandKeeps.refl s with })

end

/-- Every command (30_encoding.md rule R94). -/
theorem exec_keeps {i : Instr} {s t : State} (h : exec i s = .next t) : CommandKeeps s t := by
  cases i with
  | nop d arg => exact execNop_keeps h
  | setSampleRate d arg => exact execSetSampleRate_keeps h
  | oscSetHz d v arg => exact execOscSetHz_keeps h
  | oscSetShift d v arg => exact execOscSetShift_keeps h
  | oscSetFlags d v arg => exact execOscSetFlags_keeps h
  | oscSetGainDirect d v arg => exact execOscSetGainDirect_keeps h
  | oscSetGainFilter d v arg => exact execOscSetGainFilter_keeps h
  | oscWtWrite d v arg => exact execOscWtWrite_keeps h
  | envOn d v arg => exact execEnvOn_keeps h
  | envOff d v arg => exact execEnvOff_keeps h
  | envSetAttack d v arg => exact execEnvSetAttack_keeps h
  | envSetDecay d v arg => exact execEnvSetDecay_keeps h
  | envSetSustain d v arg => exact execEnvSetSustain_keeps h
  | envSetRelease d v arg => exact execEnvSetRelease_keeps h
  | envSetCurveAttack d v arg => exact execEnvSetCurveAttack_keeps h
  | envSetCurveDecay d v arg => exact execEnvSetCurveDecay_keeps h
  | envSetCurveRelease d v arg => exact execEnvSetCurveRelease_keeps h
  | fltSetFc d arg => exact execFltSetFc_keeps h
  | fltSetQ d arg => exact execFltSetQ_keeps h
  | fltSetGainLp d arg => exact execFltSetGainLp_keeps h
  | fltSetGainBp d arg => exact execFltSetGainBp_keeps h
  | fltSetGainHp d arg => exact execFltSetGainHp_keeps h
  | rsSetBufBase d arg => exact execRsSetBufBase_keeps h
  | rsSetBufFrames d arg => exact execRsSetBufFrames_keeps h
  | rsSetBufRate d arg => exact execRsSetBufRate_keeps h
  | rsSetBufPitch d arg => exact execRsSetBufPitch_keeps h
  | rsSetHz d arg => exact execRsSetHz_keeps h
  | rsSetPos d arg => exact execRsSetPos_keeps h
  | evSetTick arg => exact execEvSetTick_keeps h
  | hostCallback d arg => exact execHostCallback_keeps h
  | cbAck arg => exact execCbAck_keeps h

/-- Settles O10: no command's effect, insert or fault writes outside `CommandKeeps`. -/
theorem commandFrame : Obligations.CommandFrame := by
  intro i s t h
  have k := exec_keeps h
  exact ⟨k.cfg, k.tick, k.tablesReady, k.lp, k.bp, k.hp, k.voices, k.osw, k.slots, fun x => by rw [k.mem], k.port,
    k.inbox⟩

end Sys2Proof.Machine

/-! PROOFS. The parameters never change (O57): what the samples of a tick, its dispatch loop and the host's actions
write. -/

namespace Sys2Proof.Machine

/-! ## What an inner sample writes -/

/-- A property that every turn of a loop keeps, from the loop's start to its end. -/
theorem Yields.foldlM {ε α β : Type} {P : β → Prop} {f : β → α → Except ε β} {l : List α}
    (hf : ∀ b a, P b → Yields P (f b a)) {b : β} (hb : P b) : Yields P (l.foldlM f b) := by
  induction l generalizing b with
  | nil => exact .pure hb
  | cons a l ih => exact .bind fun b' hb' => ih (hf b a hb b' hb')

theorem Yields.ite {ε β : Type} {P : β → Prop} {c : Prop} [Decidable c] {x y : Except ε β} (hx : Yields P x)
    (hy : Yields P y) : Yields P (if c then x else y) := by
  split
  · exact hx
  · exact hy

/-- `t` is `s` with some number of free choices drawn (20_memory.md rule R80). -/
def Drawn (s t : State) : Prop := ∃ n, t = { s with draws := n }

/-- One tap reads sample memory at most (44_resampler.md rule R278). -/
theorem rsTap_drawn {s : State} (c : Nat) (row : List F64) (acc : F64 × State) (k : Nat) (h : Drawn s acc.2) :
    Yields (fun r => Drawn s r.2) (rsTap c row acc k) := by
  refine .ite (.bind fun r hr => .pure ?_) (.pure h)
  obtain ⟨n, hn⟩ := h
  obtain ⟨-, ⟨m, hm⟩, -⟩ := sampleRead_spec hr
  exact ⟨m, by rw [hm, hn]⟩

theorem rsChannel_drawn {s : State} (row : List F64) (acc : List F64 × State) (c : Nat) (h : Drawn s acc.2) :
    Yields (fun r => Drawn s r.2) (rsChannel row acc c) :=
  .bind fun r hr => .pure (Yields.foldlM (P := fun r => Drawn s r.2) (fun b k hb => rsTap_drawn c row b k hb) h r hr)

/-- The resampler's sample writes its cursor, and draws free choices (rule R278). -/
theorem rsSample_writes (s : State) :
    Yields (fun r => ∃ n, r.2 = { s with rs := advanceCursor s.rs, draws := n }) (rsSample s) := by
  refine .ite (.pure ⟨s.draws, rfl⟩) (.bind fun row _ => .bind fun r hr => .pure ?_)
  obtain ⟨n, hn⟩ := Yields.foldlM (P := fun r => Drawn s r.2) (fun b c hb => rsChannel_drawn row b c hb)
    ⟨s.draws, rfl⟩ r hr
  exact ⟨n, by rw [hn]⟩

/-- `t` is `s` with other voices, filter, resampler, window and count of free choices: what samples can write. -/
def Sampled (s t : State) : Prop :=
  ∃ vs f rs w n, t = { s with voices := vs, filter := f, rs := rs, osw := w, draws := n }

theorem Sampled.refl (s : State) : Sampled s s := ⟨_, _, _, _, _, rfl⟩

theorem Sampled.trans {s t u : State} (h : Sampled s t) (k : Sampled t u) : Sampled s u := by
  obtain ⟨vs, f, rs, w, n, rfl⟩ := h
  obtain ⟨vs', f', rs', w', n', rfl⟩ := k
  exact ⟨vs', f', rs', w', n', rfl⟩

theorem bankSample_sampled (s : State) : Sampled s (bankSample s).2 := ⟨_, _, _, _, _, rfl⟩

theorem rsSample_sampled (s : State) : Yields (fun r => Sampled s r.2) (rsSample s) := by
  intro r hr
  obtain ⟨n, hn⟩ := rsSample_writes s r hr
  exact ⟨_, _, _, _, n, hn⟩

/-- An inner frame, whichever sources the block has (47_engine.md rule R362). -/
theorem innerFrame_sampled (s : State) : Yields (fun r => Sampled s r.2) (innerFrame s) := by
  have hbank : Sampled s (if s.cfg.srcOsc then
      (List.replicate s.cfg.channels (F64.zero.add (bankSample s).1), (bankSample s).2)
      else (List.replicate s.cfg.channels F64.zero, s)).2 := by
    split
    · exact bankSample_sampled s
    · exact .refl s
  exact .ite (.bind fun r hr => .pure (hbank.trans (rsSample_sampled _ r hr))) (.pure hbank)

theorem pushFrame_sampled (frame : List F64) (s : State) : Sampled s (pushFrame frame s) := ⟨_, _, _, _, _, rfl⟩

theorem pullInner_sampled (n : Nat) (s : State) : Yields (Sampled s) (pullInner n s) := by
  induction n generalizing s with
  | zero => exact .pure (.refl s)
  | succ n ih =>
    exact .bind fun r hr t ht =>
      ((innerFrame_sampled s r hr).trans (pushFrame_sampled r.1 r.2)).trans (ih (pushFrame r.1 r.2) t ht)

theorem osFrame_sampled (s : State) : Yields (fun r => Sampled s r.2) (osFrame s) := by
  unfold osFrame
  split
  · exact fun r hr => nomatch hr
  · exact .bind fun t ht => .pure (pullInner_sampled s.cfg.ratio s t ht)

/-- The frame of a tick writes what its samples write (rule R361). -/
theorem tickFrame_sampled (s : State) : Yields (fun r => Sampled s r.2) (tickFrame s) :=
  .ite (osFrame_sampled s) (innerFrame_sampled s)

/-! ## The parameters -/

theorem Sampled.cfg {s t : State} (h : Sampled s t) : t.cfg = s.cfg := by
  obtain ⟨vs, f, rs, w, n, rfl⟩ := h
  rfl

theorem completeTick_cfg {s t : State} (h : completeTick s = .next t) : t.cfg = s.cfg := by
  unfold completeTick at h
  split at h
  · rename_i frame u hu
    cases h
    exact (tickFrame_sampled s _ hu).cfg
  · cases h

theorem popEvent_cfg {s t : State} {e : Event} (h : popEvent s = some (e, t)) : t.cfg = s.cfg := by
  rw [(popEvent_spec h).2]

theorem execPacket_cfg {hdr : BitVec 32} {arg : Word64} {s t : State} (h : execPacket hdr arg s = .next t) :
    t.cfg = s.cfg := by
  unfold execPacket at h
  split at h
  · exact (exec_keeps h).cfg
  · cases h
    rfl

theorem dispatch_cfg {fuel : Nat} {s t : State} (h : dispatch fuel s = .next t) : t.cfg = s.cfg := by
  induction fuel generalizing s with
  | zero => cases h; rfl
  | succ fuel ih =>
    unfold dispatch at h
    split at h
    · split at h
      · cases h; rfl
      · rename_i e s1 hpop
        split at h
        · rename_i s2 hexec
          have h2 : s2.cfg = s.cfg := (execPacket_cfg hexec).trans (popEvent_cfg hpop)
          split at h
          · cases h; exact h2
          · exact (ih h).trans h2
        · cases h
        · cases h
    · cases h; rfl

theorem continueTick_cfg {s t : State} (h : continueTick s = .next t) : t.cfg = s.cfg := by
  unfold continueTick at h
  split at h
  · rename_i s1 hd
    have h1 := dispatch_cfg hd
    split at h
    · cases h; exact h1
    · exact (completeTick_cfg h).trans h1
  · cases h
  · cases h

theorem startTick_cfg {s t : State} (h : startTick s = .next t) : t.cfg = s.cfg := by
  unfold startTick at h
  split at h
  · cases h; rfl
  · exact continueTick_cfg (s := { s with inTick := true }) h

theorem engineAct_cfg {s t : State} (h : engineAct s = .next t) : t.cfg = s.cfg := by
  unfold engineAct at h
  split at h
  · exact continueTick_cfg h
  · exact startTick_cfg h

/-- Reset, whether its table generation succeeds or faults. -/
theorem resetBlock_cfg (s : State) : (resetBlock s).cfg = s.cfg := by
  unfold resetBlock
  dsimp only
  split <;> rfl

theorem receivePacket_cfg {hdr : BitVec 32} {arg : Word64} {s t : State} (h : receivePacket hdr arg s = .next t) :
    t.cfg = s.cfg := by
  unfold receivePacket at h
  split at h
  · cases h; rfl
  · exact execPacket_cfg h

theorem receivePull_cfg {s t : State} (h : receivePull s = .next t) : t.cfg = s.cfg := by
  unfold receivePull at h
  split at h
  · cases h; rfl
  · split at h
    · cases h
    · cases h; rfl

theorem hostAct_cfg {a : HostAction} {s t : State} (h : hostAct a s = .next t) : t.cfg = s.cfg := by
  cases a with
  | byte b => cases h; rfl
  | read addr => cases h; rfl
  | pull => exact receivePull_cfg h
  | reset => cases h; exact resetBlock_cfg s
  | writeSample addr value => rw [(sampleWrite_spec h).2]

/-- Settles O57, over the three kinds of action that a step can be. -/
theorem parametersNeverChange : Obligations.ParametersNeverChange := by
  intro s t h
  by_cases he : engineDue s = true
  · exact engineAct_cfg (step_engine he ▸ h)
  · have he : engineDue s = false := by simpa using he
    cases hp : takePacket s.port with
    | some p =>
      obtain ⟨hdr, arg, rest⟩ := p
      exact receivePacket_cfg (s := { s with port := rest }) (step_packet he hp ▸ h)
    | none =>
      cases hi : s.inbox with
      | nil =>
        rw [step_idle he hp hi] at h
        cases h; rfl
      | cons a rest => exact hostAct_cfg (s := { s with inbox := rest }) (step_host he hp hi ▸ h)

end Sys2Proof.Machine

/-! PROOFS. Table generation (O45): the cache while the loop of 43_table_cache.md rule R249 fills it, one equation per
branch of the loop, and what the loop answers on a list of keys. -/

namespace Sys2Proof.Machine

/-! ## The cache while it is filled -/

/-- The slot of a key, with the table its generator gives. -/
def keySlot (k : Key) : Option Slot := some ⟨k, keyEntries k⟩

/-- A cache of `n` slots whose first slots hold the keys `done`, the others invalid. -/
def filledSlots (n : Nat) (done : List Key) : List (Option Slot) :=
  done.map keySlot ++ List.replicate (n - done.length) none

theorem filledSlots_length {n : Nat} {done : List Key} (h : done.length ≤ n) : (filledSlots n done).length = n := by
  simp [filledSlots]; omega

@[simp] theorem slotHas_keySlot (k l : Key) : slotHas k (keySlot l) = (l == k) := rfl

@[simp] theorem slotHas_none (k : Key) : slotHas k none = false := rfl

/-- A key is in the cache exactly when it is among those the cache was filled with. -/
theorem filledSlots_any (n : Nat) (done : List Key) (k : Key) :
    (filledSlots n done).any (slotHas k) = decide (k ∈ done) := by
  rw [Bool.eq_iff_iff]
  simp [filledSlots]

/-- A lookup takes the first slot that holds the key. -/
theorem lookup_keySlot_cons (l k : Key) (slots : List (Option Slot)) :
    lookup (keySlot l :: slots) k = if l = k then some (keyEntries l) else lookup slots k := by
  by_cases h : l = k
  · simp [lookup, h, keySlot, slotHas]
  · simp [lookup, h]

/-- A lookup of a key the cache was filled with answers its table (rule R248). -/
theorem lookup_filledSlots {n : Nat} {done : List Key} {k : Key} (h : k ∈ done) :
    lookup (filledSlots n done) k = some (keyEntries k) := by
  unfold filledSlots
  generalize List.replicate (n - done.length) none = rest
  induction done with
  | nil => cases h
  | cons l done ih =>
    rw [List.map_cons, List.cons_append, lookup_keySlot_cons]
    split
    · rename_i hl
      rw [hl]
    · rename_i hl
      exact ih ((List.mem_cons.mp h).resolve_left fun hk => hl hk.symm)

theorem firstInvalid_room {n : Nat} {done : List Key} (h : done.length < n) :
    firstInvalid (filledSlots n done) = some done.length := by
  obtain ⟨m, hm⟩ := Nat.exists_eq_add_of_lt h
  have e : n - done.length = m + 1 := by omega
  have hnone : (done.map keySlot).findIdx? Option.isNone = none := by simp [keySlot]
  simp [firstInvalid, filledSlots, List.findIdx?_append, hnone, e, List.replicate_succ, List.findIdx?_cons]

theorem firstInvalid_full {n : Nat} {done : List Key} (h : n ≤ done.length) :
    firstInvalid (filledSlots n done) = none := by
  simp [firstInvalid, filledSlots, Nat.sub_eq_zero_of_le h, keySlot]

/-- Filling the lowest-numbered invalid slot. -/
theorem filledSlots_set {n : Nat} {done : List Key} (h : done.length < n) (k : Key) :
    (filledSlots n done).set done.length (some ⟨k, keyEntries k⟩) = filledSlots n (done ++ [k]) := by
  obtain ⟨m, hm⟩ := Nat.exists_eq_add_of_lt h
  have e1 : n - done.length = m + 1 := by omega
  have e2 : n - (done.length + 1) = m := by omega
  simp [filledSlots, e1, e2, List.replicate_succ, keySlot]

/-! ## The branches of the loop (rule R249) -/

theorem fillSlots_hit {n : Nat} {done ks : List Key} {k : Key} (h : k ∈ done) :
    fillSlots (k :: ks) (filledSlots n done) = fillSlots ks (filledSlots n done) := by
  simp [fillSlots, filledSlots_any, h]

theorem fillSlots_outOfRange {n : Nat} {done ks : List Key} {k : Key} (h : k ∉ done) (hr : keyInRange k = false) :
    fillSlots (k :: ks) (filledSlots n done) = (filledSlots n done, some .tableParams) := by
  simp [fillSlots, filledSlots_any, h, hr]

theorem fillSlots_full {n : Nat} {done ks : List Key} {k : Key} (h : k ∉ done) (hr : keyInRange k = true)
    (hn : n ≤ done.length) : fillSlots (k :: ks) (filledSlots n done) = (filledSlots n done, some .cacheFull) := by
  simp [fillSlots, filledSlots_any, h, hr, firstInvalid_full hn]

theorem fillSlots_refused {n : Nat} {done ks : List Key} {k : Key} (h : k ∉ done) (hr : keyInRange k = true)
    (hn : done.length < n) (hs : keySumsAccepted k = false) :
    fillSlots (k :: ks) (filledSlots n done) = (filledSlots n done, some .tableParams) := by
  simp [fillSlots, filledSlots_any, h, hr, firstInvalid_room hn, hs]

theorem fillSlots_fill {n : Nat} {done ks : List Key} {k : Key} (h : k ∉ done) (hr : keyInRange k = true)
    (hn : done.length < n) (hs : keySumsAccepted k = true) :
    fillSlots (k :: ks) (filledSlots n done) = fillSlots ks (filledSlots n (done ++ [k])) := by
  simp [fillSlots, filledSlots_any, h, hr, firstInvalid_room hn, hs, filledSlots_set hn]

/-! ## The distinct keys of a list -/

/-- `done` lists the keys of `seen`, each once. -/
structure Distinct (seen done : List Key) : Prop where
  nodup : done.Nodup
  mem_iff : ∀ l, l ∈ done ↔ l ∈ seen

theorem dedup_length_mono {a b : List Key} (h : a ⊆ b) : a.dedup.length ≤ b.dedup.length := by
  rw [← List.card_toFinset, ← List.card_toFinset]
  exact Finset.card_le_card fun k hk => List.mem_toFinset.mpr (h (List.mem_toFinset.mp hk))

theorem Distinct.length_eq {seen done : List Key} (h : Distinct seen done) : done.length = seen.dedup.length := by
  rw [← List.card_toFinset, ← List.toFinset_card_of_nodup h.nodup]
  congr 1
  ext l
  simp [h.mem_iff]

theorem Distinct.skip {seen done : List Key} {k : Key} (h : Distinct seen done) (hk : k ∈ done) :
    Distinct (seen ++ [k]) done where
  nodup := h.nodup
  mem_iff l := by
    have hs : k ∈ seen := (h.mem_iff k).mp hk
    rw [h.mem_iff, List.mem_append, List.mem_singleton]
    exact ⟨.inl, fun hl => hl.elim id fun e => e ▸ hs⟩

theorem Distinct.add {seen done : List Key} {k : Key} (h : Distinct seen done) (hk : k ∉ done) :
    Distinct (seen ++ [k]) (done ++ [k]) where
  nodup := by
    rw [List.nodup_append]
    exact ⟨h.nodup, List.nodup_singleton k, fun a ha b hb e => hk (List.mem_singleton.mp hb ▸ e ▸ ha)⟩
  mem_iff l := by rw [List.mem_append, List.mem_append, h.mem_iff]

/-! ## The loop on a list of keys -/

/-- A key whose table can be generated (rule R249). -/
abbrev Generable (k : Key) : Prop := keyInRange k = true ∧ keySumsAccepted k = true

/-- The loop passes keys that can be generated while there are slots for the distinct ones. -/
theorem fillSlots_pass {n : Nat} {pre rest seen done : List Key} (hd : Distinct seen done)
    (hg : ∀ l ∈ pre, Generable l) (hn : (seen ++ pre).dedup.length ≤ n) :
    ∃ done', Distinct (seen ++ pre) done' ∧
      fillSlots (pre ++ rest) (filledSlots n done) = fillSlots rest (filledSlots n done') := by
  induction pre generalizing seen done with
  | nil => exact ⟨done, by rwa [List.append_nil], rfl⟩
  | cons k pre ih =>
    obtain ⟨hk, hpre⟩ := List.forall_mem_cons.mp hg
    have hsplit : seen ++ k :: pre = (seen ++ [k]) ++ pre := by simp
    rw [hsplit] at hn ⊢
    by_cases hmem : k ∈ done
    · obtain ⟨done', hd', he⟩ := ih (hd.skip hmem) hpre hn
      exact ⟨done', hd', (fillSlots_hit hmem).trans he⟩
    · have hlen : (done ++ [k]).length ≤ n := by
        rw [(hd.add hmem).length_eq]
        exact le_trans (dedup_length_mono (List.subset_append_left _ _)) hn
      have hroom : done.length < n := by simpa using hlen
      obtain ⟨done', hd', he⟩ := ih (hd.add hmem) hpre hn
      exact ⟨done', hd', (fillSlots_fill hmem hk.1 hroom hk.2).trans he⟩

/-- A loop that raises no fault has filled the cache with the distinct keys, each of which could be generated. -/
theorem fillSlots_none {n : Nat} {ks seen done : List Key} {slots : List (Option Slot)} (hd : Distinct seen done)
    (hn : done.length ≤ n) (h : fillSlots ks (filledSlots n done) = (slots, none)) :
    ∃ done', Distinct (seen ++ ks) done' ∧ done'.length ≤ n ∧ slots = filledSlots n done' ∧
      ∀ k ∈ ks, k ∉ done → Generable k := by
  induction ks generalizing seen done with
  | nil =>
    cases h
    exact ⟨done, by rwa [List.append_nil], hn, rfl, by simp⟩
  | cons k ks ih =>
    have hsplit : seen ++ k :: ks = (seen ++ [k]) ++ ks := by simp
    rw [hsplit]
    by_cases hmem : k ∈ done
    · rw [fillSlots_hit hmem] at h
      obtain ⟨done', hd', hn', hs, hg⟩ := ih (hd.skip hmem) hn h
      exact ⟨done', hd', hn', hs, List.forall_mem_cons.mpr ⟨fun hk => absurd hmem hk, hg⟩⟩
    · cases hr : keyInRange k with
      | false => rw [fillSlots_outOfRange hmem hr] at h; cases h
      | true =>
        rcases Nat.lt_or_ge done.length n with hroom | hfull
        · cases hs : keySumsAccepted k with
          | false => rw [fillSlots_refused hmem hr hroom hs] at h; cases h
          | true =>
            rw [fillSlots_fill hmem hr hroom hs] at h
            obtain ⟨done', hd', hn', hslots, hg⟩ := ih (hd.add hmem) (by simpa using hroom) h
            refine ⟨done', hd', hn', hslots, List.forall_mem_cons.mpr ⟨fun _ => ⟨hr, hs⟩, fun l hl hout => ?_⟩⟩
            by_cases hlk : l = k
            · exact hlk ▸ ⟨hr, hs⟩
            · exact hg l hl (by simp [hout, hlk])
        · rw [fillSlots_full hmem hr hfull] at h; cases h

/-! ## Generation (rule R249) -/

theorem generateTables_eq (p : Params) : generateTables p = fillSlots (resetKeys p) (filledSlots p.cacheSlots []) := rfl

theorem Distinct.nil : Distinct [] [] := ⟨List.nodup_nil, fun _ => Iff.rfl⟩

/-- Generation without a fault: what the cache holds, and why nothing failed. -/
theorem generateTables_none {p : Params} {slots : List (Option Slot)} (h : generateTables p = (slots, none)) :
    slots.length = p.cacheSlots ∧ (∀ k ∈ resetKeys p, lookup slots k = some (keyEntries k)) ∧
    (∀ k ∈ resetKeys p, Generable k) ∧ (resetKeys p).dedup.length ≤ p.cacheSlots := by
  rw [generateTables_eq] at h
  obtain ⟨done, hd, hn, rfl, hg⟩ := fillSlots_none Distinct.nil (Nat.zero_le _) h
  rw [List.nil_append] at hd
  exact ⟨filledSlots_length hn, fun k hk => lookup_filledSlots ((hd.mem_iff k).mpr hk),
    fun k hk => hg k hk List.not_mem_nil, hd.length_eq ▸ hn⟩

theorem generateTables_none_iff (p : Params) : (generateTables p).2 = none ↔
    (∀ k ∈ resetKeys p, Generable k) ∧ (resetKeys p).dedup.length ≤ p.cacheSlots := by
  constructor
  · intro h
    obtain ⟨-, -, hg, hn⟩ := generateTables_none (Prod.ext rfl h : generateTables p = (_, none))
    exact ⟨hg, hn⟩
  · rintro ⟨hg, hn⟩
    obtain ⟨done, -, he⟩ := fillSlots_pass (rest := []) Distinct.nil hg hn
    rw [List.append_nil] at he
    rw [generateTables_eq, he]
    rfl

/-- Generation reaches the first key that may fail with the distinct keys before it in the cache. -/
theorem generateTables_reaches {p : Params} {pre post : List Key} {k : Key} (hks : resetKeys p = pre ++ k :: post)
    (hg : ∀ l ∈ pre, Generable l) (hk : k ∉ pre) (hn : pre.dedup.length ≤ p.cacheSlots) :
    ∃ done, k ∉ done ∧ done.length = pre.dedup.length ∧
      generateTables p = fillSlots (k :: post) (filledSlots p.cacheSlots done) := by
  obtain ⟨done, hd, he⟩ := fillSlots_pass (rest := k :: post) Distinct.nil hg hn
  rw [List.nil_append] at hd
  exact ⟨done, fun h => hk ((hd.mem_iff k).mp h), hd.length_eq, by rw [generateTables_eq, hks, he]⟩

/-- The cause of the first key that fails. -/
theorem generateTables_cause {p : Params} {pre post : List Key} {k : Key} (hks : resetKeys p = pre ++ k :: post)
    (hg : ∀ l ∈ pre, Generable l) (hk : k ∉ pre) (hn : pre.dedup.length ≤ p.cacheSlots) :
    (keyInRange k = false → (generateTables p).2 = some .tableParams) ∧
    (keyInRange k = true → pre.dedup.length = p.cacheSlots → (generateTables p).2 = some .cacheFull) ∧
    (keyInRange k = true → pre.dedup.length < p.cacheSlots → keySumsAccepted k = false →
      (generateTables p).2 = some .tableParams) := by
  obtain ⟨done, hmem, hlen, he⟩ := generateTables_reaches hks hg hk hn
  rw [he]
  refine ⟨fun hr => ?_, fun hr hfull => ?_, fun hr hroom hs => ?_⟩
  · rw [fillSlots_outOfRange hmem hr]
  · rw [fillSlots_full hmem hr (by omega)]
  · rw [fillSlots_refused hmem hr (by omega) hs]

/-! ## The checks, and reset -/

theorem betaInRange_iff (b : F64) :
    betaInRange b = true ↔ b.isFinite = true ∧ F64.zero.le b = true ∧ b.le ⟨0x4049000000000000⟩ = true := by
  simp [betaInRange, and_assoc]

theorem sumAccepted_iff (x : F64) : sumAccepted x = true ↔ x.isFinite = true ∧ x.le F64.zero = false := by
  simp [sumAccepted]

theorem keyInRange_fir_iff (n h : Nat) (b : F64) :
    keyInRange (.fir n h b) = true ↔ (1 ≤ n ∧ n ≤ 16) ∧ (1 ≤ h ∧ h ≤ 64) ∧ betaInRange b = true := by
  simp [keyInRange, and_assoc]

theorem keyInRange_psinc_iff (n h : Nat) (b sc : F64) :
    keyInRange (.psinc n h b sc) = true ↔ n ≤ 12 ∧ (1 ≤ h ∧ h ≤ 32) ∧ betaInRange b = true ∧
      sc.isFinite = true ∧ F64.zero.lt sc = true ∧ sc.le F64.one = true := by
  simp [keyInRange, and_assoc]

theorem keySumsAccepted_psinc_iff (n h : Nat) (b sc : F64) :
    keySumsAccepted (.psinc n h b sc) = true ↔
      ∀ ph, ph < 2 ^ n → sumAccepted (sumList (psincRaw (2 ^ n) h b sc ph)) = true := by
  simp [keySumsAccepted]

/-- A reset whose table generation raises a cause (60_exceptions.md rule R392). -/
theorem resetBlock_fault {s : State} {c : FaultCause} (h : (generateTables s.cfg).2 = some c) :
    (resetBlock s).faulted = true ∧ (resetBlock s).faultCause = c ∧ (resetBlock s).faultHdr = 0 ∧
    (resetBlock s).faultArg = 0 ∧ (resetBlock s).tablesReady = false := by
  have hg : generateTables s.cfg = ((generateTables s.cfg).1, some c) := Prod.ext rfl h
  unfold resetBlock
  rw [hg]
  exact ⟨rfl, rfl, rfl, rfl, rfl⟩

/-- Settles O45, from what the loop of rule R249 passes and where it stops. -/
theorem tableGenerationFillsOrFaults : Obligations.TableGenerationFillsOrFaults := by
  refine ⟨fun p slots h => ?_, generateTables_none_iff, fun p pre post k hks hg hk hn => generateTables_cause hks hg hk hn,
    fun n h b sc => ⟨?_, ?_, sumAccepted_iff _, ?_⟩, fun s c h => resetBlock_fault h⟩
  · obtain ⟨hlen, hlookup, -, -⟩ := generateTables_none h
    exact ⟨hlen, hlookup⟩
  · rw [keyInRange_fir_iff, betaInRange_iff]
  · rw [keyInRange_psinc_iff, betaInRange_iff]
  · simp only [keySumsAccepted_psinc_iff, sumAccepted_iff]

end Sys2Proof.Machine

/-! PROOFS. Rounding to nearest (O58, O59): what a rounding stores, that no binary64 magnitude lies strictly between two
neighbouring counts of its step, and so that no finite value is nearer. -/

namespace Sys2Proof

/-! ## What a rounding stores -/

/-- One count of the rounding of `num / den`, multiplied by `den`. -/
def F64.roundStep (num den : Nat) : Nat := den * 2 ^ F64.dropBits num den

theorem F64.roundStep_pos {num den : Nat} (hd : 0 < den) : 0 < F64.roundStep num den :=
  Nat.mul_pos hd (Nat.two_pow_pos _)

theorem F64.mul_roundStep (n num den : Nat) :
    n * F64.roundStep num den = n * 2 ^ F64.dropBits num den * den := by
  rw [F64.roundStep]
  ring

/-- The count of steps that `roundMag` stores: the quotient, or one more past the middle (ties to even). -/
def F64.roundCount (num den : Nat) : Nat :=
  let d := F64.roundStep num den
  if 2 * (num % d) > d ∨ (2 * (num % d) = d ∧ num / d % 2 = 1) then num / d + 1 else num / d

theorem F64.roundMag_eq (num den : Nat) :
    F64.roundMag num den = F64.lowOf (F64.roundCount num den) (F64.dropBits num den) := rfl

theorem F64.roundMag_zero {den : Nat} (hd : 0 < den) : F64.roundMag 0 den = 0 := by
  have hk : F64.dropBits 0 den = 0 := by simp [F64.dropBits]
  simp [F64.roundMag, F64.lowOf, hk, hd.ne]

/-- The quotient in steps has at most 53 bits, and 53 of them unless the step is one unit. -/
theorem F64.quotient_bits (num den : Nat) :
    num / F64.roundStep num den < 2 ^ 53 ∧
    (2 ^ 52 ≤ num / F64.roundStep num den ∨ F64.dropBits num den = 0) := by
  rw [F64.roundStep, ← Nat.div_div_eq_div_mul]
  have hk : (num / den).log2 - 52 = F64.dropBits num den := rfl
  generalize F64.dropBits num den = k at hk ⊢
  constructor
  · rw [Nat.div_lt_iff_lt_mul (Nat.two_pow_pos _), ← pow_add]
    exact lt_of_lt_of_le Nat.lt_log2_self (Nat.pow_le_pow_right (by decide) (by omega))
  · rcases Nat.eq_zero_or_pos k with h0 | h0
    · exact .inr h0
    · have hne : num / den ≠ 0 := by
        intro h
        rw [h, Nat.log2_zero] at hk
        omega
      left
      rw [Nat.le_div_iff_mul_le (Nat.two_pow_pos _), ← pow_add]
      exact le_trans (Nat.pow_le_pow_right (by decide) (by omega)) (Nat.log2_self_le hne)

theorem F64.roundCount_bounds (num den : Nat) :
    num / F64.roundStep num den ≤ F64.roundCount num den ∧
    F64.roundCount num den ≤ num / F64.roundStep num den + 1 := by
  unfold F64.roundCount
  dsimp only
  split <;> omega

/-- A stored count that is finite has not reached the infinity. -/
theorem F64.lowOf_finite {neg : Bool} {n k : Nat} (h : (F64.pack neg (F64.lowOf n k)).isFinite = true) :
    k * 2 ^ 52 + n < F64.infLow := by
  by_contra hc
  have hl : F64.lowOf n k = F64.infLow := Nat.min_eq_right (Nat.le_of_not_lt hc)
  have hinf : (F64.pack neg F64.infLow).isFinite = false := by cases neg <;> decide
  rw [hl, hinf] at h
  cases h

/-- A finite rounded result: its sign, its magnitude in steps, and the last bit of its fraction. -/
theorem F64.roundMag_finite {neg : Bool} {num den : Nat}
    (h : (F64.pack neg (F64.roundMag num den)).isFinite = true) :
    (F64.pack neg (F64.roundMag num den)).sign = neg ∧
    (F64.pack neg (F64.roundMag num den)).mag = F64.roundCount num den * 2 ^ F64.dropBits num den ∧
    (F64.pack neg (F64.roundMag num den)).frac % 2 = F64.roundCount num den % 2 := by
  rw [F64.roundMag_eq] at h ⊢
  have hlow := F64.lowOf_finite h
  obtain ⟨hlt, hbits⟩ := F64.quotient_bits num den
  obtain ⟨hge, hle⟩ := F64.roundCount_bounds num den
  obtain ⟨-, hsign, hmag⟩ := F64.pack_lowOf neg (n := F64.roundCount num den) (k := F64.dropBits num den) (by omega)
    (hbits.imp_left fun h => le_trans h hge) hlow
  refine ⟨hsign, hmag, ?_⟩
  have hi : F64.infLow = 2047 * 2 ^ 52 := by decide
  have hl : F64.lowOf (F64.roundCount num den) (F64.dropBits num den) =
      F64.dropBits num den * 2 ^ 52 + F64.roundCount num den := Nat.min_eq_left (Nat.le_of_lt hlow)
  obtain ⟨-, -, hfrac, -⟩ := F64.pack_fields neg
    (low := F64.dropBits num den * 2 ^ 52 + F64.roundCount num den) (by omega)
  rw [hl, hfrac]
  omega

/-! ## No value lies between neighbours -/

/-- A binary64 magnitude is at most `n` steps of `2^k` units or at least `n + 1`, where `n` has 53 bits or the step is
one unit. -/
theorem F64.mag_gap (c : F64) {n k : Nat} (hn : 2 ^ 52 ≤ n ∨ k = 0) :
    c.mag ≤ n * 2 ^ k ∨ (n + 1) * 2 ^ k ≤ c.mag := by
  obtain ⟨m, j, hm, hc, -, -⟩ := c.mag_eq
  rw [hc]
  rcases Nat.lt_or_ge (n * 2 ^ k) (m * 2 ^ j) with hlt | hle
  · have hkj : k ≤ j := by
      rcases hn with hn | hn
      · have h1 : 2 ^ (52 + k) < 2 ^ (53 + j) := by
          rw [pow_add, pow_add]
          exact lt_of_le_of_lt (Nat.mul_le_mul_right _ hn)
            (lt_of_lt_of_le hlt (Nat.mul_le_mul_right _ (Nat.le_of_lt hm)))
        have h2 := (Nat.pow_lt_pow_iff_right (by decide)).mp h1
        omega
      · omega
    have hsplit : m * 2 ^ j = m * 2 ^ (j - k) * 2 ^ k := by
      rw [Nat.mul_assoc, ← pow_add, Nat.sub_add_cancel hkj]
    rw [hsplit] at hlt ⊢
    exact .inr (Nat.mul_le_mul_right _ (Nat.lt_of_mul_lt_mul_right hlt))
  · exact .inl hle

/-- The stored count is nearest among what lies outside the gap, and even where another is equally near. -/
theorem F64.roundCount_nearest {num den x : Nat} (hd : 0 < den)
    (hx : x ≤ num / F64.roundStep num den * F64.roundStep num den ∨
      (num / F64.roundStep num den + 1) * F64.roundStep num den ≤ x) :
    let y := F64.roundCount num den * F64.roundStep num den
    ((y : Int) - num).natAbs ≤ ((x : Int) - num).natAbs ∧
    (((y : Int) - num).natAbs = ((x : Int) - num).natAbs → x ≠ y → F64.roundCount num den % 2 = 0) := by
  have hd' := F64.roundStep_pos (num := num) hd
  unfold F64.roundCount
  dsimp only
  generalize F64.roundStep num den = d at hx hd' ⊢
  have hdiv := Nat.div_add_mod' num d
  have hmod := Nat.mod_lt num hd'
  rw [Nat.succ_mul] at hx
  split
  · rename_i hup
    rw [Nat.succ_mul]
    generalize num / d * d = a at hdiv hx ⊢
    omega
  · rename_i hdown
    generalize num / d * d = a at hdiv hx ⊢
    omega

/-- No binary64 magnitude is nearer to `num / den` units than the rounded one, both sides multiplied by `den`. -/
theorem F64.roundMag_nearest {neg : Bool} {num den : Nat} (hd : 0 < den)
    (h : (F64.pack neg (F64.roundMag num den)).isFinite = true) (c : F64) :
    let y := F64.pack neg (F64.roundMag num den)
    (((y.mag * den : Nat) : Int) - num).natAbs ≤ (((c.mag * den : Nat) : Int) - num).natAbs ∧
    ((((y.mag * den : Nat) : Int) - num).natAbs = (((c.mag * den : Nat) : Int) - num).natAbs → c.mag ≠ y.mag →
      y.frac % 2 = 0) := by
  obtain ⟨-, hmag, hfrac⟩ := F64.roundMag_finite h
  have hgap := F64.mag_gap c (F64.quotient_bits num den).2
  obtain ⟨hnear, htie⟩ := F64.roundCount_nearest (num := num) (x := c.mag * den) hd (by
    rw [F64.mul_roundStep, F64.mul_roundStep]
    exact hgap.imp (Nat.mul_le_mul_right den) (Nat.mul_le_mul_right den))
  rw [F64.mul_roundStep, ← hmag] at hnear htie
  refine ⟨hnear, fun heq hne => hfrac.trans (htie heq fun hxy => hne ?_)⟩
  exact Nat.eq_of_mul_eq_mul_right hd hxy

/-! ## Signs -/

/-- The integer of a sign and a magnitude. -/
def signed (neg : Bool) (n : Nat) : Int := if neg then -(n : Int) else (n : Int)

theorem F64.scaled_eq (x : F64) : x.scaled = signed x.sign x.mag := rfl

theorem two_pow_cast (n : Nat) : (2 : Int) ^ n = ((2 ^ n : Nat) : Int) := by push_cast; rfl

theorem signed_natAbs (neg : Bool) (n : Nat) : (signed neg n).natAbs = n := by
  cases neg <;> simp [signed]

theorem signed_mul (p q : Bool) (m n : Nat) : signed p m * signed q n = signed (p != q) (m * n) := by
  cases p <;> cases q <;> simp [signed]

theorem signed_mul_nat (p : Bool) (m n : Nat) : signed p m * (n : Int) = signed p (m * n) := by
  cases p <;> simp [signed]

/-- Two integers of one sign are as far apart as their magnitudes. -/
theorem signed_sub_natAbs (neg : Bool) (m n : Nat) : (signed neg m - signed neg n).natAbs = ((m : Int) - n).natAbs := by
  cases neg with
  | false => rfl
  | true => simp only [signed, if_true]; omega

/-- Two integers are at least as far apart as their magnitudes. -/
theorem natAbs_sub_natAbs_le (x y : Int) : ((x.natAbs : Int) - y.natAbs).natAbs ≤ (x - y).natAbs := by omega

/-- No finite value is nearer than a rounded result of the exact value's sign, both sides multiplied by `den`. -/
theorem F64.roundMag_nearest_signed {neg : Bool} {num den : Nat} (hd : 0 < den)
    (h : (F64.pack neg (F64.roundMag num den)).isFinite = true) (c : F64) :
    ((F64.pack neg (F64.roundMag num den)).scaled * den - signed neg num).natAbs ≤
      (c.scaled * den - signed neg num).natAbs := by
  have hsign := (F64.roundMag_finite h).1
  calc ((F64.pack neg (F64.roundMag num den)).scaled * den - signed neg num).natAbs
      = ((((F64.pack neg (F64.roundMag num den)).mag * den : Nat) : Int) - num).natAbs := by
        rw [F64.scaled_eq, hsign, signed_mul_nat, signed_sub_natAbs]
    _ ≤ (((c.mag * den : Nat) : Int) - num).natAbs := (F64.roundMag_nearest hd h c).1
    _ = (((c.scaled * den).natAbs : Int) - ((signed neg num).natAbs : Int)).natAbs := by
        rw [F64.scaled_eq, signed_mul_nat, signed_natAbs, signed_natAbs]
    _ ≤ (c.scaled * den - signed neg num).natAbs := natAbs_sub_natAbs_le _ _

/-! ## Addition -/

/-- A sum of finite values is the exact sum, rounded. -/
theorem F64.add_eq_pack {a b : F64} (ha : a.isFinite = true) (hb : b.isFinite = true) :
    ∃ neg, a.add b = F64.pack neg (F64.roundMag (a.scaled + b.scaled).natAbs 1) ∧
      a.scaled + b.scaled = signed neg (a.scaled + b.scaled).natAbs := by
  simp only [F64.add, F64.addAs, F64.isNaN_of_finite ha, F64.isNaN_of_finite hb, F64.isInf_of_finite ha,
    F64.isInf_of_finite hb, Bool.or_self, Bool.false_eq_true, if_false, F64.addFinite, F64.ofScaled]
  generalize a.scaled + b.scaled = i
  split
  · rename_i h0
    refine ⟨a.sign && b.sign, ?_, ?_⟩
    · rw [h0, Int.natAbs_zero, F64.roundMag_zero Nat.one_pos]
    · rw [h0, Int.natAbs_zero]
      cases a.sign && b.sign <;> rfl
  · refine ⟨decide (i < 0), rfl, ?_⟩
    by_cases hi : i < 0
    · simp only [signed, hi, decide_true, if_true]
      omega
    · simp only [signed, hi, decide_false, Bool.false_eq_true, if_false]
      omega

/-- A value that ties with the nearest one, which has the exact integer's sign, ties with it in magnitude. -/
theorem natAbs_tie {neg : Bool} {m n : Nat} {x : Int} (hzero : n = 0 → m = 0)
    (hnear : ((m : Int) - n).natAbs ≤ ((x.natAbs : Int) - n).natAbs)
    (htie : (signed neg m - signed neg n).natAbs = (x - signed neg n).natAbs) (hne : x ≠ signed neg m) :
    ((m : Int) - n).natAbs = ((x.natAbs : Int) - n).natAbs ∧ x.natAbs ≠ m := by
  cases neg <;> simp only [signed, if_true, if_false, Bool.false_eq_true] at htie hne <;> omega

/-- Settles O58: the result is nearest in magnitude, and of the exact sum's sign. -/
theorem additionRoundsToNearest : Obligations.AdditionRoundsToNearest := by
  intro a b c ha hb _ hab
  obtain ⟨neg, hadd, hexact⟩ := F64.add_eq_pack ha hb
  dsimp only
  rw [hadd] at hab ⊢
  generalize (a.scaled + b.scaled).natAbs = n at hab hexact ⊢
  rw [hexact]
  have hnear := F64.roundMag_nearest_signed Nat.one_pos hab c
  rw [Nat.cast_one, Int.mul_one, Int.mul_one] at hnear
  refine ⟨hnear, fun htie hne => ?_⟩
  obtain ⟨hmag, heven⟩ := F64.roundMag_nearest Nat.one_pos hab c
  rw [Nat.mul_one, Nat.mul_one] at hmag heven
  rw [F64.scaled_eq (F64.pack ..), (F64.roundMag_finite hab).1] at htie hne
  have hzero : n = 0 → (F64.pack neg (F64.roundMag n 1)).mag = 0 := by
    rintro rfl
    rw [F64.roundMag_zero Nat.one_pos]
    exact (F64.pack_zero_within neg 0).2.2
  obtain ⟨hdist, hother⟩ := natAbs_tie hzero (x := c.scaled) (by rwa [F64.scaled_eq, signed_natAbs]) htie hne
  rw [F64.scaled_eq c, signed_natAbs] at hdist hother
  exact heven hdist hother

/-! ## Product and quotient -/

/-- A product of finite values is the exact product, rounded. -/
theorem F64.mul_eq_pack {a b : F64} (ha : a.isFinite = true) (hb : b.isFinite = true) :
    a.mul b = F64.pack (a.sign != b.sign) (F64.roundMag (a.mag * b.mag) (2 ^ 1074)) := by
  simp only [F64.mul, F64.isNaN_of_finite ha, F64.isNaN_of_finite hb, F64.isInf_of_finite ha,
    F64.isInf_of_finite hb, Bool.or_self, Bool.false_eq_true, if_false]
  split
  · rename_i hz
    have h0 : a.mag * b.mag = 0 := by
      rw [Bool.or_eq_true, F64.isZero_iff, F64.isZero_iff] at hz
      exact Nat.mul_eq_zero.mpr hz
    rw [h0, F64.roundMag_zero (Nat.two_pow_pos _)]
  · rfl

/-- A quotient of finite values, the divisor not 0, is the exact quotient, rounded. -/
theorem F64.div_eq_pack {a b : F64} (ha : a.isFinite = true) (hb : b.isFinite = true) (hz : b.isZero = false) :
    a.div b = F64.pack (a.sign != b.sign) (F64.roundMag (a.mag * 2 ^ 1074) b.mag) := by
  simp only [F64.div, F64.isNaN_of_finite ha, F64.isNaN_of_finite hb, F64.isInf_of_finite ha,
    F64.isInf_of_finite hb, hz, Bool.or_self, Bool.false_eq_true, if_false]
  split
  · rename_i h0
    have hpos : 0 < b.mag := Nat.pos_of_ne_zero fun h => by simp [(F64.isZero_iff b).mpr h] at hz
    rw [(F64.isZero_iff a).mp h0, Nat.zero_mul, F64.roundMag_zero hpos]
  · rfl

/-- The distance to a quotient, multiplied by the divisor, whose sign does not matter. -/
theorem F64.natAbs_quotient (x : Int) (a b : F64) (u : Nat) :
    (x * b.scaled - a.scaled * u).natAbs = (x * b.mag - signed (a.sign != b.sign) (a.mag * u)).natAbs := by
  rw [F64.scaled_eq a, F64.scaled_eq b, signed_mul_nat]
  cases b.sign with
  | false => rw [Bool.bne_false]; rfl
  | true =>
    have hneg : signed (a.sign != true) (a.mag * u) = -signed a.sign (a.mag * u) := by
      cases a.sign <;> simp [signed]
    rw [hneg, ← Int.natAbs_neg]
    congr 1
    simp only [signed, if_true]
    ring

/-- Settles O59: the results are nearest in magnitude, and of the exact result's sign. -/
theorem productAndQuotientRoundToNearest : Obligations.ProductAndQuotientRoundToNearest := by
  intro a b c ha hb _
  rw [two_pow_cast 1074]
  refine ⟨fun hmul => ?_, fun hz hdiv => ?_⟩
  · rw [F64.mul_eq_pack ha hb] at hmul ⊢
    rw [F64.scaled_eq a, F64.scaled_eq b, signed_mul]
    exact F64.roundMag_nearest_signed (Nat.two_pow_pos _) hmul c
  · have hpos : 0 < b.mag := Nat.pos_of_ne_zero fun h => by simp [(F64.isZero_iff b).mpr h] at hz
    rw [F64.div_eq_pack ha hb hz] at hdiv ⊢
    rw [F64.natAbs_quotient, F64.natAbs_quotient]
    exact F64.roundMag_nearest_signed hpos hdiv c

end Sys2Proof

/-! PROOFS. The hyperbolic tangent (O60): faithful rounding never passes 1, which is representable, and keeps the sign it
is given. -/

namespace Sys2Proof

/-! ## Faithful rounding below 1 -/

/-- The 63 low bits of 1. -/
theorem F64.one_fields : F64.one.low63 = 1023 * 2 ^ 52 ∧ F64.one.sign = false ∧ F64.one.isNaN = false ∧
    F64.one.mag = F64.unit := by decide +kernel

/-- A stored count of at most 1 is not above the pattern of 1. -/
theorem F64.lowOf_le_one {n k : Nat} (hn : n ≤ 2 ^ 53) (hk : 2 ^ 52 ≤ n ∨ k = 0) (h : n * 2 ^ k ≤ 2 ^ 1074) :
    F64.lowOf n k ≤ 1023 * 2 ^ 52 := by
  refine le_trans (Nat.min_le_left _ _) ?_
  rcases hk with hk | rfl
  · have h1 : 2 ^ (52 + k) ≤ 2 ^ 1074 := by
      rw [pow_add]
      exact le_trans (Nat.mul_le_mul_right _ hk) h
    have h2 : k ≤ 1022 := by
      have := (Nat.pow_le_pow_iff_right (by decide)).mp h1
      omega
    rcases Nat.lt_or_ge k 1022 with h3 | h3
    · omega
    · have h4 : 2 ^ 1074 = 2 ^ 52 * 2 ^ k := by rw [← pow_add]; exact two_pow_congr (by omega)
      have h5 : n ≤ 2 ^ 52 := Nat.le_of_mul_le_mul_right (h.trans_eq h4) (Nat.two_pow_pos _)
      omega
  · omega

/-- The counts below and above a quotient of at most 1 are at most 1, the one above where the quotient is no count. -/
theorem F64.quotient_le_one {num den : Nat} (hd : 0 < den) (h : num ≤ den) :
    num * F64.unit / F64.roundStep (num * F64.unit) den * 2 ^ F64.dropBits (num * F64.unit) den ≤
      F64.unit ∧
    (num * F64.unit % F64.roundStep (num * F64.unit) den ≠ 0 →
      (num * F64.unit / F64.roundStep (num * F64.unit) den + 1) * 2 ^ F64.dropBits (num * F64.unit) den ≤
        F64.unit) := by
  have hle : num * F64.unit ≤ den * F64.unit := Nat.mul_le_mul_right _ h
  have hgap := F64.mag_gap F64.one (F64.quotient_bits (num * F64.unit) den).2
  rw [F64.one_fields.2.2.2] at hgap
  generalize num * F64.unit = x at hle hgap ⊢
  have hdiv := Nat.div_add_mod' x (F64.roundStep x den)
  rw [F64.mul_roundStep, Nat.mul_comm _ den] at hdiv
  refine ⟨Nat.le_of_mul_le_mul_left (by omega) hd, fun hrem => hgap.resolve_left fun hc => ?_⟩
  have := Nat.mul_le_mul_left den hc
  omega

/-- Rounding towards zero a quotient of at most 1. -/
theorem F64.roundMagDown_le_one {num den : Nat} (hd : 0 < den) (h : num ≤ den) :
    F64.roundMagDown (num * F64.unit) den ≤ 1023 * 2 ^ 52 := by
  obtain ⟨hlt, hbits⟩ := F64.quotient_bits (num * F64.unit) den
  exact le_trans (Nat.min_le_left _ _) (F64.lowOf_le_one (Nat.le_of_lt hlt) hbits (F64.quotient_le_one hd h).1)

/-- Rounding away from zero a quotient of at most 1. -/
theorem F64.roundMagUp_le_one {num den : Nat} (hd : 0 < den) (h : num ≤ den) :
    F64.roundMagUp (num * F64.unit) den ≤ 1023 * 2 ^ 52 := by
  obtain ⟨hlt, hbits⟩ := F64.quotient_bits (num * F64.unit) den
  obtain ⟨hdown, hup⟩ := F64.quotient_le_one hd h
  unfold F64.roundMagUp
  dsimp only
  split
  · exact F64.lowOf_le_one (Nat.le_of_lt hlt) hbits hdown
  · rename_i hrem
    exact F64.lowOf_le_one hlt (hbits.imp_left Nat.le_succ_of_le) (hup hrem)

/-- Bounds of a magnitude of at most 1. -/
structure Bounds.AtMostOne (b : Bounds) : Prop where
  loPos : 0 < b.loD
  hiPos : 0 < b.hiD
  loLe : b.loN ≤ b.loD
  hiLe : b.hiN ≤ b.hiD

/-- Whichever neighbour is returned, its pattern is that of the sign given and of a magnitude of at most 1. -/
theorem F64.faithful_eq_pack (op : FOp) (x : F64) {b : Bounds} (hb : b.AtMostOne) :
    ∃ low ≤ 1023 * 2 ^ 52, ∀ neg, F64.faithful op x neg b = F64.pack neg low := by
  unfold F64.faithful
  cases Config.roundsAway op x with
  | true => exact ⟨_, F64.roundMagUp_le_one hb.hiPos hb.hiLe, fun _ => rfl⟩
  | false => exact ⟨_, F64.roundMagDown_le_one hb.loPos hb.loLe, fun _ => rfl⟩

theorem F64.abs_pack_le_one (neg : Bool) {low : Nat} (h : low ≤ 1023 * 2 ^ 52) :
    (F64.pack neg low).abs.le F64.one = true := by
  obtain ⟨hone, hsign, hnan, -⟩ := F64.one_fields
  obtain ⟨-, -, -, hlow⟩ := F64.pack_fields neg (low := low) (by omega)
  obtain ⟨hs, he, -, hl⟩ := F64.pack_fields false (low := low) (by omega)
  have hn : (F64.pack false low).isNaN = false := F64.isNaN_of_finite (by
    rw [F64.isFinite, he, bne_iff_ne]
    omega)
  rw [F64.abs, hlow, F64.le, hn, hnan, F64.order, F64.order, hs, hl, hsign, hone]
  simp only [Bool.not_false, Bool.true_and, Bool.false_eq_true, if_false, decide_eq_true_eq]
  omega

/-! ## Negation -/

theorem F64.neg_pack (neg : Bool) {low : Nat} (h : low < 2 ^ 63) : (F64.pack neg low).neg = F64.pack (!neg) low := by
  obtain ⟨hs, -, -, hl⟩ := F64.pack_fields neg h
  rw [F64.neg, hs, hl]

/-- A negation differs in its sign only. -/
theorem F64.neg_low (x : F64) : x.neg.low63 = x.low63 ∧ x.neg.expField = x.expField ∧ x.neg.frac = x.frac := by
  have hf := x.frac_lt
  obtain ⟨-, he, hfr, hl⟩ := F64.pack_fields (!x.sign) (low := x.low63) (Nat.mod_lt _ (by decide))
  exact ⟨hl, he.trans (by rw [F64.low63_eq]; omega), hfr.trans (by rw [F64.low63_eq]; omega)⟩

theorem F64.neg_class (x : F64) : x.neg.isNaN = x.isNaN ∧ x.neg.isInf = x.isInf ∧ x.neg.isZero = x.isZero ∧
    x.neg.abs = x.abs := by
  obtain ⟨hl, he, hf⟩ := x.neg_low
  simp only [F64.isNaN, F64.isInf, F64.isZero, F64.abs, hl, he, hf, and_self]

/-! ## The hyperbolic tangent (00_scope.md rule R16) -/

/-- The bounds of the three ranges of the argument: `a - a^3/3` and `a` for a small one, 1 for a large one, and
`(e - 1)/(e + 1)` between. -/
theorem tanhBounds_atMostOne (m : Nat) : (tanhBounds m).AtMostOne := by
  have hu : 0 < F64.unit := Nat.two_pow_pos _
  unfold tanhBounds
  split
  · rename_i hsmall
    have hm : m ≤ F64.unit := by omega
    refine ⟨by positivity, hu, ?_, hm⟩
    calc m * (3 * F64.unit * F64.unit - m * m) ≤ F64.unit * (3 * F64.unit * F64.unit) :=
          Nat.mul_le_mul hm (Nat.sub_le _ _)
      _ = 3 * F64.unit * F64.unit * F64.unit := Nat.mul_comm _ _
  · split
    · exact ⟨Nat.two_pow_pos _, Nat.one_pos, Nat.sub_le _ _, Nat.le_refl _⟩
    · have hone : 0 < fixOne := Nat.two_pow_pos _
      dsimp only
      exact ⟨Nat.add_pos_right _ hone, Nat.add_pos_right _ hone, by dsimp only; omega, by dsimp only; omega⟩

/-- `F_tanh` of a value that is not 0 and no NaN is a pattern whose magnitude rests on the argument's magnitude only. -/
theorem fTanh_eq_faithful {x : F64} (hn : x.isNaN = false) (hz : x.isZero = false) :
    fTanh x = F64.faithful .tanh x.abs x.sign (tanhBounds (if x.isInf then 32 * F64.unit else x.mag)) := by
  simp only [fTanh, hn, hz, Bool.false_eq_true, if_false]

theorem fTanh_zero {x : F64} (hn : x.isNaN = false) (hz : x.isZero = true) : fTanh x = x := by
  simp only [fTanh, hn, hz, Bool.false_eq_true, if_false, if_true]

theorem fTanh_neg {x : F64} (hn : x.isNaN = false) : fTanh x.neg = (fTanh x).neg := by
  obtain ⟨cnan, cinf, czero, cabs⟩ := x.neg_class
  cases hz : x.isZero with
  | true => rw [fTanh_zero hn hz, fTanh_zero (cnan.trans hn) (czero.trans hz)]
  | false =>
    obtain ⟨hsign, hmag, -⟩ := x.neg_fields
    rw [fTanh_eq_faithful hn hz, fTanh_eq_faithful (cnan.trans hn) (czero.trans hz), cabs, cinf, hsign, hmag]
    obtain ⟨low, hlow, hpack⟩ := F64.faithful_eq_pack .tanh x.abs
      (tanhBounds_atMostOne (if x.isInf then 32 * F64.unit else x.mag))
    rw [hpack, hpack, F64.neg_pack _ (by omega)]

theorem fTanh_abs_le_one {x : F64} (hn : x.isNaN = false) : (fTanh x).abs.le F64.one = true := by
  cases hz : x.isZero with
  | true =>
    have h0 : x.low63 = 0 := by simpa [F64.isZero] using hz
    have hx : x = F64.pack x.sign 0 := F64.ext_low (F64.pack_fields x.sign (by decide)).1.symm
      (h0.trans (F64.pack_fields x.sign (by decide)).2.2.2.symm)
    rw [fTanh_zero hn hz, hx]
    exact F64.abs_pack_le_one _ (Nat.zero_le _)
  | false =>
    obtain ⟨low, hlow, hpack⟩ := F64.faithful_eq_pack .tanh x.abs
      (tanhBounds_atMostOne (if x.isInf then 32 * F64.unit else x.mag))
    rw [fTanh_eq_faithful hn hz, hpack]
    exact F64.abs_pack_le_one _ hlow

/-- `F_exp` of either zero is 1, with no rounding (rule R16). -/
theorem fExp_zero {x : F64} (hn : x.isNaN = false) (hi : x.isInf = false) (hz : x.isZero = true) :
    fExp x = F64.one := by
  simp only [fExp, hn, hi, hz, Bool.false_eq_true, if_false, if_true]

/-- Settles O60. -/
theorem tanhIsOddAndBounded : Obligations.TanhIsOddAndBounded :=
  ⟨fun _ hn => ⟨fTanh_neg hn, fTanh_abs_le_one hn⟩, fExp_zero (by decide) (by decide) (by decide),
    fExp_zero (by decide) (by decide) (by decide)⟩

end Sys2Proof

/-! PROOFS. The event heap (O34): what a swap does to the ticks, what sifting repairs, and what a pop leaves. -/

namespace Sys2Proof.Machine

/-! ## Ticks and entries -/

theorem tickAt_getElem {h : List Event} {k : Nat} (hk : k < h.length) : tickAt h k = h[k].t.toNat := by
  simp [tickAt, hk]

theorem tickAt_append_left {h : List Event} {k : Nat} (hk : k < h.length) (l : List Event) :
    tickAt (h ++ l) k = tickAt h k := by
  simp [tickAt, List.getElem?_append_left hk]

theorem swapAt_eq {h : List Event} {i j : Nat} (hi : i < h.length) (hj : j < h.length) :
    swapAt h i j = (h.set i h[j]).set j h[i] := by
  simp [swapAt, hi, hj]

theorem swapAt_perm (h : List Event) (i j : Nat) : (swapAt h i j).Perm h := by
  by_cases hij : i < h.length ∧ j < h.length
  · rw [swapAt_eq hij.1 hij.2]
    exact List.set_set_perm hij.1 hij.2
  · have hs : swapAt h i j = h := by
      unfold swapAt
      split
      · rename_i hi hj
        exact absurd ⟨(List.getElem?_eq_some_iff.mp hi).1, (List.getElem?_eq_some_iff.mp hj).1⟩ hij
      · rfl
    rw [hs]

theorem tickAt_swapAt {h : List Event} {i j : Nat} (hi : i < h.length) (hj : j < h.length) (k : Nat) :
    tickAt (swapAt h i j) k = if k = i then tickAt h j else if k = j then tickAt h i else tickAt h k := by
  rw [tickAt, swapAt_eq hi hj, List.getElem?_set, List.getElem?_set, tickAt_getElem hi, tickAt_getElem hj]
  by_cases hki : k = i
  · subst hki
    by_cases hkj : j = k <;> simp [hkj, hi]
  · by_cases hkj : k = j
    · subst hkj
      simp [hki, hj]
    · simp [hki, hkj, tickAt, Ne.symm hki, Ne.symm hkj]

/-! ## Sifting -/

/-- The parent of entry `k` is at most each of its children: what a heap that is out of order at `k` keeps across it. -/
def BridgedAt (h : List Event) (k : Nat) : Prop :=
  ∀ c, c < h.length → 0 < k → 0 < c → (c - 1) / 2 = k → tickAt h ((k - 1) / 2) ≤ tickAt h c

/-- In heap order, but for entry `k` against its parent. -/
structure OrderedButUp (h : List Event) (k : Nat) : Prop where
  others : ∀ c, c < h.length → 0 < c → c ≠ k → tickAt h ((c - 1) / 2) ≤ tickAt h c
  bridged : BridgedAt h k

/-- In heap order, but for entry `k` against its children. -/
structure OrderedButDown (h : List Event) (k : Nat) : Prop where
  others : ∀ c, c < h.length → 0 < c → (c - 1) / 2 ≠ k → tickAt h ((c - 1) / 2) ≤ tickAt h c
  bridged : BridgedAt h k

/-- Exchanging an entry with its larger parent moves the place that is out of order up. -/
theorem OrderedButUp.swap {h : List Event} {k : Nat} (ho : OrderedButUp h k) (hk : k < h.length) (h0 : 0 < k)
    (hgt : tickAt h k < tickAt h ((k - 1) / 2)) : OrderedButUp (swapAt h ((k - 1) / 2) k) ((k - 1) / 2) := by
  obtain ⟨hoth, hbr⟩ := ho
  have hp : (k - 1) / 2 < h.length := by omega
  have hpk : k ≠ (k - 1) / 2 := by omega
  constructor
  · intro c hc hc0 hcp
    rw [swapAt_length] at hc
    rw [tickAt_swapAt hp hk, tickAt_swapAt hp hk, if_neg hcp]
    by_cases hck : c = k
    · rw [hck, if_pos rfl, if_pos rfl]
      exact Nat.le_of_lt hgt
    · have hc1 := hoth c hc hc0 hck
      rw [if_neg hck]
      split_ifs with hparent hchild
      · rw [hparent] at hc1
        exact Nat.le_trans (Nat.le_of_lt hgt) hc1
      · exact hbr c hc h0 hc0 hchild
      · exact hc1
  · intro c hc hp0 hc0 hcp
    rw [swapAt_length] at hc
    have hp1 := hoth _ hp hp0 hpk.symm
    rw [tickAt_swapAt hp hk, tickAt_swapAt hp hk, if_neg (show ((k - 1) / 2 - 1) / 2 ≠ (k - 1) / 2 by omega),
      if_neg (show ((k - 1) / 2 - 1) / 2 ≠ k by omega), if_neg (show c ≠ (k - 1) / 2 by omega)]
    split_ifs with hck
    · exact hp1
    · have hc1 := hoth c hc hc0 hck
      rw [hcp] at hc1
      exact Nat.le_trans hp1 hc1

theorem siftUp_perm (fuel : Nat) (h : List Event) (k : Nat) : (siftUp fuel h k).Perm h := by
  induction fuel generalizing h k with
  | zero => exact .refl h
  | succ fuel ih =>
    unfold siftUp
    split
    · exact .refl h
    · dsimp only
      split
      · exact (ih _ _).trans (swapAt_perm h _ _)
      · exact .refl h

/-- Sifting up restores the order, with more turns than there are entries above. -/
theorem siftUp_ordered {fuel : Nat} {h : List Event} {k : Nat} (hf : k < fuel) (hk : k < h.length)
    (ho : OrderedButUp h k) : HeapOrdered (siftUp fuel h k) := by
  induction fuel generalizing h k with
  | zero => omega
  | succ fuel ih =>
    unfold siftUp
    split
    · rename_i h0
      exact fun c hc hc0 => ho.others c hc hc0 (by omega)
    · rename_i h0
      dsimp only
      split
      · rename_i hgt
        exact ih (by omega) (by rw [swapAt_length]; omega) (ho.swap hk (by omega) hgt)
      · rename_i hle
        intro c hc hc0
        by_cases hck : c = k
        · rw [hck]
          exact Nat.le_of_not_lt hle
        · exact ho.others c hc hc0 hck

/-- The smaller child is a child, and neither child is smaller. -/
theorem smallerChild_spec {h : List Event} {k : Nat} (hk : 2 * k + 1 < h.length) :
    smallerChild h k < h.length ∧ (smallerChild h k - 1) / 2 = k ∧ k < smallerChild h k ∧
    ∀ c, c < h.length → 0 < c → (c - 1) / 2 = k → tickAt h (smallerChild h k) ≤ tickAt h c := by
  have hchild : ∀ c, 0 < c → (c - 1) / 2 = k → c = 2 * k + 1 ∨ c = 2 * k + 2 := by omega
  unfold smallerChild
  split
  · rename_i hright
    refine ⟨hright.1, by omega, by omega, fun c hc hc0 hck => ?_⟩
    rcases hchild c hc0 hck with rfl | rfl
    · exact Nat.le_of_lt hright.2
    · exact Nat.le_refl _
  · rename_i hleft
    refine ⟨hk, by omega, by omega, fun c hc hc0 hck => ?_⟩
    rcases hchild c hc0 hck with rfl | rfl
    · exact Nat.le_refl _
    · exact Nat.le_of_not_lt fun hlt => hleft ⟨hc, hlt⟩

/-- Exchanging an entry with its smaller child, if that is below it, moves the place that is out of order down. -/
theorem OrderedButDown.swap {h : List Event} {k m : Nat} (ho : OrderedButDown h k) (hm : m < h.length)
    (hmk : (m - 1) / 2 = k) (hkm : k < m)
    (hmin : ∀ c, c < h.length → 0 < c → (c - 1) / 2 = k → tickAt h m ≤ tickAt h c)
    (hlt : tickAt h m < tickAt h k) : OrderedButDown (swapAt h m k) m := by
  obtain ⟨hoth, hbr⟩ := ho
  have hk : k < h.length := by omega
  constructor
  · intro c hc hc0 hcm
    rw [swapAt_length] at hc
    rw [tickAt_swapAt hm hk, tickAt_swapAt hm hk, if_neg hcm]
    by_cases hck : c = k
    · subst hck
      rw [if_neg (show (c - 1) / 2 ≠ c by omega), if_neg (show c ≠ m by omega), if_pos rfl]
      exact hbr m hm hc0 (by omega) hmk
    · rw [if_neg hck]
      split_ifs with hparent hcm' hcm'
      · exact Nat.le_of_lt hlt
      · exact hmin c hc hc0 hparent
      · rw [hcm', hmk] at hparent
        exact absurd rfl hparent
      · exact hoth c hc hc0 hparent
  · intro c hc hm0 hc0 hcm
    rw [swapAt_length] at hc
    rw [tickAt_swapAt hm hk, tickAt_swapAt hm hk, hmk, if_neg (show k ≠ m by omega), if_pos rfl,
      if_neg (show c ≠ m by omega), if_neg (show c ≠ k by omega), ← hcm]
    exact hoth c hc hc0 (by omega)

theorem siftDown_perm (fuel : Nat) (h : List Event) (k : Nat) : (siftDown fuel h k).Perm h := by
  induction fuel generalizing h k with
  | zero => exact .refl h
  | succ fuel ih =>
    unfold siftDown
    split
    · exact .refl h
    · dsimp only
      split
      · exact (ih _ _).trans (swapAt_perm h _ _)
      · exact .refl h

/-- An entry without children is not out of order against them. -/
theorem OrderedButDown.of_leaf {h : List Event} {k : Nat} (ho : OrderedButDown h k) (hk : h.length ≤ 2 * k + 1) :
    HeapOrdered h :=
  fun c hc hc0 => ho.others c hc hc0 (by omega)

/-- Sifting down restores the order, with as many turns as there are entries from the first on. -/
theorem siftDown_ordered {fuel : Nat} {h : List Event} {k : Nat} (hf : h.length ≤ k + fuel)
    (ho : OrderedButDown h k) : HeapOrdered (siftDown fuel h k) := by
  induction fuel generalizing h k with
  | zero => exact ho.of_leaf (by omega)
  | succ fuel ih =>
    unfold siftDown
    split
    · rename_i hleaf
      exact ho.of_leaf hleaf
    · rename_i hinner
      obtain ⟨hm, hmk, hkm, hmin⟩ := smallerChild_spec (h := h) (k := k) (by omega)
      dsimp only
      split
      · rename_i hlt
        exact ih (by rw [swapAt_length]; omega) (ho.swap hm hmk hkm hmin hlt)
      · rename_i hle
        intro c hc hc0
        by_cases hck : (c - 1) / 2 = k
        · rw [hck]
          exact Nat.le_trans (Nat.le_of_not_lt hle) (hmin c hc hc0 hck)
        · exact ho.others c hc hc0 hck

/-! ## Insert and shift (46_scheduler.md rule R330) -/

theorem heapInsert_perm (h : List Event) (e : Event) : (heapInsert h e).Perm (e :: h) :=
  (siftUp_perm _ _ _).trans List.perm_append_comm

theorem heapInsert_ordered {h : List Event} (ho : HeapOrdered h) (e : Event) : HeapOrdered (heapInsert h e) := by
  refine siftUp_ordered (Nat.lt_succ_self _) (by simp) ⟨fun c hc hc0 hck => ?_, fun c hc _ _ hck => ?_⟩
  · rw [List.length_append, List.length_singleton] at hc
    rw [tickAt_append_left (by omega), tickAt_append_left (by omega)]
    exact ho c (by omega) hc0
  · rw [List.length_append, List.length_singleton] at hc
    omega

/-- The root of a heap in order has the smallest tick. -/
theorem HeapOrdered.root_le {h : List Event} (ho : HeapOrdered h) (k : Nat) (hk : k < h.length) :
    tickAt h 0 ≤ tickAt h k := by
  induction k using Nat.strong_induction_on with
  | h k ih =>
    rcases Nat.eq_zero_or_pos k with rfl | h0
    · exact Nat.le_refl _
    · exact Nat.le_trans (ih ((k - 1) / 2) (by omega) (by omega)) (ho k hk h0)

/-- A shift takes the root, puts the last entry in its place and sifts it down. -/
theorem heapShift_eq {h rest : List Event} {e : Event} (hs : heapShift h = some (e, rest)) :
    h = [e] ∧ rest = [] ∨
    ∃ init last, h = e :: (init ++ [last]) ∧ rest = siftDown (init ++ [last]).length (last :: init) 0 := by
  cases h with
  | nil => cases hs
  | cons a l =>
    unfold heapShift at hs
    rcases List.eq_nil_or_concat l with rfl | ⟨init, last, rfl⟩
    · cases hs
      exact .inl ⟨rfl, rfl⟩
    · rw [List.concat_eq_append] at hs ⊢
      simp only [List.getLast?_concat, List.dropLast_concat, Option.some.injEq, Prod.mk.injEq] at hs
      obtain ⟨rfl, rfl⟩ := hs
      exact .inr ⟨init, last, rfl, rfl⟩

theorem heapShift_head {h rest : List Event} {e : Event} (hs : heapShift h = some (e, rest)) : h[0]? = some e := by
  rcases heapShift_eq hs with ⟨rfl, -⟩ | ⟨init, last, rfl, -⟩ <;> rfl

theorem heapShift_perm {h rest : List Event} {e : Event} (hs : heapShift h = some (e, rest)) :
    h.Perm (e :: rest) := by
  rcases heapShift_eq hs with ⟨rfl, rfl⟩ | ⟨init, last, rfl, rfl⟩
  · exact .refl _
  · exact ((siftDown_perm _ _ _).trans (List.perm_append_comm (l₁ := [last]))).symm.cons e

theorem heapShift_ordered {h rest : List Event} {e : Event} (ho : HeapOrdered h)
    (hs : heapShift h = some (e, rest)) : HeapOrdered rest := by
  rcases heapShift_eq hs with ⟨-, rfl⟩ | ⟨init, last, rfl, rfl⟩
  · exact fun c hc => absurd hc (Nat.not_lt_zero c)
  · refine siftDown_ordered (by simp) ⟨fun c hc hc0 hck => ?_, fun c _ h0 => absurd h0 (Nat.lt_irrefl 0)⟩
    have htick : ∀ j, 0 < j → j < init.length + 1 →
        tickAt (last :: init) j = tickAt (e :: (init ++ [last])) j := by
      intro j hj0 hj
      obtain ⟨i, rfl⟩ := Nat.exists_eq_succ_of_ne_zero hj0.ne'
      exact (tickAt_append_left (by omega) [last]).symm
    rw [List.length_cons] at hc
    rw [htick c hc0 hc, htick _ (by omega) (by omega)]
    exact ho c (by simp; omega) hc0

theorem heapShift_min {h rest : List Event} {e : Event} (ho : HeapOrdered h) (hs : heapShift h = some (e, rest)) :
    ∀ x ∈ h, e.t.toNat ≤ x.t.toNat := by
  intro x hx
  obtain ⟨k, hk, rfl⟩ := List.getElem_of_mem hx
  have hroot : tickAt h 0 = e.t.toNat := by simp [tickAt, heapShift_head hs]
  rw [← hroot, ← tickAt_getElem hk]
  exact ho.root_le k hk

/-- Settles O34. -/
theorem heapOperationsKeepOrder : Obligations.HeapOperationsKeepOrder :=
  ⟨fun h e ho => ⟨heapInsert_ordered ho e, heapInsert_perm h e⟩,
    fun _ _ _ ho hs => ⟨heapShift_head hs, heapShift_min ho hs, heapShift_ordered ho hs, heapShift_perm hs⟩⟩

/-! ## The pop of rule R331 -/

theorem mem_minEntries {h : List Event} {k : Nat} : k ∈ minEntries h ↔ k < h.length ∧ tickAt h k = tickAt h 0 := by
  simp [minEntries]

/-- Exchanging two entries of one tick changes no tick. -/
theorem tickAt_swapAt_of_eq {h : List Event} {i j : Nat} (hi : i < h.length) (hj : j < h.length)
    (he : tickAt h i = tickAt h j) (k : Nat) : tickAt (swapAt h i j) k = tickAt h k := by
  rw [tickAt_swapAt hi hj]
  split_ifs with hki hkj
  · rw [hki, he]
  · rw [hkj, he]
  · rfl

/-- A pop from a heap in order, in both settings of `EQ_TICK_ORDER`, is the shift of a heap in order that holds the same
events. -/
theorem popEvent_shift {s t : State} {e : Event} (ho : HeapOrdered s.heap) (hp : popEvent s = some (e, t)) :
    ∃ h, HeapOrdered h ∧ h.Perm s.heap ∧ heapShift h = some (e, t.heap) := by
  unfold popEvent at hp
  dsimp only at hp
  split at hp
  · rename_i hany
    generalize hm : (minEntries s.heap).getD (Config.eqTickPick s.draws % (minEntries s.heap).length) 0 = m at hp
    have hmem : m ∈ minEntries s.heap := by
      rw [← hm, List.getD_eq_getElem _ _ (Nat.mod_lt _ (by omega))]
      exact List.getElem_mem _
    obtain ⟨hlen, htick⟩ := mem_minEntries.mp hmem
    have hsame := tickAt_swapAt_of_eq (h := s.heap) (i := 0) (by omega) hlen htick.symm
    split at hp
    · rename_i hs
      cases hp
      refine ⟨_, fun k hk h0 => ?_, swapAt_perm _ _ _, hs⟩
      rw [hsame, hsame]
      exact ho k (by simpa using hk) h0
    · cases hp
  · split at hp
    · rename_i hs
      cases hp
      exact ⟨s.heap, ho, .refl _, hs⟩
    · cases hp

theorem popEvent_ordered {s t : State} {e : Event} (ho : HeapOrdered s.heap) (hp : popEvent s = some (e, t)) :
    HeapOrdered t.heap := by
  obtain ⟨h, hoh, -, hs⟩ := popEvent_shift ho hp
  exact heapShift_ordered hoh hs

theorem popEvent_perm {s t : State} {e : Event} (ho : HeapOrdered s.heap) (hp : popEvent s = some (e, t)) :
    s.heap.Perm (e :: t.heap) := by
  obtain ⟨h, -, hperm, hs⟩ := popEvent_shift ho hp
  exact hperm.symm.trans (heapShift_perm hs)

end Sys2Proof.Machine

/-! PROOFS. The noise register (O37): the bits of a step, and that they determine the register stepped. -/

namespace Sys2Proof.Machine

theorem lfsrStep_bit_zero (a : BitVec 23) : (lfsrStep a).getLsbD 0 = (a.getLsbD 22 ^^ a.getLsbD 17) := by
  simp [lfsrStep]

theorem lfsrStep_bit_succ (a : BitVec 23) {k : Nat} (hk : k < 22) : (lfsrStep a).getLsbD (k + 1) = a.getLsbD k := by
  have hlt : k + 1 < 23 := by omega
  simp [lfsrStep, hlt, BitVec.getLsbD_eq_getElem (show k < 23 by omega)]

/-- The step shifts 22 bits on; the lost one is recovered from the feedback and bit 17. -/
theorem lfsrStep_injective {a b : BitVec 23} (h : lfsrStep a = lfsrStep b) : a = b := by
  have hlow : ∀ k, k < 22 → a.getLsbD k = b.getLsbD k := fun k hk => by
    rw [← lfsrStep_bit_succ a hk, h, lfsrStep_bit_succ b hk]
  have htop : a.getLsbD 22 = b.getLsbD 22 := by
    have hxor := congrArg (·.getLsbD 0) h
    simp only [lfsrStep_bit_zero, hlow 17 (by decide)] at hxor
    exact Bool.xor_left_inj.mp hxor
  refine BitVec.eq_of_getLsbD_eq fun k hk => ?_
  rcases Nat.lt_or_ge k 22 with hk22 | hk22
  · exact hlow k hk22
  · rw [show k = 22 by omega, htop]

theorem lfsrStep_zero : lfsrStep 0 = 0 := by decide

theorem lfsrStep_ne_zero {a : BitVec 23} (ha : a ≠ 0) : lfsrStep a ≠ 0 :=
  fun h => ha (lfsrStep_injective (h.trans lfsrStep_zero.symm))

/-- Settles O37. -/
theorem noiseRegisterNeverZero : Obligations.NoiseRegisterNeverZero :=
  ⟨fun _ _ => lfsrStep_injective, lfsrStep_zero, fun _ => lfsrStep_ne_zero,
    fun a => ⟨lfsrStep_bit_zero a, fun _ => lfsrStep_bit_succ a⟩⟩

end Sys2Proof.Machine

/-! PROOFS. The pull (O53), the register map (O47, O48) and reset (O46). -/

namespace Sys2Proof.Machine

/-! ## The pull (47_engine.md rule R363) -/

theorem receivePull_refused {s : State} (h : s.faulted = true ∨ s.tablesReady = false) :
    receivePull s = .next { s with reply := .pullRefused } := by
  rcases h with h | h <;> simp [receivePull, h]

theorem receivePull_taken {s : State} (hf : s.faulted = false) (ht : s.tablesReady = true) (hp : s.pull = false) :
    receivePull s = .next { s with pull := true } := by
  simp [receivePull, hf, ht, hp]

theorem engineDue_iff (s : State) : engineDue s = true ↔
    s.pull = true ∧ s.cbPending = false ∧ s.faulted = false ∧ s.tablesReady = true := by
  simp [engineDue, and_assoc]

/-- Settles O53. -/
theorem pullProtocol : Obligations.PullProtocol := by
  refine ⟨fun s rest he hp hi => ⟨fun h => ?_, fun hf ht hpull => ⟨?_, ?_⟩⟩, fun s he hin hrate => ⟨?_, ?_⟩⟩
  · rw [step_host he hp hi]
    exact receivePull_refused h
  · rw [step_host he hp hi]
    exact receivePull_taken hf ht hpull
  · simp [engineDue, hf, ht]
  · rw [step_engine he, engineAct, hin]
    exact startTick_noRate hrate
  · rw [enterFault_reply, ((engineDue_iff s).mp he).1]
    rfl

/-! ## The register map (10_state.md rules R50 to R52) -/

theorem readRegister_unit {s : State} {addr : BitVec 12} (h : addr.toNat < 0x100) :
    readRegister s addr = unitRegister s addr.toNat := if_pos h

/-- The address of a register of voice block `i`. -/
theorem voiceAddress_toNat {i o : Nat} (hi : i < 64) (ho : o < 0x20) :
    (BitVec.ofNat 12 (0x100 + 0x20 * i + o)).toNat = 0x100 + 0x20 * i + o := by
  rw [BitVec.toNat_ofNat]
  omega

theorem readRegister_voice {s : State} {i o : Nat} {v : Voice} (hi : i < 64) (ho : o < 0x20)
    (hv : s.voices[i]? = some v) : readRegister s (BitVec.ofNat 12 (0x100 + 0x20 * i + o)) = voiceRegister v o := by
  have hblock : (0x100 + 0x20 * i + o - 0x100) / 0x20 = i := by omega
  have hoffset : (0x100 + 0x20 * i + o - 0x100) % 0x20 = o := by omega
  rw [readRegister, voiceAddress_toNat hi ho, if_neg (by omega), hblock, hoffset, hv]

theorem readRegister_noVoice {s : State} {addr : BitVec 12} (h0 : 0x100 ≤ addr.toNat)
    (h : 0x100 + 0x20 * s.voices.length ≤ addr.toNat) : readRegister s addr = 0 := by
  rw [readRegister, if_neg (by omega), List.getElem?_eq_none (by omega)]

theorem voiceRegister_unused (v : Voice) {o : Nat} (h : (8 ≤ o ∧ o ≤ 15) ∨ o = 31) : voiceRegister v o = 0 := by
  rcases h with ⟨hlo, hhi⟩ | rfl
  · interval_cases o <;> rfl
  · rfl

theorem unitRegister_unlisted (s : State) {a : Nat} (ha : a ≤ 0x0FF)
    (h : (0x010 ≤ a ∧ a ≤ 0x01F) ∨ (0x02B ≤ a ∧ a ≤ 0x03F) ∨ 0x046 ≤ a) : unitRegister s a = 0 := by
  rcases h with ⟨hlo, hhi⟩ | ⟨hlo, hhi⟩ | hlo
  · interval_cases a <;> rfl
  · interval_cases a <;> rfl
  · interval_cases a <;> rfl

theorem readRegister_unusedOffset {s : State} {addr : BitVec 12} (h0 : 0x100 ≤ addr.toNat)
    (h : (8 ≤ addr.toNat % 32 ∧ addr.toNat % 32 ≤ 15) ∨ addr.toNat % 32 = 31) : readRegister s addr = 0 := by
  rw [readRegister, if_neg (by omega)]
  split
  · exact voiceRegister_unused _ (by omega)
  · rfl

/-- The bits of `STATUS` (rule R37). -/
theorem statusWord_bits (s : State) :
    (statusWord s).getLsbD 0 = s.faulted ∧ (statusWord s).getLsbD 1 = s.cbPending ∧
    (statusWord s).getLsbD 2 = s.heap.isEmpty ∧ (statusWord s).getLsbD 3 = s.tablesReady ∧
    (statusWord s).getLsbD 4 = s.inTick ∧ ∀ k, 5 ≤ k → (statusWord s).getLsbD k = false := by
  simp only [statusWord, BitVec.getLsbD_append, heapEmpty]
  refine ⟨by simp, by simp, by simp, by simp, by simp, fun k hk => ?_⟩
  obtain ⟨j, rfl⟩ := Nat.exists_eq_add_of_le' hk
  simp

theorem readRegister_read {s : State} {addr : BitVec 12} {rest : List HostAction} (he : engineDue s = false)
    (hp : takePacket s.port = none) (hi : s.inbox = .read addr :: rest) :
    step s = .next { s with inbox := rest, reply := .value (readRegister s addr) } := by
  rw [step_host he hp hi]
  rfl

/-- The addresses of the units' registers that change while the block runs, `STATUS`, `FAULT_CAUSE` and `NEXT_T` aside. -/
def unitAddresses : List (BitVec 12) :=
  [0x005, 0x006, 0x007, 0x009, 0x00A, 0x00B, 0x00C, 0x00D, 0x020, 0x021, 0x022, 0x023, 0x024, 0x025, 0x026, 0x027,
    0x028, 0x029, 0x02A, 0x040, 0x041, 0x042, 0x043, 0x044, 0x045]

theorem readRegister_unitAddresses (s : State) :
    ∀ q ∈ unitAddresses.map fun a => (a, unitRegister s a.toNat), readRegister s q.1 = q.2 := by
  have hlow : ∀ a ∈ unitAddresses, a.toNat < 0x100 := by simp [unitAddresses]
  intro q hq
  obtain ⟨a, ha, rfl⟩ := List.mem_map.mp hq
  exact readRegister_unit (hlow a ha)

/-- The offsets of the registers of a voice block, `ENV_STATE` aside. -/
def voiceOffsets : List Nat :=
  [0x00, 0x01, 0x02, 0x03, 0x04, 0x05, 0x06, 0x07, 0x11, 0x12, 0x13, 0x14, 0x15, 0x16, 0x17, 0x18, 0x19, 0x1A, 0x1B,
    0x1C, 0x1D, 0x1E]

theorem readRegister_voiceOffsets {s : State} {i : Nat} {v : Voice} (hi : i < 64) (hv : s.voices[i]? = some v) :
    ∀ q ∈ voiceOffsets.map fun o => (o, voiceRegister v o),
      readRegister s (BitVec.ofNat 12 (0x100 + 0x20 * i + q.1)) = q.2 := by
  have hlow : ∀ o ∈ voiceOffsets, o < 0x20 := by decide
  exact List.forall_mem_map.mpr fun o ho => readRegister_voice hi (hlow o ho) hv

theorem latchWord_eq (b : Bool) : (BitVec.ofBool b).setWidth 64 = if b = true then 1 else 0 := by
  cases b <;> rfl

theorem causeCode_table : ∀ q ∈ [(FaultCause.none, (0 : Word64)), (.illegalCommand, 1), (.badIndex, 2),
    (.zeroSampleRate, 3), (.badArg, 4), (.badBuffer, 5), (.queueFull, 6), (.callbackState, 7), (.tableParams, 8),
    (.cacheFull, 9)], (causeCode q.1).setWidth 64 = q.2 := by decide

theorem envStateCode_table : ∀ q ∈ [(EnvState.idle, (0 : Word64)), (.attack, 1), (.decay, 2), (.sustain, 3),
    (.release, 4)], envStateCode q.1 = q.2 := by decide

/-- Settles O47. -/
theorem registerReads : Obligations.RegisterReads := by
  intro s addr rest
  have hcause : readRegister s 0x004 = (causeCode s.faultCause).setWidth 64 := readRegister_unit (by decide)
  have hnext : readRegister s 0x008 = nextT s := readRegister_unit (by decide)
  refine ⟨readRegister_read, fun h => ?_, readRegister_unusedOffset, statusWord_bits s,
    fun q hq hc => by rw [hcause, hc]; exact causeCode_table q hq, fun h => by rw [hnext, nextT, h],
    fun e events h => by rw [hnext, nextT, h], readRegister_unitAddresses s, fun i v hi hv => ⟨fun q hq hc => ?_, ?_⟩⟩
  · by_cases hv : 0x100 + 0x20 * s.voices.length ≤ addr.toNat
    · exact readRegister_noVoice (by omega) hv
    · rw [readRegister_unit (by omega)]
      exact unitRegister_unlisted s (by omega) (by omega)
  · rw [readRegister_voice hi (by decide) hv, ← envStateCode_table q hq, ← hc]
    rfl
  · rw [← latchWord_eq]
    exact readRegister_voiceOffsets hi hv

/-! ## `CONFIG0` and `CONFIG1` (rule R32) -/

theorem toNat_ofNat_append {m n k : Nat} (x : BitVec m) (h : k < 2 ^ n) :
    (x ++ BitVec.ofNat n k).toNat = 2 ^ n * x.toNat + k := by
  rw [BitVec.toNat_append, BitVec.toNat_ofNat, Nat.mod_eq_of_lt h, Nat.shiftLeft_eq, Nat.mul_comm,
    ← Nat.two_pow_add_eq_or_of_lt h]

theorem toNat_ofBool_append {m : Nat} (x : BitVec m) (b : Bool) :
    (x ++ BitVec.ofBool b).toNat = 2 * x.toNat + b.toNat := by
  rw [BitVec.toNat_append, BitVec.toNat_ofBool, Nat.shiftLeft_eq, Nat.mul_comm]
  exact (Nat.two_pow_add_eq_or_of_lt (i := 1) (by cases b <;> decide) _).symm

theorem config0_toNat {p : Params} (h : paramsCounted p) : (config0 p).toNat =
    p.nOsc + 2 ^ 8 * p.channels + 2 ^ 12 * p.srcOsc.toNat + 2 ^ 13 * p.srcRs.toNat + 2 ^ 14 * p.oversample.toNat +
      2 ^ 15 * (decide (p.eqTickOrder = .any)).toNat + 2 ^ 16 * p.ratio + 2 ^ 24 * p.zc + 2 ^ 32 * p.phaseBits +
      2 ^ 36 * p.half + 2 ^ 42 * p.wtBits := by
  have hzeros : (0 : BitVec 18).toNat = 0 := rfl
  obtain ⟨hosc, hch, -, hratio, hzc, hph, hhalf, hwt, -⟩ := h
  rw [config0, toNat_ofNat_append _ (by omega), toNat_ofNat_append _ (by omega), toNat_ofBool_append,
    toNat_ofBool_append, toNat_ofBool_append, toNat_ofBool_append, toNat_ofNat_append _ (by omega),
    toNat_ofNat_append _ (by omega), toNat_ofNat_append _ (by omega), toNat_ofNat_append _ (by omega),
    toNat_ofNat_append _ (by omega), hzeros]
  omega

theorem config1_toNat {p : Params} (h : paramsCounted p) : (config1 p).toNat =
    p.heapCap + 2 ^ 32 * p.cacheSlots + 2 ^ 40 * p.sampleAddrBits := by
  have hzeros : (0 : BitVec 18).toNat = 0 := rfl
  obtain ⟨-, -, -, -, -, -, -, -, hheap, hslots, haddr⟩ := h
  rw [config1, toNat_ofNat_append _ (by omega), toNat_ofNat_append _ (by omega), toNat_ofNat_append _ (by omega),
    hzeros]
  omega

/-- Settles O48. -/
theorem configurationReflected : Obligations.ConfigurationReflected := by
  intro s h
  have hbit : ∀ b : Bool, (if b = true then 1 else 0) = b.toNat := fun b => by cases b <;> rfl
  have horder : decide (s.cfg.eqTickOrder ≠ .heap) = decide (s.cfg.eqTickOrder = .any) := by
    cases s.cfg.eqTickOrder <;> rfl
  refine ⟨rfl, ?_, config1_toNat h, rfl, rfl⟩
  simp only [hbit, horder]
  exact config0_toNat h

/-! ## Reset (70_reset_and_hazards.md rule R431) -/

theorem resetBlock_ready {s : State} (h : (generateTables s.cfg).2 = none) :
    resetBlock s = { stateCleared s.cfg with
      mem := s.mem, raced := s.raced, inbox := s.inbox, draws := s.draws,
      reply := if s.pull then .pullRefused else s.reply,
      slots := (generateTables s.cfg).1, tablesReady := true } := by
  have hg : generateTables s.cfg = ((generateTables s.cfg).1, none) := Prod.ext rfl h
  unfold resetBlock
  rw [hg]

theorem resetBlock_unready {s : State} {c : FaultCause} (h : (generateTables s.cfg).2 = some c) :
    resetBlock s = enterFault c 0 0 { stateCleared s.cfg with
      mem := s.mem, raced := s.raced, inbox := s.inbox, draws := s.draws,
      reply := if s.pull then .pullRefused else s.reply,
      slots := (generateTables s.cfg).1 } := by
  have hg : generateTables s.cfg = ((generateTables s.cfg).1, some c) := Prod.ext rfl h
  unfold resetBlock
  rw [hg]

/-- What `t` holds as a state reset from `s`, whether or not its tables could be generated. -/
structure ResetFrom (s t : State) : Prop where
  cfg : t.cfg = s.cfg
  mem : t.mem = s.mem
  raced : t.raced = s.raced
  slots : t.slots = (generateTables s.cfg).1
  inTick : t.inTick = false
  pull : t.pull = false
  reply : t.reply = if s.pull then .pullRefused else s.reply
  tick : t.tick = 0
  sampleRate : t.sampleRate = F64.zero
  innerRate : t.innerRate = F64.zero
  evTick : t.evTick = 0
  cbId : t.cbId = 0
  heap : t.heap = []
  voices : t.voices = List.replicate s.cfg.nOsc (voiceReset s.cfg)
  filter : t.filter = filterReset s.cfg
  rs : t.rs = resamplerReset
  osw : t.osw = if s.cfg.oversample then List.replicate s.cfg.channels (List.replicate s.cfg.lFir F64.zero) else []

theorem resetBlock_resetFrom (s : State) : ResetFrom s (resetBlock s) := by
  cases h : (generateTables s.cfg).2 with
  | none =>
    rw [resetBlock_ready h]
    constructor <;> rfl
  | some c =>
    rw [resetBlock_unready h]
    constructor <;> rfl

/-- The coefficients of rules R201 to R203 at the reset values: a stage of length 0 has the coefficient 0. -/
theorem envelopeReset_eq : envelopeReset =
    { state := .idle, value := ⟨0⟩, nA := ⟨0⟩, nD := ⟨0⟩, nR := ⟨0⟩, sustain := ⟨0x3FF0000000000000⟩,
      curveA := ⟨0x3FD3333333333333⟩, curveD := ⟨0x3F1A36E2EB1C432D⟩, curveR := ⟨0x3F1A36E2EB1C432D⟩,
      coefA := ⟨0⟩, baseA := ⟨0x3FF4CCCCCCCCCCCD⟩, coefD := ⟨0⟩, baseD := ⟨0x3FEFFF2E48E8A71E⟩,
      coefR := ⟨0⟩, baseR := ⟨0xBF1A36E2EB1C432D⟩ } := by decide +kernel

/-- With the default constants, `OFF` and `D` at `FC = 1` and `Q = 0` are `OFF_HI` and `D_MAX`. -/
theorem filterReset_default : (filterReset Params.default).off = Params.default.offHi ∧
    (filterReset Params.default).d = Params.default.dMax := by decide +kernel

theorem statusWord_eq {s : State} (faulted pending empty ready tick : Bool) (hf : s.faulted = faulted)
    (hp : s.cbPending = pending) (he : s.heap.isEmpty = empty) (hr : s.tablesReady = ready) (ht : s.inTick = tick) :
    statusWord s = (0 : BitVec 59) ++ BitVec.ofBool tick ++ BitVec.ofBool ready ++ BitVec.ofBool empty ++
      BitVec.ofBool pending ++ BitVec.ofBool faulted := by
  subst hf hp he hr ht
  rfl

/-- Settles O46. -/
theorem resetWritesEveryRegister : Obligations.ResetWritesEveryRegister := by
  intro s
  have r := resetBlock_resetFrom s
  refine ⟨r.cfg, r.mem, r.pull, fun hp => by rw [r.reply, hp]; rfl, r.tick, r.sampleRate, r.innerRate, r.evTick, r.cbId,
    r.heap, ?_, r.filter, fun hc => ?_, r.rs, r.osw, fun h => ?_, fun c h => ?_⟩
  · rw [r.voices, voiceReset, envelopeReset_eq]
    rfl
  · rw [r.filter, hc]
    exact filterReset_default
  · rw [resetBlock_ready h]
    exact ⟨(statusWord_eq false false true true false rfl rfl rfl rfl rfl).trans (by decide), rfl, rfl, rfl, rfl⟩
  · rw [resetBlock_unready h]
    exact ⟨(statusWord_eq true false true false false rfl rfl rfl rfl rfl).trans (by decide), rfl, rfl, rfl⟩

end Sys2Proof.Machine

/-! PROOFS. The extent of the bound buffer (O26). -/

namespace Sys2Proof.Machine

/-! ## `RS_SET_BUF_BASE` and `RS_SET_BUF_FRAMES`, not deferred (44_resampler.md rules R271, R272) -/

theorem exec_rsSetBufBase (d : Bool) (arg : Word64) (s : State) :
    exec (.rsSetBufBase d arg) s = execRsSetBufBase d arg s := rfl

theorem exec_rsSetBufFrames (d : Bool) (arg : Word64) (s : State) :
    exec (.rsSetBufFrames d arg) s = execRsSetBufFrames d arg s := rfl

theorem rsSetBufBase_fits {arg : Word64} {s : State}
    (h : arg.toNat + s.rs.frames.toNat * s.cfg.channels ≤ 2 ^ s.cfg.sampleAddrBits) :
    exec (.rsSetBufBase false arg) s = .next { s with rs := { s.rs with
      base := BitVec.ofNat 64 (arg.toNat % 2 ^ s.cfg.sampleAddrBits)
      baseTop := decide (2 ^ s.cfg.sampleAddrBits ≤ arg.toNat) } } := by
  rw [exec_rsSetBufBase, execRsSetBufBase, runCommand_now rfl, operandU, decide_eq_true h]
  rfl

theorem rsSetBufBase_outside {arg : Word64} {s : State}
    (h : ¬ arg.toNat + s.rs.frames.toNat * s.cfg.channels ≤ 2 ^ s.cfg.sampleAddrBits) :
    exec (.rsSetBufBase false arg) s = .next (enterFault .badBuffer 0x00000040 arg s) := by
  rw [exec_rsSetBufBase, execRsSetBufBase, runCommand_now rfl, operandU, decide_eq_false h]
  exact (executeNow_error ..).trans (by rw [header_rsSetBufBase, operand_rsSetBufBase]; rfl)

theorem rsSetBufFrames_fits {arg : Word64} {s : State} (hr : arg.toNat + s.cfg.half ≤ 2 ^ 31 - 1)
    (hf : rsBase s.cfg s.rs + arg.toNat * s.cfg.channels ≤ 2 ^ s.cfg.sampleAddrBits) :
    exec (.rsSetBufFrames false arg) s =
      .next { s with rs := { s.rs with frames := BitVec.ofNat 32 arg.toNat } } := by
  rw [exec_rsSetBufFrames, execRsSetBufFrames, runCommand_now rfl, operandU, decide_eq_true hr, decide_eq_true hf]
  rfl

theorem rsSetBufFrames_outside {arg : Word64} {s : State}
    (h : 2 ^ 31 - 1 < arg.toNat + s.cfg.half ∨
      2 ^ s.cfg.sampleAddrBits < rsBase s.cfg s.rs + arg.toNat * s.cfg.channels) :
    exec (.rsSetBufFrames false arg) s = .next (enterFault .badBuffer 0x00000041 arg s) := by
  rw [exec_rsSetBufFrames, execRsSetBufFrames, runCommand_now rfl, operandU]
  refine Eq.trans ?_ ((executeNow_error (.rsSetBufFrames false arg) .badBuffer s).trans
    (by rw [header_rsSetBufFrames, operand_rsSetBufFrames]; rfl))
  congr 1
  by_cases hr : arg.toNat + s.cfg.half ≤ 2 ^ 31 - 1
  · rw [decide_eq_true hr, decide_eq_false (Nat.not_le.mpr (h.resolve_left (Nat.not_lt.mpr hr)))]
    rfl
  · rw [decide_eq_false hr]
    rfl

/-- Settles O26. -/
theorem rsBufferExtentResults : Obligations.RsBufferExtentResults := by
  intro arg s
  refine ⟨fun hfits hlt => ?_, fun hfits htop => ?_, fun hfits t ht => ?_, rsSetBufBase_outside,
    fun hr hf => ⟨rsSetBufFrames_fits hr hf, ?_⟩, rsSetBufFrames_outside⟩
  · rw [rsSetBufBase_fits hfits, Nat.mod_eq_of_lt hlt, decide_eq_false (Nat.not_le.mpr hlt), BitVec.ofNat_toNat,
      BitVec.setWidth_eq]
  · rw [rsSetBufBase_fits hfits, htop, Nat.mod_self, decide_eq_true (Nat.le_refl _)]
    rfl
  · rw [rsSetBufBase_fits hfits] at ht
    cases ht
    exact rsBase_stored _ _ (Nat.le_of_add_right_le hfits) arg.isLt
  · exact Nat.mod_eq_of_lt (by omega)

end Sys2Proof.Machine

/-! PROOFS. Ranges of binary64 results (00_scope.md rules R8, R12), counted in units of 2^-1074: comparisons, the finite
results, the bounds that no rounding passes, and the phase shift of rule R121 (O15). -/

namespace Sys2Proof

/-! ## Comparisons -/

theorem F64.mag_le_iff (x y : F64) : x.mag ≤ y.mag ↔ x.low63 ≤ y.low63 := by
  constructor
  · exact fun h => Nat.le_of_not_lt fun hlt => Nat.not_lt.mpr h (F64.mag_lt_of_low63_lt hlt)
  · intro h
    rcases Nat.lt_or_eq_of_le h with hlt | heq
    · exact Nat.le_of_lt (F64.mag_lt_of_low63_lt hlt)
    · have hx := x.frac_lt
      have hy := y.frac_lt
      rw [F64.low63_eq, F64.low63_eq] at heq
      have he : x.expField = y.expField := by omega
      have hf : x.frac = y.frac := by omega
      rw [F64.mag, F64.mag, he, hf]

theorem F64.order_le_iff (x y : F64) : x.order ≤ y.order ↔ x.scaled ≤ y.scaled := by
  have hxy := F64.mag_le_iff x y
  have hyx := F64.mag_le_iff y x
  have hx := x.isZero_iff
  have hy := y.isZero_iff
  simp only [F64.isZero, beq_iff_eq] at hx hy
  unfold F64.order F64.scaled
  split <;> split <;> omega

theorem F64.le_iff {x y : F64} (hx : x.isFinite = true) (hy : y.isFinite = true) :
    x.le y = true ↔ x.scaled ≤ y.scaled := by
  simp [F64.le, F64.isNaN_of_finite hx, F64.isNaN_of_finite hy, F64.order_le_iff]

theorem F64.lt_iff {x y : F64} (hx : x.isFinite = true) (hy : y.isFinite = true) :
    x.lt y = true ↔ x.scaled < y.scaled := by
  have h := F64.order_le_iff y x
  simp only [F64.lt, F64.isNaN_of_finite hx, F64.isNaN_of_finite hy, Bool.not_false, Bool.true_and, decide_eq_true_eq]
  omega

theorem F64.eq_iff {x y : F64} (hx : x.isFinite = true) (hy : y.isFinite = true) :
    x.eq y = true ↔ x.scaled = y.scaled := by
  have h := F64.order_le_iff y x
  have h' := F64.order_le_iff x y
  simp only [F64.eq, F64.isNaN_of_finite hx, F64.isNaN_of_finite hy, Bool.not_false, Bool.true_and, beq_iff_eq]
  omega

theorem F64.natAbs_scaled (x : F64) : x.scaled.natAbs = x.mag := signed_natAbs x.sign x.mag

theorem F64.isZero_eq_false {x : F64} (h : 0 < x.mag) : x.isZero = false := by
  rw [Bool.eq_false_iff, Ne, F64.isZero_iff]
  omega

theorem F64.neg_scaled (x : F64) : x.neg.scaled = -x.scaled := by
  obtain ⟨hs, hm, -⟩ := x.neg_fields
  rw [F64.scaled, F64.scaled, hs, hm]
  cases x.sign <;> simp

theorem F64.neg_isFinite (x : F64) : x.neg.isFinite = x.isFinite := x.neg_fields.2.2

theorem F64.zero_scaled : F64.zero.isFinite = true ∧ F64.zero.scaled = 0 := by decide +kernel

theorem F64.one_scaled : F64.one.isFinite = true ∧ F64.one.scaled = F64.unit := by decide +kernel

/-! ## Clamping (rule R8) -/

theorem F64.max_scaled {x y : F64} (hx : x.isFinite = true) (hy : y.isFinite = true) :
    (x.max y).isFinite = true ∧ (x.max y).scaled = Max.max x.scaled y.scaled := by
  have hlt := F64.lt_iff hx hy
  have hgt := F64.lt_iff hy hx
  simp only [F64.max, hlt, hgt]
  split_ifs with h1 h2 h3 h4
  · exact ⟨hx, by omega⟩
  · exact ⟨hy, by omega⟩
  · exact ⟨hx, by omega⟩
  · exact ⟨hx, by omega⟩
  · exact ⟨hy, by omega⟩

theorem F64.min_scaled {x y : F64} (hx : x.isFinite = true) (hy : y.isFinite = true) :
    (x.min y).isFinite = true ∧ (x.min y).scaled = Min.min x.scaled y.scaled := by
  have hlt := F64.lt_iff hx hy
  have hgt := F64.lt_iff hy hx
  simp only [F64.min, hlt, hgt]
  split_ifs with h1 h2 h3 h4
  · exact ⟨hx, by omega⟩
  · exact ⟨hy, by omega⟩
  · exact ⟨hx, by omega⟩
  · exact ⟨hx, by omega⟩
  · exact ⟨hy, by omega⟩

theorem F64.clamp_scaled {x lo hi : F64} (hx : x.isFinite = true) (hlo : lo.isFinite = true)
    (hhi : hi.isFinite = true) : (x.clamp lo hi).isFinite = true ∧
    (x.clamp lo hi).scaled = Min.min (Max.max x.scaled lo.scaled) hi.scaled := by
  obtain ⟨hmax, hmaxs⟩ := F64.max_scaled hx hlo
  obtain ⟨hmin, hmins⟩ := F64.min_scaled hmax hhi
  exact ⟨hmin, hmaxs ▸ hmins⟩

/-! ## Finite results -/

/-- Where a magnitude, in units, starts to round to an infinity: half a step above the largest finite one. -/
def F64.overflow : Nat := (2 ^ 54 - 1) * 2 ^ 2044

theorem F64.mag_add_lt_overflow {x : F64} (hx : x.isFinite = true) {n : Nat} (hn : n < 2 ^ 2044) :
    x.mag + n < F64.overflow := by
  obtain ⟨m, j, hm, hmag, -, hj⟩ := x.mag_eq
  have he := x.expField_lt
  simp only [F64.isFinite, bne_iff_ne] at hx
  have hpow : 2 ^ j ≤ 2 * 2 ^ 2044 := by
    rw [← Nat.pow_succ']
    exact Nat.pow_le_pow_right Nat.two_pos (by omega)
  rw [F64.overflow, hmag]
  generalize 2 ^ 2044 = p at hn hpow ⊢
  have hle := Nat.mul_le_mul (show m ≤ 2 ^ 53 - 1 by omega) hpow
  omega

/-- Half a step is the farthest a rounding goes. -/
theorem F64.roundCount_error (num den : Nat) :
    2 * (F64.roundCount num den * F64.roundStep num den) ≤ 2 * num + F64.roundStep num den := by
  have hdiv := Nat.div_add_mod' num (F64.roundStep num den)
  unfold F64.roundCount
  dsimp only
  generalize F64.roundStep num den = d at hdiv
  split
  · rename_i hup
    rw [Nat.succ_mul (num / d)]
    omega
  · omega

theorem F64.roundMag_isFinite {neg : Bool} {num den : Nat} (h : num < den * F64.overflow) :
    (F64.pack neg (F64.roundMag num den)).isFinite = true := by
  obtain ⟨hlt, hbits⟩ := F64.quotient_bits num den
  obtain ⟨hge, hle⟩ := F64.roundCount_bounds num den
  have herr := F64.roundCount_error num den
  have hdown := Nat.div_mul_le_self num (F64.roundStep num den)
  rw [F64.roundMag_eq]
  refine (F64.pack_lowOf neg (by omega) (hbits.imp_left fun h => le_trans h hge) ?_).1
  have hinf : F64.infLow = 2047 * 2 ^ 52 := by decide
  by_contra hc
  have hk : 2045 ≤ F64.dropBits num den := by omega
  have hstep : F64.roundStep num den = den * 2 ^ F64.dropBits num den := rfl
  have hover : den * F64.overflow = (2 ^ 54 - 1) * (den * 2 ^ 2044) := by
    rw [F64.overflow]
    ring
  rw [hover] at h
  rcases Nat.lt_or_eq_of_le hk with hk | hk
  · have hpow : 2 ^ 2044 * 2 ^ 2 ≤ 2 ^ F64.dropBits num den := by
      rw [← pow_add]
      exact Nat.pow_le_pow_right Nat.two_pos hk
    have hfour := Nat.mul_le_mul_left den hpow
    rw [← hstep, ← Nat.mul_assoc] at hfour
    have hbig := Nat.mul_le_mul_right (F64.roundStep num den) (hbits.resolve_right (by omega))
    generalize den * 2 ^ 2044 = p at h hfour
    omega
  · have hcount : F64.roundCount num den = 2 ^ 53 := by omega
    have htwo : F64.roundStep num den = 2 * (den * 2 ^ 2044) := by
      rw [hstep, ← hk, Nat.pow_succ]
      ring
    rw [hcount, htwo] at herr
    generalize den * 2 ^ 2044 = p at h herr
    omega

/-- A sum of finite values that stays below the threshold. -/
theorem F64.add_isFinite {x y : F64} (hx : x.isFinite = true) (hy : y.isFinite = true)
    (h : (x.scaled + y.scaled).natAbs < F64.overflow) : (x.add y).isFinite = true := by
  obtain ⟨neg, hadd, -⟩ := F64.add_eq_pack hx hy
  rw [hadd]
  exact F64.roundMag_isFinite (by rwa [Nat.one_mul])

theorem F64.mul_isFinite {x y : F64} (hx : x.isFinite = true) (hy : y.isFinite = true)
    (h : x.mag * y.mag < F64.unit * F64.overflow) : (x.mul y).isFinite = true := by
  have hunit : F64.unit = 2 ^ 1074 := rfl
  rw [F64.mul_eq_pack hx hy]
  rw [hunit] at h
  exact F64.roundMag_isFinite h

theorem F64.div_isFinite {x y : F64} (hx : x.isFinite = true) (hy : y.isFinite = true) (hz : 0 < y.mag)
    (h : x.mag * F64.unit < y.mag * F64.overflow) : (x.div y).isFinite = true := by
  rw [F64.div_eq_pack hx hy (F64.isZero_eq_false hz)]
  exact F64.roundMag_isFinite h

/-- A finite value times one of at most 1 in magnitude. -/
theorem F64.mul_isFinite_of_le_one {x y : F64} (hx : x.isFinite = true) (hy : y.isFinite = true)
    (h : y.mag ≤ F64.unit) : (x.mul y).isFinite = true := by
  refine F64.mul_isFinite hx hy ?_
  have hlt : x.mag < F64.overflow := F64.mag_add_lt_overflow hx (Nat.two_pow_pos 2044)
  rw [Nat.mul_comm F64.unit]
  exact lt_of_le_of_lt (Nat.mul_le_mul_left _ h) (Nat.mul_lt_mul_of_pos_right hlt (Nat.two_pow_pos _))

/-! ## Bounds: a finite result does not pass a finite value that the exact one does not pass -/

theorem F64.add_le {x y c : F64} (hx : x.isFinite = true) (hy : y.isFinite = true) (hc : c.isFinite = true)
    (hr : (x.add y).isFinite = true) (h : x.scaled + y.scaled ≤ c.scaled) : (x.add y).scaled ≤ c.scaled := by
  have hnear := (additionRoundsToNearest x y c hx hy hc hr).1
  omega

theorem F64.le_add {x y c : F64} (hx : x.isFinite = true) (hy : y.isFinite = true) (hc : c.isFinite = true)
    (hr : (x.add y).isFinite = true) (h : c.scaled ≤ x.scaled + y.scaled) : c.scaled ≤ (x.add y).scaled := by
  have hnear := (additionRoundsToNearest x y c hx hy hc hr).1
  omega

theorem F64.unit_pos : (0 : Int) < F64.unit := Int.natCast_pos.mpr (Nat.two_pow_pos _)

/-- An integer that is nearer than `c` to what lies on one side of `c` lies on that side of `c`. -/
theorem le_of_near {y c u e : Int} (hu : 0 < u) (hnear : (y * u - e).natAbs ≤ (c * u - e).natAbs) (h : e ≤ c * u) :
    y ≤ c := by
  by_contra hc
  have := Int.mul_lt_mul_of_pos_right (not_le.mp hc) hu
  omega

theorem ge_of_near {y c u e : Int} (hu : 0 < u) (hnear : (y * u - e).natAbs ≤ (c * u - e).natAbs) (h : c * u ≤ e) :
    c ≤ y := by
  by_contra hc
  have := Int.mul_lt_mul_of_pos_right (not_le.mp hc) hu
  omega

theorem F64.mul_near {x y c : F64} (hx : x.isFinite = true) (hy : y.isFinite = true) (hc : c.isFinite = true)
    (hr : (x.mul y).isFinite = true) :
    ((x.mul y).scaled * F64.unit - x.scaled * y.scaled).natAbs ≤ (c.scaled * F64.unit - x.scaled * y.scaled).natAbs := by
  have hnear := (productAndQuotientRoundToNearest x y c hx hy hc).1 hr
  rwa [two_pow_cast] at hnear

theorem F64.mul_le {x y c : F64} (hx : x.isFinite = true) (hy : y.isFinite = true) (hc : c.isFinite = true)
    (hr : (x.mul y).isFinite = true) (h : x.scaled * y.scaled ≤ c.scaled * F64.unit) : (x.mul y).scaled ≤ c.scaled :=
  le_of_near F64.unit_pos (F64.mul_near hx hy hc hr) h

theorem F64.le_mul {x y c : F64} (hx : x.isFinite = true) (hy : y.isFinite = true) (hc : c.isFinite = true)
    (hr : (x.mul y).isFinite = true) (h : c.scaled * F64.unit ≤ x.scaled * y.scaled) : c.scaled ≤ (x.mul y).scaled :=
  ge_of_near F64.unit_pos (F64.mul_near hx hy hc hr) h

theorem F64.le_div {x y c : F64} (hx : x.isFinite = true) (hy : y.isFinite = true) (hc : c.isFinite = true)
    (hr : (x.div y).isFinite = true) (hpos : 0 < y.scaled) (h : c.scaled * y.scaled ≤ x.scaled * F64.unit) :
    c.scaled ≤ (x.div y).scaled := by
  have habs := y.natAbs_scaled
  have hnear := (productAndQuotientRoundToNearest x y c hx hy hc).2 (F64.isZero_eq_false (by omega)) hr
  rw [two_pow_cast] at hnear
  exact ge_of_near hpos hnear h

/-- A finite value times one in `[-1, 1]` lies between the value's ends. -/
theorem F64.mul_between {x c : F64} (hx : x.isFinite = true) (hc : c.isFinite = true) (h0 : 0 ≤ c.scaled)
    (hle : x.mag ≤ F64.unit) : (x.mul c).isFinite = true ∧
    (-c.scaled ≤ (x.mul c).scaled ∧ (x.mul c).scaled ≤ c.scaled) ∧
    (x.scaled = F64.unit → (x.mul c).scaled = c.scaled) ∧
    (x.scaled = -F64.unit → (x.mul c).scaled = -c.scaled) := by
  have hfin : (x.mul c).isFinite = true := by
    refine F64.mul_isFinite hx hc ?_
    exact lt_of_le_of_lt (Nat.mul_le_mul_right _ hle)
      (Nat.mul_lt_mul_of_pos_left (F64.mag_add_lt_overflow hc (Nat.two_pow_pos 2044)) (Nat.two_pow_pos _))
  have habs := x.natAbs_scaled
  have hcn : c.neg.isFinite = true := c.neg_isFinite.trans hc
  have hup : (x.mul c).scaled ≤ c.scaled := F64.mul_le hx hc hc hfin (by
    rw [Int.mul_comm]
    exact Int.mul_le_mul_of_nonneg_left (by omega) h0)
  have hlo : c.neg.scaled ≤ (x.mul c).scaled := F64.le_mul hx hc hcn hfin (by
    rw [F64.neg_scaled, Int.neg_mul, ← Int.mul_neg, Int.mul_comm x.scaled]
    exact Int.mul_le_mul_of_nonneg_left (by omega) h0)
  refine ⟨hfin, ⟨F64.neg_scaled c ▸ hlo, hup⟩, fun h => ?_, fun h => ?_⟩
  · refine le_antisymm hup (F64.le_mul hx hc hc hfin ?_)
    rw [h, Int.mul_comm]
  · refine le_antisymm ?_ (F64.neg_scaled c ▸ hlo)
    rw [← F64.neg_scaled]
    refine F64.mul_le hx hc hcn hfin ?_
    rw [h, F64.neg_scaled, Int.neg_mul, Int.neg_mul, Int.mul_comm]

end Sys2Proof

namespace Sys2Proof.Machine

/-! ## The phase shift (40_oscillator.md rule R121) -/

theorem periodF_scaled : periodF.isFinite = true ∧ periodF.scaled = 2 ^ 28 * F64.unit := by decide +kernel

/-- The operand of `OSC_SET_SHIFT`, clamped to `[-1, 1]` and multiplied by the period. -/
def clampedPhase (x : F64) : F64 := (x.clamp F64.one.neg F64.one).mul periodF

theorem clampedPhase_scaled {x : F64} (hx : x.isFinite = true) : (clampedPhase x).isFinite = true ∧
    (-(2 ^ 28 * F64.unit) ≤ (clampedPhase x).scaled ∧ (clampedPhase x).scaled ≤ 2 ^ 28 * F64.unit) ∧
    (F64.one.le x = true → (clampedPhase x).scaled = 2 ^ 28 * F64.unit) ∧
    (x.le F64.one.neg = true → (clampedPhase x).scaled = -(2 ^ 28 * F64.unit)) := by
  obtain ⟨hpf, hps⟩ := periodF_scaled
  obtain ⟨hof, hos⟩ := F64.one_scaled
  have hnf : F64.one.neg.isFinite = true := F64.one.neg_isFinite.trans hof
  have hns : F64.one.neg.scaled = -F64.unit := by rw [F64.neg_scaled, hos]
  obtain ⟨hcf, hcs⟩ := F64.clamp_scaled hx hnf hof
  have hu := F64.unit_pos
  have habs := (x.clamp F64.one.neg F64.one).natAbs_scaled
  rw [hns, hos] at hcs
  obtain ⟨hfin, hbounds, htop, hbottom⟩ := F64.mul_between hcf hpf (by rw [hps]; omega) (by omega)
  rw [hps] at hbounds htop hbottom
  rw [F64.le_iff hof hx, F64.le_iff hx hnf, hns, hos]
  exact ⟨hfin, hbounds, fun h => htop (by omega), fun h => hbottom (by omega)⟩

theorem clampedPhase_trunc_le {x : F64} (hx : x.isFinite = true) :
    ((clampedPhase x).scaled.tdiv F64.unit).natAbs ≤ 2 ^ 28 := by
  obtain ⟨-, hbounds, -⟩ := clampedPhase_scaled hx
  rw [Int.natAbs_tdiv]
  exact Nat.div_le_of_le_mul (by omega)

theorem shiftOf_toInt {x : F64} (hx : x.isFinite = true) :
    (shiftOf x).toInt = (clampedPhase x).scaled.tdiv F64.unit := by
  have htrunc : (clampedPhase x).truncInt = (clampedPhase x).scaled.tdiv F64.unit := by
    rw [F64.truncInt, (clampedPhase_scaled hx).1, two_pow_cast]
    rfl
  have hle := clampedPhase_trunc_le hx
  have hs : shiftOf x = BitVec.ofInt 30 (clampedPhase x).truncInt := rfl
  rw [hs, htrunc, BitVec.toInt_ofInt]
  exact Int.bmod_eq_of_le (by omega) (by omega)

theorem shiftOf_range {x : F64} (hx : x.isFinite = true) :
    -2 ^ 28 ≤ (shiftOf x).toInt ∧ (shiftOf x).toInt ≤ 2 ^ 28 := by
  have hle := clampedPhase_trunc_le hx
  rw [shiftOf_toInt hx]
  omega

/-- Settles O15. -/
theorem shiftStaysInRange : Obligations.ShiftStaysInRange := by
  intro x hx
  obtain ⟨-, -, htop, hbottom⟩ := clampedPhase_scaled hx
  have hu := F64.unit_pos.ne'
  refine ⟨shiftOf_range hx, fun h => ?_, fun h => ?_⟩
  · rw [shiftOf_toInt hx, htop h, Int.mul_tdiv_cancel _ hu]
  · rw [shiftOf_toInt hx, hbottom h, ← Int.neg_mul, Int.mul_tdiv_cancel _ hu]

end Sys2Proof.Machine

/-! PROOFS. The envelope's ranges (42_envelope.md rules R200, R221): a slope coefficient lies in `[0, 1]`, and a step
keeps the value there. -/

namespace Sys2Proof.Machine

/-! ## Values in `[0, 1]` -/

/-- `0 ≤ x ≤ 1`, counted. -/
theorem inUnit_iff (x : F64) :
    InUnit x ↔ x.isFinite = true ∧ 0 ≤ x.scaled ∧ x.scaled ≤ F64.unit := by
  obtain ⟨hzf, hzs⟩ := F64.zero_scaled
  obtain ⟨hof, hos⟩ := F64.one_scaled
  have hfin : InUnit x → x.isFinite = true := by
    rintro ⟨hlo, hhi⟩
    have hzo : F64.zero.order = 0 := by decide
    have hoo : F64.one.order = 1023 * 2 ^ 52 := by decide
    have hx := x.low63_eq
    simp only [F64.le, Bool.and_eq_true, decide_eq_true_eq, hzo, hoo] at hlo hhi
    rw [F64.isFinite, bne_iff_ne]
    cases hs : x.sign <;> simp only [F64.order, hs, if_true, if_false, Bool.false_eq_true] at hlo hhi <;> omega
  constructor
  · intro h
    have hx := hfin h
    have hlo := (F64.le_iff hzf hx).mp h.1
    have hhi := (F64.le_iff hx hof).mp h.2
    exact ⟨hx, by omega, by omega⟩
  · rintro ⟨hx, hlo, hhi⟩
    exact ⟨(F64.le_iff hzf hx).mpr (by omega), (F64.le_iff hx hof).mpr (by omega)⟩

theorem inUnit_zero : InUnit F64.zero := by decide +kernel

theorem inUnit_one : InUnit F64.one := by decide +kernel

theorem inUnit_clamp {x : F64} (hx : x.isFinite = true) : InUnit (x.clamp F64.zero F64.one) := by
  obtain ⟨hzf, hzs⟩ := F64.zero_scaled
  obtain ⟨hof, hos⟩ := F64.one_scaled
  obtain ⟨hf, hs⟩ := F64.clamp_scaled hx hzf hof
  have hu := F64.unit_pos
  exact (inUnit_iff _).mpr ⟨hf, by omega, by omega⟩

/-- A product of values in `[0, 1]` is at most its second factor. -/
theorem mul_inUnit {x y : F64} (hx : InUnit x) (hy : InUnit y) :
    InUnit (x.mul y) ∧ (x.mul y).scaled ≤ y.scaled := by
  obtain ⟨hxf, hx0, hx1⟩ := (inUnit_iff x).mp hx
  obtain ⟨hyf, hy0, hy1⟩ := (inUnit_iff y).mp hy
  obtain ⟨hzf, hzs⟩ := F64.zero_scaled
  have habs := x.natAbs_scaled
  obtain ⟨hf, ⟨-, hle⟩, -⟩ := F64.mul_between hxf hyf hy0 (by omega)
  have hge := F64.le_mul hxf hyf hzf hf (by rw [hzs, Int.zero_mul]; exact Int.mul_nonneg hx0 hy0)
  exact ⟨(inUnit_iff _).mpr ⟨hf, by omega, by omega⟩, hle⟩

end Sys2Proof.Machine

namespace Sys2Proof

/-! ## Differences and sums at 1 -/

theorem F64.sub_eq_add {x y : F64} (hx : x.isFinite = true) (hy : y.isFinite = true) : x.sub y = x.add y.neg := by
  have hn : y.neg.isFinite = true := y.neg_isFinite.trans hy
  simp [F64.sub, F64.add, F64.addAs, F64.isNaN_of_finite hx, F64.isNaN_of_finite hn, F64.isInf_of_finite hx,
    F64.isInf_of_finite hn]

/-- A difference of finite values, the first of at most 1 in magnitude, is finite, and has the bounds that a sum has. -/
theorem F64.sub_spec {x y : F64} (hx : x.isFinite = true) (hy : y.isFinite = true) (h1 : x.mag ≤ F64.unit) :
    (x.sub y).isFinite = true ∧
    (∀ c : F64, c.isFinite = true → x.scaled - y.scaled ≤ c.scaled → (x.sub y).scaled ≤ c.scaled) ∧
    (∀ c : F64, c.isFinite = true → c.scaled ≤ x.scaled - y.scaled → c.scaled ≤ (x.sub y).scaled) := by
  have hn : y.neg.isFinite = true := y.neg_isFinite.trans hy
  have hns := F64.neg_scaled y
  have hfin : (x.add y.neg).isFinite = true := F64.add_isFinite hx hn (by
    have := F64.mag_add_lt_overflow hy (n := F64.unit) (Nat.pow_lt_pow_right (by decide) (by decide))
    have hxa := x.natAbs_scaled
    have hya := y.natAbs_scaled
    omega)
  rw [F64.sub_eq_add hx hy]
  exact ⟨hfin, fun c hc h => F64.add_le hx hn hc hfin (by omega), fun c hc h => F64.le_add hx hn hc hfin (by omega)⟩

/-- Half of the step above 1: how far a sum passes 1 before it rounds up. -/
def F64.slack : Nat := 2 ^ 1021

theorem F64.unit_eq_slack : F64.unit = 2 ^ 53 * F64.slack := by
  rw [F64.unit, F64.slack, ← pow_add]

/-- A finite value above 1 is at least one step above it. -/
theorem F64.step_above_one {x : F64} (h : (F64.unit : Int) < x.scaled) :
    (F64.unit : Int) + 2 * F64.slack ≤ x.scaled := by
  have hgap := F64.mag_gap x (n := 2 ^ 52) (k := 1022) (.inl (Nat.le_refl _))
  have hstep : 2 ^ 1022 = 2 * F64.slack := by rw [F64.slack, ← Nat.pow_succ']
  have hu := F64.unit_eq_slack
  have habs := x.natAbs_scaled
  rw [hstep] at hgap
  omega

/-- A sum that exceeds 1 by less than half a step is rounded to at most 1. -/
theorem F64.add_le_one {x y : F64} (hx : x.isFinite = true) (hy : y.isFinite = true) (hr : (x.add y).isFinite = true)
    (h : x.scaled + y.scaled < F64.unit + F64.slack) : (x.add y).scaled ≤ F64.unit := by
  obtain ⟨hof, hos⟩ := F64.one_scaled
  by_contra hc
  have hstep := F64.step_above_one (not_le.mp hc)
  have hnear := (additionRoundsToNearest x y F64.one hx hy hof hr).1
  rw [hos] at hnear
  omega

/-- A magnitude below 1 is rounded by less than that. -/
theorem F64.roundMag_lt_slack {neg : Bool} {n : Nat} (h : n < F64.unit) :
    (F64.pack neg (F64.roundMag n 1)).mag < n + F64.slack := by
  have hone := F64.mag_add_lt_overflow F64.one_scaled.1 (Nat.two_pow_pos 2044)
  have hunit := F64.one_fields.2.2.2
  have hover : n < 1 * F64.overflow := by omega
  have hstep : F64.roundStep n 1 = 2 ^ F64.dropBits n 1 := Nat.one_mul _
  have hk : F64.dropBits n 1 ≤ 1021 := by
    have hlog : n.log2 < 1074 := by
      rcases Nat.eq_zero_or_pos n with rfl | hpos
      · decide
      · exact (Nat.log2_lt hpos.ne').mpr h
    rw [F64.dropBits, Nat.div_one]
    omega
  have hle : 2 ^ F64.dropBits n 1 ≤ F64.slack := Nat.pow_le_pow_right Nat.two_pos hk
  have hpos : 0 < F64.slack := Nat.two_pow_pos _
  have herr := F64.roundCount_error n 1
  rw [(F64.roundMag_finite (F64.roundMag_isFinite hover)).2.1, ← hstep]
  rw [← hstep] at hle
  omega

/-- The rounded complement of a value in `[0, 1]`: it and the value add up to 1, or to less than half a step more. -/
theorem F64.one_sub_spec {x : F64} (hx : Machine.InUnit x) :
    Machine.InUnit (F64.one.sub x) ∧ (F64.one.sub x).scaled + x.scaled < F64.unit + F64.slack := by
  obtain ⟨hxf, hx0, hx1⟩ := (Machine.inUnit_iff x).mp hx
  obtain ⟨hof, hos⟩ := F64.one_scaled
  obtain ⟨hzf, hzs⟩ := F64.zero_scaled
  have habs := F64.one.natAbs_scaled
  have hpos : 0 < F64.slack := Nat.two_pow_pos _
  obtain ⟨hf, hle, hge⟩ := F64.sub_spec hof hxf (by omega)
  have hup := hle F64.one hof (by omega)
  have hlo := hge F64.zero hzf (by omega)
  refine ⟨(Machine.inUnit_iff _).mpr ⟨hf, by omega, by omega⟩, ?_⟩
  rcases Int.lt_or_eq_of_le hx0 with hlt | heq
  · obtain ⟨neg, hadd, -⟩ := F64.add_eq_pack hof (x.neg_isFinite.trans hxf)
    have hmag := (F64.one.sub x).natAbs_scaled
    have hns := F64.neg_scaled x
    have hround := F64.roundMag_lt_slack (neg := neg) (n := (F64.one.scaled + x.neg.scaled).natAbs) (by omega)
    rw [← hadd, ← F64.sub_eq_add hof hxf] at hround
    omega
  · omega

/-! ## Values that are not negative, infinities among them -/

/-- Not a NaN and not below 0. -/
structure F64.NotNegative (x : F64) : Prop where
  notNaN : x.isNaN = false
  sign : x.sign = false

/-- A pattern up to the infinity is no NaN. -/
theorem F64.pack_notNaN (neg : Bool) {low : Nat} (h : low ≤ F64.infLow) :
    (F64.pack neg low).isNaN = false ∧ (F64.pack neg low).sign = neg := by
  have hinf : F64.infLow = 2047 * 2 ^ 52 := by decide
  obtain ⟨hs, he, hf, -⟩ := F64.pack_fields neg (low := low) (by omega)
  refine ⟨?_, hs⟩
  simp only [F64.isNaN, he, hf, Bool.and_eq_false_iff, beq_eq_false_iff_ne, bne_eq_false_iff_eq]
  omega

theorem F64.lowOf_le (n k : Nat) : F64.lowOf n k ≤ F64.infLow := Nat.min_le_right _ _

theorem F64.faithful_notNaN (op : FOp) (x : F64) (neg : Bool) (b : Bounds) :
    (F64.faithful op x neg b).isNaN = false ∧ (F64.faithful op x neg b).sign = neg := by
  unfold F64.faithful
  split
  · exact F64.pack_notNaN neg (F64.lowOf_le _ _)
  · exact F64.pack_notNaN neg (le_trans (Nat.min_le_left _ _) (F64.lowOf_le _ _))

theorem F64.sign_of_pos {x : F64} (h : 0 < x.scaled) : x.sign = false := by
  by_contra hc
  rw [F64.scaled, if_pos (by simpa using hc)] at h
  omega

/-- A value that is not negative, divided by a positive finite one. -/
theorem F64.NotNegative.div {x y : F64} (hx : x.NotNegative) (hy : y.isFinite = true) (hpos : 0 < y.scaled) :
    (x.div y).NotNegative := by
  have habs := y.natAbs_scaled
  have hys := F64.sign_of_pos hpos
  have hzero : y.isZero = false := F64.isZero_eq_false (by omega)
  have hpack : ∀ low ≤ F64.infLow, (F64.pack (x.sign != y.sign) low).NotNegative := fun low h =>
    ⟨(F64.pack_notNaN _ h).1, by rw [(F64.pack_notNaN _ h).2, hx.sign, hys]; rfl⟩
  simp only [F64.div, hx.notNaN, F64.isNaN_of_finite hy, F64.isInf_of_finite hy, hzero, Bool.or_self,
    Bool.false_eq_true, if_false]
  split
  · exact hpack _ (Nat.le_refl _)
  · split
    · exact hpack 0 (Nat.zero_le _)
    · exact hpack _ (F64.lowOf_le _ _)

/-- A product of finite values of sign +, which may be an infinity. -/
theorem F64.mul_notNegative {x y : F64} (hx : x.isFinite = true) (hy : y.isFinite = true) (sx : x.sign = false)
    (sy : y.sign = false) : (x.mul y).NotNegative := by
  have hp := F64.pack_notNaN (x.sign != y.sign) (F64.lowOf_le (F64.roundCount (x.mag * y.mag) (2 ^ 1074))
    (F64.dropBits (x.mag * y.mag) (2 ^ 1074)))
  rw [← F64.roundMag_eq, ← F64.mul_eq_pack hx hy] at hp
  exact ⟨hp.1, hp.2.trans (by rw [sx, sy]; rfl)⟩

/-- The logarithm of a finite value of at least 1. -/
theorem fLn_notNegative {x : F64} (hx : x.isFinite = true) (h1 : (F64.unit : Int) ≤ x.scaled) :
    (fLn x).NotNegative := by
  have hu := F64.unit_pos
  have habs := x.natAbs_scaled
  have hs := F64.sign_of_pos (x := x) (by omega)
  have hzero : x.isZero = false := F64.isZero_eq_false (by omega)
  have hlog : 1074 ≤ x.mag.log2 := (Nat.le_log2 (by omega)).mpr (show F64.unit ≤ x.mag by omega)
  have hhi : ¬ (lnFix x).2 < 0 := by
    have he : ¬ ((x.mag.log2 : Int) - 1074) < 0 := by omega
    simp only [lnFix, if_neg he]
    exact Int.not_lt.mpr (Int.add_nonneg (Int.mul_nonneg (by omega) (Int.natCast_nonneg _)) (Int.natCast_nonneg _))
  simp only [fLn, F64.isNaN_of_finite hx, F64.isInf_of_finite hx, hzero, hs, Bool.or_self, Bool.false_eq_true,
    if_false, if_neg hhi]
  split
  · exact ⟨by decide, by decide⟩
  · exact ⟨(F64.faithful_notNaN ..).1, (F64.faithful_notNaN ..).2⟩

/-! ## `F_exp` of a value that is not positive -/

theorem squareDown_ge (k : Nat) {v : Nat} (h : fixOne ≤ v) : fixOne ≤ squareDown k v := by
  induction k generalizing v with
  | zero => exact h
  | succ k ih =>
    refine ih ((Nat.le_div_iff_mul_le (Nat.two_pow_pos _)).mpr ?_)
    exact Nat.mul_le_mul h h

theorem squareUp_ge (k : Nat) {v : Nat} (h : fixOne ≤ v) : fixOne ≤ squareUp k v := by
  induction k generalizing v with
  | zero => exact h
  | succ k ih =>
    refine ih (Nat.le_succ_of_le ((Nat.le_div_iff_mul_le (Nat.two_pow_pos _)).mpr ?_))
    exact Nat.mul_le_mul h h

theorem expBounds_atMostOne {x : F64} (hs : x.sign = true) : (expBounds x).AtMostOne := by
  simp only [expBounds, hs, if_true]
  split
  · exact ⟨Nat.one_pos, Nat.two_pow_pos _, Nat.zero_le _, Nat.one_le_two_pow⟩
  · have hone : 0 < fixOne := Nat.two_pow_pos _
    have hlo : fixOne ≤ (expFix x.mag F64.unit).1 := squareDown_ge 20 (Nat.le_add_right _ _)
    have hhi : fixOne ≤ (expFix x.mag F64.unit).2 := squareUp_ge 20 (Nat.le_add_right _ _)
    exact ⟨Nat.lt_of_lt_of_le hone hhi, Nat.lt_of_lt_of_le hone hlo, hhi, Nat.min_le_right _ _⟩

theorem expBoundsFarBelow_atMostOne : expBoundsFarBelow.AtMostOne :=
  ⟨Nat.one_pos, Nat.two_pow_pos _, Nat.zero_le _, Nat.one_le_two_pow⟩

end Sys2Proof

namespace Sys2Proof.Machine

/-- A pattern of at most 1. -/
theorem pack_inUnit {low : Nat} (h : low ≤ 1023 * 2 ^ 52) : InUnit (F64.pack false low) := by
  obtain ⟨hs, -, -, hlow⟩ := F64.pack_fields false (low := low) (by omega)
  have hinf : F64.infLow = 2047 * 2 ^ 52 := by decide
  have habs : (F64.pack false low).abs = F64.pack false low := by rw [F64.abs, hlow]
  have hn := (F64.pack_notNaN false (low := low) (by omega)).1
  have hzn : F64.zero.isNaN = false := by decide
  have hzo : F64.zero.order = 0 := by decide
  refine ⟨?_, habs ▸ F64.abs_pack_le_one false h⟩
  have ho : (F64.pack false low).order = low := by simp [F64.order, hs, hlow]
  simp [F64.le, hn, hzn, hzo, ho]

theorem faithful_inUnit (op : FOp) (x : F64) {b : Bounds} (hb : b.AtMostOne) :
    InUnit (F64.faithful op x false b) := by
  obtain ⟨low, hlow, hpack⟩ := F64.faithful_eq_pack op x hb
  rw [hpack]
  exact pack_inUnit hlow

/-- `F_exp` of a value that is not positive, `-∞` among them (log entry 3). -/
theorem fExp_inUnit {x : F64} (hn : x.isNaN = false) (hs : x.sign = true) : InUnit (fExp x) := by
  simp only [fExp, hn, hs, Bool.false_eq_true, if_false, if_true]
  split
  · exact faithful_inUnit .exp x expBoundsFarBelow_atMostOne
  · split
    · exact inUnit_one
    · exact faithful_inUnit .exp x (expBounds_atMostOne hs)

/-! ## The slope coefficient (rule R200) -/

theorem minNormal_scaled : F64.minNormal.isFinite = true ∧ F64.minNormal.scaled = 2 ^ 52 := by decide +kernel

theorem two_scaled : F64.two.isFinite = true ∧ F64.two.scaled = 2 * F64.unit := by decide +kernel

theorem curveLegal_scaled {s : F64} (hs : CurveLegal s) : 2 ^ 52 ≤ s.scaled := by
  obtain ⟨hmf, hms⟩ := minNormal_scaled
  have := (F64.le_iff hmf hs.1).mp hs.2
  omega

/-- `1 + s` for a curvature `s`, however large. -/
theorem one_add_curve {s : F64} (hs : CurveLegal s) : (F64.one.add s).isFinite = true ∧
    (F64.unit : Int) ≤ (F64.one.add s).scaled ∧ s.scaled ≤ (F64.one.add s).scaled ∧
    (s.scaled ≤ F64.unit → (F64.one.add s).scaled ≤ 2 * F64.unit) := by
  obtain ⟨hof, hos⟩ := F64.one_scaled
  obtain ⟨htf, hts⟩ := two_scaled
  have hpos := curveLegal_scaled hs
  have hu := F64.unit_pos
  have habs := s.natAbs_scaled
  have hover := F64.mag_add_lt_overflow hs.1 (n := F64.unit) (Nat.pow_lt_pow_right (by decide) (by decide))
  have hf : (F64.one.add s).isFinite = true := F64.add_isFinite hof hs.1 (by omega)
  exact ⟨hf, hos ▸ F64.le_add hof hs.1 hof hf (by omega), F64.le_add hof hs.1 hs.1 hf (by omega),
    fun h => hts ▸ F64.add_le hof hs.1 htf hf (by omega)⟩

/-- The ratio `(1 + s) / s` is finite and at least 1. -/
theorem slopeRatio_ge_one {s : F64} (hs : CurveLegal s) : ((F64.one.add s).div s).isFinite = true ∧
    (F64.unit : Int) ≤ ((F64.one.add s).div s).scaled := by
  obtain ⟨hof, hos⟩ := F64.one_scaled
  obtain ⟨haf, ha1, has, ha2⟩ := one_add_curve hs
  have hpos := curveLegal_scaled hs
  have habs := s.natAbs_scaled
  have haabs := (F64.one.add s).natAbs_scaled
  have hf : ((F64.one.add s).div s).isFinite = true := by
    refine F64.div_isFinite haf hs.1 (by omega) ?_
    rcases Nat.lt_or_ge s.mag F64.unit with hlt | hge
    · have hsmall : 2 * F64.unit * F64.unit < 2 ^ 52 * F64.overflow := by decide +kernel
      calc (F64.one.add s).mag * F64.unit ≤ 2 * F64.unit * F64.unit := Nat.mul_le_mul_right _ (by omega)
        _ < 2 ^ 52 * F64.overflow := hsmall
        _ ≤ s.mag * F64.overflow := Nat.mul_le_mul_right _ (by omega)
    · calc (F64.one.add s).mag * F64.unit < F64.overflow * F64.unit :=
            Nat.mul_lt_mul_of_pos_right (F64.mag_add_lt_overflow haf (Nat.two_pow_pos 2044)) (Nat.two_pow_pos _)
        _ ≤ F64.overflow * s.mag := Nat.mul_le_mul_left _ hge
        _ = s.mag * F64.overflow := Nat.mul_comm _ _
  refine ⟨hf, hos ▸ F64.le_div haf hs.1 hof hf (by omega) ?_⟩
  rw [hos, Int.mul_comm]
  exact Int.mul_le_mul_of_nonneg_right has (Int.natCast_nonneg _)

/-- For a legal stage length and curvature. -/
theorem slopeCoef_inUnit {n s : F64} (hn : LengthLegal n) (hs : CurveLegal s) : InUnit (slopeCoef n s) := by
  obtain ⟨hzf, hzs⟩ := F64.zero_scaled
  obtain ⟨hrf, hr1⟩ := slopeRatio_ge_one hs
  have hge := (F64.le_iff hzf hn.1).mp hn.2
  unfold slopeCoef
  split
  · exact inUnit_zero
  · rename_i hne
    rw [F64.eq_iff hn.1 hzf] at hne
    have hq := (fLn_notNegative hrf hr1).div hn.1 (by omega)
    have hneg := F64.neg_class ((fLn ((F64.one.add s).div s)).div n)
    exact fExp_inUnit (hneg.1.trans hq.notNaN) ((F64.neg_fields _).1.trans (by rw [hq.sign]; rfl))

/-! ## The step (rule R220) -/

/-- Any finite value times a value in `[0, 1]`, plus a value in `[0, 1]`: the shape of a stage's recurrence. -/
theorem stage_isFinite {a p x : F64} (ha : a.isFinite = true) (hp : InUnit p) (hx : InUnit x) :
    (a.mul p).isFinite = true ∧ ((a.mul p).add x).isFinite = true := by
  obtain ⟨hpf, hp0, hp1⟩ := (inUnit_iff p).mp hp
  obtain ⟨hxf, hx0, hx1⟩ := (inUnit_iff x).mp hx
  have hpabs := p.natAbs_scaled
  have hmul := F64.mul_isFinite_of_le_one ha hpf (by omega)
  have habs := (a.mul p).natAbs_scaled
  have hover := F64.mag_add_lt_overflow hmul (n := F64.unit) (Nat.pow_lt_pow_right (by decide) (by decide))
  exact ⟨hmul, F64.add_isFinite hmul hxf (by omega)⟩

/-- The attack recurrence does not fall below 0. -/
theorem attack_ge_zero {curve coef value : F64} (hc : CurveLegal curve) (hk : InUnit coef) (hv : InUnit value) :
    ((attackBase curve coef).add (value.mul coef)).isFinite = true ∧
    0 ≤ ((attackBase curve coef).add (value.mul coef)).scaled := by
  rw [attackBase]
  obtain ⟨hzf, hzs⟩ := F64.zero_scaled
  obtain ⟨hp, -⟩ := F64.one_sub_spec hk
  obtain ⟨hpf, hp0, -⟩ := (inUnit_iff _).mp hp
  obtain ⟨hx, -⟩ := mul_inUnit hv hk
  obtain ⟨hxf, hx0, -⟩ := (inUnit_iff _).mp hx
  obtain ⟨haf, ha1, -⟩ := one_add_curve hc
  have hu := F64.unit_pos
  obtain ⟨hbf, hf⟩ := stage_isFinite haf hp hx
  have hb := F64.le_mul haf hpf hzf hbf (by rw [hzs, Int.zero_mul]; exact Int.mul_nonneg (by omega) hp0)
  exact ⟨hf, hzs ▸ F64.le_add hbf hxf hzf hf (by omega)⟩

/-- The decay recurrence does not exceed 1: the base is at most the rounded complement of the coefficient. -/
theorem decay_le_one {sustain curve coef value : F64} (hs : InUnit sustain) (hc : CurveLegal curve)
    (hk : InUnit coef) (hv : InUnit value) :
    ((decayBase sustain curve coef).add (value.mul coef)).isFinite = true ∧
    ((decayBase sustain curve coef).add (value.mul coef)).scaled ≤ F64.unit := by
  rw [decayBase]
  obtain ⟨hsf, hs0, hs1⟩ := (inUnit_iff _).mp hs
  obtain ⟨hof, hos⟩ := F64.one_scaled
  obtain ⟨hp, hsum⟩ := F64.one_sub_spec hk
  obtain ⟨hpf, hp0, hp1⟩ := (inUnit_iff _).mp hp
  obtain ⟨hx, hxk⟩ := mul_inUnit hv hk
  obtain ⟨hxf, -, -⟩ := (inUnit_iff _).mp hx
  have hcs := curveLegal_scaled hc
  have hsabs := sustain.natAbs_scaled
  obtain ⟨haf, hale, -⟩ := F64.sub_spec hsf hc.1 (by omega)
  have ha1 := hale F64.one hof (by omega)
  obtain ⟨hbf, hf⟩ := stage_isFinite haf hp hx
  have hb := F64.mul_le haf hpf hpf hbf (by
    rw [Int.mul_comm _ (F64.unit : Int)]
    exact Int.mul_le_mul_of_nonneg_right (by omega) hp0)
  exact ⟨hf, F64.add_le_one hbf hxf hf (by omega)⟩

/-- The release recurrence does not exceed 1. -/
theorem release_le_one {curve coef value : F64} (hc : CurveLegal curve) (hk : InUnit coef) (hv : InUnit value) :
    ((releaseBase curve coef).add (value.mul coef)).isFinite = true ∧
    ((releaseBase curve coef).add (value.mul coef)).scaled ≤ F64.unit := by
  rw [releaseBase]
  obtain ⟨hzf, hzs⟩ := F64.zero_scaled
  obtain ⟨hof, hos⟩ := F64.one_scaled
  obtain ⟨hp, -⟩ := F64.one_sub_spec hk
  obtain ⟨hpf, hp0, -⟩ := (inUnit_iff _).mp hp
  obtain ⟨hx, -⟩ := mul_inUnit hv hk
  obtain ⟨hxf, -, hx1⟩ := (inUnit_iff _).mp hx
  have hcs := curveLegal_scaled hc
  have hzabs := F64.zero.natAbs_scaled
  obtain ⟨haf, hale, -⟩ := F64.sub_spec hzf hc.1 (by omega)
  have ha0 := hale F64.zero hzf (by omega)
  obtain ⟨hbf, hf⟩ := stage_isFinite haf hp hx
  have hb := F64.mul_le haf hpf hzf hbf (by
    rw [hzs, Int.zero_mul]
    exact Int.mul_nonpos_of_nonpos_of_nonneg (by omega) hp0)
  exact ⟨hf, hos ▸ F64.add_le hbf hxf hof hf (by omega)⟩

theorem coefs_inUnit {e : Envelope} (h : EnvInv e) : InUnit e.coefA ∧ InUnit e.coefD ∧ InUnit e.coefR := by
  obtain ⟨hA, hD, hR⟩ := h.lengths
  obtain ⟨cA, cD, cR⟩ := h.curves
  rw [h.attack.1, h.decay.1, h.release.1]
  exact ⟨slopeCoef_inUnit hA cA, slopeCoef_inUnit hD cD, slopeCoef_inUnit hR cR⟩

/-- The step keeps the value in `[0, 1]` (rule R221). -/
theorem envStep_inUnit {e : Envelope} (h : EnvInv e) : InUnit (envStep e).value := by
  obtain ⟨hzf, hzs⟩ := F64.zero_scaled
  obtain ⟨hof, hos⟩ := F64.one_scaled
  obtain ⟨hkA, hkD, hkR⟩ := coefs_inUnit h
  obtain ⟨hcA, hcD, hcR⟩ := h.curves
  have hv := h.valueRange
  have hs := h.sustainRange
  unfold envStep
  cases e.state with
  | idle => exact hv
  | attack =>
    obtain ⟨hf, h0⟩ := attack_ge_zero hcA hkA hv
    rw [← h.attack.2] at hf h0
    dsimp only
    split
    · exact inUnit_one
    · rename_i hlt
      rw [F64.le_iff hof hf] at hlt
      exact (inUnit_iff _).mpr ⟨hf, h0, by dsimp only; omega⟩
  | decay =>
    obtain ⟨hf, h1⟩ := decay_le_one hs hcD hkD hv
    rw [← h.decay.2] at hf h1
    obtain ⟨hsf, hs0, -⟩ := (inUnit_iff _).mp hs
    dsimp only
    split
    · exact hs
    · rename_i hge
      rw [F64.lt_iff hf hsf] at hge
      exact (inUnit_iff _).mpr ⟨hf, by dsimp only; omega, h1⟩
  | sustain => exact hs
  | release =>
    obtain ⟨hf, h1⟩ := release_le_one hcR hkR hv
    rw [← h.release.2] at hf h1
    dsimp only
    split
    · exact inUnit_zero
    · rename_i hgt
      rw [F64.le_iff hf hzf] at hgt
      exact (inUnit_iff _).mpr ⟨hf, by dsimp only; omega, h1⟩

/-- The step writes the stage and the value only. -/
theorem envStep_writes (e : Envelope) : ∃ state value, envStep e = { e with state := state, value := value } := by
  unfold envStep
  cases e.state with
  | idle => exact ⟨e.state, e.value, rfl⟩
  | attack => dsimp only; split <;> exact ⟨_, _, rfl⟩
  | decay => dsimp only; split <;> exact ⟨_, _, rfl⟩
  | sustain => exact ⟨.sustain, _, rfl⟩
  | release => dsimp only; split <;> exact ⟨_, _, rfl⟩

theorem envStep_inv {e : Envelope} (h : EnvInv e) : EnvInv (envStep e) := by
  have hv := envStep_inUnit h
  obtain ⟨state, value, he⟩ := envStep_writes e
  rw [he] at hv ⊢
  exact { h with valueRange := hv }

end Sys2Proof.Machine

/-! PROOFS. The invariant (O55), the commands: refusing, inserting, and the effect of each command keep it. -/

namespace Sys2Proof.Machine

/-! ## Refusing and inserting -/

theorem Inv.enterFault {s : State} (h : Inv s) (c : FaultCause) (hdr : BitVec 32) (arg : Word64) :
    Inv (enterFault c hdr arg s) :=
  { h with
    readyOrFaulted := .inr rfl
    faultIdle := fun _ => ⟨rfl, rfl⟩
    tickPulled := nofun }

/-- A command that may be deferred, with its `D` bit cleared, is a command for the same voice (rules R92, R94). -/
theorem instrAt_undeferred (i : Instr) :
    ∃ j, instrAt i.opcode false i.idx i.operand = some j ∧ j.deferred = false ∧ j.voice = i.voice := by
  cases i <;> exact ⟨_, rfl, rfl, rfl⟩

/-- The header of a command that is not deferred passes the checks of rule R96. -/
theorem decodePacket_headerOf {op idx : BitVec 8} {arg : Word64} {j : Instr} (hj : instrAt op false idx arg = some j)
    (hv : j.voice = none → idx = 0) : decodePacket (headerOf false idx op) arg = .ok j := by
  have hidx : (j.voice.isNone && idx != 0) = false := by
    cases hvo : j.voice with
    | none => simp [hv hvo]
    | some v => rfl
  simp only [decodePacket, Laws.hdrOp_headerOf, Laws.hdrIdx_headerOf, Laws.hdrDefer_headerOf, Laws.hdrRsv_headerOf, hj,
    hidx]
  rfl

/-- The event that a deferred command becomes is checked, if its voice exists (46_scheduler.md rule R322). -/
theorem eventChecked_deferred {i : Instr} {n : Nat} (hv : ∀ v, i.voice = some v → v.toNat < n) (t : BitVec 64) :
    eventChecked n ⟨t, clearDefer i.header, i.operand⟩ := by
  obtain ⟨j, hj, hjd, hjv⟩ := instrAt_undeferred i
  have hh : clearDefer i.header = headerOf false i.idx i.opcode := Laws.clearDefer_headerOf _ _ _
  have hidx : j.voice = none → i.idx = 0 := fun hn => by
    rw [Instr.idx, ← hjv, hn]
    rfl
  refine ⟨j, hh ▸ decodePacket_headerOf hj hidx, hjd, ?_⟩
  unfold Instr.wellFormed
  rw [hjv]
  cases hvo : i.voice with
  | none => rfl
  | some v => simpa using hv v hvo

theorem Inv.insert {s : State} (h : Inv s) (hroom : s.heap.length < s.cfg.heapCap) {e : Event}
    (he : eventChecked s.cfg.nOsc e) : Inv { s with heap := heapInsert s.heap e } :=
  { h with
    heapBound := by rw [heapInsert_length]; exact hroom
    heapOrdered := heapInsert_ordered h.heapOrdered e
    heapChecked := fun x hx => by
      rcases List.mem_cons.mp ((heapInsert_perm s.heap e).mem_iff.mp hx) with rfl | hx
      · exact he
      · exact h.heapChecked x hx }

/-- A command that takes no voice keeps the invariant when its effect does. -/
theorem runCommand_inv {i : Instr} {f : State → Except FaultCause State} {s t : State} (h : runCommand i f s = .next t)
    (hi : Inv s) (hv : i.voice = none) (hf : Yields Inv (f s)) : Inv t := by
  rcases runCommand_cases h with ⟨-, hroom, rfl⟩ | ⟨-, -, rfl⟩ | ⟨-, hok⟩ | ⟨-, c, -, rfl⟩
  · exact hi.insert hroom (eventChecked_deferred (by simp [hv]) _)
  · exact hi.enterFault _ _ _
  · exact hf t hok
  · exact hi.enterFault _ _ _

theorem Inv.setVoice {s : State} (h : Inv s) (n : Nat) {vo : Voice} (hvo : VoiceInv s.cfg vo) :
    Inv { s with voices := s.voices.set n vo } :=
  { h with
    voiceCount := by rw [List.length_set]; exact h.voiceCount
    voiceInv := fun v hv => by
      rcases List.mem_or_eq_of_mem_set hv with hv | rfl
      · exact h.voiceInv v hv
      · exact hvo }

/-- A voice command keeps the invariant when its effect keeps the voice's. -/
theorem runVoice_inv {i : Instr} {v : BitVec 8} {f : State → Voice → Except FaultCause Voice} {s t : State}
    (h : runVoice i v f s = .next t) (hi : Inv s) (hv : i.voice = some v)
    (hf : ∀ vo, VoiceInv s.cfg vo → Yields (VoiceInv s.cfg) (f s vo)) : Inv t := by
  rcases runVoice_cases h with ⟨-, rfl⟩ | ⟨vo, hvo, ⟨-, hroom, rfl⟩ | ⟨-, -, rfl⟩ | ⟨-, vo', hok, rfl⟩ | ⟨-, c, -, rfl⟩⟩
  · exact hi.enterFault _ _ _
  · refine hi.insert hroom (eventChecked_deferred (fun w hw => ?_) _)
    rw [hv] at hw
    cases hw
    exact hi.voiceCount ▸ (List.getElem?_eq_some_iff.mp hvo).1
  · exact hi.enterFault _ _ _
  · exact hi.setVoice _ (hf vo (hi.voiceInv vo (List.mem_of_getElem? hvo)) vo' hok)
  · exact hi.enterFault _ _ _

/-! ## The checks of an operand -/

theorem operandF_ok {arg : Word64} {x : F64} (h : operandF arg = .ok x) : x.isFinite = true := by
  unfold operandF at h
  split at h
  · rename_i hf
    cases h
    exact hf
  · cases h

theorem require_ok {ok : Bool} {c : FaultCause} {u : Unit} (h : require ok c = .ok u) : ok = true := by
  cases ok with
  | true => rfl
  | false => cases h

theorem require_finite {x : F64} {c : FaultCause} {u : Unit} (hx : x.NotNegative)
    (h : require (!isPosInf x) c = .ok u) : x.isFinite = true := by
  have hn := hx.notNaN
  have hp := require_ok h
  simp only [isPosInf, hx.sign, Bool.not_false, Bool.and_true, Bool.not_eq_true'] at hp
  simp only [F64.isNaN, F64.isInf, F64.isFinite] at hn hp ⊢
  grind

/-! ## The rates (10_state.md rules R34, R36) -/

theorem innerRateOf_notNegative {p : Params} (hp : paramsCounted p) {r : F64} (hr : r.isFinite = true)
    (hs : r.sign = false) : (innerRateOf p r).NotNegative := by
  obtain ⟨-, -, -, hratio, -⟩ := hp
  obtain ⟨hk, hks, -⟩ := F64.ofNat_within (m := 16) hratio.1 hratio.2 (by decide)
  unfold innerRateOf
  split
  · exact F64.mul_notNegative hr hk.1 hs hks
  · exact ⟨F64.isNaN_of_finite hr, hs⟩

theorem rateConfigured_ok {s : State} {u : Unit} (h : rateConfigured s = .ok u) :
    s.sampleRate.eq F64.zero = false := by
  unfold rateConfigured at h
  split at h
  · cases h
  · rename_i hne
    simpa using hne

theorem sign_of_zero_lt {r : F64} (hf : r.isFinite = true) (h : F64.zero.lt r = true) : r.sign = false := by
  obtain ⟨hzf, hzs⟩ := F64.zero_scaled
  rw [F64.lt_iff hzf hf, hzs] at h
  exact F64.sign_of_pos h

/-- With a rate configured, the inner rate is finite and not negative. -/
theorem Inv.innerRate_spec {s : State} (h : Inv s) (hr : s.sampleRate.eq F64.zero = false) :
    s.innerRate.isFinite = true ∧ s.innerRate.sign = false := by
  rcases h.rates with ⟨hzero, -⟩ | ⟨hf, hpos, hif, hinner⟩
  · rw [hzero] at hr
    exact absurd hr (by decide)
  · refine ⟨hif, ?_⟩
    rw [hinner]
    exact (innerRateOf_notNegative h.legal.1 hf (sign_of_zero_lt hf hpos)).sign

/-- A stage length that passes its checks (42_envelope.md rules R204, R212). -/
theorem stageLength_legal {s : State} (hi : Inv s) (arg : Word64) : Yields LengthLegal (stageLength s arg) := by
  refine .bind fun _ hrate => .bind fun t ht => .bind fun _ hneg => .bind fun _ hinf => .pure ?_
  obtain ⟨hzf, hzs⟩ := F64.zero_scaled
  have htf := operandF_ok ht
  have ht0 : ¬ t.lt F64.zero = true := by simpa using require_ok hneg
  rw [F64.lt_iff htf hzf, hzs] at ht0
  obtain ⟨hrf, hrs⟩ := hi.innerRate_spec (rateConfigured_ok hrate)
  have hr0 : 0 ≤ s.innerRate.scaled := by
    rw [F64.scaled, hrs]
    exact Int.natCast_nonneg _
  have hf : (t.mul s.innerRate).isFinite = true := by
    cases hts : t.sign with
    | false => exact require_finite (F64.mul_notNegative htf hrf hts hrs) hinf
    | true =>
      have hmag : t.mag = 0 := by
        rw [F64.scaled, hts, if_pos rfl] at ht0
        omega
      refine F64.mul_isFinite htf hrf ?_
      rw [hmag, Nat.zero_mul]
      exact Nat.mul_pos (Nat.two_pow_pos _) (Nat.mul_pos (by decide) (Nat.two_pow_pos _))
  exact ⟨hf, (F64.le_iff hzf hf).mpr (F64.le_mul htf hrf hzf hf (by
    rw [hzs, Int.zero_mul]
    exact Int.mul_nonneg (by omega) hr0))⟩

theorem curvature_legal (arg : Word64) : Yields CurveLegal (curvature arg) :=
  .bind fun _ hc => .bind fun _ hm => .pure ⟨operandF_ok hc, require_ok hm⟩

/-! ## An envelope whose coefficients are computed again -/

theorem EnvInv.recomputeAttack {e : Envelope} (h : EnvInv e) {n c : F64} (hn : LengthLegal n) (hc : CurveLegal c) :
    EnvInv (recomputeAttack { e with nA := n, curveA := c }) :=
  { h with
    lengths := ⟨hn, h.lengths.2⟩
    curves := ⟨hc, h.curves.2⟩
    attack := ⟨rfl, rfl⟩ }

theorem EnvInv.recomputeDecay {e : Envelope} (h : EnvInv e) {n c level : F64} (hn : LengthLegal n) (hc : CurveLegal c)
    (hl : InUnit level) : EnvInv (recomputeDecay { e with nD := n, curveD := c, sustain := level }) :=
  { h with
    sustainRange := hl
    lengths := ⟨h.lengths.1, hn, h.lengths.2.2⟩
    curves := ⟨h.curves.1, hc, h.curves.2.2⟩
    decay := ⟨rfl, rfl⟩ }

theorem EnvInv.recomputeRelease {e : Envelope} (h : EnvInv e) {n c : F64} (hn : LengthLegal n) (hc : CurveLegal c) :
    EnvInv (recomputeRelease { e with nR := n, curveR := c }) :=
  { h with
    lengths := ⟨h.lengths.1, h.lengths.2.1, hn⟩
    curves := ⟨h.curves.1, h.curves.2.1, hc⟩
    release := ⟨rfl, rfl⟩ }

/-! ## The bound buffer (44_resampler.md rules R271, R272; the bit above `RS_BASE`, log entry 14) -/

/-- A base whose extent fits: `2^SAMPLE_ADDR_BITS` fits with no frame bound only. -/
theorem Inv.setBase {s : State} (hi : Inv s) {arg : Word64}
    (hfit : arg.toNat + s.rs.frames.toNat * s.cfg.channels ≤ 2 ^ s.cfg.sampleAddrBits) :
    Inv { s with rs := { s.rs with
      base := BitVec.ofNat 64 (arg.toNat % 2 ^ s.cfg.sampleAddrBits)
      baseTop := decide (2 ^ s.cfg.sampleAddrBits ≤ arg.toNat) } } := by
  obtain ⟨-, hch, -, -, -, -, -, -, -, -, haddr⟩ := hi.legal.1
  have hlt : 2 ^ s.cfg.sampleAddrBits < 2 ^ 64 := Nat.pow_lt_pow_right (by decide) (by omega)
  have hmod := Nat.mod_lt arg.toNat (Nat.two_pow_pos s.cfg.sampleAddrBits)
  refine { hi with baseFits := ?_, baseTopEmpty := fun htop => ?_, extentFits := ?_, framesFit := hi.framesFit }
  · dsimp only
    rw [BitVec.toNat_ofNat, Nat.mod_eq_of_lt (by omega)]
    exact hmod
  · have hge : 2 ^ s.cfg.sampleAddrBits ≤ arg.toNat := of_decide_eq_true htop
    have harg : arg.toNat = 2 ^ s.cfg.sampleAddrBits := by omega
    have hframes : s.rs.frames.toNat = 0 :=
      (Nat.mul_eq_zero.mp (by omega : s.rs.frames.toNat * s.cfg.channels = 0)).resolve_right (by omega)
    refine ⟨?_, BitVec.eq_of_toNat_eq hframes⟩
    dsimp only
    rw [harg, Nat.mod_self]
    rfl
  · dsimp only
    rw [rsBase_stored s.cfg s.rs (Nat.le_of_add_right_le hfit) arg.isLt]
    exact hfit

/-- A frame count in range whose extent fits: with the bit above `RS_BASE` set, 0 only. -/
theorem Inv.setFrames {s : State} (hi : Inv s) {arg : Word64} (hrange : arg.toNat + s.cfg.half ≤ 2 ^ 31 - 1)
    (hfit : rsBase s.cfg s.rs + arg.toNat * s.cfg.channels ≤ 2 ^ s.cfg.sampleAddrBits) :
    Inv { s with rs := { s.rs with frames := BitVec.ofNat 32 arg.toNat } } := by
  obtain ⟨-, hch, -⟩ := hi.legal.1
  have hframes : (BitVec.ofNat 32 arg.toNat).toNat = arg.toNat := Nat.mod_eq_of_lt (by omega)
  refine { hi with baseTopEmpty := fun htop => ?_, extentFits := ?_, framesFit := by dsimp only; omega }
  · have hbase := (hi.baseTopEmpty htop).1
    have htop : s.rs.baseTop = true := htop
    have hrs : rsBase s.cfg s.rs = 2 ^ s.cfg.sampleAddrBits := by simp [rsBase, hbase, htop]
    have harg : arg.toNat = 0 :=
      (Nat.mul_eq_zero.mp (by omega : arg.toNat * s.cfg.channels = 0)).resolve_right (by omega)
    exact ⟨hbase, BitVec.eq_of_toNat_eq (hframes.trans harg)⟩
  · dsimp only
    rw [hframes]
    exact hfit

/-! ## One lemma per command -/

section
variable {d : Bool} {v : BitVec 8} {arg : Word64} {s t : State}

theorem execNop_inv (h : execNop d arg s = .next t) (hi : Inv s) : Inv t :=
  runCommand_inv h hi rfl (.bind fun _ _ => .pure hi)

theorem execSetSampleRate_inv (h : execSetSampleRate d arg s = .next t) (hi : Inv s) : Inv t :=
  runCommand_inv h hi rfl (.bind fun _ hr => .bind fun _ hpos => .bind fun _ hinf => .pure (by
    have hf := operandF_ok hr
    have hlt := require_ok hpos
    have hinner := innerRateOf_notNegative hi.legal.1 hf (sign_of_zero_lt hf hlt)
    exact { hi with rates := .inr ⟨hf, hlt, require_finite hinner hinf, rfl⟩ }))

theorem VoiceInv.setInc {p : Params} {vo : Voice} (h : VoiceInv p vo) (inc : BitVec 28) :
    VoiceInv p { vo with inc := inc } :=
  { h with }

theorem execOscSetHz_inv (h : execOscSetHz d v arg s = .next t) (hi : Inv s) : Inv t :=
  runVoice_inv h hi rfl fun _ hvo => .bind fun _ _ => .bind fun _ _ => .bind fun _ _ => .pure (hvo.setInc _)

theorem execOscSetShift_inv (h : execOscSetShift d v arg s = .next t) (hi : Inv s) : Inv t :=
  runVoice_inv h hi rfl fun _ hvo => .bind fun _ hx => .pure { hvo with shiftRange := shiftOf_range (operandF_ok hx) }

theorem execOscSetFlags_inv (h : execOscSetFlags d v arg s = .next t) (hi : Inv s) : Inv t :=
  runVoice_inv h hi rfl fun _ hvo => .bind fun _ _ => .pure { hvo with }

theorem execOscSetGainDirect_inv (h : execOscSetGainDirect d v arg s = .next t) (hi : Inv s) : Inv t :=
  runVoice_inv h hi rfl fun _ hvo => .bind fun _ _ => .pure { hvo with }

theorem execOscSetGainFilter_inv (h : execOscSetGainFilter d v arg s = .next t) (hi : Inv s) : Inv t :=
  runVoice_inv h hi rfl fun _ hvo => .bind fun _ _ => .pure { hvo with }

theorem execOscWtWrite_inv (h : execOscWtWrite d v arg s = .next t) (hi : Inv s) : Inv t :=
  runVoice_inv h hi rfl fun _ hvo => .bind fun _ _ =>
    .pure { hvo with tableLength := (List.length_set ..).trans hvo.tableLength }

theorem execEnvOn_inv (h : execEnvOn d v arg s = .next t) (hi : Inv s) : Inv t :=
  runVoice_inv h hi rfl fun _ hvo => .bind fun _ _ => .pure { hvo with envInv := { hvo.envInv with } }

theorem execEnvOff_inv (h : execEnvOff d v arg s = .next t) (hi : Inv s) : Inv t :=
  runVoice_inv h hi rfl fun _ hvo => .bind fun _ _ => .pure (by
    split
    · exact hvo
    · exact { hvo with envInv := { hvo.envInv with } })

theorem execEnvSetAttack_inv (h : execEnvSetAttack d v arg s = .next t) (hi : Inv s) : Inv t :=
  runVoice_inv h hi rfl fun _ hvo => .bind fun n hn =>
    .pure { hvo with envInv := hvo.envInv.recomputeAttack (stageLength_legal hi arg n hn) hvo.envInv.curves.1 }

theorem execEnvSetDecay_inv (h : execEnvSetDecay d v arg s = .next t) (hi : Inv s) : Inv t :=
  runVoice_inv h hi rfl fun _ hvo => .bind fun n hn =>
    .pure { hvo with envInv := hvo.envInv.recomputeDecay (stageLength_legal hi arg n hn) hvo.envInv.curves.2.1
                                hvo.envInv.sustainRange }

theorem execEnvSetSustain_inv (h : execEnvSetSustain d v arg s = .next t) (hi : Inv s) : Inv t :=
  runVoice_inv h hi rfl fun _ hvo => .bind fun level _ => .bind fun _ hl => .pure (by
    have hlevel : InUnit level := by simpa using require_ok hl
    exact { hvo with envInv := hvo.envInv.recomputeDecay hvo.envInv.lengths.2.1 hvo.envInv.curves.2.1 hlevel })

theorem execEnvSetRelease_inv (h : execEnvSetRelease d v arg s = .next t) (hi : Inv s) : Inv t :=
  runVoice_inv h hi rfl fun _ hvo => .bind fun n hn =>
    .pure { hvo with envInv := hvo.envInv.recomputeRelease (stageLength_legal hi arg n hn) hvo.envInv.curves.2.2 }

theorem execEnvSetCurveAttack_inv (h : execEnvSetCurveAttack d v arg s = .next t) (hi : Inv s) : Inv t :=
  runVoice_inv h hi rfl fun _ hvo => .bind fun c hc =>
    .pure { hvo with envInv := hvo.envInv.recomputeAttack hvo.envInv.lengths.1 (curvature_legal arg c hc) }

theorem execEnvSetCurveDecay_inv (h : execEnvSetCurveDecay d v arg s = .next t) (hi : Inv s) : Inv t :=
  runVoice_inv h hi rfl fun _ hvo => .bind fun c hc =>
    .pure { hvo with envInv := hvo.envInv.recomputeDecay hvo.envInv.lengths.2.1 (curvature_legal arg c hc)
                                hvo.envInv.sustainRange }

theorem execEnvSetCurveRelease_inv (h : execEnvSetCurveRelease d v arg s = .next t) (hi : Inv s) : Inv t :=
  runVoice_inv h hi rfl fun _ hvo => .bind fun c hc =>
    .pure { hvo with envInv := hvo.envInv.recomputeRelease hvo.envInv.lengths.2.2 (curvature_legal arg c hc) }

theorem execFltSetFc_inv (h : execFltSetFc d arg s = .next t) (hi : Inv s) : Inv t :=
  runCommand_inv h hi rfl (.bind fun _ hx => .pure
    { hi with
      filterRange := ⟨inUnit_clamp (operandF_ok hx), hi.filterRange.2⟩
      filterDerived := ⟨rfl, rfl, hi.filterDerived.2.2⟩ })

theorem execFltSetQ_inv (h : execFltSetQ d arg s = .next t) (hi : Inv s) : Inv t :=
  runCommand_inv h hi rfl (.bind fun _ hx => .pure
    { hi with
      filterRange := ⟨hi.filterRange.1, inUnit_clamp (operandF_ok hx)⟩
      filterDerived := ⟨hi.filterDerived.1, hi.filterDerived.2.1, rfl⟩ })

theorem execFltSetGainLp_inv (h : execFltSetGainLp d arg s = .next t) (hi : Inv s) : Inv t :=
  runCommand_inv h hi rfl (.bind fun _ _ => .pure { hi with })

theorem execFltSetGainBp_inv (h : execFltSetGainBp d arg s = .next t) (hi : Inv s) : Inv t :=
  runCommand_inv h hi rfl (.bind fun _ _ => .pure { hi with })

theorem execFltSetGainHp_inv (h : execFltSetGainHp d arg s = .next t) (hi : Inv s) : Inv t :=
  runCommand_inv h hi rfl (.bind fun _ _ => .pure { hi with })

theorem execRsSetBufBase_inv (h : execRsSetBufBase d arg s = .next t) (hi : Inv s) : Inv t :=
  runCommand_inv h hi rfl (.bind fun _ hfits => .pure (hi.setBase (of_decide_eq_true (require_ok hfits))))

theorem execRsSetBufFrames_inv (h : execRsSetBufFrames d arg s = .next t) (hi : Inv s) : Inv t :=
  runCommand_inv h hi rfl (.bind fun _ hrange => .bind fun _ hfits => .pure
    (hi.setFrames (of_decide_eq_true (require_ok hrange)) (of_decide_eq_true (require_ok hfits))))

theorem execRsSetBufRate_inv (h : execRsSetBufRate d arg s = .next t) (hi : Inv s) : Inv t :=
  runCommand_inv h hi rfl (.bind fun _ _ => .bind fun _ _ => .pure { hi with })

theorem execRsSetBufPitch_inv (h : execRsSetBufPitch d arg s = .next t) (hi : Inv s) : Inv t :=
  runCommand_inv h hi rfl (.bind fun _ _ => .bind fun _ _ => .pure { hi with })

theorem execRsSetHz_inv (h : execRsSetHz d arg s = .next t) (hi : Inv s) : Inv t :=
  runCommand_inv h hi rfl (.bind fun _ _ => .bind fun _ _ => .bind fun _ _ => .bind fun _ _ => .pure { hi with })

theorem execRsSetPos_inv (h : execRsSetPos d arg s = .next t) (hi : Inv s) : Inv t :=
  runCommand_inv h hi rfl (.pure { hi with })

theorem execEvSetTick_inv (h : execEvSetTick arg s = .next t) (hi : Inv s) : Inv t :=
  runCommand_inv h hi rfl (.pure { hi with })

theorem execHostCallback_inv (h : execHostCallback d arg s = .next t) (hi : Inv s) : Inv t :=
  runCommand_inv h hi rfl (.bind fun _ _ => .pure { hi with })

theorem execCbAck_inv (h : execCbAck arg s = .next t) (hi : Inv s) : Inv t :=
  runCommand_inv h hi rfl (.bind fun _ _ => .bind fun _ _ => .pure { hi with })

end

end Sys2Proof.Machine

/-! PROOFS. The invariant (O55), the step: commands, samples, the tick, and the host's actions. -/

namespace Sys2Proof.Machine

/-- Every command keeps the invariant. -/
theorem exec_inv {i : Instr} {s t : State} (h : exec i s = .next t) (hi : Inv s) : Inv t := by
  cases i with
  | nop d arg => exact execNop_inv h hi
  | setSampleRate d arg => exact execSetSampleRate_inv h hi
  | oscSetHz d v arg => exact execOscSetHz_inv h hi
  | oscSetShift d v arg => exact execOscSetShift_inv h hi
  | oscSetFlags d v arg => exact execOscSetFlags_inv h hi
  | oscSetGainDirect d v arg => exact execOscSetGainDirect_inv h hi
  | oscSetGainFilter d v arg => exact execOscSetGainFilter_inv h hi
  | oscWtWrite d v arg => exact execOscWtWrite_inv h hi
  | envOn d v arg => exact execEnvOn_inv h hi
  | envOff d v arg => exact execEnvOff_inv h hi
  | envSetAttack d v arg => exact execEnvSetAttack_inv h hi
  | envSetDecay d v arg => exact execEnvSetDecay_inv h hi
  | envSetSustain d v arg => exact execEnvSetSustain_inv h hi
  | envSetRelease d v arg => exact execEnvSetRelease_inv h hi
  | envSetCurveAttack d v arg => exact execEnvSetCurveAttack_inv h hi
  | envSetCurveDecay d v arg => exact execEnvSetCurveDecay_inv h hi
  | envSetCurveRelease d v arg => exact execEnvSetCurveRelease_inv h hi
  | fltSetFc d arg => exact execFltSetFc_inv h hi
  | fltSetQ d arg => exact execFltSetQ_inv h hi
  | fltSetGainLp d arg => exact execFltSetGainLp_inv h hi
  | fltSetGainBp d arg => exact execFltSetGainBp_inv h hi
  | fltSetGainHp d arg => exact execFltSetGainHp_inv h hi
  | rsSetBufBase d arg => exact execRsSetBufBase_inv h hi
  | rsSetBufFrames d arg => exact execRsSetBufFrames_inv h hi
  | rsSetBufRate d arg => exact execRsSetBufRate_inv h hi
  | rsSetBufPitch d arg => exact execRsSetBufPitch_inv h hi
  | rsSetHz d arg => exact execRsSetHz_inv h hi
  | rsSetPos d arg => exact execRsSetPos_inv h hi
  | evSetTick arg => exact execEvSetTick_inv h hi
  | hostCallback d arg => exact execHostCallback_inv h hi
  | cbAck arg => exact execCbAck_inv h hi

theorem execPacket_inv {hdr : BitVec 32} {arg : Word64} {s t : State} (h : execPacket hdr arg s = .next t)
    (hi : Inv s) : Inv t := by
  unfold execPacket at h
  split at h
  · exact exec_inv h hi
  · cases h
    exact hi.enterFault _ _ _

/-! ## The voices' samples (40_oscillator.md rules R130 to R145) -/

/-- Every voice of a bank has the property, and the bank its size. -/
structure BankInv (p : Params) (n : Nat) (vs : List Voice) : Prop where
  count : vs.length = n
  voices : ∀ v ∈ vs, VoiceInv p v

theorem BankInv.set {p : Params} {n : Nat} {vs : List Voice} (h : BankInv p n vs) (i : Nat) {v : Voice}
    (hv : VoiceInv p v) : BankInv p n (vs.set i v) where
  count := (List.length_set ..).trans h.count
  voices w hw := (List.mem_or_eq_of_mem_set hw).elim (h.voices w) fun e => e ▸ hv

theorem zeroPhase_inv {p : Params} {n : Nat} {vs : List Voice} (h : BankInv p n vs) (i : Nat) :
    BankInv p n (zeroPhase vs i) := by
  unfold zeroPhase
  split
  · rename_i v hv
    exact h.set i { h.voices v (List.mem_of_getElem? hv) with }
  · exact h

theorem syncVoice_inv {p : Params} {n : Nat} {vs : List Voice} (h : BankInv p n vs) (i : Nat) :
    BankInv p n (syncVoice vs i) := by
  unfold syncVoice
  dsimp only
  split
  · exact h
  · rename_i master hm
    have hset := h.set ((i + vs.length - 1) % vs.length) (v := { master with latch := master.phase.getLsbD 27 })
      { h.voices master (List.mem_of_getElem? hm) with }
    split
    · exact zeroPhase_inv hset i
    · exact hset

theorem syncPass_inv {p : Params} {n : Nat} {vs : List Voice} (h : BankInv p n vs) : BankInv p n (syncPass vs) := by
  unfold syncPass
  generalize List.range vs.length = is
  induction is generalizing vs with
  | nil => exact h
  | cons i is ih => exact ih (syncVoice_inv h i)

theorem noiseClock_ne_zero {flags : BitVec 7} {old new : BitVec 28} {lfsr : BitVec 23} (h : lfsr ≠ 0) :
    noiseClock flags old new lfsr ≠ 0 := by
  unfold noiseClock
  split
  · exact lfsrStep_ne_zero h
  · exact h

theorem oscSample_inv {p : Params} {v : Voice} (h : VoiceInv p v) : VoiceInv p (oscSample p.wtBits v).2 := by
  have hadvance : VoiceInv p (advancePhase v) := { h with lfsrNonzero := noiseClock_ne_zero h.lfsrNonzero }
  unfold oscSample
  dsimp only
  split
  · exact hadvance
  · exact { hadvance with envInv := envStep_inv hadvance.envInv }

/-- The filter's sample writes its taps only, whichever function `FILTER_STEP` names. -/
theorem filterSample_writes (p : Params) (f : Filter) (x y : F64) :
    ∃ lp bp hp, (filterSample p f x y).2 = { f with lp := lp, bp := bp, hp := hp } := by
  unfold filterSample
  split
  · exact ⟨_, _, _, rfl⟩
  · exact ⟨_, _, _, rfl⟩

theorem bankSample_inv {s : State} (h : Inv s) : Inv (bankSample s).2 := by
  have hbank := syncPass_inv ⟨h.voiceCount, h.voiceInv⟩
  obtain ⟨lp, bp, hp, hf⟩ := filterSample_writes s.cfg s.filter
    (mixVoices ((syncPass s.voices).map (oscSample s.cfg.wtBits))).1
    (mixVoices ((syncPass s.voices).map (oscSample s.cfg.wtBits))).2
  unfold bankSample
  dsimp only
  rw [hf]
  exact { h with
    voiceCount := by rw [List.length_map, List.length_map]; exact hbank.count
    voiceInv := by
      rw [List.map_map]
      exact List.forall_mem_map.mpr fun v hv => oscSample_inv (hbank.voices v hv) }

/-! ## The inner frame (47_engine.md rule R362) -/

theorem rsSample_inv {s : State} (h : Inv s) : Yields (fun r => Inv r.2) (rsSample s) := by
  intro r hr
  obtain ⟨n, hn⟩ := rsSample_writes s r hr
  rw [hn]
  exact { h with }

/-- One value for each channel. -/
theorem rsChannels_length (row : List F64) (cs : List Nat) (acc : List F64 × State) :
    Yields (fun r => r.1.length = acc.1.length + cs.length) (cs.foldlM (rsChannel row) acc) := by
  induction cs generalizing acc with
  | nil => exact .pure rfl
  | cons c cs ih =>
    refine .bind fun a ha r hr => ?_
    have hone : Yields (fun r : List F64 × State => r.1.length = acc.1.length + 1) (rsChannel row acc c) :=
      .bind fun _ _ => .pure (by simp)
    rw [ih a r hr, hone a ha, List.length_cons]
    omega

theorem rsSample_length (s : State) : Yields (fun r => r.1.length = s.cfg.channels) (rsSample s) := by
  refine .ite (.pure (by simp)) (.bind fun row _ => .bind fun r hr => .pure ?_)
  have := rsChannels_length row (List.range s.cfg.channels) ([], s) r hr
  simpa using this

/-- The bank's value on every channel, and the resampler's added to it. -/
theorem rsSample_mixed {acc : List F64} {s : State} (h : acc.length = s.cfg.channels) :
    Yields (fun r => (List.zipWith F64.add acc r.1).length = r.2.cfg.channels) (rsSample s) := by
  intro r hr
  rw [List.length_zipWith, h, rsSample_length s r hr, (rsSample_sampled s r hr).cfg, Nat.min_self]

/-- An inner frame keeps the invariant, and has one value for each channel. -/
theorem innerFrame_inv {s : State} (h : Inv s) :
    Yields (fun r => Inv r.2 ∧ r.1.length = r.2.cfg.channels) (innerFrame s) := by
  have hbank : ∀ b : List F64 × State, b = (if s.cfg.srcOsc then
      (List.replicate s.cfg.channels (F64.zero.add (bankSample s).1), (bankSample s).2)
      else (List.replicate s.cfg.channels F64.zero, s)) → Inv b.2 ∧ b.1.length = b.2.cfg.channels := by
    rintro b rfl
    split
    · exact ⟨bankSample_inv h, List.length_replicate ..⟩
    · exact ⟨h, List.length_replicate ..⟩
  obtain ⟨hb, hlen⟩ := hbank _ rfl
  exact .ite (.bind fun r hr => .pure ⟨rsSample_inv hb r hr, rsSample_mixed hlen r hr⟩) (.pure ⟨hb, hlen⟩)

/-! ## The window (45_oversampler.md rules R301, R303) -/

theorem pushValue_length {w : List F64} (h : 0 < w.length) (x : F64) : (pushValue w x).length = w.length := by
  rw [pushValue, List.length_append, List.length_drop, List.length_singleton]
  omega

theorem pushFrame_inv {s : State} {frame : List F64} (h : Inv s) (hl : frame.length = s.cfg.channels) :
    Inv (pushFrame frame s) := by
  refine { h with windowShape := ?_ }
  have hw := h.windowShape
  rw [pushFrame_cfg, pushFrame_osw]
  split at hw
  · rename_i ho
    rw [if_pos ho]
    refine ⟨by rw [List.length_zipWith, hw.1, hl, Nat.min_self], fun w hmem => ?_⟩
    obtain ⟨k, hk, rfl⟩ := List.getElem_of_mem hmem
    rw [List.length_zipWith] at hk
    have hrow := hw.2 _ (List.getElem_mem (show k < s.osw.length by omega))
    rw [List.getElem_zipWith, pushValue_length (by rw [hrow]; exact Nat.succ_pos _), hrow]
  · rename_i ho
    rw [if_neg ho, hw, List.zipWith_nil_left]

theorem pullInner_inv (n : Nat) {s : State} (h : Inv s) : Yields Inv (pullInner n s) := by
  induction n generalizing s with
  | zero => exact .pure h
  | succ n ih =>
    refine .bind fun r hr => ?_
    obtain ⟨hinv, hlen⟩ := innerFrame_inv h r hr
    exact ih (pushFrame_inv hinv hlen)

theorem osFrame_inv {s : State} (h : Inv s) : Yields (fun r => Inv r.2) (osFrame s) := by
  unfold osFrame
  split
  · exact fun r hr => nomatch hr
  · exact .bind fun t ht => .pure (pullInner_inv _ h t ht)

/-! ## The tick (47_engine.md rule R361) -/

theorem tickFrame_inv {s : State} (h : Inv s) : Yields (fun r => Inv r.2) (tickFrame s) :=
  .ite (osFrame_inv h) fun r hr => (innerFrame_inv h r hr).1

theorem completeTick_inv {s t : State} (h : completeTick s = .next t) (hi : Inv s) : Inv t := by
  unfold completeTick at h
  split at h
  · rename_i frame u hu
    cases h
    exact { tickFrame_inv hi _ hu with
      faultIdle := fun _ => ⟨rfl, rfl⟩
      tickPulled := nofun }
  · cases h

theorem popEvent_inv {s t : State} {e : Event} (h : popEvent s = some (e, t)) (hi : Inv s) : Inv t := by
  obtain ⟨hlen, ht⟩ := popEvent_spec h
  have hperm := popEvent_perm hi.heapOrdered h
  have hord := popEvent_ordered hi.heapOrdered h
  have hbound := hi.heapBound
  rw [ht]
  exact { hi with
    heapBound := by dsimp only; omega
    heapOrdered := hord
    heapChecked := fun x hx => hi.heapChecked x (hperm.mem_iff.mpr (List.mem_cons_of_mem e hx)) }

theorem dispatch_inv {fuel : Nat} {s t : State} (h : dispatch fuel s = .next t) (hi : Inv s) : Inv t := by
  induction fuel generalizing s with
  | zero => cases h; exact hi
  | succ fuel ih =>
    unfold dispatch at h
    split at h
    · split at h
      · cases h; exact hi
      · rename_i e s1 hpop
        split at h
        · rename_i s2 hexec
          have h2 := execPacket_inv hexec (popEvent_inv hpop hi)
          split at h
          · cases h; exact h2
          · exact ih h h2
        · cases h
        · cases h
    · cases h; exact hi

theorem continueTick_inv {s t : State} (h : continueTick s = .next t) (hi : Inv s) : Inv t := by
  unfold continueTick at h
  split at h
  · rename_i s1 hd
    have h1 := dispatch_inv hd hi
    split at h
    · cases h; exact h1
    · exact completeTick_inv h h1
  · cases h
  · cases h

theorem startTick_inv {s t : State} (h : startTick s = .next t) (hi : Inv s) (hp : s.pull = true)
    (hf : s.faulted = false) : Inv t := by
  unfold startTick at h
  split at h
  · cases h
    exact hi.enterFault _ _ _
  · exact continueTick_inv h { hi with
      faultIdle := fun hfault => absurd (hf.symm.trans hfault) (by decide)
      tickPulled := fun _ => hp }

theorem engineAct_inv {s t : State} (h : engineAct s = .next t) (hi : Inv s) (he : engineDue s = true) : Inv t := by
  obtain ⟨hp, -, hf, -⟩ := (engineDue_iff s).mp he
  unfold engineAct at h
  split at h
  · exact continueTick_inv h hi
  · exact startTick_inv h hi hp hf

/-! ## Reset (70_reset_and_hazards.md rule R431) -/

theorem fillSlots_length (ks : List Key) (slots : List (Option Slot)) :
    (fillSlots ks slots).1.length = slots.length := by
  induction ks generalizing slots with
  | nil => rfl
  | cons k ks ih =>
    unfold fillSlots
    split
    · exact ih slots
    · split
      · rfl
      · split
        · rfl
        · split
          · rw [ih, List.length_set]
          · rfl

theorem generateTables_length (p : Params) : (generateTables p).1.length = p.cacheSlots :=
  (fillSlots_length _ _).trans (List.length_replicate ..)

theorem envelopeReset_inv : EnvInv envelopeReset where
  valueRange := inUnit_zero
  sustainRange := inUnit_one
  lengths := by decide +kernel
  curves := by decide +kernel
  attack := by
    dsimp only [envelopeReset]
    exact ⟨rfl, rfl⟩
  decay := by
    dsimp only [envelopeReset]
    exact ⟨rfl, rfl⟩
  release := by
    dsimp only [envelopeReset]
    exact ⟨rfl, rfl⟩

theorem voiceReset_inv (p : Params) : VoiceInv p (voiceReset p) where
  shiftRange := by
    dsimp only [voiceReset]
    decide
  lfsrNonzero := by
    dsimp only [voiceReset]
    decide
  tableLength := List.length_replicate ..
  envInv := envelopeReset_inv

/-- A state reset from one that meets the invariant meets it, if its tables are there or it is faulted. -/
theorem ResetFrom.inv {s t : State} (r : ResetFrom s t) (hi : Inv s) (hr : t.tablesReady = true ∨ t.faulted = true)
    (hk : t.tablesReady = true → (generateTables s.cfg).2 = none) : Inv t where
  legal := r.cfg ▸ hi.legal
  rates := .inl ⟨r.sampleRate, r.innerRate⟩
  voiceCount := by rw [r.voices, r.cfg, List.length_replicate]
  voiceInv := by
    rw [r.voices, r.cfg]
    intro v hv
    rw [(List.mem_replicate.mp hv).2]
    exact voiceReset_inv _
  filterRange := by
    rw [r.filter]
    exact ⟨inUnit_one, inUnit_zero⟩
  filterDerived := by
    rw [r.filter, r.cfg]
    exact ⟨rfl, rfl, rfl⟩
  baseFits := by
    rw [r.rs]
    exact Nat.two_pow_pos _
  baseTopEmpty := by
    rw [r.rs]
    nofun
  extentFits := by
    rw [r.rs]
    simp [rsBase, resamplerReset]
  framesFit := by
    rw [r.rs, r.cfg]
    obtain ⟨-, -, -, -, -, -, hhalf, -⟩ := hi.legal.1
    simp [resamplerReset]
    omega
  windowShape := by
    rw [r.osw, r.cfg]
    split
    · exact ⟨List.length_replicate .., fun w hw => by rw [(List.mem_replicate.mp hw).2, List.length_replicate]⟩
    · rfl
  heapBound := by
    rw [r.heap]
    exact Nat.zero_le _
  heapOrdered := by
    rw [r.heap]
    exact fun c hc => absurd hc (Nat.not_lt_zero c)
  heapChecked := by
    rw [r.heap]
    nofun
  slotCount := by rw [r.slots, r.cfg, generateTables_length]
  readyOrFaulted := hr
  keysPresent := by
    rw [r.slots, r.cfg]
    intro ht k hmem
    have hg : generateTables s.cfg = ((generateTables s.cfg).1, none) := Prod.ext rfl (hk ht)
    rw [(generateTables_none hg).2.1 k hmem]
    rfl
  memoryForm := r.mem ▸ hi.memoryForm
  racedInside := by
    rw [r.raced, r.cfg]
    exact hi.racedInside
  faultIdle := fun _ => ⟨r.inTick, r.pull⟩
  tickPulled := by
    rw [r.inTick]
    nofun

theorem resetBlock_inv {s : State} (hi : Inv s) : Inv (resetBlock s) := by
  refine (resetBlock_resetFrom s).inv hi ?_ ?_
  · cases h : (generateTables s.cfg).2 with
    | none => exact .inl (by rw [resetBlock_ready h])
    | some c => exact .inr (by rw [resetBlock_unready h]; rfl)
  · intro ht
    cases h : (generateTables s.cfg).2 with
    | none => rfl
    | some c =>
      rw [resetBlock_unready h] at ht
      cases ht

/-! ## The host's actions -/

theorem sampleWrite_inv {a : Nat} {v : Word64} {s t : State} (h : sampleWrite a v s = .next t) (hi : Inv s) :
    Inv t := by
  obtain ⟨ha, rfl⟩ := sampleWrite_spec h
  refine { hi with
    memoryForm := wordWrite_wf hi.memoryForm a v
    racedInside := fun r hr => ?_ }
  dsimp only at hr
  split at hr
  · rcases List.mem_cons.mp hr with rfl | hr
    · exact decide_eq_true ha
    · exact hi.racedInside r hr
  · exact hi.racedInside r (List.mem_of_mem_filter hr)

theorem receivePacket_inv {hdr : BitVec 32} {arg : Word64} {s t : State} (h : receivePacket hdr arg s = .next t)
    (hi : Inv s) : Inv t := by
  unfold receivePacket at h
  split at h
  · cases h; exact hi
  · exact execPacket_inv h hi

theorem receivePull_inv {s t : State} (h : receivePull s = .next t) (hi : Inv s) : Inv t := by
  unfold receivePull at h
  split at h
  · cases h
    exact { hi with }
  · rename_i hrun
    split at h
    · cases h
    · cases h
      have hf : s.faulted = false := by
        rw [Bool.or_eq_true, not_or] at hrun
        simpa using hrun.1
      exact { hi with
        faultIdle := fun hfault => absurd (hf.symm.trans hfault) (by decide)
        tickPulled := fun _ => rfl }

theorem hostAct_inv {a : HostAction} {s t : State} (h : hostAct a s = .next t) (hi : Inv s) : Inv t := by
  cases a with
  | byte b => cases h; exact { hi with }
  | read addr => cases h; exact { hi with }
  | pull => exact receivePull_inv h hi
  | reset => cases h; exact resetBlock_inv hi
  | writeSample addr value => exact sampleWrite_inv h hi

/-- Settles O55, over the kinds of action that a step can be.  Three clauses rest on choices of the model: the bit above
`RS_BASE` (log entry 14), `F_exp(-∞)` under a slope coefficient (log entry 3), and which words are raced (log entry 8). -/
theorem stepKeepsInvariant : Obligations.StepKeepsInvariant := by
  intro s t hi h
  by_cases he : engineDue s = true
  · exact engineAct_inv (step_engine he ▸ h) hi he
  · have he : engineDue s = false := by simpa using he
    cases hp : takePacket s.port with
    | some p =>
      obtain ⟨hdr, arg, rest⟩ := p
      exact receivePacket_inv (s := { s with port := rest }) (step_packet he hp ▸ h) { hi with }
    | none =>
      cases hin : s.inbox with
      | nil =>
        rw [step_idle he hp hin] at h
        cases h; exact hi
      | cons a rest => exact hostAct_inv (s := { s with inbox := rest }) (step_host he hp hin ▸ h) { hi with }

end Sys2Proof.Machine

/-! PROOFS. The packet a step takes (O5), the words of sample memory (O49), and the resampler's sample (O31), whose reads
each draw a free choice of their own. -/

namespace Sys2Proof.Machine

/-! ## The packet at the command port (20_memory.md rule R71) -/

/-- A command comes from a whole packet, and the bytes after it are what is left. -/
theorem decode_ok {bytes rest : List Byte} {i : Instr} (h : decode bytes = .ok (i, rest)) :
    ∃ hdr arg, takePacket bytes = some (hdr, arg, rest) ∧ decodePacket hdr arg = .ok i := by
  unfold decode at h
  split at h
  · cases h
  · rename_i hdr arg rest' hp
    split at h
    · rename_i hi
      cases h
      exact ⟨hdr, arg, hp, hi⟩
    · cases h

theorem execPacket_decoded {hdr : BitVec 32} {arg : Word64} {i : Instr} (h : decodePacket hdr arg = .ok i)
    (s : State) : execPacket hdr arg s = exec i s := by
  simp [execPacket, h]

theorem receivePacket_running {s : State} (h : s.faulted = false) (hdr : BitVec 32) (arg : Word64) :
    receivePacket hdr arg s = execPacket hdr arg s := by
  simp [receivePacket, h]

/-- Settles O5. -/
theorem stepRunsDecodedInstruction : Obligations.StepRunsDecodedInstruction := by
  intro s i rest he hf hd
  obtain ⟨hdr, arg, hp, hi⟩ := decode_ok hd
  calc step s = receivePacket hdr arg { s with port := rest } := step_packet he hp
    _ = execPacket hdr arg { s with port := rest } := receivePacket_running (s := { s with port := rest }) hf hdr arg
    _ = exec i { s with port := rest } := execPacket_decoded hi _

/-! ## Words of sample memory (20_memory.md rule R73) -/

theorem word64_byteOf (v : Word64) :
    word64 (byteOf v 0) (byteOf v 1) (byteOf v 2) (byteOf v 3) (byteOf v 4) (byteOf v 5) (byteOf v 6) (byteOf v 7) =
      v := by
  unfold word64 byteOf
  simp only [BitVec.extractLsb'_append_extractLsb'_eq_extractLsb', Nat.reduceMul]
  exact BitVec.extractLsb'_eq_self

theorem wordRead_wordWrite (m : Memory) (a b : Nat) (v : Word64) :
    wordRead (wordWrite m a v) b = if b = a then v else wordRead m b := by
  have hbyte : ∀ k < 8, memRead (wordWrite m a v) (8 * b + k) =
      if b = a then byteOf v k else memRead m (8 * b + k) := by
    intro k hk
    have hword : (8 * b + k) / 8 = b := by omega
    have hplace : (8 * b + k) % 8 = k := by omega
    rw [memRead_wordWrite, hword, hplace]
  have hfirst := hbyte 0 (by omega)
  rw [Nat.add_zero] at hfirst
  unfold wordRead
  rw [hfirst, hbyte 1 (by omega), hbyte 2 (by omega), hbyte 3 (by omega), hbyte 4 (by omega), hbyte 5 (by omega),
    hbyte 6 (by omega), hbyte 7 (by omega)]
  split
  · exact word64_byteOf v
  · rfl

/-! ## Reads (rules R73, R80) -/

/-- What a read of word `a` may answer: the word, or an earlier value of it that the race left. -/
def ReadsAs (s : State) (a : Nat) (x : F64) : Prop := x.bits = wordRead s.mem a ∨ (a, x.bits) ∈ s.raced

theorem mem_racedValues {s : State} {a : Nat} {w : Word64} : w ∈ racedValues s a ↔ (a, w) ∈ s.raced := by
  simp [racedValues]

theorem sampleRead_inside {s : State} {a : Nat} (ha : a < 2 ^ s.cfg.sampleAddrBits) :
    ∃ x n, sampleRead a s = .ok (x, { s with draws := n }) ∧ ReadsAs s a x := by
  obtain ⟨⟨x, t⟩, hr⟩ : ∃ r, sampleRead a s = .ok r := by
    rw [sampleRead, addrExists, decide_eq_true ha, if_pos rfl]
    split <;> exact ⟨_, rfl⟩
  obtain ⟨-, ⟨n, rfl⟩, hx⟩ := sampleRead_spec hr
  exact ⟨x, n, hr, hx.imp_right mem_racedValues.mp⟩

theorem sampleRead_outside {s : State} {a : Nat} (ha : 2 ^ s.cfg.sampleAddrBits ≤ a) :
    sampleRead a s = .error .sampleAddress := by
  simp [sampleRead, addrExists, ha]

/-- A word that no race concerns reads as it stands, and no choice is drawn. -/
theorem sampleRead_notRaced {s : State} {a : Nat} (ha : a < 2 ^ s.cfg.sampleAddrBits) (h : racedValues s a = []) :
    sampleRead a s = .ok (⟨wordRead s.mem a⟩, s) := by
  simp [sampleRead, addrExists, ha, h]

/-! ## Host writes (rules R74, R80) -/

theorem sampleWrite_inside {s : State} {a : Nat} (v : Word64) (ha : a < 2 ^ s.cfg.sampleAddrBits) :
    ∃ t, sampleWrite a v s = .next t := by
  simp [sampleWrite, addrExists, ha]

theorem sampleWrite_outside {s : State} {a : Nat} (v : Word64) (ha : 2 ^ s.cfg.sampleAddrBits ≤ a) :
    sampleWrite a v s = .fault .sampleAddress := by
  simp [sampleWrite, addrExists, ha]

/-- A write of a word that is not bound ends the races of that word. -/
theorem sampleWrite_unbound_racedValues {s t : State} {a : Nat} {v : Word64} (h : sampleWrite a v s = .next t)
    (hb : inExtent s.cfg s.rs a = false) : racedValues t a = [] := by
  obtain ⟨-, rfl⟩ := sampleWrite_spec h
  simp [racedValues, hb]

/-- A write of a bound word keeps the value before it. -/
theorem sampleWrite_bound_raced {s t : State} {a : Nat} {v : Word64} (h : sampleWrite a v s = .next t)
    (hb : inExtent s.cfg s.rs a = true) : (a, wordRead s.mem a) ∈ t.raced := by
  obtain ⟨-, rfl⟩ := sampleWrite_spec h
  simp [hb]

/-- The word a host wrote holds the value written. -/
theorem sampleWrite_wordRead {s t : State} {a : Nat} {v : Word64} (h : sampleWrite a v s = .next t) :
    wordRead t.mem a = v := by
  obtain ⟨-, rfl⟩ := sampleWrite_spec h
  exact (wordRead_wordWrite s.mem a a v).trans (if_pos rfl)

/-- Settles O49.  Which earlier values may return, and that an address outside stops with a fault, are choices of the
model (log entries 8 and 18). -/
theorem sampleWordReadAfterWrite : Obligations.SampleWordReadAfterWrite := by
  refine ⟨wordRead_wordWrite, fun s a =>
    ⟨sampleRead_inside, sampleRead_outside, fun v => ⟨fun ha => ?_, sampleWrite_outside v⟩⟩⟩
  obtain ⟨t, ht⟩ := sampleWrite_inside v ha
  have hword := sampleWrite_wordRead ht
  have hread : inExtent s.cfg s.rs a = false → sampleRead a t = .ok (⟨v⟩, t) := by
    intro hb
    have hin : a < 2 ^ t.cfg.sampleAddrBits := by
      obtain ⟨-, rfl⟩ := sampleWrite_spec ht
      exact ha
    rw [sampleRead_notRaced hin (sampleWrite_unbound_racedValues ht hb), hword]
  refine ⟨t, ht, hword, ?_, ?_, hread, sampleWrite_bound_raced ht⟩
  · obtain ⟨-, rfl⟩ := sampleWrite_spec ht
    rfl
  · obtain ⟨-, rfl⟩ := sampleWrite_spec ht
    exact memRead_wordWrite s.mem a v

/-! ## The cursor (44_resampler.md rules R270, R278) -/

/-- A saturated cursor stays. -/
theorem advanceCursor_saturated {rs : Resampler} (h : rs.pos = 0x7FFFFFFFFFFFFFFF) : advanceCursor rs = rs := by
  have htop : rs.pos.toInt = 2 ^ 63 - 1 := by rw [h]; decide
  have hsum : min (max (rs.pos.toInt + rs.inc.toNat) (-2 ^ 63)) (2 ^ 63 - 1) = rs.pos.toInt := by omega
  rw [advanceCursor, hsum, BitVec.ofInt_toInt]

theorem outsideGuard_iff (s : State) : outsideGuard s = true ↔
    s.rs.pos.toInt / 2 ^ 32 < -(s.cfg.half : Int) ∨
      (s.rs.frames.toNat : Int) + s.cfg.half ≤ s.rs.pos.toInt / 2 ^ 32 :=
  decide_eq_true_iff

/-- A saturated cursor is past the guard band of every buffer that rule R272 accepts. -/
theorem outsideGuard_saturated {s : State} (h : s.rs.pos = 0x7FFFFFFFFFFFFFFF)
    (hr : s.rs.frames.toNat + s.cfg.half ≤ 2 ^ 31 - 1) : outsideGuard s = true := by
  have hindex : s.rs.pos.toInt / 2 ^ 32 = 2 ^ 31 - 1 := by rw [h]; decide
  rw [outsideGuard_iff, hindex]
  omega

theorem rsSample_outsideGuard {s : State} (h : outsideGuard s = true) :
    rsSample s = .ok (List.replicate s.cfg.channels F64.zero, { s with rs := advanceCursor s.rs }) :=
  if_pos h

/-! ## Loops whose every turn draws free choices -/

/-- A loop over `0 .. m-1` whose turn `k` adds, by `g`, a value of which `P k` holds; which value depends on the free
choices drawn before.  The loop adds such values in order, and leaves the state with free choices drawn. -/
theorem foldlM_range_drawn {α γ : Type} [Inhabited γ] {s : State} {m : Nat} {P : Nat → γ → Prop} {g : α → Nat → γ → α}
    {f : α × State → Nat → Except Fault (α × State)}
    (hturn : ∀ k < m, ∀ t, Drawn s t → ∃ x u, P k x ∧ Drawn s u ∧ ∀ acc, f (acc, t) k = .ok (g acc k x, u))
    {t : State} (ht : Drawn s t) (acc : α) :
    ∃ (x : Nat → γ) (u : State), (∀ k < m, P k (x k)) ∧ Drawn s u ∧
      (List.range m).foldlM f (acc, t) = .ok ((List.range m).foldl (fun a k => g a k (x k)) acc, u) := by
  induction m with
  | zero => exact ⟨fun _ => default, t, nofun, ht, rfl⟩
  | succ m ih =>
    obtain ⟨x, u, hx, hu, hloop⟩ := ih fun k hk => hturn k (Nat.lt_succ_of_lt hk)
    obtain ⟨y, w, hy, hw, hlast⟩ := hturn m (Nat.lt_succ_self m) u hu
    have hbelow : ∀ k < m, Function.update x m y k = x k := fun k hk => Function.update_of_ne (Nat.ne_of_lt hk) ..
    have hsum : (List.range m).foldl (fun a k => g a k (Function.update x m y k)) acc =
        (List.range m).foldl (fun a k => g a k (x k)) acc :=
      List.foldl_ext _ _ _ fun a k hk => by rw [hbelow k (List.mem_range.mp hk)]
    refine ⟨Function.update x m y, w, fun k hk => ?_, hw, ?_⟩
    · rcases Nat.lt_succ_iff_lt_or_eq.mp hk with hlt | rfl
      · rw [hbelow k hlt]
        exact hx k hlt
      · rw [Function.update_self]
        exact hy
    · rw [List.range_succ, List.foldlM_append, hloop, List.foldl_concat, hsum, Function.update_self]
      exact (bind_pure _).trans (hlast _)

/-! ## A sample inside the guard band (rules R245, R278, R279) -/

/-- The frame that tap `k` reads. -/
def tapFrame (s : State) (k : Nat) : Int := cursorIndex s.rs.pos - s.cfg.half + 1 + k

/-- What tap `k` of channel `c` may take for the sample: a value of its word, or `+0.0` outside the buffer. -/
def TapReads (s : State) (c k : Nat) (x : F64) : Prop :=
  if 0 ≤ tapFrame s k ∧ tapFrame s k < s.rs.frames.toNat then
    ReadsAs s (rsBase s.cfg s.rs + (tapFrame s k).toNat * s.cfg.channels + c) x
  else x = F64.zero

/-- A word of a frame of the buffer lies in the bound extent (rule R279). -/
theorem frameWord_lt {base frames channels limit c : Nat} {j : Int} (hfits : base + frames * channels ≤ limit)
    (hj : 0 ≤ j ∧ j < frames) (hc : c < channels) : base + j.toNat * channels + c < limit := by
  have hframe : j.toNat + 1 ≤ frames := by omega
  have hend := Nat.mul_le_mul_right channels hframe
  rw [Nat.succ_mul] at hend
  omega

theorem rsTap_inside {c k : Nat} {row : List F64} {s t : State} {x acc : F64}
    (hj : 0 ≤ tapFrame s k ∧ tapFrame s k < s.rs.frames.toNat)
    (hread : sampleRead (rsBase s.cfg s.rs + (tapFrame s k).toNat * s.cfg.channels + c) s = .ok (x, t)) :
    rsTap c row (acc, s) k = .ok (acc.add ((row.getD k F64.zero).mul x), t) := by
  unfold tapFrame at hj hread
  simp only [rsTap, if_pos hj, hread]
  rfl

theorem rsTap_outside {c k : Nat} {row : List F64} {s : State} {acc : F64}
    (hj : ¬ (0 ≤ tapFrame s k ∧ tapFrame s k < s.rs.frames.toNat)) :
    rsTap c row (acc, s) k = .ok (acc.add ((row.getD k F64.zero).mul F64.zero), s) :=
  if_neg hj

/-- The weights of a row times values, summed from `+0.0` in increasing order (rule R278). -/
def rowSum (row : List F64) (n : Nat) (x : Nat → F64) : F64 :=
  (List.range n).foldl (fun acc k => acc.add ((row.getD k F64.zero).mul (x k))) F64.zero

section
variable {s : State} {c : Nat} (row : List F64)
  (hfits : rsBase s.cfg s.rs + s.rs.frames.toNat * s.cfg.channels ≤ 2 ^ s.cfg.sampleAddrBits)
  (hc : c < s.cfg.channels)
include hfits hc

/-- One tap adds its weight times a value that it may read. -/
theorem rsTap_reads (k : Nat) {t : State} (ht : Drawn s t) :
    ∃ x u, TapReads s c k x ∧ Drawn s u ∧
      ∀ acc, rsTap c row (acc, t) k = .ok (acc.add ((row.getD k F64.zero).mul x), u) := by
  obtain ⟨n, rfl⟩ := ht
  by_cases hj : 0 ≤ tapFrame s k ∧ tapFrame s k < s.rs.frames.toNat
  · obtain ⟨x, m, hread, hx⟩ := sampleRead_inside (s := { s with draws := n }) (frameWord_lt hfits hj hc)
    refine ⟨x, { s with draws := m }, (if_pos hj).mpr hx, ⟨m, rfl⟩, fun acc => ?_⟩
    exact rsTap_inside hj hread
  · exact ⟨F64.zero, _, (if_neg hj).mpr rfl, ⟨n, rfl⟩, fun acc => rsTap_outside hj⟩

/-- One channel is the sum of its taps. -/
theorem rsChannel_reads {t : State} (ht : Drawn s t) :
    ∃ (x : Nat → F64) (u : State), (∀ k < 2 * s.cfg.half, TapReads s c k (x k)) ∧ Drawn s u ∧
      ∀ out, rsChannel row (out, t) c = .ok (out ++ [rowSum row (2 * s.cfg.half) x], u) := by
  obtain ⟨x, u, hx, hu, hloop⟩ := foldlM_range_drawn (m := 2 * s.cfg.half) (P := TapReads s c)
    (fun k _ t ht => rsTap_reads row hfits hc k ht) ht F64.zero
  have hhalf : t.cfg.half = s.cfg.half := by
    obtain ⟨n, rfl⟩ := ht
    rfl
  exact ⟨x, u, hx, hu, fun out => by rw [rsChannel, hhalf, hloop]; rfl⟩

end

/-- The frame is the list of its channels' sums. -/
theorem rsChannels_reads {s : State} (row : List F64)
    (hfits : rsBase s.cfg s.rs + s.rs.frames.toNat * s.cfg.channels ≤ 2 ^ s.cfg.sampleAddrBits) :
    ∃ (x : Nat → Nat → F64) (u : State),
      (∀ c < s.cfg.channels, ∀ k < 2 * s.cfg.half, TapReads s c k (x c k)) ∧ Drawn s u ∧
      (List.range s.cfg.channels).foldlM (rsChannel row) ([], s) =
        .ok ((List.range s.cfg.channels).map (fun c => rowSum row (2 * s.cfg.half) (x c)), u) := by
  obtain ⟨x, u, hx, hu, hloop⟩ := foldlM_range_drawn (m := s.cfg.channels) (f := rsChannel row)
    (P := fun c (x : Nat → F64) => ∀ k < 2 * s.cfg.half, TapReads s c k (x k))
    (g := fun out _ x => out ++ [rowSum row (2 * s.cfg.half) x])
    (fun c hc t ht => rsChannel_reads row hfits hc ht) ⟨s.draws, rfl⟩ []
  refine ⟨x, u, hx, hu, ?_⟩
  rw [hloop, List.foldl_append_eq_append, List.nil_append, ← List.flatMap_def, ← List.map_eq_flatMap]

/-- Entry `k` of the row of phase `ph` in a table whose rows have `n` entries (rule R245). -/
theorem row_getD {table : List F64} {n ph k : Nat} (h : k < n) (d : F64) :
    ((table.drop (ph * n)).take n).getD k d = table.getD (ph * n + k) d := by
  rw [List.getD_eq_getElem?_getD, List.getElem?_take_of_lt h, List.getElem?_drop, List.getD_eq_getElem?_getD]

theorem kernelRow_cached {s : State} {table : List F64}
    (h : lookup s.slots (psincKey s.cfg (variantOf s.rs.inc)) = some table) :
    kernelRow s = .ok ((table.drop (s.rs.pos.toNat % 2 ^ 32 / 2 ^ (32 - s.cfg.phaseBits) * (2 * s.cfg.half))).take
      (2 * s.cfg.half)) := by
  rw [kernelRow, h]
  rfl

/-- Summing over a row is summing over the table from the row's first entry on. -/
theorem rowSum_table (table : List F64) (n ph : Nat) (x : Nat → F64) :
    rowSum ((table.drop (ph * n)).take n) n x =
      (List.range n).foldl (fun acc k => acc.add ((table.getD (ph * n + k) F64.zero).mul (x k))) F64.zero :=
  List.foldl_ext _ _ _ fun acc k hk => by rw [row_getD (List.mem_range.mp hk)]

theorem rsSample_insideGuard {s t : State} {row out : List F64} (hband : outsideGuard s = false)
    (hrow : kernelRow s = .ok row)
    (hloop : (List.range s.cfg.channels).foldlM (rsChannel row) ([], s) = .ok (out, t)) :
    rsSample s = .ok (out, { t with rs := advanceCursor t.rs }) := by
  simp only [rsSample, hband, Bool.false_eq_true, if_false, hrow, bind, Except.bind, hloop]
  rfl

/-- Settles O31: the loops over channels and taps, with the row read off the table.  Which earlier values may return is
a choice of the model (log entry 8). -/
theorem resamplerSampleRules : Obligations.ResamplerSampleRules := by
  refine fun s => ⟨fun h => rsSample_outsideGuard ((outsideGuard_iff s).mpr h), fun hpos hr => ?_,
    fun table htable hfits hlo hhi => ?_⟩
  · rw [rsSample_outsideGuard (outsideGuard_saturated hpos hr), advanceCursor_saturated hpos]
    rfl
  · have hband : outsideGuard s = false := by
      rw [Bool.eq_false_iff, ne_eq, outsideGuard_iff]
      omega
    obtain ⟨x, u, hx, ⟨n, rfl⟩, hloop⟩ := rsChannels_reads _ hfits
    refine ⟨x, n, fun c k hc hk => hx c hc k hk, ?_⟩
    rw [rsSample_insideGuard hband (kernelRow_cached htable) hloop]
    simp only [rowSum_table]
    rfl

end Sys2Proof.Machine

/-! PROOFS. Decoding and encoding (O1, O2, O3): the bytes of a packet, the fields of a header, the opcode map read both
ways, and the checks of 30_encoding.md rule R96. -/

namespace Sys2Proof

/-! ## The bytes of a packet (20_memory.md rule R71) -/

theorem word32_byteOf (v : BitVec 32) : word32 (byteOf v 0) (byteOf v 1) (byteOf v 2) (byteOf v 3) = v := by
  unfold word32 byteOf
  simp only [BitVec.extractLsb'_append_extractLsb'_eq_extractLsb', Nat.reduceMul]
  exact BitVec.extractLsb'_eq_self

/-- The 12 bytes of a packet are taken as the packet, whatever follows them. -/
theorem takePacket_packetBytes (hdr : BitVec 32) (arg : Word64) (rest : List Byte) :
    takePacket (packetBytes hdr arg ++ rest) = some (hdr, arg, rest) := by
  simp only [packetBytes, List.cons_append, List.nil_append, takePacket, word32_byteOf, Machine.word64_byteOf]

theorem byteOf_byte (b : Byte) : byteOf b 0 = b := BitVec.extractLsb'_eq_self

/-- The last byte of a concatenation is the lowest. -/
theorem byteOf_append_zero {n : Nat} (w : BitVec n) (b : Byte) : byteOf (w ++ b) 0 = b :=
  BitVec.extractLsb'_append_eq_right

theorem byteOf_append_succ {n : Nat} (w : BitVec n) (b : Byte) (k : Nat) : byteOf (w ++ b) (k + 1) = byteOf w k := by
  unfold byteOf
  rw [Nat.mul_add_one, BitVec.extractLsb'_append_eq_of_le (by omega), Nat.add_sub_cancel]

/-- A packet that is taken stood in the byte stream as its own 12 bytes. -/
theorem takePacket_some {bytes rest : List Byte} {hdr : BitVec 32} {arg : Word64}
    (h : takePacket bytes = some (hdr, arg, rest)) : bytes = packetBytes hdr arg ++ rest := by
  unfold takePacket at h
  split at h
  · cases h
    simp [packetBytes, word32, word64, byteOf_byte, byteOf_append_zero, byteOf_append_succ]
  · cases h

/-! ## The header and its fields (rule R90) -/

/-- Its four fields determine a header. -/
theorem headerOf_fields {hdr : BitVec 32} (hr : hdrRsv hdr = 0) :
    headerOf (hdrDefer hdr) (hdrIdx hdr) (hdrOp hdr) = hdr := by
  have hbit : BitVec.ofBool (hdrDefer hdr) = hdr.extractLsb' 31 1 := by
    ext k hk
    simp [hdrDefer, BitVec.getElem_extractLsb', show k = 0 by omega]
  rw [headerOf, hbit, ← hr]
  unfold hdrRsv hdrIdx hdrOp
  simp only [BitVec.extractLsb'_append_extractLsb'_eq_extractLsb']
  exact BitVec.extractLsb'_eq_self

/-! ## The opcode map (rules R91, R92, R94) -/

/-- The encoding of every command reads back as it was written. -/
theorem encodingShape (i : Instr) : Laws.EncodingShape.Statement i := by
  cases i with
  | nop d arg => exact Laws.EncodingShape.nop d arg
  | setSampleRate d arg => exact Laws.EncodingShape.setSampleRate d arg
  | oscSetHz d v arg => exact Laws.EncodingShape.oscSetHz d v arg
  | oscSetShift d v arg => exact Laws.EncodingShape.oscSetShift d v arg
  | oscSetFlags d v arg => exact Laws.EncodingShape.oscSetFlags d v arg
  | oscSetGainDirect d v arg => exact Laws.EncodingShape.oscSetGainDirect d v arg
  | oscSetGainFilter d v arg => exact Laws.EncodingShape.oscSetGainFilter d v arg
  | oscWtWrite d v arg => exact Laws.EncodingShape.oscWtWrite d v arg
  | envOn d v arg => exact Laws.EncodingShape.envOn d v arg
  | envOff d v arg => exact Laws.EncodingShape.envOff d v arg
  | envSetAttack d v arg => exact Laws.EncodingShape.envSetAttack d v arg
  | envSetDecay d v arg => exact Laws.EncodingShape.envSetDecay d v arg
  | envSetSustain d v arg => exact Laws.EncodingShape.envSetSustain d v arg
  | envSetRelease d v arg => exact Laws.EncodingShape.envSetRelease d v arg
  | envSetCurveAttack d v arg => exact Laws.EncodingShape.envSetCurveAttack d v arg
  | envSetCurveDecay d v arg => exact Laws.EncodingShape.envSetCurveDecay d v arg
  | envSetCurveRelease d v arg => exact Laws.EncodingShape.envSetCurveRelease d v arg
  | fltSetFc d arg => exact Laws.EncodingShape.fltSetFc d arg
  | fltSetQ d arg => exact Laws.EncodingShape.fltSetQ d arg
  | fltSetGainLp d arg => exact Laws.EncodingShape.fltSetGainLp d arg
  | fltSetGainBp d arg => exact Laws.EncodingShape.fltSetGainBp d arg
  | fltSetGainHp d arg => exact Laws.EncodingShape.fltSetGainHp d arg
  | rsSetBufBase d arg => exact Laws.EncodingShape.rsSetBufBase d arg
  | rsSetBufFrames d arg => exact Laws.EncodingShape.rsSetBufFrames d arg
  | rsSetBufRate d arg => exact Laws.EncodingShape.rsSetBufRate d arg
  | rsSetBufPitch d arg => exact Laws.EncodingShape.rsSetBufPitch d arg
  | rsSetHz d arg => exact Laws.EncodingShape.rsSetHz d arg
  | rsSetPos d arg => exact Laws.EncodingShape.rsSetPos d arg
  | evSetTick arg => exact Laws.EncodingShape.evSetTick arg
  | hostCallback d arg => exact Laws.EncodingShape.hostCallback d arg
  | cbAck arg => exact Laws.EncodingShape.cbAck arg

/-- The command has the opcode and the operand, the index if it takes a voice, and the defer bit if it has one. -/
structure Instr.IsOf (op : BitVec 8) (d : Bool) (v : BitVec 8) (arg : Word64) (i : Instr) : Prop where
  opcode : i.opcode = op
  operand : i.operand = arg
  voice : i.voice.getD v = v
  deferred : i.deferred = (!opNeverDeferred op && d)

theorem forall_some_ite {P : Instr → Prop} {c : Prop} [Decidable c] {a : Instr} {x : Option Instr} (ha : c → P a)
    (hx : ∀ i, x = some i → P i) : ∀ i, (if c then some a else x) = some i → P i := by
  intro i h
  split_ifs at h with hc
  · cases h
    exact ha hc
  · exact hx i h

/-- What the map answers, read off row by row. -/
theorem instrAt_isOf {op : BitVec 8} {d : Bool} {v : BitVec 8} {arg : Word64} :
    ∀ i, instrAt op d v arg = some i → i.IsOf op d v arg := by
  unfold instrAt
  iterate 31 refine forall_some_ite (by rintro rfl; exact ⟨rfl, rfl, rfl, rfl⟩) ?_
  exact nofun

/-! ## The checks of rule R96 -/

/-- The field `RSV` is 0, and `D = 0` where it has to be. -/
def HeaderLegal (hdr : BitVec 32) : Prop :=
  hdrRsv hdr = 0 ∧ (hdrDefer hdr && opNeverDeferred (hdrOp hdr)) = false

/-- The command that the map has for the packet. -/
def packetInstr (hdr : BitVec 32) (arg : Word64) : Option Instr := instrAt (hdrOp hdr) (hdrDefer hdr) (hdrIdx hdr) arg

theorem decodePacket_gap {hdr : BitVec 32} {arg : Word64} (h : packetInstr hdr arg = none) :
    decodePacket hdr arg = .error .illegalCommand := by
  unfold packetInstr at h
  simp [decodePacket, h]

theorem decodePacket_illegal {hdr : BitVec 32} (h : ¬ HeaderLegal hdr) (arg : Word64) :
    decodePacket hdr arg = .error .illegalCommand := by
  unfold decodePacket
  split
  · rfl
  · split_ifs with hr hd
    · rfl
    · rfl
    all_goals exact absurd ⟨not_not.mp hr, Bool.eq_false_iff.mpr hd⟩ h

theorem decodePacket_legal {hdr : BitVec 32} {arg : Word64} {i : Instr} (hi : packetInstr hdr arg = some i)
    (h : HeaderLegal hdr) :
    decodePacket hdr arg = if i.voice = none ∧ hdrIdx hdr ≠ 0 then .error .badIndex else .ok i := by
  unfold packetInstr at hi
  obtain ⟨hr, hd⟩ := h
  simp [decodePacket, hi, hr, hd]

/-- What the decoder has accepted. -/
theorem decodePacket_ok {hdr : BitVec 32} {arg : Word64} {i : Instr} (h : decodePacket hdr arg = .ok i) :
    packetInstr hdr arg = some i ∧ HeaderLegal hdr ∧ (i.voice = none → hdrIdx hdr = 0) := by
  have hl : HeaderLegal hdr := by
    by_contra hl
    rw [decodePacket_illegal hl] at h
    cases h
  cases hi : packetInstr hdr arg with
  | none =>
    rw [decodePacket_gap hi] at h
    cases h
  | some j =>
    rw [decodePacket_legal hi hl] at h
    split_ifs at h with hv
    cases h
    exact ⟨rfl, hl, fun hn => by_contra fun h0 => hv ⟨hn, h0⟩⟩

/-! ## The two round trips -/

theorem decodePacket_header (i : Instr) : decodePacket i.header i.operand = .ok i := by
  obtain ⟨hop, hidx, hrsv, hdefer, hnever, hinstr, -⟩ := encodingShape i
  have hi : packetInstr i.header i.operand = some i := by rw [packetInstr, hop, hidx, hdefer, hinstr]
  have hd : (i.deferred && opNeverDeferred i.opcode) = false := by
    cases hn : opNeverDeferred i.opcode with
    | true => rw [hnever hn]; rfl
    | false => exact Bool.and_false _
  have hl : HeaderLegal i.header := ⟨hrsv, by rw [hop, hdefer, hd]⟩
  rw [decodePacket_legal hi hl, if_neg]
  rintro ⟨hv, h0⟩
  exact h0 (by rw [hidx, Instr.idx, hv]; rfl)

theorem decodePacket_of_header {i : Instr} {hdr : BitVec 32} {arg : Word64} (hh : i.header = hdr)
    (ha : i.operand = arg) : decodePacket hdr arg = .ok i := hh ▸ ha ▸ decodePacket_header i

/-- The packet of an accepted command is the command's own. -/
theorem decodePacket_ok_packet {hdr : BitVec 32} {arg : Word64} {i : Instr} (h : decodePacket hdr arg = .ok i) :
    i.header = hdr ∧ i.operand = arg := by
  obtain ⟨hi, ⟨hrsv, hd⟩, hv0⟩ := decodePacket_ok h
  obtain ⟨hop, harg, hvoice, hdefer⟩ := instrAt_isOf i hi
  have hidx : i.idx = hdrIdx hdr := by
    cases hv : i.voice with
    | none => rw [Instr.idx, hv, hv0 hv]; rfl
    | some v => rw [Instr.idx, hv, ← hvoice, hv]; rfl
  have hdef : i.deferred = hdrDefer hdr := by
    rw [hdefer]
    revert hd
    cases hdrDefer hdr <;> simp
  exact ⟨by rw [Instr.header, hdef, hidx, hop, headerOf_fields hrsv], harg⟩

/-- Settles O1. -/
theorem decodeEncodeAgree : Obligations.DecodeEncodeAgree := by
  intro i rest
  rw [encode, decode, takePacket_packetBytes]
  simp only [decodePacket_header]

/-- Settles O2. -/
theorem encodeDecodeAgree : Obligations.EncodeDecodeAgree := by
  intro bytes i rest h
  obtain ⟨hdr, arg, hp, hi⟩ := Machine.decode_ok h
  obtain ⟨hh, ha⟩ := decodePacket_ok_packet hi
  rw [takePacket_some hp, encode, hh, ha]

/-- Settles O3: each packet of rule R102 is the header and operand of the command beside it. -/
theorem encodingExamples : Obligations.EncodingExamples := by
  refine ⟨?_, ?_, ?_, ?_, ?_, ?_, ?_, ?_, ?_, ?_, ?_⟩ <;> exact decodePacket_of_header rfl rfl

end Sys2Proof

/-! PROOFS. Deferred commands, absent voices and precise faults (O7, O8, O9), from how a command runs; and the header
checks of a packet (O4). -/

namespace Sys2Proof.Machine

/-! ## How a command runs (30_encoding.md rules R91, R92, R96) -/

/-- A command runs its effect on the state, which does not fault the block, or on the voice it names. -/
inductive Runs (i : Instr) : Prop
  | command (f : State → Except FaultCause State) (hv : i.voice = none) (hrun : ∀ s, exec i s = runCommand i f s)
      (hf : ∀ s, Yields (fun t => t.faulted = s.faulted) (f s))
  | voice (v : BitVec 8) (f : State → Voice → Except FaultCause Voice) (hv : i.voice = some v)
      (hrun : ∀ s, exec i s = runVoice i v f s)

theorem exec_runs (i : Instr) : Runs i := by
  cases i with
  | nop d arg => exact .command _ rfl (fun _ => rfl) fun _ => .bind fun _ _ => .pure rfl
  | setSampleRate d arg =>
    exact .command _ rfl (fun _ => rfl) fun _ => .bind fun _ _ => .bind fun _ _ => .bind fun _ _ => .pure rfl
  | oscSetHz d v arg => exact .voice _ _ rfl fun _ => rfl
  | oscSetShift d v arg => exact .voice _ _ rfl fun _ => rfl
  | oscSetFlags d v arg => exact .voice _ _ rfl fun _ => rfl
  | oscSetGainDirect d v arg => exact .voice _ _ rfl fun _ => rfl
  | oscSetGainFilter d v arg => exact .voice _ _ rfl fun _ => rfl
  | oscWtWrite d v arg => exact .voice _ _ rfl fun _ => rfl
  | envOn d v arg => exact .voice _ _ rfl fun _ => rfl
  | envOff d v arg => exact .voice _ _ rfl fun _ => rfl
  | envSetAttack d v arg => exact .voice _ _ rfl fun _ => rfl
  | envSetDecay d v arg => exact .voice _ _ rfl fun _ => rfl
  | envSetSustain d v arg => exact .voice _ _ rfl fun _ => rfl
  | envSetRelease d v arg => exact .voice _ _ rfl fun _ => rfl
  | envSetCurveAttack d v arg => exact .voice _ _ rfl fun _ => rfl
  | envSetCurveDecay d v arg => exact .voice _ _ rfl fun _ => rfl
  | envSetCurveRelease d v arg => exact .voice _ _ rfl fun _ => rfl
  | fltSetFc d arg => exact .command _ rfl (fun _ => rfl) fun _ => .bind fun _ _ => .pure rfl
  | fltSetQ d arg => exact .command _ rfl (fun _ => rfl) fun _ => .bind fun _ _ => .pure rfl
  | fltSetGainLp d arg => exact .command _ rfl (fun _ => rfl) fun _ => .bind fun _ _ => .pure rfl
  | fltSetGainBp d arg => exact .command _ rfl (fun _ => rfl) fun _ => .bind fun _ _ => .pure rfl
  | fltSetGainHp d arg => exact .command _ rfl (fun _ => rfl) fun _ => .bind fun _ _ => .pure rfl
  | rsSetBufBase d arg => exact .command _ rfl (fun _ => rfl) fun _ => .bind fun _ _ => .pure rfl
  | rsSetBufFrames d arg => exact .command _ rfl (fun _ => rfl) fun _ => .bind fun _ _ => .bind fun _ _ => .pure rfl
  | rsSetBufRate d arg => exact .command _ rfl (fun _ => rfl) fun _ => .bind fun _ _ => .bind fun _ _ => .pure rfl
  | rsSetBufPitch d arg => exact .command _ rfl (fun _ => rfl) fun _ => .bind fun _ _ => .bind fun _ _ => .pure rfl
  | rsSetHz d arg =>
    exact .command _ rfl (fun _ => rfl) fun _ =>
      .bind fun _ _ => .bind fun _ _ => .bind fun _ _ => .bind fun _ _ => .pure rfl
  | rsSetPos d arg => exact .command _ rfl (fun _ => rfl) fun _ => .pure rfl
  | evSetTick arg => exact .command (fun s => pure { s with evTick := arg }) rfl (fun _ => rfl) fun _ => .pure rfl
  | hostCallback d arg => exact .command _ rfl (fun _ => rfl) fun _ => .bind fun _ _ => .pure rfl
  | cbAck arg => exact .command _ rfl (fun _ => rfl) fun _ => .bind fun _ _ => .bind fun _ _ => .pure rfl

/-- A deferred command is not executed, if its voice exists (rules R92, R322). -/
theorem exec_deferred {i : Instr} {s : State} (hd : i.deferred = true) (hw : i.wellFormed s.voices.length = true) :
    exec i s = deferCommand i s := by
  cases exec_runs i with
  | command f hv hrun hf => rw [hrun, runCommand_deferred hd]
  | voice v f hv hrun =>
    have hlt : v.toNat < s.voices.length := by simpa [Instr.wellFormed, hv] using hw
    rw [hrun, runVoice_deferred (List.getElem?_eq_getElem hlt) hd]

/-- Settles O7. -/
theorem deferredCommandIsInserted : Obligations.DeferredCommandIsInserted := by
  intro i s hd hw
  have hclear : clearDefer i.header = headerOf false i.idx i.opcode := Laws.clearDefer_headerOf _ _ _
  refine ⟨fun hroom => ?_, fun hfull => ?_⟩
  · rw [exec_deferred hd hw, deferCommand_room hroom, hclear]
  · rw [exec_deferred hd hw, deferCommand_full (Nat.not_lt.mpr hfull), Instr.header, hd]

/-- Settles O8. -/
theorem absentVoiceIsBadIndex : Obligations.AbsentVoiceIsBadIndex := by
  intro i v s hi hlen
  cases exec_runs i with
  | command f hv hrun hf => simp [hv] at hi
  | voice w f hv hrun =>
    obtain rfl : w = v := Option.some.inj (hv.symm.trans hi)
    rw [hrun, runVoice_absent (List.getElem?_eq_none hlen)]

theorem Yields.map {ε α β : Type} {P : β → Prop} {g : α → β} {x : Except ε α} (h : Yields (fun a => P (g a)) x) :
    Yields P (x.map g) := by
  intro b hb
  cases x with
  | error e => cases hb
  | ok a =>
    cases hb
    exact h a rfl

/-- What a command answers: a next state, faulted as the old one, or the fault alone (rules R364, R393). -/
def PreciseResult (i : Instr) (s : State) (r : Result) : Prop :=
  ∃ t, r = .next t ∧ (t.faulted = s.faulted ∨ ∃ c, t = enterFault c i.header i.operand s)

theorem PreciseResult.fault (c : FaultCause) (i : Instr) (s : State) :
    PreciseResult i s (.next (enterFault c i.header i.operand s)) := ⟨_, rfl, .inr ⟨c, rfl⟩⟩

theorem deferCommand_precise (i : Instr) (s : State) : PreciseResult i s (deferCommand i s) := by
  by_cases hroom : s.heap.length < s.cfg.heapCap
  · rw [deferCommand_room hroom]
    exact ⟨_, rfl, .inl rfl⟩
  · rw [deferCommand_full hroom]
    exact .fault ..

theorem executeNow_precise {i : Instr} {s : State} {x : Except FaultCause State}
    (hx : Yields (fun t => t.faulted = s.faulted) x) : PreciseResult i s (executeNow i x s) := by
  cases x with
  | ok t => exact ⟨t, rfl, .inl (hx t rfl)⟩
  | error c => exact .fault ..

theorem runCommand_precise {i : Instr} {s : State} {f : State → Except FaultCause State}
    (hf : Yields (fun t => t.faulted = s.faulted) (f s)) : PreciseResult i s (runCommand i f s) := by
  cases hd : i.deferred with
  | true => exact runCommand_deferred hd f s ▸ deferCommand_precise i s
  | false => exact runCommand_now hd f s ▸ executeNow_precise hf

/-- A voice command writes its voice only. -/
theorem runVoice_precise (i : Instr) (v : BitVec 8) (f : State → Voice → Except FaultCause Voice) (s : State) :
    PreciseResult i s (runVoice i v f s) := by
  cases hv : s.voices[v.toNat]? with
  | none => exact runVoice_absent hv f ▸ .fault ..
  | some vo =>
    cases hd : i.deferred with
    | true => exact runVoice_deferred hv hd f ▸ deferCommand_precise i s
    | false => exact runVoice_now hv hd f ▸ executeNow_precise (.map fun _ _ => rfl)

theorem exec_precise (i : Instr) (s : State) : PreciseResult i s (exec i s) := by
  cases exec_runs i with
  | command f hv hrun hf => exact hrun s ▸ runCommand_precise (hf s)
  | voice v f hv hrun => exact hrun s ▸ runVoice_precise i v f s

/-- Settles O9. -/
theorem commandsCompleteOrFaultPrecisely : Obligations.CommandsCompleteOrFaultPrecisely := by
  intro i s
  obtain ⟨t, ht, hkeeps | hfault⟩ := exec_precise i s
  · exact ⟨t, ht, fun hs hf => absurd (hkeeps.symm.trans hf) (by simp [hs])⟩
  · exact ⟨t, ht, fun _ _ => hfault⟩

/-! ## The header checks (rules R91, R92, R95, R96) -/

/-- The opcodes of the voice commands (rule R91). -/
abbrev VoiceOpcode (op : BitVec 8) : Prop :=
  (0x10 ≤ op.toNat ∧ op.toNat ≤ 0x15) ∨ (0x20 ≤ op.toNat ∧ op.toNat ≤ 0x28)

/-- The opcodes of the commands that take no voice (rule R94). -/
abbrev OtherOpcode (op : BitVec 8) : Prop :=
  op.toNat = 0x00 ∨ op.toNat = 0x01 ∨ (0x30 ≤ op.toNat ∧ op.toNat ≤ 0x34) ∨ (0x40 ≤ op.toNat ∧ op.toNat ≤ 0x45) ∨
    (0x50 ≤ op.toNat ∧ op.toNat ≤ 0x52)

theorem VoiceOpcode.not_other {op : BitVec 8} (h : VoiceOpcode op) : ¬ OtherOpcode op := by
  omega

theorem opcode_kind (i : Instr) :
    (i.voice = none ∧ OtherOpcode i.opcode) ∨ (∃ v, i.voice = some v ∧ VoiceOpcode i.opcode) := by
  cases i <;> simp [Instr.voice, Instr.opcode, VoiceOpcode, OtherOpcode]

theorem instrAt_opcode (i : Instr) (d : Bool) (v : BitVec 8) (arg : Word64) :
    (instrAt i.opcode d v arg).isSome = true := by
  cases i <;> rfl

theorem packetInstr_isSome_iff (hdr : BitVec 32) (arg : Word64) :
    (packetInstr hdr arg).isSome = true ↔ VoiceOpcode (hdrOp hdr) ∨ OtherOpcode (hdrOp hdr) := by
  have hmap : ∀ op : BitVec 8, VoiceOpcode op ∨ OtherOpcode op → (instrAt op false 0 0).isSome = true := by decide
  refine ⟨fun h => ?_, fun h => ?_⟩
  · obtain ⟨i, hi⟩ := Option.isSome_iff_exists.mp h
    rw [← (instrAt_isOf i hi).opcode]
    rcases opcode_kind i with ⟨-, ho⟩ | ⟨v, -, hv⟩
    · exact .inr ho
    · exact .inl hv
  · obtain ⟨i, hi⟩ := Option.isSome_iff_exists.mp (hmap _ h)
    rw [packetInstr, ← (instrAt_isOf i hi).opcode]
    exact instrAt_opcode ..

/-- The command of a voice opcode is one for the voice `IDX`. -/
theorem packetInstr_voice {hdr : BitVec 32} {arg : Word64} {i : Instr} (hi : packetInstr hdr arg = some i)
    (h : VoiceOpcode (hdrOp hdr)) : i.voice = some (hdrIdx hdr) := by
  have hof := instrAt_isOf i hi
  rcases opcode_kind i with ⟨-, ho⟩ | ⟨v, hv, -⟩
  · exact absurd (hof.opcode ▸ ho) h.not_other
  · rw [hv, ← hof.voice, hv]
    rfl

theorem packetInstr_noVoice {hdr : BitVec 32} {arg : Word64} {i : Instr} (hi : packetInstr hdr arg = some i)
    (h : OtherOpcode (hdrOp hdr)) : i.voice = none := by
  rcases opcode_kind i with ⟨hv, -⟩ | ⟨v, -, hvo⟩
  · exact hv
  · exact absurd h ((instrAt_isOf i hi).opcode ▸ hvo).not_other

theorem headerLegal_iff (hdr : BitVec 32) : HeaderLegal hdr ↔
    hdrRsv hdr = 0 ∧ ¬ (hdrDefer hdr = true ∧ ((hdrOp hdr).toNat = 0x50 ∨ (hdrOp hdr).toNat = 0x52)) := by
  simp [HeaderLegal, opNeverDeferred, ← BitVec.toNat_inj]

theorem execPacket_refused {hdr : BitVec 32} {arg : Word64} {e : DecodeError} (h : decodePacket hdr arg = .error e)
    (s : State) : execPacket hdr arg s = .next (enterFault (decodeCause e) hdr arg s) := by
  simp [execPacket, h]

theorem execPacket_illegal {hdr : BitVec 32} {arg : Word64} (h : packetInstr hdr arg = none ∨ ¬ HeaderLegal hdr)
    (s : State) : execPacket hdr arg s = .next (enterFault .illegalCommand hdr arg s) :=
  execPacket_refused (h.elim decodePacket_gap (decodePacket_illegal · arg)) s

/-- A voice command for an absent voice is refused where it runs, with the packet it came in. -/
theorem execPacket_absentVoice {hdr : BitVec 32} {arg : Word64} {s : State} {i : Instr}
    (hi : packetInstr hdr arg = some i) (hl : HeaderLegal hdr) (hv : VoiceOpcode (hdrOp hdr))
    (hlen : s.voices.length ≤ (hdrIdx hdr).toNat) :
    execPacket hdr arg s = .next (enterFault .badIndex hdr arg s) := by
  have hvoice := packetInstr_voice hi hv
  have hok : decodePacket hdr arg = .ok i := by simp [decodePacket_legal hi hl, hvoice]
  obtain ⟨hh, ha⟩ := decodePacket_ok_packet hok
  rw [execPacket_decoded hok, absentVoiceIsBadIndex i _ s hvoice hlen, hh, ha]

/-- A voice index where none belongs is refused by the decoder. -/
theorem execPacket_strayIndex {hdr : BitVec 32} {arg : Word64} {i : Instr} (hi : packetInstr hdr arg = some i)
    (hl : HeaderLegal hdr) (ho : OtherOpcode (hdrOp hdr)) (hidx : hdrIdx hdr ≠ 0) (s : State) :
    execPacket hdr arg s = .next (enterFault .badIndex hdr arg s) :=
  execPacket_refused ((decodePacket_legal hi hl).trans (if_pos ⟨packetInstr_noVoice hi ho, hidx⟩)) s

/-- Settles O4. -/
theorem headerChecks : Obligations.HeaderChecks := by
  intro hdr arg s op idx isVoice isOther illegal
  have hillegal : illegal ↔ packetInstr hdr arg = none ∨ ¬ HeaderLegal hdr := by
    rw [headerLegal_iff, ← Option.not_isSome_iff_eq_none, packetInstr_isSome_iff, not_or, not_and_or, not_not]
    rfl
  refine ⟨fun h => execPacket_illegal (hillegal.mp h) s, fun h hbad => ?_⟩
  obtain ⟨hsome, hl⟩ := not_or.mp (mt hillegal.mpr h)
  obtain ⟨i, hi⟩ := Option.ne_none_iff_exists'.mp hsome
  rcases hbad with ⟨hv, hlen⟩ | ⟨ho, hidx⟩
  · exact execPacket_absentVoice hi (not_not.mp hl) hv hlen
  · exact execPacket_strayIndex hi (not_not.mp hl) ho (fun h0 => hidx (congrArg BitVec.toNat h0)) s

end Sys2Proof.Machine

/-! PROOFS. The commands of the oscillator and the gains (O13, O14, O16, O17): what the checks of their operands answer,
and what a command writes or raises once they have. -/

namespace Sys2Proof.Machine

/-! ## The checks of an operand (30_encoding.md rule R93) -/

theorem operandF_finite {arg : Word64} (h : (F64.mk arg).isFinite = true) : operandF arg = .ok ⟨arg⟩ := if_pos h

theorem operandF_notFinite {arg : Word64} (h : (F64.mk arg).isFinite = false) : operandF arg = .error .badArg :=
  if_neg (Bool.eq_false_iff.mp h)

theorem rateConfigured_zero {s : State} (h : s.sampleRate.eq F64.zero = true) :
    rateConfigured s = .error .zeroSampleRate := if_pos h

theorem rateConfigured_set {s : State} (h : s.sampleRate.eq F64.zero = false) : rateConfigured s = .ok () :=
  if_neg (Bool.eq_false_iff.mp h)

theorem operandFL_legal {arg : Word64} (h : arg.toNat < 128) : operandFL arg = .ok (BitVec.ofNat 7 arg.toNat) := by
  have hbits : arg.extractLsb' 0 7 = BitVec.ofNat 7 arg.toNat := by simp [BitVec.extractLsb']
  rw [operandFL, if_pos (Nat.div_eq_of_lt (by omega)), hbits]

theorem operandFL_illegal {arg : Word64} (h : 128 ≤ arg.toNat) : operandFL arg = .error .badArg :=
  if_neg (Nat.div_pos h (by decide)).ne'

/-- The index is all that the operand holds above the sample. -/
theorem operandWTW_legal {p : Params} {arg : Word64} (h : arg.toNat < 2 ^ (16 + p.wtBits)) :
    operandWTW p arg = .ok (arg.toNat / 2 ^ 16, BitVec.ofNat 16 arg.toNat) := by
  have hbits : arg.extractLsb' 0 16 = BitVec.ofNat 16 arg.toNat := by simp [BitVec.extractLsb']
  have hidx : arg.toNat / 2 ^ 16 < 2 ^ p.wtBits := Nat.div_lt_of_lt_mul (by rwa [← pow_add])
  rw [operandWTW, if_pos (Nat.div_eq_of_lt h), Nat.mod_eq_of_lt hidx, hbits]

theorem operandWTW_illegal {p : Params} {arg : Word64} (h : 2 ^ (16 + p.wtBits) ≤ arg.toNat) :
    operandWTW p arg = .error .badArg :=
  if_neg (Nat.div_pos h (Nat.two_pow_pos _)).ne'

/-- A check that has passed goes on with its value. -/
theorem ok_bind {ε α β : Type} (a : α) (f : α → Except ε β) : ((.ok a : Except ε α) >>= f) = f a := rfl

/-! ## Commands whose one check is that the operand is finite (rule R93, kind `F`) -/

theorem runCommand_operandF_finite {i : Instr} {arg : Word64} {g : F64 → State → State} {s : State}
    (hd : i.deferred = false) (h : (F64.mk arg).isFinite = true) :
    runCommand i (fun s => do let x ← operandF arg; return g x s) s = .next (g ⟨arg⟩ s) := by
  rw [runCommand_now hd, operandF_finite h]
  rfl

theorem runCommand_operandF_notFinite {i : Instr} {arg : Word64} {g : F64 → State → State} {s : State}
    (hd : i.deferred = false) (h : (F64.mk arg).isFinite = false) :
    runCommand i (fun s => do let x ← operandF arg; return g x s) s =
      .next (enterFault .badArg i.header i.operand s) := by
  rw [runCommand_now hd, operandF_notFinite h]
  rfl

theorem runVoice_operandF_finite {i : Instr} {v : BitVec 8} {arg : Word64} {g : F64 → Voice → Voice} {s : State}
    {vo : Voice} (hv : s.voices[v.toNat]? = some vo) (hd : i.deferred = false) (h : (F64.mk arg).isFinite = true) :
    runVoice i v (fun _ vo => do let x ← operandF arg; return g x vo) s =
      .next { s with voices := s.voices.set v.toNat (g ⟨arg⟩ vo) } := by
  rw [runVoice_now hv hd, operandF_finite h]
  rfl

theorem runVoice_operandF_notFinite {i : Instr} {v : BitVec 8} {arg : Word64} {g : F64 → Voice → Voice} {s : State}
    {vo : Voice} (hv : s.voices[v.toNat]? = some vo) (hd : i.deferred = false) (h : (F64.mk arg).isFinite = false) :
    runVoice i v (fun _ vo => do let x ← operandF arg; return g x vo) s =
      .next (enterFault .badArg i.header i.operand s) := by
  rw [runVoice_now hv hd, operandF_notFinite h]
  rfl

/-! ## Frequency and shift (40_oscillator.md rules R120, R121) -/

theorem exec_oscSetHz (d : Bool) (v : BitVec 8) (arg : Word64) (s : State) :
    exec (.oscSetHz d v arg) s = execOscSetHz d v arg s := rfl

theorem periodF_eq : periodF = ⟨0x41B0000000000000⟩ := by decide +kernel

theorem lastIncrement_eq : F64.ofNat (2 ^ 28 - 1) = ⟨0x41AFFFFFFE000000⟩ := by decide +kernel

theorem incrementOf_eq (hz innerRate : F64) :
    incrementOf hz innerRate =
      if (F64.mk 0x41AFFFFFFE000000).le ((hz.mul ⟨0x41B0000000000000⟩).div innerRate) = true then 0xFFFFFFF
      else BitVec.ofInt 28 ((hz.mul ⟨0x41B0000000000000⟩).div innerRate).floorInt := by
  rw [incrementOf, periodF_eq, lastIncrement_eq]
  rfl

theorem shiftOf_eq (x : F64) :
    shiftOf x = BitVec.ofInt 30
      ((F64.min (F64.max x ⟨0xBFF0000000000000⟩) ⟨0x3FF0000000000000⟩).mul ⟨0x41B0000000000000⟩).truncInt := by
  have hneg : F64.one.neg = ⟨0xBFF0000000000000⟩ := by decide
  rw [shiftOf, F64.clamp, periodF_eq, hneg]
  rfl

/-- Settles O13. -/
theorem oscSetHzResult : Obligations.OscSetHzResult := by
  intro v arg s vo hv
  refine ⟨fun hrate => ?_, fun hrate hbad => ?_, fun hrate hfin hpos => ?_⟩
  · rw [exec_oscSetHz, execOscSetHz, runVoice_now hv rfl, rateConfigured_zero hrate]
    rfl
  · rw [exec_oscSetHz, execOscSetHz, runVoice_now hv rfl, rateConfigured_set hrate]
    cases hfin : (F64.mk arg).isFinite with
    | false =>
      rw [operandF_notFinite hfin]
      rfl
    | true =>
      have hneg : (F64.mk arg).lt F64.zero = true := hbad.resolve_left (by simp [hfin])
      rw [operandF_finite hfin, ok_bind, ok_bind, hneg]
      rfl
  · rw [exec_oscSetHz, execOscSetHz, runVoice_now hv rfl, rateConfigured_set hrate, operandF_finite hfin, ok_bind,
      ok_bind, hpos, ← incrementOf_eq]
    rfl

/-- Settles O14. -/
theorem oscSetShiftResult : Obligations.OscSetShiftResult := by
  intro v arg s vo hv
  refine ⟨fun h => ?_, fun h => ?_⟩
  · exact shiftOf_eq ⟨arg⟩ ▸ runVoice_operandF_finite (i := .oscSetShift false v arg) hv rfl h
  · exact runVoice_operandF_notFinite (i := .oscSetShift false v arg) hv rfl h

/-! ## Capability set and wavetable (rules R122, R125) -/

theorem exec_oscSetFlags (d : Bool) (v : BitVec 8) (arg : Word64) (s : State) :
    exec (.oscSetFlags d v arg) s = execOscSetFlags d v arg s := rfl

theorem exec_oscWtWrite (d : Bool) (v : BitVec 8) (arg : Word64) (s : State) :
    exec (.oscWtWrite d v arg) s = execOscWtWrite d v arg s := rfl

/-- Settles O16. -/
theorem oscFlagsAndWavetableResults : Obligations.OscFlagsAndWavetableResults := by
  intro v arg s vo hv
  refine ⟨fun hlegal => ?_, fun hbad => ?_, fun hlegal => ?_, fun hbad => ?_⟩
  · rw [exec_oscSetFlags, execOscSetFlags, runVoice_now hv rfl, operandFL_legal hlegal]
    rfl
  · rw [exec_oscSetFlags, execOscSetFlags, runVoice_now hv rfl, operandFL_illegal hbad]
    rfl
  · rw [exec_oscWtWrite, execOscWtWrite, runVoice_now hv rfl, operandWTW_legal hlegal]
    rfl
  · rw [exec_oscWtWrite, execOscWtWrite, runVoice_now hv rfl, operandWTW_illegal hbad]
    rfl

/-! ## Gains (rules R123, R124 and 41_filter.md rules R182 to R184) -/

theorem exec_fltSetGainLp (d : Bool) (arg : Word64) (s : State) :
    exec (.fltSetGainLp d arg) s = execFltSetGainLp d arg s := rfl

theorem exec_fltSetGainBp (d : Bool) (arg : Word64) (s : State) :
    exec (.fltSetGainBp d arg) s = execFltSetGainBp d arg s := rfl

theorem exec_fltSetGainHp (d : Bool) (arg : Word64) (s : State) :
    exec (.fltSetGainHp d arg) s = execFltSetGainHp d arg s := rfl

/-- Settles O17. -/
theorem gainResults : Obligations.GainResults := by
  intro arg s
  refine ⟨fun h => ⟨?_, ?_, ?_, fun v vo hv => ⟨?_, ?_⟩⟩, fun h => ⟨?_, ?_, ?_, fun v vo hv => ⟨?_, ?_⟩⟩⟩
  · rw [exec_fltSetGainLp, execFltSetGainLp, runCommand_operandF_finite rfl h]
  · rw [exec_fltSetGainBp, execFltSetGainBp, runCommand_operandF_finite rfl h]
  · rw [exec_fltSetGainHp, execFltSetGainHp, runCommand_operandF_finite rfl h]
  · exact runVoice_operandF_finite (i := .oscSetGainDirect false v arg) hv rfl h
  · exact runVoice_operandF_finite (i := .oscSetGainFilter false v arg) hv rfl h
  · rw [exec_fltSetGainLp, execFltSetGainLp, runCommand_operandF_notFinite rfl h, header_fltSetGainLp]
    rfl
  · rw [exec_fltSetGainBp, execFltSetGainBp, runCommand_operandF_notFinite rfl h, header_fltSetGainBp]
    rfl
  · rw [exec_fltSetGainHp, execFltSetGainHp, runCommand_operandF_notFinite rfl h, header_fltSetGainHp]
    rfl
  · exact runVoice_operandF_notFinite (i := .oscSetGainDirect false v arg) hv rfl h
  · exact runVoice_operandF_notFinite (i := .oscSetGainFilter false v arg) hv rfl h

end Sys2Proof.Machine

/-! PROOFS. The waveforms over the phase, and the code of a voice (O38, O42). -/

namespace Sys2Proof.Machine

/-! ## The waveforms (40_oscillator.md rules R132 to R138) -/

theorem shiftedPhase_toNat (phase : BitVec 28) (shift : BitVec 30) :
    ((shiftedPhase phase shift).toNat : Int) = min (max ((phase.toNat : Int) + shift.toInt) 0) (2 ^ 28 - 1) := by
  rw [shiftedPhase, BitVec.toNat_ofInt]
  omega

theorem shiftedPhase_zero (phase : BitVec 28) : shiftedPhase phase 0 = phase := by
  have hp := phase.isLt
  have hsum := shiftedPhase_toNat phase 0
  have hzero : (0 : BitVec 30).toInt = 0 := by decide
  exact BitVec.eq_of_toNat_eq (by omega)

/-- Bit 27 says which half of the period the phase is in. -/
theorem phase_bit27 (p : BitVec 28) : p.getLsbD 27 = decide (2 ^ 27 ≤ p.toNat) := by
  have hp := p.isLt
  rw [BitVec.getLsbD, Nat.testBit_eq_decide_div_mod_eq, decide_eq_decide]
  omega

theorem waveSquare_toNat (p : BitVec 28) : (waveSquare p).toNat = if p.toNat < 2 ^ 27 then 2 ^ 28 - 1 else 0 := by
  rw [waveSquare, phase_bit27]
  by_cases hlow : p.toNat < 2 ^ 27
  · rw [decide_eq_false (Nat.not_le.mpr hlow), if_pos hlow]
    rfl
  · rw [decide_eq_true (Nat.not_lt.mp hlow), if_neg hlow]
    rfl

/-- The mask inverts every bit that the shift keeps. -/
theorem xor_mask_shiftLeft (p : BitVec 28) : (p ^^^ BitVec.ofNat 28 (2 ^ 27 - 1)) <<< 1 = ~~~p <<< 1 := by
  have hmask : ∀ k, k < 27 → (BitVec.ofNat 28 (2 ^ 27 - 1)).getLsbD k = true := by decide
  refine BitVec.eq_of_getLsbD_eq fun i hi => ?_
  rcases Nat.eq_zero_or_pos i with rfl | hpos
  · simp
  · have hbit := hmask (i - 1) (by omega)
    simp only [BitVec.getLsbD_shiftLeft, BitVec.getLsbD_xor, BitVec.getLsbD_not, hbit, show i - 1 < 28 by omega]
    simp

theorem waveTriangle_toNat (p : BitVec 28) :
    (waveTriangle p).toNat = if p.toNat < 2 ^ 27 then 2 * p.toNat else 2 * (2 ^ 28 - 1 - p.toNat) := by
  have hp := p.isLt
  rw [waveTriangle, phase_bit27]
  by_cases hlow : p.toNat < 2 ^ 27
  · rw [decide_eq_false (Nat.not_le.mpr hlow), if_neg Bool.false_ne_true, BitVec.ofNat_eq_ofNat,
      BitVec.xor_zero, BitVec.toNat_shiftLeft, Nat.shiftLeft_eq, if_pos hlow]
    omega
  · rw [decide_eq_true (Nat.not_lt.mp hlow), if_pos rfl, xor_mask_shiftLeft, BitVec.toNat_shiftLeft, BitVec.toNat_not,
      Nat.shiftLeft_eq, if_neg hlow]
    omega

theorem waveNoise_toNat (lfsr : BitVec 23) : (waveNoise lfsr).toNat = 2 ^ 5 * lfsr.toNat := by
  have hl := lfsr.isLt
  rw [waveNoise, BitVec.toNat_shiftLeft, BitVec.toNat_setWidth, Nat.shiftLeft_eq]
  omega

theorem waveTable_toNat (wtBits : Nat) (wt : List (BitVec 16)) (p : BitVec 28) :
    ((waveTable wtBits wt p).toNat : Int) = ((wt.getD (p.toNat / 2 ^ (28 - wtBits)) 0).toInt + 2 ^ 15) * 2 ^ 12 := by
  rw [waveTable, Nat.shiftRight_eq_div_pow]
  generalize wt.getD (p.toNat / 2 ^ (28 - wtBits)) 0 = entry
  have hlo := entry.le_toInt
  have hhi := entry.toInt_lt
  rw [BitVec.toNat_ofInt]
  omega

/-! ## The active waveforms (10_state.md rule R41) -/

theorem mem_activeWaves {wtBits : Nat} {f : BitVec 7} {wt : List (BitVec 16)} {lfsr : BitVec 23} {p w : BitVec 28} :
    w ∈ activeWaves wtBits f wt lfsr p ↔
      (f.getLsbD 0 = true ∧ w = p) ∨ (f.getLsbD 1 = true ∧ w = waveSquare p) ∨
      (f.getLsbD 2 = true ∧ w = waveTriangle p) ∨ (f.getLsbD 3 = true ∧ w = waveNoise lfsr) ∨
      (f.getLsbD 4 = true ∧ w = waveTable wtBits wt p) := by
  have hone : ∀ (b : Bool) (x : BitVec 28), w ∈ (if b then [x] else []) ↔ b = true ∧ w = x := by
    intro b x
    cases b <;> simp
  simp only [activeWaves, List.mem_append, hone, or_assoc]
  rfl

/-- Settles O38. -/
theorem waveformsOverThePhase : Obligations.WaveformsOverThePhase :=
  ⟨shiftedPhase_toNat, waveSquare_toNat, waveTriangle_toNat, waveNoise_toNat, waveTable_toNat,
    fun _ _ _ _ _ _ => mem_activeWaves⟩

/-- The flags of one waveform alone. -/
theorem activeWaves_square (wtBits : Nat) (wt : List (BitVec 16)) (lfsr : BitVec 23) (p : BitVec 28) :
    activeWaves wtBits 0x02 wt lfsr p = [waveSquare p] := rfl

theorem activeWaves_none {f : BitVec 7} (h : f.extractLsb' 0 5 = 0) (wtBits : Nat) (wt : List (BitVec 16))
    (lfsr : BitVec 23) (p : BitVec 28) : activeWaves wtBits f wt lfsr p = [] := by
  have hbit : ∀ k, k < 5 → f.getLsbD k = false := fun k hk => by
    have hk' := congrArg (·.getLsbD k) h
    simpa [hk] using hk'
  refine List.eq_nil_iff_forall_not_mem.mpr fun w hw => ?_
  rw [mem_activeWaves, hbit 0 (by decide), hbit 1 (by decide), hbit 2 (by decide), hbit 3 (by decide),
    hbit 4 (by decide)] at hw
  simp at hw

/-! ## The code (rule R139) -/

theorem codeOf_nil : codeOf [] = 0x8000000 := rfl

theorem codeOf_singleton (w : BitVec 28) : codeOf [w] = w := BitVec.allOnes_and

theorem foldl_and_getLsbD (waves : List (BitVec 28)) (acc : BitVec 28) (k : Nat) :
    (waves.foldl (· &&& ·) acc).getLsbD k = true ↔ acc.getLsbD k = true ∧ ∀ w ∈ waves, w.getLsbD k = true := by
  induction waves generalizing acc with
  | nil => simp
  | cons w waves ih => rw [List.foldl_cons, ih, BitVec.getLsbD_and, Bool.and_eq_true, List.forall_mem_cons, and_assoc]

theorem codeOf_getLsbD {waves : List (BitVec 28)} (h : waves ≠ []) {k : Nat} (hk : k < 28) :
    (codeOf waves).getLsbD k = true ↔ ∀ w ∈ waves, w.getLsbD k = true := by
  rw [codeOf, if_neg (by simpa using h), foldl_and_getLsbD, BitVec.getLsbD_allOnes, decide_eq_true hk]
  exact and_iff_right rfl

/-- Settles O42. -/
theorem squareVoiceHasTwoLevels : Obligations.SquareVoiceHasTwoLevels := by
  refine fun wtBits v => ⟨fun hflags hshift => ?_, fun hnone => ?_, fun hsome k hk => codeOf_getLsbD hsome hk⟩
  · rw [voiceCode, hflags, hshift, shiftedPhase_zero, activeWaves_square, codeOf_singleton]
    rfl
  · rw [voiceCode, activeWaves_none hnone, codeOf_nil]

end Sys2Proof.Machine

/-! PROOFS. Scaling a code (O39): no operation of rule R140 rounds, as every exact result has at most 53 bits. -/

namespace Sys2Proof

/-! ## Operations that do not round -/

/-- A magnitude of at most 53 bits is stored as it is. -/
theorem F64.pack_roundMag_exact (neg : Bool) {num den m j : Nat} (hd : 0 < den) (hm : m < 2 ^ 53)
    (hB : m * 2 ^ j ≤ 2 ^ 2097) (h : num = den * (m * 2 ^ j)) :
    (F64.pack neg (F64.roundMag num den)).isFinite = true ∧
    (F64.pack neg (F64.roundMag num den)).scaled = signed neg (m * 2 ^ j) := by
  obtain ⟨hfin, hsign, hle, hge⟩ := F64.pack_roundMag neg hd hm hB h.le
  rw [F64.scaled_eq, hsign, Nat.le_antisymm hle (hge m j hm h.ge)]
  exact ⟨hfin, rfl⟩

theorem F64.add_exact {x y : F64} (hx : x.isFinite = true) (hy : y.isFinite = true) {m j : Nat} (hm : m < 2 ^ 53)
    (hB : m * 2 ^ j ≤ 2 ^ 2097) (h : (x.scaled + y.scaled).natAbs = m * 2 ^ j) :
    (x.add y).isFinite = true ∧ (x.add y).scaled = x.scaled + y.scaled := by
  obtain ⟨neg, hadd, hsum⟩ := F64.add_eq_pack hx hy
  rw [hadd, hsum, signed_natAbs, h]
  exact F64.pack_roundMag_exact neg Nat.one_pos hm hB (Nat.one_mul _).symm

theorem F64.sub_exact {x y : F64} (hx : x.isFinite = true) (hy : y.isFinite = true) {m j : Nat} (hm : m < 2 ^ 53)
    (hB : m * 2 ^ j ≤ 2 ^ 2097) (h : (x.scaled - y.scaled).natAbs = m * 2 ^ j) :
    (x.sub y).isFinite = true ∧ (x.sub y).scaled = x.scaled - y.scaled := by
  rw [Int.sub_eq_add_neg, ← F64.neg_scaled] at h ⊢
  rw [F64.sub_eq_add hx hy]
  exact F64.add_exact hx (y.neg_isFinite.trans hy) hm hB h

theorem F64.mul_exact {x y : F64} (hx : x.isFinite = true) (hy : y.isFinite = true) {m j : Nat} (hm : m < 2 ^ 53)
    (hB : m * 2 ^ j ≤ 2 ^ 2097) (h : x.mag * y.mag = F64.unit * (m * 2 ^ j)) :
    (x.mul y).isFinite = true ∧ (x.mul y).scaled = signed (x.sign != y.sign) (m * 2 ^ j) := by
  rw [F64.mul_eq_pack hx hy]
  exact F64.pack_roundMag_exact _ (Nat.two_pow_pos _) hm hB h

/-- A multiple of a power of two, of at most 53 bits, is in the range of the finite values. -/
theorem mul_two_pow_le {m j : Nat} (hm : m < 2 ^ 53) (hj : j ≤ 2044) : m * 2 ^ j ≤ 2 ^ 2097 :=
  calc m * 2 ^ j ≤ 2 ^ 53 * 2 ^ 2044 := Nat.mul_le_mul hm.le (Nat.pow_le_pow_right Nat.two_pos hj)
    _ = 2 ^ 2097 := by rw [← pow_add]

theorem F64.ofNat_eq_pack (n : Nat) : F64.ofNat n = F64.pack false (F64.roundMag (n * F64.unit) 1) := by
  have hunits : (n : Int) * 2 ^ 1074 = ((n * F64.unit : Nat) : Int) := by rw [two_pow_cast, Int.natCast_mul]; rfl
  rw [F64.ofNat, F64.ofInt, F64.ofScaled, hunits, Int.natAbs_natCast]
  split
  · rename_i hzero
    rw [Int.natCast_eq_zero.mp hzero, F64.roundMag_zero Nat.one_pos]
  · rw [decide_eq_false (Int.natCast_nonneg _).not_gt]

/-- An integer of at most 53 bits, converted. -/
theorem F64.ofNat_exact {n : Nat} (hn : n < 2 ^ 53) :
    (F64.ofNat n).isFinite = true ∧ (F64.ofNat n).sign = false ∧ (F64.ofNat n).mag = n * F64.unit := by
  rw [F64.ofNat_eq_pack]
  obtain ⟨hfin, hsign, hle, hge⟩ := F64.pack_roundMag false (num := n * F64.unit) Nat.one_pos hn
    (mul_two_pow_le hn (j := 1074) (by decide)) (Nat.one_mul _).ge
  exact ⟨hfin, hsign, Nat.le_antisymm hle (hge n 1074 hn (Nat.one_mul _).le)⟩

end Sys2Proof

namespace Sys2Proof.Machine

/-! ## Scaling (40_oscillator.md rule R140) -/

theorem twoPowNeg28_fields : F64.twoPowNeg28.isFinite = true ∧ F64.twoPowNeg28.sign = false ∧
    F64.twoPowNeg28.mag = 2 ^ 1046 := by decide +kernel

theorem half_scaled : F64.half.isFinite = true ∧ F64.half.scaled = 2 ^ 1073 := by decide +kernel

/-- A code times `2^-28`. -/
theorem codeFraction_exact (c : BitVec 28) : ((F64.ofNat c.toNat).mul F64.twoPowNeg28).isFinite = true ∧
    ((F64.ofNat c.toNat).mul F64.twoPowNeg28).scaled = (c.toNat : Int) * 2 ^ 1046 := by
  have hc : c.toNat < 2 ^ 53 := by omega
  obtain ⟨hcf, hcs, hcm⟩ := F64.ofNat_exact hc
  obtain ⟨htf, hts, htm⟩ := twoPowNeg28_fields
  obtain ⟨hfin, hscaled⟩ := F64.mul_exact hcf htf hc (mul_two_pow_le hc (j := 1046) (by decide)) (by
    rw [hcm, htm, Nat.mul_right_comm, Nat.mul_comm])
  rw [hscaled, hcs, hts, two_pow_cast, ← Int.natCast_mul]
  exact ⟨hfin, rfl⟩

/-- The exact value is `code - 2^27` multiples of `2^1046` units. -/
theorem scaleCode_exact (c : BitVec 28) : (scaleCode c).isFinite = true ∧
    (scaleCode c).scaled = (c.toNat : Int) * 2 ^ 1046 - 2 ^ 1073 := by
  obtain ⟨hf, hs⟩ := codeFraction_exact c
  obtain ⟨hhf, hhs⟩ := half_scaled
  have hsplit : (2 : Int) ^ 1073 = 2 ^ 27 * 2 ^ 1046 := by rw [← pow_add]
  have hm : ((c.toNat : Int) - 2 ^ 27).natAbs < 2 ^ 53 := by omega
  obtain ⟨hfin, hscaled⟩ := F64.sub_exact hf hhf hm (mul_two_pow_le hm (j := 1046) (by decide)) (by
    rw [hs, hhs, hsplit, ← Int.sub_mul, Int.natAbs_mul, two_pow_cast 1046, Int.natAbs_natCast])
  rw [hs, hhs] at hscaled
  exact ⟨hfin, hscaled⟩

/-- Settles O39. -/
theorem scalingIsExact : Obligations.ScalingIsExact := ⟨scaleCode_exact, by decide +kernel⟩

end Sys2Proof.Machine

/-! PROOFS. The samples of a voice, of the bank and of an inner frame (O41). -/

namespace Sys2Proof.Machine

/-! ## A voice's sample (40_oscillator.md rules R131, R135, R141, R143) -/

theorem noiseClock_eq (flags : BitVec 7) (old new : BitVec 28) (lfsr : BitVec 23) :
    noiseClock flags old new lfsr =
      if flags.getLsbD 3 = true ∧ old.getLsbD 23 = false ∧ new.getLsbD 23 = true then lfsrStep lfsr else lfsr := by
  simp only [noiseClock, flagNoise, Bool.and_eq_true, Bool.not_eq_true', and_assoc]

theorem advancePhase_phase_toNat (v : Voice) :
    (advancePhase v).phase.toNat = (v.phase.toNat + v.inc.toNat) % 2 ^ 28 := BitVec.toNat_add ..

theorem advancePhase_lfsr (v : Voice) : (advancePhase v).lfsr =
    if v.flags.getLsbD 3 = true ∧ v.phase.getLsbD 23 = false ∧ (advancePhase v).phase.getLsbD 23 = true
    then lfsrStep v.lfsr else v.lfsr := noiseClock_eq ..

theorem oscSample_muted {v : Voice} (h : v.flags.getLsbD 6 = true) (wtBits : Nat) :
    oscSample wtBits v = (F64.zero, advancePhase v) := if_pos h

theorem oscSample_sounding {v : Voice} (h : v.flags.getLsbD 6 = false) (wtBits : Nat) :
    oscSample wtBits v = ((scaleCode (voiceCode wtBits (advancePhase v))).mul (envStep v.env).value,
      { advancePhase v with env := envStep v.env }) := if_neg (Bool.eq_false_iff.mp h)

/-- Muted or not, the voice is the advanced one but for its envelope. -/
theorem oscSample_voice (wtBits : Nat) (v : Voice) :
    (oscSample wtBits v).2 = { advancePhase v with env := (oscSample wtBits v).2.env } := by
  cases h : v.flags.getLsbD 6 with
  | true => rw [oscSample_muted h]
  | false => rw [oscSample_sounding h]

theorem voiceCode_env (wtBits : Nat) (v : Voice) (e : Envelope) :
    voiceCode wtBits { v with env := e } = voiceCode wtBits v := rfl

theorem oscSample_spec (wtBits : Nat) (v : Voice) :
    let w := (oscSample wtBits v).2
    w.phase.toNat = (v.phase.toNat + v.inc.toNat) % 2 ^ 28 ∧
    w.lfsr = (if v.flags.getLsbD 3 = true ∧ v.phase.getLsbD 23 = false ∧ w.phase.getLsbD 23 = true
      then lfsrStep v.lfsr else v.lfsr) ∧
    w = { v with phase := w.phase, lfsr := w.lfsr, env := w.env } ∧
    (v.flags.getLsbD 6 = true → (oscSample wtBits v).1 = F64.zero ∧ w.env = v.env) ∧
    (v.flags.getLsbD 6 = false → w.env = envStep v.env ∧
      (oscSample wtBits v).1 = (scaleCode (voiceCode wtBits w)).mul (envStep v.env).value) := by
  dsimp only
  refine ⟨?_, ?_, ?_, fun h => ?_, fun h => ?_⟩
  · rw [oscSample_voice, advancePhase_phase_toNat]
  · rw [oscSample_voice, advancePhase_lfsr]
  · rw [oscSample_voice]
    rfl
  · rw [oscSample_muted h]
    exact ⟨rfl, rfl⟩
  · rw [oscSample_sounding h, voiceCode_env]
    exact ⟨rfl, rfl⟩

/-! ## The bank's sample (rules R144, R145) -/

/-- The voices' outputs times a gain, summed from `+0.0` in index order. -/
def gainSum (gain : Voice → F64) (outs : List (F64 × Voice)) : F64 :=
  outs.foldl (fun acc o => acc.add (o.1.mul (gain o.2))) F64.zero

theorem mixVoices_eq (outs : List (F64 × Voice)) :
    mixVoices outs = (gainSum Voice.gDirect outs, gainSum Voice.gFilter outs) :=
  (List.foldl_hom₂ outs Prod.mk (fun (acc : F64) (o : F64 × Voice) => acc.add (o.1.mul o.2.gDirect))
    (fun (acc : F64) (o : F64 × Voice) => acc.add (o.1.mul o.2.gFilter)) _ F64.zero F64.zero fun _ _ _ => rfl)

theorem bankSample_eq (s : State) :
    let outs := (syncPass s.voices).map (oscSample s.cfg.wtBits)
    let r := filterSample s.cfg s.filter (gainSum Voice.gDirect outs) (gainSum Voice.gFilter outs)
    bankSample s = (r.1, { s with voices := outs.map Prod.snd, filter := r.2 }) := by
  dsimp only
  rw [bankSample, mixVoices_eq]

theorem bankSample_cfg (s : State) : (bankSample s).2.cfg = s.cfg := (bankSample_sampled s).cfg

/-! ## The inner frame (47_engine.md rule R362) -/

/-- What the bank leaves the resampler: the frame so far, and the state. -/
def bankStage (s : State) : List F64 × State :=
  if s.cfg.srcOsc then (List.replicate s.cfg.channels (F64.zero.add (bankSample s).1), (bankSample s).2)
  else (List.replicate s.cfg.channels F64.zero, s)

theorem bankStage_present {s : State} (h : s.cfg.srcOsc = true) :
    bankStage s = (List.replicate s.cfg.channels (F64.zero.add (bankSample s).1), (bankSample s).2) := if_pos h

theorem bankStage_absent {s : State} (h : s.cfg.srcOsc = false) :
    bankStage s = (List.replicate s.cfg.channels F64.zero, s) := if_neg (Bool.eq_false_iff.mp h)

theorem bankStage_cfg (s : State) : (bankStage s).2.cfg = s.cfg := by
  unfold bankStage
  split
  · exact bankSample_cfg s
  · rfl

/-- The resampler's frame, added to the frame so far. -/
def mixFrame (acc : List F64) (r : List F64 × State) : List F64 × State := (List.zipWith F64.add acc r.1, r.2)

theorem innerFrame_stages (s : State) : innerFrame s =
    if (bankStage s).2.cfg.srcRs then (rsSample (bankStage s).2).bind fun r => .ok (mixFrame (bankStage s).1 r)
    else .ok (bankStage s) := rfl

theorem innerFrame_without_rs {s : State} (h : s.cfg.srcRs = false) : innerFrame s = .ok (bankStage s) := by
  rw [innerFrame_stages, bankStage_cfg, h]
  rfl

theorem innerFrame_with_rs {s : State} (h : s.cfg.srcRs = true) :
    innerFrame s = (rsSample (bankStage s).2).map (mixFrame (bankStage s).1) := by
  rw [innerFrame_stages, bankStage_cfg, h, if_pos rfl]
  cases rsSample (bankStage s).2 with
  | ok r => rfl
  | error f => rfl

/-- Settles O41. -/
theorem voiceAndBankSampleRules : Obligations.VoiceAndBankSampleRules := by
  refine ⟨oscSample_spec, bankSample_eq, fun s => ⟨fun ho hr => ?_, fun ho hr => ?_, fun ho hr => ?_, fun ho hr => ?_⟩⟩
  · rw [innerFrame_without_rs hr, bankStage_present ho]
    rfl
  · rw [innerFrame_with_rs hr, bankStage_absent ho]
    rfl
  · rw [innerFrame_with_rs hr, bankStage_present ho]
    rfl
  · rw [innerFrame_without_rs hr, bankStage_absent ho]
    rfl

end Sys2Proof.Machine

/-! PROOFS. The sync pass (O40): what one turn writes, which turn writes a voice's phase and which its latch, and so
what each turn reads. -/

namespace Sys2Proof.Machine

/-! ## One turn (40_oscillator.md rule R130) -/

/-- The voice that voice `k` tests. -/
theorem master_index {k n : Nat} (hk : k < n) : (k + n - 1) % n = if k = 0 then n - 1 else k - 1 := by
  split
  · exact (congrArg (· % n) (by omega)).trans (Nat.mod_eq_of_lt (by omega))
  · rw [show k + n - 1 = k - 1 + n by omega, Nat.add_mod_right, Nat.mod_eq_of_lt (by omega)]

theorem zeroPhase_getElem? (vs : List Voice) (k j : Nat) :
    (zeroPhase vs k)[j]? = vs[j]?.map fun v => { v with phase := if j = k then 0 else v.phase } := by
  unfold zeroPhase
  rcases eq_or_ne j k with rfl | hjk
  · cases hv : vs[j]? with
    | none => exact hv
    | some v => exact (List.getElem?_set_self (List.getElem?_eq_some_iff.mp hv).1).trans (by simp)
  · have hsame : vs[j]? = vs[j]?.map fun v => { v with phase := if j = k then 0 else v.phase } := by simp [hjk]
    split
    · exact (List.getElem?_set_ne hjk.symm).trans hsame
    · exact hsame

theorem zeroPhase_if_getElem? (b : Bool) (vs : List Voice) (k j : Nat) :
    (if b then zeroPhase vs k else vs)[j]? =
      vs[j]?.map fun v => { v with phase := if j = k ∧ b = true then 0 else v.phase } := by
  cases b with
  | true => simp [zeroPhase_getElem?]
  | false => simp

theorem setLatch_getElem? {vs : List Voice} {m : Nat} {master : Voice} (hm : vs[m]? = some master) (cur : Bool)
    (j : Nat) : (vs.set m { master with latch := cur })[j]? =
      vs[j]?.map fun v => { v with latch := if j = m then cur else v.latch } := by
  rcases eq_or_ne j m with rfl | hjm
  · rw [List.getElem?_set_self (List.getElem?_eq_some_iff.mp hm).1, hm]
    simp
  · rw [List.getElem?_set_ne hjm.symm]
    simp [hjm]

/-- What the turn of voice `k`, which tests voice `m`, makes of voice `j`: `master` is voice `m` before the turn. -/
def turned (master : Voice) (m k j : Nat) (v : Voice) : Voice :=
  { v with
    phase := if j = k ∧ v.flags.getLsbD 5 = true ∧ master.phase.getLsbD 27 = true ∧ master.latch = false then 0
      else v.phase
    latch := if j = m then master.phase.getLsbD 27 else v.latch }

theorem syncVoice_getElem? {vs : List Voice} {k : Nat} {master : Voice}
    (hm : vs[(k + vs.length - 1) % vs.length]? = some master) (j : Nat) :
    (syncVoice vs k)[j]? = vs[j]?.map (turned master ((k + vs.length - 1) % vs.length) k j) := by
  rw [syncVoice]
  generalize (k + vs.length - 1) % vs.length = m at hm ⊢
  simp only [hm]
  rw [zeroPhase_if_getElem?, setLatch_getElem? hm, Option.map_map]
  refine Option.map_congr fun v hv => ?_
  have hslave : j = k → isSlave vs k = v.flags.getLsbD 5 := by
    rintro rfl
    simp [isSlave, hv, flagSync]
  have hzero : (j = k ∧ (master.phase.getLsbD 27 && !master.latch && isSlave vs k) = true) ↔
      j = k ∧ v.flags.getLsbD 5 = true ∧ master.phase.getLsbD 27 = true ∧ master.latch = false := by
    refine and_congr_right fun hjk => ?_
    rw [hslave hjk, Bool.and_eq_true, Bool.and_eq_true, Bool.not_eq_true', and_comm]
  simp only [Function.comp, turned, hzero]

theorem turned_phase {master v : Voice} {m k j : Nat} (h : j ≠ k) : (turned master m k j v).phase = v.phase :=
  if_neg fun hc => h hc.1

theorem turned_latch {master v : Voice} {m k j : Nat} (h : j ≠ m) : (turned master m k j v).latch = v.latch :=
  if_neg h

/-! ## The pass -/

/-- The bank after the turns of the voices below `k`. -/
def syncTurns (vs : List Voice) (k : Nat) : List Voice := (List.range k).foldl syncVoice vs

theorem syncTurns_succ (vs : List Voice) (k : Nat) : syncTurns vs (k + 1) = syncVoice (syncTurns vs k) k := by
  rw [syncTurns, List.range_succ, List.foldl_append]
  rfl

theorem syncTurns_all (vs : List Voice) : syncTurns vs vs.length = syncPass vs := rfl

theorem zeroPhase_length (vs : List Voice) (k : Nat) : (zeroPhase vs k).length = vs.length := by
  unfold zeroPhase
  split
  · exact List.length_set ..
  · rfl

theorem syncVoice_length (vs : List Voice) (k : Nat) : (syncVoice vs k).length = vs.length := by
  unfold syncVoice
  dsimp only
  split
  · rfl
  · split
    · exact (zeroPhase_length ..).trans (List.length_set ..)
    · exact List.length_set ..

theorem syncTurns_length (vs : List Voice) (k : Nat) : (syncTurns vs k).length = vs.length := by
  induction k with
  | zero => rfl
  | succ k ih => rw [syncTurns_succ, syncVoice_length, ih]

/-- The turn of voice `k` in the pass, with the voice it tests. -/
theorem syncTurns_turn {vs : List Voice} {k : Nat} (hk : k < vs.length) :
    ∃ master, (syncTurns vs k)[(k + vs.length - 1) % vs.length]? = some master ∧ ∀ j,
      (syncTurns vs (k + 1))[j]? =
        (syncTurns vs k)[j]?.map (turned master ((k + vs.length - 1) % vs.length) k j) := by
  have hlen := syncTurns_length vs k
  have hlt : (k + vs.length - 1) % vs.length < (syncTurns vs k).length := by
    rw [hlen]
    exact Nat.mod_lt _ (by omega)
  refine ⟨_, List.getElem?_eq_getElem hlt, fun j => ?_⟩
  rw [syncTurns_succ, syncVoice_getElem? (by rw [hlen]; exact List.getElem?_eq_getElem hlt), hlen]

/-- What no turn from the `a`-th to below the `b`-th writes of voice `j` is unchanged by them. -/
theorem syncTurns_unchanged {α : Type} {f : Voice → α} {vs : List Voice} {a b j : Nat} (hab : a ≤ b)
    (hb : b ≤ vs.length)
    (hf : ∀ master v k, a ≤ k → k < b → f (turned master ((k + vs.length - 1) % vs.length) k j v) = f v) :
    (syncTurns vs b)[j]?.map f = (syncTurns vs a)[j]?.map f := by
  induction b, hab using Nat.le_induction with
  | base => rfl
  | succ b hab ih =>
    obtain ⟨master, -, hturn⟩ := syncTurns_turn hb
    rw [hturn, Option.map_map, ← ih (Nat.le_of_succ_le hb) fun master v k ha hk => hf master v k ha (by omega)]
    exact congrArg (Option.map · _) (funext fun v => hf master v b hab (Nat.lt_succ_self b))

/-- A voice's phase changes in its own turn only. -/
theorem syncTurns_phase {vs : List Voice} {a b j : Nat} (hab : a ≤ b) (hb : b ≤ vs.length) (hj : j < a ∨ b ≤ j) :
    (syncTurns vs b)[j]?.map Voice.phase = (syncTurns vs a)[j]?.map Voice.phase :=
  syncTurns_unchanged hab hb fun _ _ _ ha hk => turned_phase (by omega)

/-- A voice's latch changes in the turn of the voice `i` that tests it only. -/
theorem syncTurns_latch {vs : List Voice} {a b i : Nat} (hab : a ≤ b) (hb : b ≤ vs.length) (hi : i < vs.length)
    (hout : i < a ∨ b ≤ i) :
    (syncTurns vs b)[(i + vs.length - 1) % vs.length]?.map Voice.latch =
      (syncTurns vs a)[(i + vs.length - 1) % vs.length]?.map Voice.latch :=
  syncTurns_unchanged hab hb fun _ _ k ha hk => turned_latch (by
    rw [master_index hi, master_index (Nat.lt_of_lt_of_le hk hb)]
    split <;> split <;> omega)

/-- A voice without its phase and its latch, which is all that the pass writes. -/
def Voice.unsynced (v : Voice) : Voice := { v with phase := 0, latch := false }

theorem syncTurns_unsynced {vs : List Voice} {k : Nat} (hk : k ≤ vs.length) (j : Nat) :
    (syncTurns vs k)[j]?.map Voice.unsynced = vs[j]?.map Voice.unsynced :=
  syncTurns_unchanged (Nat.zero_le k) hk fun _ _ _ _ _ => rfl

theorem syncPass_length (vs : List Voice) : (syncPass vs).length = vs.length := syncTurns_length vs vs.length

theorem Voice.eq_of_unsynced {v w : Voice} (h : w.unsynced = v.unsynced) :
    w = { v with phase := w.phase, latch := w.latch } := by
  cases v
  cases w
  simpa [Voice.unsynced] using h

theorem syncPass_keeps {vs : List Voice} {i : Nat} {v w : Voice} (hv : vs[i]? = some v)
    (hw : (syncPass vs)[i]? = some w) : w = { v with phase := w.phase, latch := w.latch } := by
  have hkept := syncTurns_unsynced (Nat.le_refl vs.length) i
  rw [syncTurns_all, hv, hw] at hkept
  exact Voice.eq_of_unsynced (Option.some.inj hkept)

/-- The tested voice shows the phase it has after its own turn; to voice 0, the first, the one before the pass. -/
theorem syncTurns_seen {vs : List Voice} {i : Nat} {master seen : Voice} (hi : i < vs.length)
    (hmaster : (syncTurns vs i)[(i + vs.length - 1) % vs.length]? = some master)
    (hseen : (if i = 0 then vs[vs.length - 1]? else (syncPass vs)[i - 1]?) = some seen) :
    seen.phase = master.phase := by
  rw [master_index hi] at hmaster
  split at hseen
  · rename_i hzero
    subst hzero
    exact congrArg Voice.phase (Option.some.inj (hseen.symm.trans hmaster))
  · rename_i hpos
    have hphase := syncTurns_phase (vs := vs) (j := i - 1) hi.le (Nat.le_refl _) (.inl (by omega))
    rw [if_neg hpos] at hmaster
    rw [syncTurns_all, hseen, hmaster] at hphase
    exact Option.some.inj hphase

/-- A voice comes to its turn with its phase and its flags as they were. -/
theorem syncTurns_before {vs : List Voice} {i : Nat} {v : Voice} (hv : vs[i]? = some v) :
    ∃ u, (syncTurns vs i)[i]? = some u ∧ u.phase = v.phase ∧ u.flags = v.flags := by
  obtain ⟨hi, -⟩ := List.getElem?_eq_some_iff.mp hv
  have hphase := syncTurns_phase (vs := vs) (j := i) (Nat.zero_le i) hi.le (.inr (Nat.le_refl i))
  have hkept := syncTurns_unsynced (vs := vs) hi.le i
  have hstart : (syncTurns vs 0)[i]? = some v := hv
  rw [hstart] at hphase
  rw [hv] at hkept
  obtain ⟨u, hu, hup⟩ := Option.map_eq_some_iff.mp hphase
  rw [hu] at hkept
  have hsame : u.unsynced = v.unsynced := Option.some.inj hkept
  exact ⟨u, hu, hup, congrArg (·.flags) hsame⟩

/-- Settles O40: a voice's phase is its own turn's, and the latch of the voice it tests is the same turn's. -/
theorem syncPassZeroesSlavesOnly : Obligations.SyncPassZeroesSlavesOnly := by
  refine fun vs => ⟨syncPass_length vs, fun i v w => syncPass_keeps, fun i v w m m' seen hv hw hm hm' hseen => ?_⟩
  obtain ⟨hi, -⟩ := List.getElem?_eq_some_iff.mp hv
  obtain ⟨master, hmaster, hturn⟩ := syncTurns_turn hi
  obtain ⟨u, hu, hphase, hflags⟩ := syncTurns_before hv
  have hold : master.latch = m.latch := by
    have hsame := syncTurns_latch (Nat.zero_le i) hi.le hi (.inr (Nat.le_refl i))
    rw [hmaster] at hsame
    exact Option.some.inj (hsame.trans (congrArg (Option.map Voice.latch) hm))
  rw [syncTurns_seen hi hmaster hseen, ← hold]
  constructor
  · have hsame := syncTurns_phase (vs := vs) hi (Nat.le_refl _) (.inl (Nat.lt_succ_self i))
    rw [syncTurns_all, hw, hturn, hu] at hsame
    rw [Option.some.inj hsame, ← hphase, ← hflags]
    simp only [turned, true_and]
  · have hsame := syncTurns_latch hi (Nat.le_refl _) hi (.inl (Nat.lt_succ_self i))
    rw [syncTurns_all, hm', hturn, hmaster] at hsame
    exact (Option.some.inj hsame).trans (if_pos rfl)

end Sys2Proof.Machine

/-! PROOFS. The filter (O23, O24, O25): the two commands that compute its coefficients again, its sample by the parts of
rule R178, and the signed zeros that a silent filter computes with. -/

namespace Sys2Proof

/-! ## Signed zeros (00_scope.md rule R12) -/

theorem F64.zero_eq_pack : F64.zero = F64.pack false 0 := by decide

theorem F64.zero_fields : F64.zero.mag = 0 ∧ F64.zero.sign = false := by decide

theorem F64.zero_abs : F64.zero.abs = F64.zero := by decide

theorem F64.pack_zero_isFinite (neg : Bool) : (F64.pack neg 0).isFinite = true := (F64.pack_zero_within neg 0).1.1

/-- A finite value times `+0.0` is a zero of that value's sign. -/
theorem F64.mul_zero_eq {x : F64} (hx : x.isFinite = true) : x.mul F64.zero = F64.pack x.sign 0 := by
  obtain ⟨hzm, hzsign⟩ := F64.zero_fields
  rw [F64.mul_eq_pack hx F64.zero_scaled.1, hzm, hzsign, Nat.mul_zero, F64.roundMag_zero (Nat.two_pow_pos _),
    Bool.bne_false]

/-- `+0.0` over a positive finite value is `+0.0`. -/
theorem F64.zero_div_eq {x : F64} (hx : x.isFinite = true) (hpos : F64.zero.lt x = true) :
    F64.zero.div x = F64.zero := by
  obtain ⟨hzm, hzsign⟩ := F64.zero_fields
  obtain ⟨hzf, hzs⟩ := F64.zero_scaled
  have habs := x.natAbs_scaled
  rw [F64.lt_iff hzf hx, hzs] at hpos
  have hmag : 0 < x.mag := by omega
  rw [F64.div_eq_pack hzf hx (F64.isZero_eq_false hmag), F64.sign_of_pos hpos, hzm, hzsign, Nat.zero_mul,
    F64.roundMag_zero hmag, F64.zero_eq_pack]
  rfl

/-- `+0.0` and a zero of either sign add up to `+0.0`. -/
theorem F64.zero_add_signedZero (neg : Bool) : F64.zero.add (F64.pack neg 0) = F64.zero := by
  cases neg <;> decide

theorem F64.zero_sub_signedZero (neg : Bool) : F64.zero.sub (F64.pack neg 0) = F64.zero := by
  cases neg <;> decide

theorem F64.zero_sub_zero : F64.zero.sub F64.zero = F64.zero := F64.zero_sub_signedZero false

theorem F64.one_sub_one : F64.one.sub F64.one = F64.zero := by decide +kernel

end Sys2Proof

namespace Sys2Proof.Machine

/-! ## The cutoff and the resonance (41_filter.md rules R180, R181) -/

/-- What `FLT_SET_FC` writes for a finite operand. -/
def withCutoff (x : F64) (s : State) : State :=
  let fc := x.clamp F64.zero F64.one
  { s with filter := { s.filter with fc := fc, w := filterW s.cfg fc, off := filterOff s.cfg fc } }

/-- What `FLT_SET_Q` writes for a finite operand. -/
def withResonance (x : F64) (s : State) : State :=
  let q := x.clamp F64.zero F64.one
  { s with filter := { s.filter with q := q, d := filterD s.cfg q } }

theorem exec_fltSetFc (d : Bool) (arg : Word64) (s : State) : exec (.fltSetFc d arg) s =
    runCommand (.fltSetFc d arg) (fun s => do let x ← operandF arg; return withCutoff x s) s := rfl

theorem exec_fltSetQ (d : Bool) (arg : Word64) (s : State) : exec (.fltSetQ d arg) s =
    runCommand (.fltSetQ d arg) (fun s => do let x ← operandF arg; return withResonance x s) s := rfl

/-- Settles O23. -/
theorem filterCutoffAndResonanceResults : Obligations.FilterCutoffAndResonanceResults := by
  refine fun arg s => ⟨fun hfin => ⟨?_, ?_⟩, fun hbad => ⟨?_, ?_⟩⟩
  · rw [exec_fltSetFc, runCommand_operandF_finite rfl hfin]
    rfl
  · rw [exec_fltSetQ, runCommand_operandF_finite rfl hfin]
    rfl
  · rw [exec_fltSetFc, runCommand_operandF_notFinite rfl hbad, header_fltSetFc]
    rfl
  · rw [exec_fltSetQ, runCommand_operandF_notFinite rfl hbad, header_fltSetQ]
    rfl

/-! ## The sample (rules R173 to R178) -/

/-- The sample of an instance whose `FILTER_STEP` is the default (rule R178). -/
theorem filterSample_spec {p : Params} (h : p.filterStep = .spec) (f : Filter) (direct filtered : F64) :
    filterSample p f direct filtered =
      (filterOut p (filterTaps p f (softClip p (p.vScale.mul filtered))) (softClip p (p.vScale.mul direct)),
        filterTaps p f (softClip p (p.vScale.mul filtered))) := by
  rw [filterSample, h]

/-- Settles O24: the parts of rule R178 are the soft clip, the recurrence with its distortions, and the output. -/
theorem filterSampleOrder : Obligations.FilterSampleOrder := by
  intro p f direct filtered hspec
  rw [filterSample_spec hspec, filterOut, filterTaps, distortion, distortion, softClip, softClip]

/-! ## Silence (rule R179) -/

/-- A value of at most `V_SAT` in magnitude passes the soft clip (rule R174). -/
theorem softClip_of_le {p : Params} {v : F64} (h : v.abs.le p.vSat = true) : softClip p v = v := if_pos h

theorem softClip_zero {p : Params} (hfin : p.vSat.isFinite = true) (hpos : F64.zero.lt p.vSat = true) :
    softClip p F64.zero = F64.zero := by
  obtain ⟨hzf, -⟩ := F64.zero_scaled
  refine softClip_of_le ?_
  rw [F64.zero_abs, F64.le_iff hzf hfin]
  exact ((F64.lt_iff hzf hfin).mp hpos).le

/-- The distortion of a tap at `+0.0` is a zero: `F_exp(-0.0)` is 1, so the second factor is `1 - 1` (rule R175). -/
theorem distortion_zero {p : Params} {f : Filter} (hk : (p.distK.mul f.w).isFinite = true)
    (hfin : f.off.isFinite = true) (hpos : F64.zero.lt f.off = true) :
    ∃ neg, distortion p f F64.zero = F64.pack neg 0 := by
  have hexp : fExp F64.zero.neg = F64.one := fExp_zero (by decide) (by decide) (by decide)
  rw [distortion, F64.zero_abs, F64.zero_div_eq hfin hpos, hexp, F64.one_sub_one, F64.mul_zero_eq hk,
    F64.mul_zero_eq (F64.pack_zero_isFinite _)]
  exact ⟨_, rfl⟩

/-- One turn of the recurrence of rule R176 from taps of `+0.0`, with the input `+0.0`. -/
theorem filterTaps_zero {p : Params} {f : Filter} (hw : f.w.isFinite = true) (hd : f.d.isFinite = true)
    (hk : (p.distK.mul f.w).isFinite = true) (hfin : f.off.isFinite = true) (hpos : F64.zero.lt f.off = true)
    (hlp : f.lp = F64.zero) (hbp : f.bp = F64.zero) :
    filterTaps p f F64.zero = { f with hp := F64.zero, bp := F64.zero, lp := F64.zero } := by
  obtain ⟨neg, hdist⟩ := distortion_zero hk hfin hpos
  have hhp : (F64.zero.sub f.lp).sub (f.d.mul f.bp) = F64.zero := by
    rw [hlp, hbp, F64.zero_sub_zero, F64.mul_zero_eq hd, F64.zero_sub_signedZero]
  have htap : (F64.zero.add (f.w.mul F64.zero)).sub (distortion p f F64.zero) = F64.zero := by
    rw [F64.mul_zero_eq hw, F64.zero_add_signedZero, hdist, F64.zero_sub_signedZero]
  rw [filterTaps, hhp, hlp, hbp, htap, htap]

/-- Settles O25. -/
theorem silentFilterKeepsZeroTaps : Obligations.SilentFilterKeepsZeroTaps := by
  intro p f direct hspec hscale hscalePos hsat hsatPos hw hd hk hoff hoffPos hlp hbp _
  have hinput : p.vScale.mul F64.zero = F64.zero := by
    rw [F64.mul_zero_eq hscale, sign_of_zero_lt hscale hscalePos, F64.zero_eq_pack]
  rw [filterSample_spec hspec, hinput, softClip_zero hsat hsatPos, filterTaps_zero hw hd hk hoff hoffPos hlp hbp]
  exact ⟨rfl, rfl, rfl⟩

end Sys2Proof.Machine

/-! PROOFS. The envelope (O18, O19, O20, O21, O22): what a voice command with one check writes or raises, what the checks
of a stage length and a curvature answer, and the step stage by stage. -/

namespace Sys2Proof.Machine

/-! ## Commands that write their voice once a check has passed -/

section
variable {i : Instr} {v : BitVec 8} {s : State} {vo : Voice} {α : Type} {check : State → Except FaultCause α}
  {g : α → Voice → Voice}

theorem runVoice_passed {a : α} (hv : s.voices[v.toNat]? = some vo) (hd : i.deferred = false) (h : check s = .ok a) :
    runVoice i v (fun s vo => do let a ← check s; return g a vo) s =
      .next { s with voices := s.voices.set v.toNat (g a vo) } := by
  rw [runVoice_now hv hd, h]
  rfl

theorem runVoice_refused {c : FaultCause} (hv : s.voices[v.toNat]? = some vo) (hd : i.deferred = false)
    (h : check s = .error c) :
    runVoice i v (fun s vo => do let a ← check s; return g a vo) s = .next (enterFault c i.header i.operand s) := by
  rw [runVoice_now hv hd, h]
  rfl

end

/-! ## The checks of the envelope's operands (rules R93, R204, R216) -/

theorem operandNone_nonzero {arg : Word64} (h : arg ≠ 0) : operandNone arg = .error .badArg := if_neg h

theorem require_passed {ok : Bool} (h : ok = true) (c : FaultCause) : require ok c = .ok () := if_pos h

theorem require_failed {ok : Bool} (h : ok = false) (c : FaultCause) : require ok c = .error c :=
  if_neg (Bool.eq_false_iff.mp h)

/-- A check that has failed ends the command. -/
theorem error_bind {ε α β : Type} (e : ε) (f : α → Except ε β) : ((.error e : Except ε α) >>= f) = .error e := rfl

theorem isPosInf_iff (x : F64) : isPosInf x = true ↔ x.bits = 0x7FF0000000000000 := by
  refine ⟨fun h => ?_, fun h => ?_⟩
  · obtain ⟨hinf, hsign⟩ : (x.expField = 2047 ∧ x.frac = 0) ∧ x.sign = false := by
      simpa [isPosInf, F64.isInf] using h
    have hlow : x.low63 = (F64.mk 0x7FF0000000000000).low63 := by
      rw [F64.low63_eq, hinf.1, hinf.2]
      rfl
    exact congrArg F64.bits (F64.ext_low (y := ⟨0x7FF0000000000000⟩) hsign hlow)
  · obtain ⟨bits⟩ := x
    obtain rfl : bits = 0x7FF0000000000000 := h
    decide

theorem isPosInf_eq_false {x : F64} (h : x.bits ≠ 0x7FF0000000000000) : isPosInf x = false :=
  Bool.eq_false_iff.mpr (mt (isPosInf_iff x).mp h)

section
variable {s : State} {arg : Word64}

theorem stageLength_noRate (h : s.sampleRate.eq F64.zero = true) : stageLength s arg = .error .zeroSampleRate := by
  rw [stageLength, rateConfigured_zero h, error_bind]

theorem stageLength_eq_ok (hrate : s.sampleRate.eq F64.zero = false) (hfin : (F64.mk arg).isFinite = true)
    (hpos : (F64.mk arg).lt F64.zero = false) (hinf : ((F64.mk arg).mul s.innerRate).bits ≠ 0x7FF0000000000000) :
    stageLength s arg = .ok ((F64.mk arg).mul s.innerRate) := by
  rw [stageLength, rateConfigured_set hrate, ok_bind, operandF_finite hfin, ok_bind, hpos]
  dsimp only
  rw [isPosInf_eq_false hinf]
  rfl

/-- The three faults of rules R212 and R395, in their order. -/
theorem stageLength_illegal (hrate : s.sampleRate.eq F64.zero = false)
    (h : (F64.mk arg).isFinite = false ∨ (F64.mk arg).lt F64.zero = true ∨
      ((F64.mk arg).mul s.innerRate).bits = 0x7FF0000000000000) :
    stageLength s arg = .error .badArg := by
  rw [stageLength, rateConfigured_set hrate, ok_bind]
  cases hfin : (F64.mk arg).isFinite with
  | false => rw [operandF_notFinite hfin, error_bind]
  | true =>
    rw [operandF_finite hfin, ok_bind]
    cases hneg : (F64.mk arg).lt F64.zero with
    | true => rfl
    | false =>
      have hinf := (h.resolve_left (by simp [hfin])).resolve_left (by simp [hneg])
      dsimp only
      rw [(isPosInf_iff _).mpr hinf]
      rfl

theorem curvature_eq_ok (hfin : (F64.mk arg).isFinite = true) (hmin : F64.minNormal.le ⟨arg⟩ = true) :
    curvature arg = .ok ⟨arg⟩ := by
  rw [curvature, operandF_finite hfin, ok_bind, require_passed hmin, ok_bind]
  rfl

theorem curvature_illegal (h : (F64.mk arg).isFinite = false ∨ F64.minNormal.le ⟨arg⟩ = false) :
    curvature arg = .error .badArg := by
  rw [curvature]
  cases hfin : (F64.mk arg).isFinite with
  | false => rw [operandF_notFinite hfin, error_bind]
  | true => rw [operandF_finite hfin, ok_bind, require_failed (h.resolve_left (by simp [hfin])), error_bind]

end

/-! ## The commands (rules R210 to R218) -/

/-- Settles O18: an idle envelope is written back as it is. -/
theorem envOnAndOffResults : Obligations.EnvOnAndOffResults := by
  intro v arg s vo hv
  have hoff : arg = 0 → exec (.envOff false v arg) s = .next { s with
      voices := s.voices.set v.toNat
        (if vo.env.state = .idle then vo else { vo with env := { vo.env with state := .release } }) } := fun h0 =>
    runVoice_passed (i := .envOff false v arg) (check := fun _ => operandNone arg) hv rfl (if_pos h0)
  refine ⟨fun h0 => ?_, fun h0 hidle => ?_, fun h0 hstage => ?_, fun hne => ⟨?_, ?_⟩⟩
  · exact runVoice_passed (i := .envOn false v arg) (check := fun _ => operandNone arg) hv rfl (if_pos h0)
  · obtain ⟨hlt, rfl⟩ := List.getElem?_eq_some_iff.mp hv
    rw [hoff h0, if_pos hidle, List.set_getElem_self]
  · rw [hoff h0, if_neg hstage]
  · exact runVoice_refused (i := .envOn false v arg) (check := fun _ => operandNone arg) hv rfl
      (operandNone_nonzero hne)
  · exact runVoice_refused (i := .envOff false v arg) (check := fun _ => operandNone arg) hv rfl
      (operandNone_nonzero hne)

/-- Settles O19: the coefficient written out in the statement is `slopeCoef` by definition (rule R200). -/
theorem envStageTimeResults : Obligations.EnvStageTimeResults := by
  intro v arg s vo hv
  refine ⟨fun hrate => ?_, fun hrate hbad => ?_, fun hrate hfin hpos hinf => ?_⟩
  · have h := stageLength_noRate (arg := arg) hrate
    exact ⟨runVoice_refused (i := .envSetAttack false v arg) (check := (stageLength · arg)) hv rfl h,
      runVoice_refused (i := .envSetDecay false v arg) (check := (stageLength · arg)) hv rfl h,
      runVoice_refused (i := .envSetRelease false v arg) (check := (stageLength · arg)) hv rfl h⟩
  · have h := stageLength_illegal hrate hbad
    exact ⟨runVoice_refused (i := .envSetAttack false v arg) (check := (stageLength · arg)) hv rfl h,
      runVoice_refused (i := .envSetDecay false v arg) (check := (stageLength · arg)) hv rfl h,
      runVoice_refused (i := .envSetRelease false v arg) (check := (stageLength · arg)) hv rfl h⟩
  · have h := stageLength_eq_ok hrate hfin hpos hinf
    exact ⟨runVoice_passed (i := .envSetAttack false v arg) (check := (stageLength · arg)) hv rfl h,
      runVoice_passed (i := .envSetDecay false v arg) (check := (stageLength · arg)) hv rfl h,
      runVoice_passed (i := .envSetRelease false v arg) (check := (stageLength · arg)) hv rfl h⟩

theorem exec_envSetSustain (d : Bool) (v : BitVec 8) (arg : Word64) (s : State) :
    exec (.envSetSustain d v arg) s = execEnvSetSustain d v arg s := rfl

/-- Settles O20: a level in `[0, 1]` is finite, so the check of the range decides. -/
theorem envSetSustainResult : Obligations.EnvSetSustainResult := by
  intro v arg s vo hv
  refine ⟨fun h0 h1 => ?_, fun hbad => ?_⟩
  · have hfin := ((inUnit_iff _).mp ⟨h0, h1⟩).1
    rw [exec_envSetSustain, execEnvSetSustain, runVoice_now hv rfl, operandF_finite hfin, ok_bind, h0, h1]
    rfl
  · rw [exec_envSetSustain, execEnvSetSustain, runVoice_now hv rfl]
    cases hfin : (F64.mk arg).isFinite with
    | false =>
      rw [operandF_notFinite hfin]
      rfl
    | true =>
      rw [operandF_finite hfin, ok_bind, require_failed (Bool.and_eq_false_iff.mpr hbad)]
      rfl

/-- Settles O21: the two cases of `curvature`, for the three stages alike. -/
theorem envCurveResults : Obligations.EnvCurveResults := by
  intro v arg s vo hv
  refine ⟨fun hfin hmin => ?_, fun hbad => ?_⟩
  · have h := curvature_eq_ok hfin hmin
    exact ⟨runVoice_passed (i := .envSetCurveAttack false v arg) (check := fun _ => curvature arg) hv rfl h,
      runVoice_passed (i := .envSetCurveDecay false v arg) (check := fun _ => curvature arg) hv rfl h,
      runVoice_passed (i := .envSetCurveRelease false v arg) (check := fun _ => curvature arg) hv rfl h⟩
  · have h := curvature_illegal hbad
    exact ⟨runVoice_refused (i := .envSetCurveAttack false v arg) (check := fun _ => curvature arg) hv rfl h,
      runVoice_refused (i := .envSetCurveDecay false v arg) (check := fun _ => curvature arg) hv rfl h,
      runVoice_refused (i := .envSetCurveRelease false v arg) (check := fun _ => curvature arg) hv rfl h⟩

/-! ## The step, stage by stage (rule R220) -/

section
variable {e : Envelope}

theorem envStep_idle (h : e.state = .idle) : envStep e = e := by
  rw [envStep, h]

theorem envStep_sustain (h : e.state = .sustain) : envStep e = { e with value := e.sustain } := by
  rw [envStep, h]

theorem envStep_attack (h : e.state = .attack) :
    envStep e = if F64.one.le (e.baseA.add (e.value.mul e.coefA)) = true
      then { e with value := F64.one, state := .decay }
      else { e with value := e.baseA.add (e.value.mul e.coefA) } := by
  rw [envStep, h]

theorem envStep_decay (h : e.state = .decay) :
    envStep e = if (e.baseD.add (e.value.mul e.coefD)).lt e.sustain = true
      then { e with value := e.sustain, state := .sustain }
      else { e with value := e.baseD.add (e.value.mul e.coefD) } := by
  rw [envStep, h]

theorem envStep_release (h : e.state = .release) :
    envStep e = if (e.baseR.add (e.value.mul e.coefR)).le F64.zero = true
      then { e with value := F64.zero, state := .idle }
      else { e with value := e.baseR.add (e.value.mul e.coefR) } := by
  rw [envStep, h]

end

/-- Settles O22: the ranges are those that the invariant rests on (rules R200, R221). -/
theorem envelopeStepRules : Obligations.EnvelopeStepRules :=
  ⟨fun _ _ => slopeCoef_inUnit,
    fun _ => ⟨envStep_inUnit, envStep_idle, envStep_sustain, envStep_attack, envStep_decay, envStep_release⟩⟩

end Sys2Proof.Machine

/-! PROOFS. Progress (O56): a sample of the resampler, an inner frame, the frame of a tick and the dispatch loop all
complete from the invariant, so a step stops only where the host breaks its own rules. -/

namespace Sys2Proof.Machine

/-! ## The samples of a tick (47_engine.md rule R362) -/

/-- Every kernel variant's key is generated at reset (43_table_cache.md rule R249). -/
theorem psincKey_mem_resetKeys {p : Params} (h : p.srcRs = true) (v : Fin 3) : psincKey p v ∈ resetKeys p := by
  rw [resetKeys, if_pos h]
  refine List.mem_append_right _ ?_
  match v with
  | 0 | 1 | 2 => simp

theorem firKey_mem_resetKeys {p : Params} (h : p.oversample = true) : firKey p ∈ resetKeys p := by
  rw [resetKeys, if_pos h]
  exact List.mem_append_left _ (List.mem_singleton_self _)

/-- With ready tables the kernel row is a hit (rule R248), and no read leaves sample memory (44_resampler.md rule
R279). -/
theorem rsSample_completes {s : State} (hi : Inv s) (ht : s.tablesReady = true) (hr : s.cfg.srcRs = true) :
    ∃ r, rsSample s = .ok r := by
  cases hband : outsideGuard s with
  | true => exact ⟨_, rsSample_outsideGuard hband⟩
  | false =>
    obtain ⟨table, htable⟩ := Option.isSome_iff_exists.mp
      (hi.keysPresent ht _ (psincKey_mem_resetKeys hr (variantOf s.rs.inc)))
    obtain ⟨_, _, -, -, hloop⟩ := rsChannels_reads _ hi.extentFits
    exact ⟨_, rsSample_insideGuard hband (kernelRow_cached htable) hloop⟩

theorem bankStage_inv {s : State} (hi : Inv s) : Inv (bankStage s).2 := by
  unfold bankStage
  split
  · exact bankSample_inv hi
  · exact hi

theorem bankStage_tablesReady (s : State) : (bankStage s).2.tablesReady = s.tablesReady := by
  unfold bankStage
  split <;> rfl

theorem innerFrame_completes {s : State} (hi : Inv s) (ht : s.tablesReady = true) : ∃ r, innerFrame s = .ok r := by
  cases hr : s.cfg.srcRs with
  | false => exact ⟨_, innerFrame_without_rs hr⟩
  | true =>
    obtain ⟨r, h⟩ := rsSample_completes (bankStage_inv hi) ((bankStage_tablesReady s).trans ht)
      ((congrArg Params.srcRs (bankStage_cfg s)).trans hr)
    exact ⟨_, by rw [innerFrame_with_rs hr, h]; rfl⟩

theorem Sampled.tablesReady {s t : State} (h : Sampled s t) : t.tablesReady = s.tablesReady := by
  obtain ⟨vs, f, rs, w, n, rfl⟩ := h
  rfl

/-! ## The frame of a tick (45_oversampler.md rule R303, 47_engine.md rule R361) -/

theorem pullInner_succ {s u : State} {frame : List F64} (h : innerFrame s = .ok (frame, u)) (n : Nat) :
    pullInner (n + 1) s = pullInner n (pushFrame frame u) := by
  rw [pullInner, h]
  rfl

theorem pullInner_completes (n : Nat) {s : State} (hi : Inv s) (ht : s.tablesReady = true) :
    ∃ u, pullInner n s = .ok u := by
  induction n generalizing s with
  | zero => exact ⟨s, rfl⟩
  | succ n ih =>
    obtain ⟨⟨frame, v⟩, hf⟩ := innerFrame_completes hi ht
    obtain ⟨hv, hlen⟩ := innerFrame_inv hi _ hf
    rw [pullInner_succ hf]
    exact ih (pushFrame_inv hv hlen) ((innerFrame_sampled s _ hf).tablesReady.trans ht)

theorem osFrame_cached {s u : State} {table : List F64} (h : lookup s.slots (firKey s.cfg) = some table)
    (hu : pullInner s.cfg.ratio s = .ok u) :
    osFrame s = .ok (u.osw.map (firOut u.cfg.ratio u.cfg.zc table), u) := by
  rw [osFrame, h]
  dsimp only
  rw [hu]
  rfl

theorem tickFrame_completes {s : State} (hi : Inv s) (ht : s.tablesReady = true) : ∃ r, tickFrame s = .ok r := by
  unfold tickFrame
  split
  · rename_i ho
    obtain ⟨table, htable⟩ := Option.isSome_iff_exists.mp (hi.keysPresent ht _ (firKey_mem_resetKeys ho))
    obtain ⟨u, hu⟩ := pullInner_completes s.cfg.ratio hi ht
    exact ⟨_, osFrame_cached htable hu⟩
  · exact innerFrame_completes hi ht

/-! ## The tick -/

theorem completeTick_continues {s : State} (hi : Inv s) (ht : s.tablesReady = true) : Continues (completeTick s) := by
  obtain ⟨r, hr⟩ := tickFrame_completes hi ht
  exact ⟨_, by rw [completeTick, hr]⟩

/-- A packet executes in every state: its command, or the fault of its header (rules R96, R364). -/
theorem execPacket_continues (hdr : BitVec 32) (arg : Word64) (s : State) : Continues (execPacket hdr arg s) := by
  unfold execPacket
  split
  · rename_i i _
    obtain ⟨t, ht, -⟩ := exec_precise i s
    exact ⟨t, ht⟩
  · exact ⟨_, raiseFault_eq ..⟩

theorem dispatch_continues (fuel : Nat) (s : State) : Continues (dispatch fuel s) := by
  induction fuel generalizing s with
  | zero => exact ⟨s, rfl⟩
  | succ fuel ih =>
    cases hdue : eventDue s with
    | false => exact ⟨s, dispatch_none hdue _⟩
    | true =>
      rw [dispatch, if_pos hdue]
      cases hpop : popEvent s with
      | none => exact ⟨s, rfl⟩
      | some p =>
        obtain ⟨e, s1⟩ := p
        obtain ⟨s2, h2⟩ := execPacket_continues e.hdr e.arg s1
        dsimp only
        rw [h2]
        dsimp only
        split
        · exact ⟨s2, rfl⟩
        · exact ih s2

theorem continueTick_continues {s : State} (hi : Inv s) : Continues (continueTick s) := by
  obtain ⟨s1, hd⟩ := dispatch_continues s.heap.length s
  have h1 := dispatch_inv hd hi
  rw [continueTick, hd]
  dsimp only
  split
  · exact ⟨s1, rfl⟩
  · rename_i hrun
    refine completeTick_continues h1 (h1.readyOrFaulted.resolve_right fun hf => hrun ?_)
    rw [hf, Bool.true_or]

theorem engineAct_continues {s : State} (hi : Inv s) (he : engineDue s = true) : Continues (engineAct s) := by
  obtain ⟨hp, -, hf, -⟩ := (engineDue_iff s).mp he
  unfold engineAct
  split
  · exact continueTick_continues hi
  · cases hrate : s.sampleRate.eq F64.zero with
    | true => exact ⟨_, startTick_noRate hrate⟩
    | false =>
      rw [startTick_rate hrate]
      exact continueTick_continues { hi with
        faultIdle := fun hfault => absurd (hf.symm.trans hfault) (by decide)
        tickPulled := fun _ => hp }

/-! ## The host's actions -/

theorem receivePacket_continues (hdr : BitVec 32) (arg : Word64) (s : State) :
    Continues (receivePacket hdr arg s) := by
  unfold receivePacket
  split
  · exact ⟨s, rfl⟩
  · exact execPacket_continues hdr arg s

/-- A pull is answered, or becomes outstanding, unless one is (47_engine.md rule R363). -/
theorem receivePull_continues {s : State} (h : s.pull = false) : Continues (receivePull s) := by
  rw [receivePull, h]
  split <;> exact ⟨_, rfl⟩

theorem sampleWrite_continues {s : State} {a : Nat} (v : Word64) (h : a < 2 ^ s.cfg.sampleAddrBits) :
    Continues (sampleWrite a v s) :=
  ⟨_, if_pos (decide_eq_true h)⟩

/-- Settles O56, over the kinds of action that a step can be.  The two stops left are choices of the model (log entries
17 and 18). -/
theorem machineNeverStops : Obligations.MachineNeverStops := by
  intro s hi
  cases he : engineDue s with
  | true => exact .inl (step_engine he ▸ engineAct_continues hi he)
  | false =>
    cases hp : takePacket s.port with
    | some p =>
      obtain ⟨hdr, arg, rest⟩ := p
      exact .inl (step_packet he hp ▸ receivePacket_continues hdr arg _)
    | none =>
      cases hin : s.inbox with
      | nil => exact .inl ⟨s, step_idle he hp hin⟩
      | cons a rest =>
        have hnext : HostActsNext s a := ⟨he, hp, rest, hin⟩
        have hstep := step_host he hp hin
        cases a with
        | byte b => exact .inl ⟨_, hstep⟩
        | read addr => exact .inl ⟨_, hstep⟩
        | reset => exact .inl ⟨_, hstep⟩
        | pull =>
          cases hpull : s.pull with
          | true => exact .inr (.inr ⟨hpull, hnext⟩)
          | false => exact .inl (hstep ▸ receivePull_continues hpull)
        | writeSample addr value =>
          rcases Nat.lt_or_ge addr (2 ^ s.cfg.sampleAddrBits) with hlt | hge
          · exact .inl (hstep ▸ sampleWrite_continues value hlt)
          · exact .inr (.inl ⟨addr, value, hnext, hge⟩)

end Sys2Proof.Machine

/-! PROOFS. The oversampler (O43): the window entries that the decimation sum takes, the frame of a tick, and the delay
of `RATIO = 1`. -/

namespace Sys2Proof

/-! ## Operations that change nothing (00_scope.md rule R12) -/

/-- `+0.0` and a finite value add up to that value: no value is nearer to the exact sum. -/
theorem F64.zero_add_scaled {x : F64} (hx : x.isFinite = true) :
    (F64.zero.add x).isFinite = true ∧ (F64.zero.add x).scaled = x.scaled := by
  obtain ⟨hzf, hzs⟩ := F64.zero_scaled
  have hlt : x.mag < F64.overflow := F64.mag_add_lt_overflow hx (Nat.two_pow_pos 2044)
  have hfin : (F64.zero.add x).isFinite = true :=
    F64.add_isFinite hzf hx (by rwa [hzs, Int.zero_add, F64.natAbs_scaled])
  have hnear := (additionRoundsToNearest F64.zero x x hzf hx hx hfin).1
  rw [hzs] at hnear
  exact ⟨hfin, by omega⟩

/-- 1 times a finite value is that value. -/
theorem F64.one_mul_scaled {x : F64} (hx : x.isFinite = true) :
    (F64.one.mul x).isFinite = true ∧ (F64.one.mul x).scaled = x.scaled := by
  obtain ⟨h1f, h1s⟩ := F64.one_scaled
  have hlt : x.mag < F64.overflow := F64.mag_add_lt_overflow hx (Nat.two_pow_pos 2044)
  have hmag : F64.one.mag = F64.unit := by rw [← F64.natAbs_scaled, h1s, Int.natAbs_natCast]
  have hfin : (F64.one.mul x).isFinite = true :=
    F64.mul_isFinite h1f hx (by rw [hmag]; exact Nat.mul_lt_mul_of_pos_left hlt (Nat.two_pow_pos _))
  have hnear := (productAndQuotientRoundToNearest F64.one x x h1f hx hx).1 hfin
  have hunit : (2 : Int) ^ 1074 = F64.unit := two_pow_cast 1074
  rw [h1s, hunit, Int.mul_comm, Int.mul_comm x.scaled, Int.sub_self, Int.natAbs_zero, Nat.le_zero, Int.natAbs_eq_zero,
    ← Int.mul_sub] at hnear
  exact ⟨hfin, Int.eq_of_sub_eq_zero ((Int.mul_eq_zero.mp hnear).resolve_left F64.unit_pos.ne')⟩

/-! ## The offsets of the stored taps (43_table_cache.md rule R243) -/

theorem mem_firOffsets {ratio zc n : Nat} : n ∈ firOffsets ratio zc ↔ n < ratio * zc ∧ n % ratio ≠ 0 := by
  simp [firOffsets]

theorem firOffsets_ratio_one (zc : Nat) : firOffsets 1 zc = [] :=
  List.eq_nil_iff_forall_not_mem.mpr fun n hn => (mem_firOffsets.mp hn).2 (Nat.mod_one n)

/-- The multiples of `RATIO` at both ends may be counted in or left out. -/
theorem firOffsets_eq_filter_range' (ratio zc : Nat) :
    firOffsets ratio zc = (List.range' 1 (ratio * zc)).filter fun n => n % ratio != 0 := by
  have hfirst : (List.range (ratio * zc + 1)).filter (fun n => n % ratio != 0) =
      (List.range' 1 (ratio * zc)).filter fun n => n % ratio != 0 := by
    rw [List.range_eq_range', List.range'_succ, List.filter_cons_of_neg (by simp)]
  have hlast : (List.range (ratio * zc + 1)).filter (fun n => n % ratio != 0) = firOffsets ratio zc := by
    rw [List.range_succ, List.filter_append, List.filter_cons_of_neg (by simp), List.filter_nil, List.append_nil,
      firOffsets]
  exact hlast.symm.trans hfirst

/-- With `RATIO = 1` the stored table is `[1.0]`. -/
theorem firEntries_ratio_one (zc : Nat) (beta : F64) : firEntries 1 zc beta = [F64.one] := by
  have hunit : F64.one.div (F64.one.add (F64.two.mul F64.zero)) = F64.one := by decide +kernel
  simp only [firEntries, firSum, firOffsets_ratio_one, List.map_nil, sumList, List.foldl_nil, hunit]

end Sys2Proof

namespace Sys2Proof.Machine

/-! ## The decimation sum (45_oversampler.md rule R302) -/

/-- The distance of window entry `k` from the centre `c`. -/
def tapDistance (c k : Nat) : Nat := (c - k) + (k - c)

/-- Whether the sum takes the entries at distance `n`: the centre, and the offsets whose tap is stored. -/
def tapStored (ratio n : Nat) : Bool := decide (n = 0 ∨ n % ratio ≠ 0)

theorem tapDistance_older {c n : Nat} (h : n ≤ c) : tapDistance c (c - n) = n := by
  unfold tapDistance
  omega

theorem tapDistance_newer (c n : Nat) : tapDistance c (c + n) = n := by
  unfold tapDistance
  omega

theorem range_eq_map_sub (c : Nat) : List.range c = (List.range' 1 c).reverse.map (c - ·) := by
  rw [List.reverse_range', List.map_map]
  refine (List.map_id _).symm.trans (List.map_congr_left fun k hk => ?_)
  have := List.mem_range.mp hk
  simp only [id, Function.comp]
  omega

theorem olderEntries_eq (ratio zc : Nat) :
    (List.range (ratio * zc)).filter (fun k => tapStored ratio (tapDistance (ratio * zc) k)) =
      (firOffsets ratio zc).reverse.map (ratio * zc - ·) := by
  rw [firOffsets_eq_filter_range', ← List.filter_reverse, range_eq_map_sub, List.filter_map]
  refine congrArg _ (List.filter_congr fun n hn => ?_)
  have hn := List.mem_range'_1.mp (List.mem_reverse.mp hn)
  rw [Function.comp, tapDistance_older (by omega), tapStored, Bool.eq_iff_iff, decide_eq_true_iff, bne_iff_ne]
  exact or_iff_right (by omega)

theorem newerEntries_eq {ratio zc : Nat} (hr : 1 ≤ ratio) (hz : 1 ≤ zc) :
    ((List.range (ratio * zc)).map (ratio * zc + ·)).filter (fun k => tapStored ratio (tapDistance (ratio * zc) k)) =
      ratio * zc :: (firOffsets ratio zc).map (ratio * zc + ·) := by
  obtain ⟨c, hc⟩ : ∃ c, ratio * zc = c + 1 := Nat.exists_eq_add_one.mpr (Nat.mul_pos hr hz)
  rw [List.filter_map, firOffsets]
  simp only [Function.comp_def, tapDistance_newer]
  rw [hc, List.range_eq_range', List.range'_succ, List.filter_cons_of_pos (by simp [tapStored]),
    List.filter_cons_of_neg (by simp), List.map_cons]
  refine congrArg _ (congrArg _ (List.filter_congr fun n hn => ?_))
  have hn := List.mem_range'_1.mp hn
  rw [tapStored, Bool.eq_iff_iff, decide_eq_true_iff, bne_iff_ne]
  exact or_iff_right (by omega)

/-- The window entries of the sum, in increasing order: the older half, the centre, the newer half. -/
theorem windowEntries_eq {ratio zc : Nat} (hr : 1 ≤ ratio) (hz : 1 ≤ zc) :
    (List.range (2 * (ratio * zc))).filter (fun k => tapStored ratio (tapDistance (ratio * zc) k)) =
      (firOffsets ratio zc).reverse.map (ratio * zc - ·) ++
        ratio * zc :: (firOffsets ratio zc).map (ratio * zc + ·) := by
  rw [Nat.two_mul, List.range_add, List.filter_append, olderEntries_eq, newerEntries_eq hr hz]

/-- What window entry `k` adds to the sum. -/
def entryProduct (ratio c : Nat) (table w : List F64) (acc : F64) (k : Nat) : F64 :=
  firProduct ratio table w acc (tapDistance c k) k

theorem firOut_eq_foldl {ratio zc : Nat} (table w : List F64) (hr : 1 ≤ ratio) (hz : 1 ≤ zc) :
    firOut ratio zc table w =
      ((List.range (2 * (ratio * zc))).filter fun k => tapStored ratio (tapDistance (ratio * zc) k)).foldl
        (entryProduct ratio (ratio * zc) table w) F64.zero := by
  have holder : ∀ acc, ∀ n ∈ (firOffsets ratio zc).reverse,
      firProduct ratio table w acc n (ratio * zc - n) =
        entryProduct ratio (ratio * zc) table w acc (ratio * zc - n) := by
    intro acc n hn
    have hlt := (mem_firOffsets.mp (List.mem_reverse.mp hn)).1
    rw [entryProduct, tapDistance_older hlt.le]
  have hcentre : ∀ acc, firProduct ratio table w acc 0 (ratio * zc) =
      entryProduct ratio (ratio * zc) table w acc (ratio * zc) := by
    intro acc
    rw [entryProduct, show tapDistance (ratio * zc) (ratio * zc) = 0 from tapDistance_newer _ 0]
  have hnewer : ∀ acc, ∀ n ∈ firOffsets ratio zc,
      firProduct ratio table w acc n (ratio * zc + n) =
        entryProduct ratio (ratio * zc) table w acc (ratio * zc + n) := by
    intro acc n _
    rw [entryProduct, tapDistance_newer]
  rw [windowEntries_eq hr hz, List.foldl_append, List.foldl_cons, List.foldl_map, List.foldl_map, firOut]
  rw [List.foldl_ext _ _ _ holder, hcentre, List.foldl_ext _ _ _ hnewer]

/-- With `RATIO = 1` the sum is the centre's product alone. -/
theorem firOut_ratio_one (zc : Nat) (w : List F64) :
    firOut 1 zc [F64.one] w = F64.zero.add (F64.one.mul (w.getD zc F64.zero)) := by
  simp only [firOut, firOffsets_ratio_one, List.reverse_nil, List.foldl_nil, Nat.one_mul]
  rfl

/-- With `RATIO = 1` the output is a finite midpoint (rule R304). -/
theorem firOut_ratio_one_eq {zc : Nat} {w : List F64} (h : (w.getD zc F64.zero).isFinite = true) :
    (firOut 1 zc [F64.one] w).eq (w.getD zc F64.zero) = true := by
  obtain ⟨hmf, hms⟩ := F64.one_mul_scaled h
  obtain ⟨haf, has⟩ := F64.zero_add_scaled hmf
  rw [firOut_ratio_one, F64.eq_iff haf h, has, hms]

/-! ## The window (rule R301) -/

theorem pushFrame_osw_getElem {frame : List F64} {s : State} {c : Nat} {w : List F64} {x : F64}
    (hw : s.osw[c]? = some w) (hx : frame[c]? = some x) : (pushFrame frame s).osw[c]? = some (pushValue w x) := by
  rw [pushFrame_osw, List.getElem?_zipWith, hw, hx]

theorem pushValue_last (w : List F64) (x : F64) : (pushValue w x).getD (w.length - 1) F64.zero = x := by
  rw [pushValue, List.getD_append_right _ _ _ _ (by simp), List.length_drop, Nat.sub_self, List.getD_cons_zero]

theorem pushValue_earlier {w : List F64} {k : Nat} (h : k + 1 < w.length) (x : F64) :
    (pushValue w x).getD k F64.zero = w.getD (k + 1) F64.zero := by
  rw [pushValue, List.getD_append _ _ _ _ (by rw [List.length_drop]; omega), List.getD_eq_getElem?_getD,
    List.getElem?_drop, List.getD_eq_getElem?_getD, Nat.add_comm]

/-- Values pushed one after the other stand at the end, the last one last. -/
theorem foldl_pushValue {w xs : List F64} (h : xs.length ≤ w.length) :
    xs.foldl pushValue w = w.drop xs.length ++ xs := by
  induction xs generalizing w with
  | nil => simp
  | cons x xs ih =>
    rw [List.length_cons] at h
    have hpush : (pushValue w x).drop xs.length = w.drop (xs.length + 1) ++ [x] := by
      rw [pushValue, List.drop_append_of_le_length (by rw [List.length_drop]; omega), List.drop_drop, Nat.add_comm]
    rw [List.foldl_cons, ih (by rw [pushValue_length (by omega)]; omega), hpush, List.append_assoc, List.length_cons,
      List.singleton_append]

/-- The value pushed `ZC` pushes ago is the midpoint of the window of `RATIO = 1`. -/
theorem midpoint_after_pushes {zc : Nat} {w xs : List F64} (hw : w.length = 2 * zc + 1) (hxs : xs.length = zc)
    (x : F64) : (xs.foldl pushValue (pushValue w x)).getD zc F64.zero = x := by
  have hpushes := foldl_pushValue (w := w) (xs := x :: xs) (by rw [List.length_cons]; omega)
  rw [List.foldl_cons, List.length_cons, hxs] at hpushes
  have hlen : (w.drop (zc + 1)).length = zc := by
    rw [List.length_drop]
    omega
  rw [hpushes, List.getD_append_right _ _ _ _ hlen.le, hlen, Nat.sub_self, List.getD_cons_zero]

/-! ## The frame of a tick (45_oversampler.md rule R303, 47_engine.md rule R361) -/

theorem pullsInner_zero {s u : State} : PullsInner 0 s u ↔ s = u := by
  constructor
  · rintro ⟨σ, rfl, rfl, -⟩
    rfl
  · rintro rfl
    exact ⟨fun _ => s, rfl, rfl, nofun⟩

/-- The run of states whose first is `s`. -/
def statesFrom (s : State) (σ : Nat → State) : Nat → State
  | 0 => s
  | n + 1 => σ n

theorem pullsInner_succ {n : Nat} {s u : State} :
    PullsInner (n + 1) s u ↔ ∃ frame v, innerFrame s = .ok (frame, v) ∧ PullsInner n (pushFrame frame v) u := by
  constructor
  · rintro ⟨σ, rfl, rfl, hσ⟩
    obtain ⟨frame, v, hf, hnext⟩ := hσ 0 (Nat.succ_pos n)
    exact ⟨frame, v, hf, fun r => σ (r + 1), hnext, rfl, fun r hr => hσ (r + 1) (Nat.succ_lt_succ hr)⟩
  · rintro ⟨frame, v, hf, σ, hnext, rfl, hσ⟩
    refine ⟨statesFrom s σ, rfl, rfl, fun r hr => ?_⟩
    cases r with
    | zero => exact ⟨frame, v, hf, hnext⟩
    | succ r => exact hσ r (Nat.lt_of_succ_lt_succ hr)

theorem pullInner_succ_iff {n : Nat} {s u : State} :
    pullInner (n + 1) s = .ok u ↔
      ∃ frame v, innerFrame s = .ok (frame, v) ∧ pullInner n (pushFrame frame v) = .ok u := by
  constructor
  · intro h
    cases hf : innerFrame s with
    | ok r => exact ⟨r.1, r.2, rfl, pullInner_succ hf n ▸ h⟩
    | error f =>
      rw [pullInner, hf] at h
      cases h
  · rintro ⟨frame, v, hf, h⟩
    rwa [pullInner_succ hf]

theorem pullInner_iff {n : Nat} {s u : State} : pullInner n s = .ok u ↔ PullsInner n s u := by
  induction n generalizing s with
  | zero =>
    rw [pullsInner_zero]
    exact ⟨Except.ok.inj, congrArg Except.ok⟩
  | succ n ih => simp only [pullInner_succ_iff, pullsInner_succ, ih]

theorem osFrame_iff {s u : State} {frame : List F64} : osFrame s = .ok (frame, u) ↔
    pullInner s.cfg.ratio s = .ok u ∧ ∃ table, lookup s.slots (firKey s.cfg) = some table ∧
      frame = u.osw.map (firOut s.cfg.ratio s.cfg.zc table) := by
  constructor
  · intro h
    cases htable : lookup s.slots (firKey s.cfg) with
    | none =>
      rw [osFrame, htable] at h
      cases h
    | some table =>
      cases hpull : pullInner s.cfg.ratio s with
      | error f =>
        rw [osFrame, htable] at h
        dsimp only at h
        rw [hpull] at h
        cases h
      | ok v =>
        rw [osFrame_cached htable hpull] at h
        cases h
        exact ⟨rfl, table, rfl, by rw [(pullInner_sampled _ s _ hpull).cfg]⟩
  · rintro ⟨hpull, table, htable, rfl⟩
    rw [osFrame_cached htable hpull, (pullInner_sampled _ s _ hpull).cfg]

theorem tickFrame_iff {s u : State} {frame : List F64} : tickFrame s = .ok (frame, u) ↔ TickDelivers s frame u := by
  unfold tickFrame TickDelivers
  split
  · rw [osFrame_iff, pullInner_iff]
  · exact Iff.rfl

/-- Settles O43. -/
theorem oversamplerRules : Obligations.OversamplerRules := by
  refine ⟨fun ratio zc table w => firOut_eq_foldl table w, fun frame s => ⟨rfl, ?_, fun c w x => pushFrame_osw_getElem⟩,
    fun s u frame => tickFrame_iff, fun zc w => firOut_ratio_one_eq, fun w x k hw => ?_, firEntries_ratio_one,
    fun zc w xs x hw hxs hx => ?_⟩
  · rw [pushFrame_osw, List.length_zipWith]
  · exact ⟨pushValue_length (List.length_pos_iff.mpr hw) x, pushValue_last w x, fun hk => pushValue_earlier hk x⟩
  · have hmid := midpoint_after_pushes hw hxs x
    have hout := firOut_ratio_one_eq (w := xs.foldl pushValue (pushValue w x)) (hmid ▸ hx)
    rwa [hmid] at hout

end Sys2Proof.Machine

/-! PROOFS. The tables (O44): where the FIR table holds an offset's tap, the rows of the phased-sinc table, the numeric
utilities case by case, and the unit impulse of phase 0 at scale 1. -/

namespace Sys2Proof

/-! ## The FIR's tap indices (43_table_cache.md rules R243, R244) -/

/-- The offsets between two multiples of `RATIO` follow each other in the table. -/
theorem firIdx_block {ratio j : Nat} (zc : Nat) (hj : j < ratio) :
    firIdx ratio (ratio * zc + j) = zc * (ratio - 1) + j := by
  have hdiv : (ratio * zc + j) / ratio = zc := by
    rw [Nat.mul_add_div (by omega), Nat.div_eq_of_lt hj, Nat.add_zero]
  have hsplit : ratio * zc = zc * (ratio - 1) + zc := by
    rw [← Nat.mul_succ, Nat.succ_eq_add_one, Nat.sub_add_cancel (by omega), Nat.mul_comm]
  rw [firIdx, hdiv, hsplit]
  omega

/-- One more zero crossing adds the offsets after `RATIO ZC` and before the next multiple. -/
theorem firOffsets_succ {ratio : Nat} (zc : Nat) (hr : 1 ≤ ratio) :
    firOffsets ratio (zc + 1) =
      firOffsets ratio zc ++ (List.range (ratio - 1)).map (fun j => ratio * zc + (j + 1)) := by
  obtain ⟨r, rfl⟩ := Nat.exists_eq_add_of_le' hr
  rw [firOffsets, Nat.mul_succ, List.range_add, List.filter_append, ← firOffsets, List.filter_map,
    List.range_succ_eq_map, List.filter_cons_of_neg (by simp), List.filter_map, List.map_map, List.filter_eq_self.mpr]
  · rfl
  · intro j hj
    have hlt := Nat.succ_lt_succ (List.mem_range.mp hj)
    simp [Nat.mod_eq_of_lt hlt]

theorem map_firIdx_firOffsets {ratio : Nat} (zc : Nat) (hr : 1 ≤ ratio) :
    (firOffsets ratio zc).map (firIdx ratio) = (List.range (zc * (ratio - 1))).map (· + 1) := by
  induction zc with
  | zero => simp [firOffsets]
  | succ zc ih =>
    rw [firOffsets_succ zc hr, List.map_append, ih, Nat.succ_mul, List.range_add, List.map_append, List.map_map,
      List.map_map]
    refine congrArg _ (List.map_congr_left fun j hj => ?_)
    have hj := List.mem_range.mp hj
    exact firIdx_block zc (by omega)

theorem firOffsets_length {ratio : Nat} (zc : Nat) (hr : 1 ≤ ratio) :
    (firOffsets ratio zc).length = zc * (ratio - 1) := by
  simpa using congrArg List.length (map_firIdx_firOffsets zc hr)

theorem firEntries_length {ratio : Nat} (zc : Nat) (beta : F64) (hr : 1 ≤ ratio) :
    (firEntries ratio zc beta).length = 1 + zc * (ratio - 1) := by
  rw [firEntries, List.length_cons, List.length_map, firOffsets_length zc hr, Nat.add_comm]

/-- 0 is a multiple of `RATIO`, so no offset. -/
theorem mem_firOffsets_iff_pos {ratio zc n : Nat} :
    n ∈ firOffsets ratio zc ↔ 1 ≤ n ∧ n < ratio * zc ∧ n % ratio ≠ 0 := by
  rw [mem_firOffsets]
  exact (and_iff_right_of_imp fun h => Nat.pos_of_ne_zero fun h0 => h.2 (h0 ▸ Nat.zero_mod ratio)).symm

/-- The table holds the tap of offset `n` at the index that rule R244 computes. -/
theorem firEntries_getElem {ratio zc n : Nat} (beta : F64) (hr : 1 ≤ ratio) (h : n ∈ firOffsets ratio zc) :
    (firEntries ratio zc beta)[firIdx ratio n]? = some ((firTap ratio zc beta n).div (firSum ratio zc beta)) := by
  obtain ⟨i, hi, rfl⟩ := List.getElem_of_mem h
  have hidx : firIdx ratio (firOffsets ratio zc)[i] = i + 1 := by
    have hmap := List.getElem_of_eq (map_firIdx_firOffsets zc hr) (i := i) (by simpa using hi)
    simpa using hmap
  rw [hidx, firEntries, List.getElem?_cons_succ, List.getElem?_map, List.getElem?_eq_getElem hi]
  rfl

/-! ## The rows of the phased-sinc table (rules R245, R246) -/

/-- Entry `k` of row `i` in a list of rows of `m` entries each. -/
theorem getElem?_flatMap_rows {α β : Type} {f : α → List β} {m k : Nat} (hk : k < m) {l : List α}
    (hrows : ∀ a ∈ l, (f a).length = m) (i : Nat) (hi : i < l.length) :
    (l.flatMap f)[i * m + k]? = (f l[i])[k]? := by
  induction l generalizing i with
  | nil => exact absurd hi (Nat.not_lt_zero i)
  | cons a l ih =>
    have hfirst := hrows a (List.mem_cons_self ..)
    rw [List.flatMap_cons]
    cases i with
    | zero =>
      rw [Nat.zero_mul, Nat.zero_add, List.getElem?_append_left (by omega)]
      rfl
    | succ i =>
      have hplace : (i + 1) * m + k - (f a).length = i * m + k := by
        rw [hfirst, Nat.succ_mul]
        omega
      rw [List.getElem?_append_right (by rw [hfirst, Nat.succ_mul]; omega), hplace]
      exact ih (fun b hb => hrows b (List.mem_cons_of_mem a hb)) i (Nat.lt_of_succ_lt_succ hi)

theorem psincRow_length (phases half : Nat) (beta sc : F64) (ph : Nat) :
    (psincRow phases half beta sc ph).length = 2 * half := by
  simp [psincRow, psincRaw]

theorem psincRow_getElem {phases half k : Nat} (beta sc : F64) (ph : Nat) (hk : k < 2 * half) :
    (psincRow phases half beta sc ph)[k]? =
      some ((psincTap phases half beta sc ph k).div (sumList (psincRaw phases half beta sc ph))) := by
  simp [psincRow, psincRaw, hk]

theorem psincEntries_length (phases half : Nat) (beta sc : F64) :
    (psincEntries phases half beta sc).length = phases * (2 * half) := by
  simp [psincEntries, List.length_flatMap, psincRow_length]

theorem psincEntries_getElem {phases half ph k : Nat} (beta sc : F64) (hph : ph < phases) (hk : k < 2 * half) :
    (psincEntries phases half beta sc)[ph * (2 * half) + k]? =
      some ((psincTap phases half beta sc ph k).div (sumList (psincRaw phases half beta sc ph))) := by
  have hrow := getElem?_flatMap_rows hk (fun ph _ => psincRow_length phases half beta sc ph) ph
    (by rwa [List.length_range])
  rw [psincEntries, hrow, List.getElem_range, psincRow_getElem beta sc ph hk]

/-! ## `sinc` and the window (rules R241, R242) -/

/-- A value equal to 0 is a zero of either sign. -/
theorem F64.eq_zero_iff (x : F64) : x.eq F64.zero = true ↔ x.isFinite = true ∧ x.scaled = 0 := by
  obtain ⟨hzf, hzs⟩ := F64.zero_scaled
  constructor
  · intro h
    have hzero : F64.zero.order = 0 := by decide
    have horder : x.order = 0 := by
      simp only [F64.eq, Bool.and_eq_true, beq_iff_eq] at h
      rw [h.2, hzero]
    have hlow : x.low63 = 0 := by
      unfold F64.order at horder
      split at horder <;> omega
    have hfin : x.isFinite = true := by
      rw [F64.low63_eq] at hlow
      rw [F64.isFinite, bne_iff_ne]
      omega
    exact ⟨hfin, ((F64.eq_iff hfin hzf).mp h).trans hzs⟩
  · rintro ⟨hfin, hs⟩
    exact (F64.eq_iff hfin hzf).mpr (hs.trans hzs.symm)

/-- The values that are mathematical integers. -/
theorem F64.isInt_iff (x : F64) : x.isInt = true ↔ x.isFinite = true ∧ x.scaled % 2 ^ 1074 = 0 := by
  have hdvd : x.scaled % 2 ^ 1074 = 0 ↔ x.mag % 2 ^ 1074 = 0 := by
    rw [two_pow_cast 1074, ← Int.dvd_iff_emod_eq_zero, Int.natCast_dvd, F64.natAbs_scaled, Nat.dvd_iff_mod_eq_zero]
  rw [F64.isInt, Bool.and_eq_true, beq_iff_eq, hdvd]

theorem sinc_zero {x : F64} (h : x.eq F64.zero = true) : sinc x = F64.one := if_pos h

theorem sinc_integer {x : F64} (h0 : x.eq F64.zero = false) (hi : x.isInt = true) : sinc x = F64.zero := by
  rw [sinc, h0, if_neg Bool.false_ne_true, if_pos hi]

theorem sinc_other {x : F64} (hi : x.isInt = false) : sinc x = (fSin (F64.pi.mul x)).div (F64.pi.mul x) := by
  have h0 : x.eq F64.zero = false := by
    rw [Bool.eq_false_iff]
    intro hz
    obtain ⟨hfin, hs⟩ := (F64.eq_zero_iff x).mp hz
    exact Bool.eq_false_iff.mp hi ((F64.isInt_iff x).mpr ⟨hfin, by rw [hs, Int.zero_emod]⟩)
  rw [sinc, h0, hi, if_neg Bool.false_ne_true, if_neg Bool.false_ne_true]

theorem kaiser_outside {t beta : F64} (h : F64.one.lt t.abs = true) : kaiser t beta = F64.zero := if_pos h

theorem kaiser_inside {t beta : F64} (h : F64.one.lt t.abs = false) :
    kaiser t beta = (besselI0 (beta.mul (F64.one.sub (t.mul t)).sqrt)).div (besselI0 beta) :=
  if_neg (Bool.eq_false_iff.mp h)

/-! ## `I0` (rule R240) -/

/-- The sums `s` and terms `t` of the series for the half-argument `y`. -/
structure I0Series (y : F64) (s t : Nat → F64) (last : Nat) : Prop where
  terms : ∀ k < last, t (k + 1) = (t k).mul ((y.div (F64.ofNat (k + 1))).mul (y.div (F64.ofNat (k + 1))))
  sums : ∀ k < last, s (k + 1) = (s k).add (t (k + 1))
  goesOn : ∀ k, 1 ≤ k → k < last → (t k).lt ((s k).mul F64.twoPowNeg53) = false
  stops : last < 1000 → (t last).lt ((s last).mul F64.twoPowNeg53) = true

/-- The loop takes up the series after any term, and ends with its last sum. -/
theorem i0Loop_eq_last {y : F64} {s t : Nat → F64} {last : Nat} (h : I0Series y s t last) (hlast : last ≤ 1000)
    {fuel k : Nat} (hfuel : k + fuel = 1000) (hk : k < last) : i0Loop fuel (k + 1) y (s k) (t k) = s last := by
  induction fuel generalizing k with
  | zero => omega
  | succ fuel ih =>
    rw [i0Loop, ← h.terms k hk, ← h.sums k hk]
    rcases Nat.lt_or_eq_of_le (Nat.succ_le_of_lt hk) with hmore | hend
    · rw [h.goesOn (k + 1) (Nat.succ_pos k) hmore, if_neg Bool.false_ne_true]
      exact ih (by omega) hmore
    · obtain rfl : k + 1 = last := hend
      split
      · rfl
      · rename_i hgo
        obtain rfl : fuel = 0 := by
          by_contra hne
          exact hgo (h.stops (by omega))
        rfl

/-! ## The unit impulse of phase 0 at scale 1 (rules R242, R246) -/

/-- Values of which the one at `p` is 1 and the others are `+0.0` sum to 1 from there on. -/
theorem sum_impulse (p n : Nat) :
    ((List.range n).map fun k => if k = p then F64.one else F64.zero).foldl F64.add F64.zero =
      if p < n then F64.one else F64.zero := by
  have hadd : F64.zero.add F64.one = F64.one ∧ F64.one.add F64.zero = F64.one ∧
      F64.zero.add F64.zero = F64.zero := by decide +kernel
  obtain ⟨h01, h10, h00⟩ := hadd
  induction n with
  | zero => simp
  | succ n ih =>
    rw [List.range_succ, List.map_append, List.foldl_append, ih, List.map_singleton, List.foldl_cons, List.foldl_nil]
    rcases Nat.lt_trichotomy n p with hlt | rfl | hgt
    · rw [if_neg (by omega), if_neg (by omega), if_neg (by omega), h00]
    · rw [if_neg (Nat.lt_irrefl n), if_pos rfl, if_pos (Nat.lt_succ_self n), h01]
    · rw [if_pos hgt, if_neg (by omega), if_pos (by omega), h10]

theorem psincRow_phase_zero {bits half k : Nat} {beta : F64} (hb : bits ≤ 12) (h : Machine.betaInRange beta = true)
    (h1 : 1 ≤ half) (h2 : half ≤ 32) (hk : k < 2 * half) :
    (psincTap (2 ^ bits) half beta F64.one 0 k).div (sumList (psincRaw (2 ^ bits) half beta F64.one 0)) =
      if k + 1 = half then F64.one else F64.zero := by
  have hrow : psincRaw (2 ^ bits) half beta F64.one 0 =
      (List.range (2 * half)).map fun j => if j = half - 1 then F64.one else F64.zero := by
    refine List.map_congr_left fun j hj => ?_
    rw [psincTap_phase_zero hb h h1 h2 (List.mem_range.mp hj)]
    exact if_congr (by omega) rfl rfl
  have hsum : sumList (psincRaw (2 ^ bits) half beta F64.one 0) = F64.one := by
    rw [hrow, sumList, sum_impulse, if_pos (by omega)]
  have hdiv : F64.one.div F64.one = F64.one ∧ F64.zero.div F64.one = F64.zero := by decide +kernel
  rw [psincTap_phase_zero hb h h1 h2 hk, hsum]
  split
  · exact hdiv.1
  · exact hdiv.2

end Sys2Proof

namespace Sys2Proof.Machine

/-- Settles O44. -/
theorem tableEntriesAndTapIndexMap : Obligations.TableEntriesAndTapIndexMap := by
  refine ⟨fun ratio zc beta hr => ⟨map_firIdx_firOffsets zc hr, by rw [firIdx, Nat.zero_div],
      firEntries_length zc beta hr, fun _ => mem_firOffsets_iff_pos, ?_⟩,
    fun bits half beta sc => ⟨psincEntries_length .., fun ph k => psincEntries_getElem beta sc⟩,
    fun x => ⟨sinc_zero, fun h0 hfin hs => sinc_integer h0 ((F64.isInt_iff x).mpr ⟨hfin, hs⟩), fun h => sinc_other ?_⟩,
    fun t beta => ⟨kaiser_outside, kaiser_inside⟩,
    fun x s t last hs ht hstep hfirst hlast hgo hstop => ?_, fun bits half beta hkey k hk => ?_⟩
  · have hfilter : (List.range (ratio * zc)).filter (fun n => decide (n % ratio ≠ 0)) = firOffsets ratio zc :=
      List.filter_congr fun n _ => by rw [Bool.eq_iff_iff, decide_eq_true_iff, bne_iff_ne]
    rw [hfilter]
    exact ⟨rfl, fun n _ hlt hmod => firEntries_getElem beta hr (mem_firOffsets.mpr ⟨hlt, hmod⟩)⟩
  · rw [Bool.eq_false_iff, Ne, F64.isInt_iff]
    rintro ⟨hfin, hs⟩
    exact h.elim (fun hinf => Bool.eq_false_iff.mp hinf hfin) fun hne => hne hs
  · have hseries : I0Series (x.div F64.two) s t last :=
      ⟨fun k hk => (hstep k hk).1, fun k hk => (hstep k hk).2, hgo, hstop⟩
    have hloop := i0Loop_eq_last hseries hlast (Nat.zero_add 1000) hfirst
    rwa [hs, ht] at hloop
  · obtain ⟨hbits, ⟨h1, h2⟩, hbeta, -⟩ := (keyInRange_psinc_iff bits half beta F64.one).mp hkey
    have hentry := psincEntries_getElem beta F64.one (Nat.two_pow_pos bits) hk
    rw [psincRow_phase_zero hbits hbeta h1 h2 hk, Nat.zero_mul, Nat.zero_add] at hentry
    exact hentry

end Sys2Proof.Machine

/-! PROOFS. The commands of the resampler that write a rate, a pitch, an increment or a position, and `EV_SET_TICK`
(O27, O28, O29); the advance of the cursor and the kernel variants (O30). -/

namespace Sys2Proof

/-! ## Zero and the positive values (00_scope.md rule R12) -/

theorem F64.finite_not_neg_of_eq_zero {x : F64} (h : x.eq F64.zero = true) :
    x.isFinite = true ∧ x.lt F64.zero = false := by
  obtain ⟨hzf, hzs⟩ := F64.zero_scaled
  obtain ⟨hfin, hs⟩ := (F64.eq_zero_iff x).mp h
  exact ⟨hfin, Bool.eq_false_iff.mpr (mt (F64.lt_iff hfin hzf).mp (by omega))⟩

theorem F64.not_neg_not_zero_of_pos {x : F64} (hfin : x.isFinite = true) (h : F64.zero.lt x = true) :
    x.lt F64.zero = false ∧ x.eq F64.zero = false := by
  obtain ⟨hzf, hzs⟩ := F64.zero_scaled
  have hpos := (F64.lt_iff hzf hfin).mp h
  exact ⟨Bool.eq_false_iff.mpr (mt (F64.lt_iff hfin hzf).mp (by omega)),
    Bool.eq_false_iff.mpr (mt (F64.eq_iff hfin hzf).mp (by omega))⟩

end Sys2Proof

namespace Sys2Proof.Machine

/-! ## A command that is not deferred, by what its effect answers (30_encoding.md rule R92) -/

theorem runCommand_of_ok {i : Instr} {f : State → Except FaultCause State} {s t : State} (hd : i.deferred = false)
    (h : f s = .ok t) : runCommand i f s = .next t := by
  rw [runCommand_now hd, h, executeNow_ok]

theorem runCommand_of_error {i : Instr} {f : State → Except FaultCause State} {s : State} {c : FaultCause}
    (hd : i.deferred = false) (h : f s = .error c) :
    runCommand i f s = .next (enterFault c i.header i.operand s) := by
  rw [runCommand_now hd, h, executeNow_error]

/-! ## The advance of the cursor, and the kernel variants (44_resampler.md rules R270, R277, R278) -/

/-- The sum saturates at the top only: no increment is negative. -/
theorem advanceCursor_pos_toInt (rs : Resampler) :
    (advanceCursor rs).pos.toInt = min (rs.pos.toInt + (rs.inc.toNat : Int)) (2 ^ 63 - 1) := by
  have hlow : -2 ^ 63 ≤ rs.pos.toInt := BitVec.le_toInt rs.pos
  have hnoFloor : max (rs.pos.toInt + (rs.inc.toNat : Int)) (-2 ^ 63) = rs.pos.toInt + rs.inc.toNat :=
    max_eq_left (by omega)
  rw [advanceCursor, hnoFloor]
  exact BitVec.toInt_ofInt_eq_self (by decide) (by omega) (by omega)

theorem variantOf_zero {inc : BitVec 63} (h : 3 * inc.toNat < 2 ^ 34) : variantOf inc = 0 := if_pos h

theorem variantOf_one {inc : BitVec 63} (hlow : 2 ^ 34 ≤ 3 * inc.toNat) (hhigh : inc.toNat < 2 ^ 33) :
    variantOf inc = 1 := by
  rw [variantOf, if_neg (Nat.not_lt.mpr hlow), if_pos hhigh]

theorem variantOf_two {inc : BitVec 63} (h : 2 ^ 33 ≤ inc.toNat) : variantOf inc = 2 := by
  rw [variantOf, if_neg (by omega), if_neg (Nat.not_lt.mpr h)]

/-- Settles O30. -/
theorem cursorAdvanceAndKernelVariant : Obligations.CursorAdvanceAndKernelVariant := fun rs =>
  ⟨advanceCursor_pos_toInt rs, rfl, variantOf_zero, variantOf_one, variantOf_two⟩

/-! ## The buffer's rate and pitch (rules R273, R274) -/

/-- What both commands do: the operand, finite and positive, goes to one register, which `write` writes. -/
def writePositive (arg : Word64) (write : F64 → State → State) (s : State) : Except FaultCause State := do
  let x ← operandF arg
  require (F64.zero.lt x) .badBuffer
  return write x s

theorem exec_rsSetBufRate (d : Bool) (arg : Word64) (s : State) : exec (.rsSetBufRate d arg) s =
    runCommand (.rsSetBufRate d arg) (writePositive arg fun r s => { s with rs := { s.rs with bufRate := r } }) s := rfl

theorem exec_rsSetBufPitch (d : Bool) (arg : Word64) (s : State) : exec (.rsSetBufPitch d arg) s =
    runCommand (.rsSetBufPitch d arg) (writePositive arg fun p s => { s with rs := { s.rs with bufPitch := p } }) s :=
  rfl

section
variable {arg : Word64} {write : F64 → State → State} {s : State}

theorem writePositive_positive (hfin : (F64.mk arg).isFinite = true) (hpos : F64.zero.lt ⟨arg⟩ = true) :
    writePositive arg write s = .ok (write ⟨arg⟩ s) := by
  rw [writePositive, operandF_finite hfin, ok_bind, require_passed hpos]
  rfl

theorem writePositive_notFinite (h : (F64.mk arg).isFinite = false) : writePositive arg write s = .error .badArg := by
  rw [writePositive, operandF_notFinite h, error_bind]

theorem writePositive_notPositive (hfin : (F64.mk arg).isFinite = true) (h : F64.zero.lt ⟨arg⟩ = false) :
    writePositive arg write s = .error .badBuffer := by
  rw [writePositive, operandF_finite hfin, ok_bind, require_failed h, error_bind]

end

/-- A fault that does not depend on the register is the answer of both commands. -/
theorem rsSetBufRate_and_rsSetBufPitch_fault {arg : Word64} {s : State} {c : FaultCause}
    (h : ∀ write, writePositive arg write s = .error c) :
    exec (.rsSetBufRate false arg) s = .next (enterFault c 0x00000042 arg s) ∧
      exec (.rsSetBufPitch false arg) s = .next (enterFault c 0x00000043 arg s) := by
  constructor
  · rw [exec_rsSetBufRate, runCommand_of_error rfl (h _), header_rsSetBufRate]
    rfl
  · rw [exec_rsSetBufPitch, runCommand_of_error rfl (h _), header_rsSetBufPitch]
    rfl

/-- Settles O27: the three answers of `writePositive`, for the two commands alike. -/
theorem rsBufferRateAndPitchResults : Obligations.RsBufferRateAndPitchResults := by
  intro arg s
  refine ⟨fun hfin hpos => ⟨?_, ?_⟩, fun hbad => ?_, fun hfin hbad => ?_⟩
  · exact (exec_rsSetBufRate ..).trans (runCommand_of_ok rfl (writePositive_positive hfin hpos))
  · exact (exec_rsSetBufPitch ..).trans (runCommand_of_ok rfl (writePositive_positive hfin hpos))
  · exact rsSetBufRate_and_rsSetBufPitch_fault fun _ => writePositive_notFinite hbad
  · exact rsSetBufRate_and_rsSetBufPitch_fault fun _ => writePositive_notPositive hfin hbad

/-! ## The cursor increment (rule R275) -/

/-- What `RS_SET_HZ` does: its four checks, and the increment. -/
def setHz (arg : Word64) (s : State) : Except FaultCause State := do
  rateConfigured s
  let hz ← operandF arg
  require (!hz.lt F64.zero) .badArg
  require (!(s.rs.bufPitch.eq F64.zero || s.rs.bufRate.eq F64.zero)) .badBuffer
  return { s with rs := { s.rs with inc := cursorIncrement hz s.rs.bufPitch s.rs.bufRate s.innerRate } }

theorem exec_rsSetHz (d : Bool) (arg : Word64) (s : State) :
    exec (.rsSetHz d arg) s = runCommand (.rsSetHz d arg) (setHz arg) s := rfl

section
variable {arg : Word64} {s : State}

theorem setHz_noRate (h : s.sampleRate.eq F64.zero = true) : setHz arg s = .error .zeroSampleRate := by
  rw [setHz, rateConfigured_zero h, error_bind]

theorem setHz_illegal (hrate : s.sampleRate.eq F64.zero = false)
    (h : (F64.mk arg).isFinite = false ∨ (F64.mk arg).lt F64.zero = true) : setHz arg s = .error .badArg := by
  rw [setHz, rateConfigured_set hrate, ok_bind]
  cases hfin : (F64.mk arg).isFinite with
  | false => rw [operandF_notFinite hfin, error_bind]
  | true =>
    have hneg : (F64.mk arg).lt F64.zero = true := h.resolve_left (by simp [hfin])
    rw [operandF_finite hfin, ok_bind, hneg, Bool.not_true, require_failed rfl, error_bind]

theorem setHz_unbound (hrate : s.sampleRate.eq F64.zero = false) (hfin : (F64.mk arg).isFinite = true)
    (hneg : (F64.mk arg).lt F64.zero = false)
    (h : s.rs.bufPitch.eq F64.zero = true ∨ s.rs.bufRate.eq F64.zero = true) : setHz arg s = .error .badBuffer := by
  rw [setHz, rateConfigured_set hrate, ok_bind, operandF_finite hfin, ok_bind, hneg, Bool.not_false,
    require_passed rfl, ok_bind, Bool.or_eq_true_iff.mpr h, Bool.not_true, require_failed rfl, error_bind]

theorem setHz_bound (hrate : s.sampleRate.eq F64.zero = false) (hfin : (F64.mk arg).isFinite = true)
    (hneg : (F64.mk arg).lt F64.zero = false)
    (h : ¬ (s.rs.bufPitch.eq F64.zero = true ∨ s.rs.bufRate.eq F64.zero = true)) :
    setHz arg s = .ok { s with rs := { s.rs with
      inc := cursorIncrement ⟨arg⟩ s.rs.bufPitch s.rs.bufRate s.innerRate } } := by
  rw [← Bool.or_eq_true_iff, Bool.not_eq_true] at h
  rw [setHz, rateConfigured_set hrate, ok_bind, operandF_finite hfin, ok_bind, hneg, Bool.not_false,
    require_passed rfl, ok_bind, h, Bool.not_false, require_passed rfl]
  rfl

theorem rsSetHz_fault {c : FaultCause} (h : setHz arg s = .error c) :
    exec (.rsSetHz false arg) s = .next (enterFault c 0x00000044 arg s) := by
  rw [exec_rsSetHz, runCommand_of_error rfl h, header_rsSetHz]
  rfl

end

theorem cursorIncrement_zero {hz : F64} (h : hz.eq F64.zero = true) (pitch bufRate innerRate : F64) :
    cursorIncrement hz pitch bufRate innerRate = 0 := if_pos h

/-- The two constants are 2^32 and 2^63. -/
theorem cursorIncrement_nonzero {hz : F64} (h : hz.eq F64.zero = false) (pitch bufRate innerRate : F64) :
    cursorIncrement hz pitch bufRate innerRate =
      let q := ((hz.div pitch).mul (bufRate.div innerRate)).mul ⟨0x41F0000000000000⟩
      if (F64.mk 0x43E0000000000000).le q = true then 0x7FFFFFFFFFFFFFFF else BitVec.ofInt 63 q.floorInt := by
  have hscale : F64.ofNat (2 ^ 32) = ⟨0x41F0000000000000⟩ := by decide +kernel
  have hlimit : F64.ofNat (2 ^ 63) = ⟨0x43E0000000000000⟩ := by decide +kernel
  rw [cursorIncrement, h, hscale, hlimit]
  rfl

/-- Settles O28. -/
theorem rsSetHzResult : Obligations.RsSetHzResult := by
  intro arg s
  refine ⟨fun hrate => rsSetHz_fault (setHz_noRate hrate), fun hrate hbad => rsSetHz_fault (setHz_illegal hrate hbad),
    fun hrate hfin hneg hunbound => rsSetHz_fault (setHz_unbound hrate hfin hneg hunbound),
    fun hrate hzero hbound => ?_, fun hrate hfin hpos hbound => ?_⟩
  · obtain ⟨hfin, hneg⟩ := F64.finite_not_neg_of_eq_zero hzero
    rw [exec_rsSetHz, runCommand_of_ok rfl (setHz_bound hrate hfin hneg hbound), cursorIncrement_zero hzero]
  · obtain ⟨hneg, hnonzero⟩ := F64.not_neg_not_zero_of_pos hfin hpos
    rw [exec_rsSetHz, runCommand_of_ok rfl (setHz_bound hrate hfin hneg hbound), cursorIncrement_nonzero hnonzero]

/-! ## The position and the staged tick (rule R276 and 46_scheduler.md rule R321) -/

theorem exec_rsSetPos (d : Bool) (arg : Word64) (s : State) :
    exec (.rsSetPos d arg) s = execRsSetPos d arg s := rfl

theorem exec_evSetTick (arg : Word64) (s : State) : exec (.evSetTick arg) s = execEvSetTick arg s := rfl

/-- Settles O29: reading the operand as a signed integer and storing it keeps every bit. -/
theorem rsSetPosAndEvSetTickResults : Obligations.RsSetPosAndEvSetTickResults := by
  intro arg s
  refine ⟨?_, ?_⟩
  · have hbits : BitVec.ofInt 64 (operandS arg) = arg := BitVec.ofInt_toInt
    rw [exec_rsSetPos, execRsSetPos, hbits]
    exact runCommand_of_ok rfl rfl
  · rw [exec_evSetTick, execEvSetTick]
    exact runCommand_of_ok rfl rfl

end Sys2Proof.Machine

/-! PROOFS. The tick (O50, O52): a command that is not deferred leaves the heap alone, so every event that the dispatch
loop fires shortens it by one and the loop ends with none due; then the samples write the frame and nothing that the
tick must keep. -/

namespace Sys2Proof.Machine

/-! ## A command that is not deferred inserts no event (46_scheduler.md rule R325) -/

theorem executeNow_heap {i : Instr} {x : Except FaultCause State} {s t : State} (h : executeNow i x s = .next t)
    (hx : Yields (fun u => u.heap = s.heap) x) : t.heap = s.heap := by
  cases x with
  | ok u =>
    cases h
    exact hx t rfl
  | error c =>
    cases h
    exact enterFault_heap ..

/-- A voice command writes its voice only. -/
theorem runVoice_heap {i : Instr} {v : BitVec 8} {f : State → Voice → Except FaultCause Voice} {s t : State}
    (hd : i.deferred = false) (h : runVoice i v f s = .next t) : t.heap = s.heap := by
  cases hv : s.voices[v.toNat]? with
  | none =>
    rw [runVoice_absent hv] at h
    cases h
    exact enterFault_heap ..
  | some vo =>
    rw [runVoice_now hv hd] at h
    exact executeNow_heap h (.map fun _ _ => rfl)

/-- A command that takes no voice runs an effect that leaves the heap alone. -/
theorem exec_effect_heap {i : Instr} (hv : i.voice = none) :
    ∃ f, (∀ s, exec i s = runCommand i f s) ∧ ∀ s, Yields (fun t => t.heap = s.heap) (f s) := by
  cases i with
  | nop d arg => exact ⟨_, fun _ => rfl, fun _ => .bind fun _ _ => .pure rfl⟩
  | setSampleRate d arg =>
    exact ⟨_, fun _ => rfl, fun _ => .bind fun _ _ => .bind fun _ _ => .bind fun _ _ => .pure rfl⟩
  | fltSetFc d arg => exact ⟨_, fun _ => rfl, fun _ => .bind fun _ _ => .pure rfl⟩
  | fltSetQ d arg => exact ⟨_, fun _ => rfl, fun _ => .bind fun _ _ => .pure rfl⟩
  | fltSetGainLp d arg => exact ⟨_, fun _ => rfl, fun _ => .bind fun _ _ => .pure rfl⟩
  | fltSetGainBp d arg => exact ⟨_, fun _ => rfl, fun _ => .bind fun _ _ => .pure rfl⟩
  | fltSetGainHp d arg => exact ⟨_, fun _ => rfl, fun _ => .bind fun _ _ => .pure rfl⟩
  | rsSetBufBase d arg => exact ⟨_, fun _ => rfl, fun _ => .bind fun _ _ => .pure rfl⟩
  | rsSetBufFrames d arg => exact ⟨_, fun _ => rfl, fun _ => .bind fun _ _ => .bind fun _ _ => .pure rfl⟩
  | rsSetBufRate d arg => exact ⟨_, fun _ => rfl, fun _ => .bind fun _ _ => .bind fun _ _ => .pure rfl⟩
  | rsSetBufPitch d arg => exact ⟨_, fun _ => rfl, fun _ => .bind fun _ _ => .bind fun _ _ => .pure rfl⟩
  | rsSetHz d arg =>
    exact ⟨_, fun _ => rfl, fun _ =>
      .bind fun _ _ => .bind fun _ _ => .bind fun _ _ => .bind fun _ _ => .pure rfl⟩
  | rsSetPos d arg => exact ⟨_, fun _ => rfl, fun _ => .pure rfl⟩
  | evSetTick arg => exact ⟨fun s => pure { s with evTick := arg }, fun _ => rfl, fun _ => .pure rfl⟩
  | hostCallback d arg => exact ⟨_, fun _ => rfl, fun _ => .bind fun _ _ => .pure rfl⟩
  | cbAck arg => exact ⟨_, fun _ => rfl, fun _ => .bind fun _ _ => .bind fun _ _ => .pure rfl⟩
  | _ => cases hv

theorem exec_heap {i : Instr} {s t : State} (hd : i.deferred = false) (h : exec i s = .next t) : t.heap = s.heap := by
  cases exec_runs i with
  | command _ hv _ _ =>
    obtain ⟨f, hrun, hf⟩ := exec_effect_heap hv
    rw [hrun, runCommand_now hd] at h
    exact executeNow_heap h (hf s)
  | voice v f hv hrun => exact runVoice_heap hd (hrun s ▸ h)

/-! ## The due event (46_scheduler.md rule R324) -/

theorem eventDue_iff (s : State) : eventDue s = true ↔ 0 < s.heap.length ∧ tickAt s.heap 0 ≤ s.tick.toNat := by
  unfold eventDue
  split <;> simp [tickAt, *]

/-- With none due, the root of the heap is above `TICK`, and so is every event below it. -/
theorem tick_lt_of_not_eventDue {s : State} (ho : HeapOrdered s.heap) (h : eventDue s = false) :
    ∀ e ∈ s.heap, s.tick.toNat < e.t.toNat := by
  intro e he
  obtain ⟨k, hk, rfl⟩ := List.getElem_of_mem he
  have hroot : ¬ tickAt s.heap 0 ≤ s.tick.toNat := fun hle =>
    Bool.false_ne_true (h.symm.trans ((eventDue_iff s).mpr ⟨Nat.zero_lt_of_lt hk, hle⟩))
  calc s.tick.toNat < tickAt s.heap 0 := Nat.lt_of_not_le hroot
    _ ≤ tickAt s.heap k := ho.root_le k hk
    _ = s.heap[k].t.toNat := tickAt_getElem hk

/-- One turn of the dispatch loop: an event is due in `a`, is popped, and its execution answers `u`. -/
def EventFires (a u : State) : Prop :=
  eventDue a = true ∧ ∃ e s1, popEvent a = some (e, s1) ∧ execPacket e.hdr e.arg s1 = .next u

/-- The block stops dispatching: an event faulted it, or raised a callback (rule R326, 60_exceptions.md rule R393). -/
def stopped (s : State) : Bool := s.faulted || s.cbPending

theorem stopped_eq_false {s : State} (hf : s.faulted = false) (hc : s.cbPending = false) : stopped s = false := by
  rw [stopped, hf, hc, Bool.or_false]

theorem eventFires_of_due {a : State} (h : eventDue a = true) : ∃ u, EventFires a u := by
  obtain ⟨hlen, -⟩ := (eventDue_iff a).mp h
  have hpop : (popEvent a).isSome = true := by
    rw [popEvent_isSome, Bool.not_eq_true', List.isEmpty_eq_false_iff]
    exact List.ne_nil_of_length_pos hlen
  obtain ⟨⟨e, s1⟩, hpop⟩ := Option.isSome_iff_exists.mp hpop
  obtain ⟨u, hu⟩ := execPacket_continues e.hdr e.arg s1
  exact ⟨u, h, e, s1, hpop, hu⟩

theorem EventFires.inv {a u : State} (h : EventFires a u) (hi : Inv a) : Inv u := by
  obtain ⟨-, e, s1, hpop, hexec⟩ := h
  exact execPacket_inv hexec (popEvent_inv hpop hi)

/-- The event was checked when it was inserted and is stored with `D = 0`: a command executes that inserts none (rules
R322, R325). -/
theorem EventFires.command {a u : State} (h : EventFires a u) (hi : Inv a) :
    ∃ e s1 i, popEvent a = some (e, s1) ∧ i.deferred = false ∧ exec i s1 = .next u := by
  obtain ⟨-, e, s1, hpop, hexec⟩ := h
  have hmem : e ∈ a.heap := (popEvent_perm hi.heapOrdered hpop).mem_iff.mpr List.mem_cons_self
  obtain ⟨i, hdecode, hd, -⟩ := hi.heapChecked e hmem
  exact ⟨e, s1, i, hpop, hd, execPacket_decoded hdecode s1 ▸ hexec⟩

theorem EventFires.heap_length {a u : State} (h : EventFires a u) (hi : Inv a) :
    a.heap.length = u.heap.length + 1 := by
  obtain ⟨e, s1, i, hpop, hd, hexec⟩ := h.command hi
  rw [(popEvent_spec hpop).1, exec_heap hd hexec]

theorem EventFires.tick {a u : State} (h : EventFires a u) (hi : Inv a) : u.tick = a.tick := by
  obtain ⟨e, s1, i, hpop, -, hexec⟩ := h.command hi
  rw [(exec_keeps hexec).tick, (popEvent_spec hpop).2]

/-! ## The dispatch loop (rule R324) -/

theorem dispatch_fires {a u : State} (h : EventFires a u) (fuel : Nat) :
    dispatch (fuel + 1) a = if stopped u then .next u else dispatch fuel u := by
  obtain ⟨hdue, e, s1, hpop, hexec⟩ := h
  rw [dispatch, if_pos hdue, hpop]
  dsimp only
  rw [hexec]
  rfl

theorem firedEvents_succ {s a u : State} {k : Nat} (hk : firedEvents k s = some a) (h : EventFires a u)
    (hrun : stopped u = false) : firedEvents (k + 1) s = some u := by
  obtain ⟨hdue, e, s1, hpop, hexec⟩ := h
  simp only [stopped] at hrun
  simp [firedEvents, hk, hdue, hpop, hexec, hrun]

/-- A dispatch loop that is not stopped goes on, after the `k` events that led to its start, until none is due: with as
many turns as the heap has events, each of which removes one. -/
theorem dispatch_not_stopped {fuel k : Nat} {s0 s t : State} (hi : Inv s) (hfuel : s.heap.length ≤ fuel)
    (hk : firedEvents k s0 = some s) (h : dispatch fuel s = .next t) (hrun : stopped t = false) :
    ∃ j, firedEvents j s0 = some t ∧ eventDue t = false ∧ s.heap.length + k = t.heap.length + j ∧ t.tick = s.tick := by
  induction fuel generalizing k s with
  | zero =>
    have hdue : eventDue s = false := by
      rw [← Bool.not_eq_true, eventDue_iff]
      omega
    cases h
    exact ⟨k, hk, hdue, rfl, rfl⟩
  | succ fuel ih =>
    cases hdue : eventDue s with
    | false =>
      rw [dispatch_none hdue] at h
      cases h
      exact ⟨k, hk, hdue, rfl, rfl⟩
    | true =>
      obtain ⟨u, hu⟩ := eventFires_of_due hdue
      have hlen := hu.heap_length hi
      rw [dispatch_fires hu] at h
      split at h
      · rename_i hstop
        cases h
        exact absurd (hrun.symm.trans hstop) Bool.false_ne_true
      · rename_i hgo
        obtain ⟨j, hj, hnone, hcount, htick⟩ :=
          ih (hu.inv hi) (by omega) (firedEvents_succ hk hu (Bool.not_eq_true _ ▸ hgo)) h
        exact ⟨j, hj, hnone, by omega, htick.trans (hu.tick hi)⟩

/-! ## The end of a tick (47_engine.md rules R361, R363) -/

theorem TickDelivers.sampled {s u : State} {frame : List F64} (h : TickDelivers s frame u) : Sampled s u :=
  tickFrame_sampled s _ (tickFrame_iff.mpr h)

theorem TickDelivers.inv {s u : State} {frame : List F64} (h : TickDelivers s frame u) (hi : Inv s) : Inv u :=
  tickFrame_inv hi _ (tickFrame_iff.mpr h)

/-- One value for each channel: those of the inner frame, or one for each window. -/
theorem TickDelivers.frame_length {s u : State} {frame : List F64} (h : TickDelivers s frame u) (hi : Inv s) :
    frame.length = s.cfg.channels := by
  have hcfg := h.sampled.cfg
  have hwindow := (h.inv hi).windowShape
  unfold TickDelivers at h
  split at h
  · rename_i ho
    obtain ⟨-, table, -, rfl⟩ := h
    rw [hcfg, if_pos ho] at hwindow
    rw [List.length_map, hwindow.1]
  · rw [(innerFrame_inv hi _ h).2, hcfg]

theorem completeTick_iff {s t : State} :
    completeTick s = .next t ↔ ∃ frame u, TickDelivers s frame u ∧ t = tickCompleted u frame := by
  constructor
  · intro h
    unfold completeTick at h
    split at h
    · rename_i frame u hu
      cases h
      exact ⟨frame, u, tickFrame_iff.mp hu, rfl⟩
    · cases h
  · rintro ⟨frame, u, hu, rfl⟩
    rw [completeTick, tickFrame_iff.mpr hu]
    rfl

theorem continueTick_dispatched {s a : State} (h : dispatch s.heap.length s = .next a) :
    continueTick s = if stopped a then .next a else completeTick a := by
  rw [continueTick, h]
  rfl

theorem continueTick_quiet {s : State} (h : eventDue s = false) (hrun : stopped s = false) :
    continueTick s = completeTick s := by
  rw [continueTick_dispatched (dispatch_none h _), hrun, if_neg Bool.false_ne_true]

/-- A tick that is not stopped was completed from what its dispatch loop left. -/
theorem continueTick_not_stopped {s t : State} (h : continueTick s = .next t) (hrun : stopped t = false) :
    ∃ a, dispatch s.heap.length s = .next a ∧ stopped a = false ∧ completeTick a = .next t := by
  obtain ⟨a, ha⟩ := dispatch_continues s.heap.length s
  rw [continueTick_dispatched ha] at h
  split at h
  · rename_i hstop
    cases h
    exact absurd (hrun.symm.trans hstop) Bool.false_ne_true
  · rename_i hgo
    exact ⟨a, ha, Bool.not_eq_true _ ▸ hgo, h⟩

/-! ## The start of a tick (rule R361) -/

theorem Inv.startTick {s : State} (hi : Inv s) (he : engineDue s = true) : Inv { s with inTick := true } := by
  obtain ⟨hp, -, hf, -⟩ := (engineDue_iff s).mp he
  exact { hi with
    faultIdle := fun hfault => absurd (hf.symm.trans hfault) Bool.false_ne_true
    tickPulled := fun _ => hp }

/-- Started or resumed, a tick that does not fault runs from `IN_TICK = 1` (46_scheduler.md rule R327). -/
theorem engineAct_not_faulted {s t : State} (h : engineAct s = .next t) (hf : t.faulted = false) :
    continueTick { s with inTick := true } = .next t := by
  unfold engineAct at h
  split at h
  · rename_i hin
    rwa [← hin]
  · cases hrate : s.sampleRate.eq F64.zero with
    | false => rwa [startTick_rate hrate] at h
    | true =>
      rw [startTick_noRate hrate] at h
      cases h
      cases hf

/-! ## The two statements -/

/-- Settles O50: with no event due the tick is only its samples, which write none of what the statement keeps. -/
theorem quietTickDeliversFrame : Obligations.QuietTickDeliversFrame := by
  intro s hi he hin hrate hdue
  obtain ⟨-, hc, hf, ht⟩ := (engineDue_iff s).mp he
  have hstart := hi.startTick he
  obtain ⟨⟨frame, u⟩, hframe⟩ := tickFrame_completes hstart ht
  have hdelivers := tickFrame_iff.mp hframe
  have hstep : step s = .next (tickCompleted u frame) := by
    rw [step_engine he, engineAct, hin, if_neg Bool.false_ne_true, startTick_rate hrate,
      continueTick_quiet (s := { s with inTick := true }) hdue (stopped_eq_false hf hc)]
    exact completeTick_iff.mpr ⟨frame, u, hdelivers, rfl⟩
  have hlen : frame.length = s.cfg.channels := hdelivers.frame_length hstart
  refine ⟨_, frame, u, hstep, hdelivers, rfl, rfl, hlen, ?_⟩
  obtain ⟨vs, f, rs, w, n, rfl⟩ := hdelivers.sampled
  exact ⟨rfl, rfl, rfl, hf, rfl, rfl, rfl, rfl, rfl, rfl, rfl, rfl, rfl, rfl, hc, rfl, fun _ => rfl, rfl, rfl⟩

/-- Settles O52: the dispatch loop was not stopped, so it fired every due event, and the samples keep `TICK` and the
heap that it left. -/
theorem completedTickLeavesNoDueEvent : Obligations.CompletedTickLeavesNoDueEvent := by
  intro s t hi he hstep hf hc
  have hstart := hi.startTick he
  obtain ⟨a, hdispatch, hrun, hcomplete⟩ := continueTick_not_stopped
    (engineAct_not_faulted (step_engine he ▸ hstep) hf) (stopped_eq_false hf hc)
  obtain ⟨k, hk, hnone, hcount, htick⟩ := dispatch_not_stopped (k := 0) hstart (Nat.le_refl _) rfl hdispatch hrun
  obtain ⟨frame, u, hdelivers, rfl⟩ := completeTick_iff.mp hcomplete
  have hahead : ∀ e ∈ a.heap, s.tick.toNat < e.t.toNat :=
    htick ▸ tick_lt_of_not_eventDue (dispatch_inv hdispatch hstart).heapOrdered hnone
  refine ⟨⟨k, a, hk, hnone, ⟨frame, u, hdelivers, rfl⟩, hcount⟩, ?_⟩
  obtain ⟨vs, f, rs, w, n, rfl⟩ := hdelivers.sampled
  exact ⟨congrArg (· + 1) htick, rfl, ⟨frame, rfl⟩, hahead⟩

end Sys2Proof.Machine

/-! PROOFS. The scheduler's callback commands (O32, O33): the answers of their checks, and what passing them writes. -/

namespace Sys2Proof.Machine

/-! ## `HOST_CALLBACK` (46_scheduler.md rule R326) -/

/-- What `HOST_CALLBACK` does when it executes: callbacks do not nest. -/
def raiseCallback (arg : Word64) (s : State) : Except FaultCause State := do
  require (!s.cbPending) .callbackState
  return { s with cbId := arg, cbPending := true }

theorem exec_hostCallback (d : Bool) (arg : Word64) (s : State) :
    exec (.hostCallback d arg) s = runCommand (.hostCallback d arg) (raiseCallback arg) s := rfl

theorem raiseCallback_idle {s : State} (h : s.cbPending = false) (arg : Word64) :
    raiseCallback arg s = .ok { s with cbId := arg, cbPending := true } := by
  rw [raiseCallback, require_passed (by rw [h]; rfl)]
  rfl

theorem raiseCallback_pending {s : State} (h : s.cbPending = true) (arg : Word64) :
    raiseCallback arg s = .error .callbackState := by
  rw [raiseCallback, require_failed (by rw [h]; rfl), error_bind]

/-- Settles O32. -/
theorem hostCallbackResult : Obligations.HostCallbackResult := by
  intro arg s
  refine ⟨fun hidle => ⟨?_, rfl⟩, fun hpending => ?_⟩
  · rw [exec_hostCallback]
    exact runCommand_of_ok rfl (raiseCallback_idle hidle arg)
  · rw [exec_hostCallback, runCommand_of_error rfl (raiseCallback_pending hpending arg), header_hostCallback]
    rfl

/-! ## `CB_ACK` (rule R327) -/

/-- What `CB_ACK` does: the operand is checked before the callback. -/
def ackCallback (arg : Word64) (s : State) : Except FaultCause State := do
  operandNone arg
  require s.cbPending .callbackState
  return { s with cbPending := false }

theorem exec_cbAck (arg : Word64) (s : State) :
    exec (.cbAck arg) s = runCommand (.cbAck arg) (ackCallback arg) s := rfl

theorem ackCallback_pending {s : State} (h : s.cbPending = true) :
    ackCallback 0 s = .ok { s with cbPending := false } := by
  rw [ackCallback, require_passed h]
  rfl

theorem ackCallback_nonzero {arg : Word64} (h : arg ≠ 0) (s : State) : ackCallback arg s = .error .badArg := by
  rw [ackCallback, operandNone_nonzero h, error_bind]

theorem ackCallback_idle {s : State} (h : s.cbPending = false) : ackCallback 0 s = .error .callbackState := by
  rw [ackCallback, require_failed h]
  rfl

theorem cbAck_fault {arg : Word64} {s : State} {c : FaultCause} (h : ackCallback arg s = .error c) :
    exec (.cbAck arg) s = .next (enterFault c 0x00000052 arg s) := by
  rw [exec_cbAck, runCommand_of_error rfl h, header_cbAck]
  rfl

/-- Settles O33: the three answers of `ackCallback`. -/
theorem cbAckResult : Obligations.CbAckResult := by
  intro arg s
  refine ⟨?_, fun harg => cbAck_fault (ackCallback_nonzero harg s), ?_⟩
  · rintro rfl hpending
    refine ⟨?_, fun hpull hf ht => (engineDue_iff _).mpr ⟨hpull, rfl, hf, ht⟩⟩
    rw [exec_cbAck]
    exact runCommand_of_ok rfl (ackCallback_pending hpending)
  · rintro rfl hidle
    exact cbAck_fault (ackCallback_idle hidle)

end Sys2Proof.Machine

/-! PROOFS. The order in which the heap gives its events back (O35, O36): inserting and shifting keep the events and the
heap order, and the root of a heap in order has the smallest tick. -/

namespace Sys2Proof.Machine

/-! ## Inserting a list of events (46_scheduler.md rule R332) -/

theorem heapOrdered_nil : HeapOrdered [] := fun _ hk => absurd hk (Nat.not_lt_zero _)

theorem foldl_heapInsert_ordered {h : List Event} (ho : HeapOrdered h) (es : List Event) :
    HeapOrdered (es.foldl heapInsert h) := by
  induction es generalizing h with
  | nil => exact ho
  | cons e es ih => exact ih (heapInsert_ordered ho e)

theorem foldl_heapInsert_perm (es h : List Event) : (es.foldl heapInsert h).Perm (es ++ h) := by
  induction es generalizing h with
  | nil => exact .refl h
  | cons e es ih =>
    calc (es.foldl heapInsert (heapInsert h e)).Perm (es ++ heapInsert h e) := ih _
      List.Perm _ (es ++ e :: h) := (heapInsert_perm h e).append_left es
      List.Perm _ (e :: (es ++ h)) := List.perm_middle

/-! ## Shifting until the heap is empty -/

theorem heapShift_of_length_pos {h : List Event} (hpos : 0 < h.length) : ∃ e rest, heapShift h = some (e, rest) := by
  cases h with
  | nil => exact absurd hpos (Nat.lt_irrefl 0)
  | cons a l =>
    unfold heapShift
    dsimp only
    split <;> exact ⟨a, _, rfl⟩

theorem shiftAll_succ {h rest : List Event} {e : Event} (hs : heapShift h = some (e, rest)) (n : Nat) :
    shiftAll (n + 1) h = e :: shiftAll n rest := by
  rw [shiftAll, hs]

theorem shiftTimes_succ {h rest : List Event} {e : Event} (hs : heapShift h = some (e, rest)) (n : Nat) :
    shiftTimes (n + 1) h = shiftTimes n rest := by
  rw [shiftTimes, hs]

theorem shiftAll_perm {n : Nat} {h : List Event} (hn : h.length = n) : (shiftAll n h).Perm h := by
  induction n generalizing h with
  | zero => rw [List.length_eq_zero_iff.mp hn, shiftAll]
  | succ n ih =>
    obtain ⟨e, rest, hs⟩ := heapShift_of_length_pos (h := h) (by omega)
    have hlen := heapShift_length hs
    rw [shiftAll_succ hs]
    exact ((ih (by omega)).cons e).trans (heapShift_perm hs).symm

/-- Each event shifted out is at most every one that was left, and those are the ones shifted out after it. -/
theorem shiftAll_sorted {n : Nat} {h : List Event} (ho : HeapOrdered h) (hn : h.length = n) :
    (shiftAll n h).Pairwise fun a b => a.t.toNat ≤ b.t.toNat := by
  induction n generalizing h with
  | zero => exact .nil
  | succ n ih =>
    obtain ⟨e, rest, hs⟩ := heapShift_of_length_pos (h := h) (by omega)
    have hrest : rest.length = n := by
      have := heapShift_length hs
      omega
    rw [shiftAll_succ hs]
    refine .cons (fun x hx => ?_) (ih (heapShift_ordered ho hs) hrest)
    have hleft : x ∈ rest := (shiftAll_perm hrest).mem_iff.mp hx
    exact heapShift_min ho hs x ((heapShift_perm hs).mem_iff.mpr (List.mem_cons_of_mem e hleft))

/-- What `k` pops leave is in order, and shorter by `k`. -/
theorem shiftTimes_spec {k : Nat} {h : List Event} (ho : HeapOrdered h) (hk : k ≤ h.length) :
    HeapOrdered (shiftTimes k h) ∧ (shiftTimes k h).length + k = h.length := by
  induction k generalizing h with
  | zero => exact ⟨ho, rfl⟩
  | succ k ih =>
    obtain ⟨e, rest, hs⟩ := heapShift_of_length_pos (h := h) (by omega)
    have hlen := heapShift_length hs
    obtain ⟨hord, hcount⟩ := ih (heapShift_ordered ho hs) (by omega)
    rw [shiftTimes_succ hs]
    exact ⟨hord, by omega⟩

theorem nextT_of_root {s : State} {e : Event} (h : s.heap[0]? = some e) : nextT s = e.t := by
  unfold nextT
  split
  · rename_i hnil
    rw [hnil] at h
    cases h
  · rename_i hcons
    rw [hcons] at h
    cases h
    rfl

/-- `NEXT_T` is the tick of the root (10_state.md rule R51), which is the smallest. -/
theorem nextT_min {s : State} (ho : HeapOrdered s.heap) (hpos : 0 < s.heap.length) :
    (∃ x ∈ s.heap, nextT s = x.t) ∧ ∀ x ∈ s.heap, (nextT s).toNat ≤ x.t.toNat := by
  obtain ⟨e, rest, hs⟩ := heapShift_of_length_pos hpos
  have hroot := heapShift_head hs
  rw [nextT_of_root hroot]
  exact ⟨⟨e, List.mem_of_getElem? hroot, rfl⟩, heapShift_min ho hs⟩

/-- Settles O35. -/
theorem heapPopsInTickOrder : Obligations.HeapPopsInTickOrder := by
  intro es h
  have ho : HeapOrdered h := foldl_heapInsert_ordered heapOrdered_nil es
  have hperm : h.Perm es := by simpa using foldl_heapInsert_perm es []
  have hlen := hperm.length_eq
  refine ⟨(shiftAll_perm hlen).trans hperm, shiftAll_sorted ho hlen, fun k s hk hs => ?_⟩
  obtain ⟨hord, hcount⟩ := shiftTimes_spec ho (k := k) (by omega)
  exact nextT_min (hs ▸ hord) (hs ▸ by omega)

/-! ## The pop in both settings of `EQ_TICK_ORDER` (46_scheduler.md rule R331) -/

theorem popEvent_min {s t : State} {e : Event} (ho : HeapOrdered s.heap) (hp : popEvent s = some (e, t)) :
    ∀ x ∈ s.heap, e.t.toNat ≤ x.t.toNat := by
  obtain ⟨h, hoh, hperm, hs⟩ := popEvent_shift ho hp
  exact fun x hx => heapShift_min hoh hs x (hperm.mem_iff.mpr hx)

/-- Settles O36: either way the pop is a shift of a heap in order that holds the same events. -/
theorem popTakesSomeMinimum : Obligations.PopTakesSomeMinimum := fun _ _ _ ho hp =>
  ⟨popEvent_min ho hp, popEvent_perm ho hp, popEvent_ordered ho hp, (popEvent_spec hp).2⟩

end Sys2Proof.Machine

/-! PROOFS. The event that stops a tick (O51): the events fired before it are as many turns of the dispatch loop, each of
which removes one event and writes what a command can write. -/

namespace Sys2Proof.Machine

/-! ## The events before the last (46_scheduler.md rule R324) -/

theorem CommandKeeps.trans {s t u : State} (h : CommandKeeps s t) (k : CommandKeeps t u) : CommandKeeps s u where
  cfg := k.cfg.trans h.cfg
  tick := k.tick.trans h.tick
  tablesReady := k.tablesReady.trans h.tablesReady
  lp := k.lp.trans h.lp
  bp := k.bp.trans h.bp
  hp := k.hp.trans h.hp
  voices := k.voices.trans h.voices
  osw := k.osw.trans h.osw
  slots := k.slots.trans h.slots
  mem := k.mem.trans h.mem
  port := k.port.trans h.port
  inbox := k.inbox.trans h.inbox

theorem CommandKeeps.phases {s t : State} (h : CommandKeeps s t) :
    t.voices.map Voice.phase = s.voices.map Voice.phase := by
  simpa [Function.comp_def, Voice.kept] using congrArg (List.map Prod.fst) h.voices

theorem popEvent_keeps {s t : State} {e : Event} (h : popEvent s = some (e, t)) : CommandKeeps s t := by
  rw [(popEvent_spec h).2]
  constructor <;> rfl

theorem EventFires.keeps {a u : State} (h : EventFires a u) (hi : Inv a) : CommandKeeps a u := by
  obtain ⟨e, s1, i, hpop, -, hexec⟩ := h.command hi
  exact (popEvent_keeps hpop).trans (exec_keeps hexec)

/-- The event popped stays removed, and its command inserts none (rule R325). -/
theorem EventFires.heap_perm {a s1 u : State} {e : Event} (h : EventFires a u) (hi : Inv a)
    (hpop : popEvent a = some (e, s1)) : a.heap.Perm (e :: u.heap) := by
  obtain ⟨e', s1', i, hpop', hd, hexec⟩ := h.command hi
  cases hpop.symm.trans hpop'
  rw [exec_heap hd hexec]
  exact popEvent_perm hi.heapOrdered hpop

theorem firedEvents_succ_some {k : Nat} {s u : State} (h : firedEvents (k + 1) s = some u) :
    ∃ a, firedEvents k s = some a ∧ EventFires a u ∧ stopped u = false := by
  unfold firedEvents at h
  split at h
  · cases h
  · rename_i a ha
    split at h
    · rename_i hdue
      split at h
      · cases h
      · rename_i e s1 hpop
        split at h
        · rename_i v hexec
          split at h
          · cases h
          · rename_i hrun
            cases h
            exact ⟨a, ha, ⟨hdue, e, s1, hpop, hexec⟩, Bool.not_eq_true _ ▸ hrun⟩
        · cases h
    · cases h

/-- The loop spends one turn on each fired event. -/
theorem dispatch_firedEvents {k : Nat} {s a : State} (h : firedEvents k s = some a) (fuel : Nat) :
    dispatch (fuel + k) s = dispatch fuel a := by
  induction k generalizing a fuel with
  | zero =>
    cases h
    rfl
  | succ k ih =>
    obtain ⟨b, hb, hfires, hrun⟩ := firedEvents_succ_some h
    rw [show fuel + (k + 1) = fuel + 1 + k by omega, ih hb, dispatch_fires hfires, hrun, if_neg Bool.false_ne_true]

theorem firedEvents_keep {k : Nat} {s a : State} (hi : Inv s) (h : firedEvents k s = some a) :
    Inv a ∧ CommandKeeps s a ∧ s.heap.length = a.heap.length + k := by
  induction k generalizing a with
  | zero =>
    cases h
    exact ⟨hi, .refl s, rfl⟩
  | succ k ih =>
    obtain ⟨b, hb, hfires, -⟩ := firedEvents_succ_some h
    obtain ⟨hib, hkeeps, hcount⟩ := ih hb
    have hlen := hfires.heap_length hib
    exact ⟨hfires.inv hib, hkeeps.trans (hfires.keeps hib), by omega⟩

/-! ## The last event -/

/-- Started with a rate set, or resumed, a tick runs its dispatch loop from `IN_TICK = 1` (rule R327, 47_engine.md rule
R361). -/
theorem engineAct_running {s : State} (h : s.inTick = true ∨ s.sampleRate.eq F64.zero = false) :
    engineAct s = continueTick { s with inTick := true } := by
  unfold engineAct
  split
  · rename_i hin
    rw [← hin]
  · rename_i hout
    exact startTick_rate (h.resolve_left hout)

/-- The loop ends at an event that stops it: the events before it leave turns enough. -/
theorem dispatch_stops {k : Nat} {s a u : State} (hi : Inv s) (hk : firedEvents k s = some a) (hu : EventFires a u)
    (hstop : stopped u = true) : dispatch s.heap.length s = .next u := by
  obtain ⟨hia, -, hcount⟩ := firedEvents_keep hi hk
  rw [hcount, dispatch_firedEvents hk, hu.heap_length hia, dispatch_fires hu, hstop, if_pos rfl]

/-- Settles O51: the loop ends at the event, the tick with it, and nothing but commands has run. -/
theorem eventStopsTick : Obligations.EventStopsTick := by
  intro s a s1 u k e i hi he hstart hk hdue hpop hdecode hexec hends
  have hi1 := hi.startTick he
  obtain ⟨hia, hbefore, hcount⟩ := firedEvents_keep hi1 hk
  have hu : EventFires a u := ⟨hdue, e, s1, hpop, execPacket_decoded hdecode s1 ▸ hexec⟩
  have hstop : stopped u = true := by simpa [stopped] using hends
  have hstep : step s = .next u := by
    rw [step_engine he, engineAct_running hstart, continueTick_dispatched (dispatch_stops hi1 hk hu hstop), hstop,
      if_pos rfl]
  have hkeeps := hbefore.trans (hu.keeps hia)
  exact ⟨hstep, hkeeps.tick, hu.heap_perm hia hpop, hkeeps.osw, hkeeps.lp, hkeeps.bp, hkeeps.hp, hkeeps.phases,
    hcount⟩

end Sys2Proof.Machine

/-! PROOFS. The engine's two commands (O11, O12): what their checks answer, and what passing them writes. -/

namespace Sys2Proof.Machine

/-! ## `NOP` (47_engine.md rule R365) -/

/-- What `NOP` does when it executes: its operand is checked, and nothing is written. -/
def checkedNothing (arg : Word64) (s : State) : Except FaultCause State := do
  operandNone arg
  return s

theorem exec_nop (d : Bool) (arg : Word64) (s : State) :
    exec (.nop d arg) s = runCommand (.nop d arg) (checkedNothing arg) s := rfl

theorem checkedNothing_zero (s : State) : checkedNothing 0 s = .ok s := rfl

theorem checkedNothing_nonzero {arg : Word64} (h : arg ≠ 0) (s : State) : checkedNothing arg s = .error .badArg := by
  rw [checkedNothing, operandNone_nonzero h, error_bind]

theorem exec_nop_zero (s : State) : exec (.nop false 0) s = .next s := by
  rw [exec_nop, runCommand_of_ok rfl (checkedNothing_zero s)]

theorem header_nop_immediate (arg : Word64) : (Instr.nop false arg).header = 0x00000000 := header_nop false arg

theorem exec_nop_nonzero {arg : Word64} (h : arg ≠ 0) (s : State) :
    exec (.nop false arg) s = .next (enterFault .badArg 0x00000000 arg s) := by
  rw [exec_nop, runCommand_of_error rfl (checkedNothing_nonzero h s), header_nop_immediate,
    operand_nop]

/-- The event that `NOP.d` inserts is the packet of a `NOP`. -/
theorem execPacket_nop (arg : Word64) (s : State) : execPacket 0x00000000 arg s = exec (.nop false arg) s :=
  execPacket_decoded (decodePacket_of_header (header_nop_immediate arg) rfl) s

/-- Settles O11: the two answers of the operand's check, for the command and for the fired event alike. -/
theorem nopDoesNothing : Obligations.NopDoesNothing := by
  intro arg s
  refine ⟨?_, fun harg => exec_nop_nonzero harg s, fun hroom => ⟨?_, heapInsert_length ..⟩, fun u => ?_⟩
  · rintro rfl
    exact exec_nop_zero s
  · have hhdr : headerOf false (Instr.nop true arg).idx (Instr.nop true arg).opcode = 0x00000000 :=
      header_nop_immediate arg
    rw [(deferredCommandIsInserted (.nop true arg) s rfl rfl).1 hroom, hhdr, operand_nop]
  · rw [execPacket_nop]
    split
    · subst arg
      exact exec_nop_zero u
    · exact exec_nop_nonzero ‹_› u

/-! ## `SET_SAMPLE_RATE` (rule R366) -/

/-- What `SET_SAMPLE_RATE` does when it executes: its three checks, and both rates. -/
def setRates (arg : Word64) (s : State) : Except FaultCause State := do
  let r ← operandF arg
  require (F64.zero.lt r) .zeroSampleRate
  require (!isPosInf (innerRateOf s.cfg r)) .badArg
  return { s with sampleRate := r, innerRate := innerRateOf s.cfg r }

theorem exec_setSampleRate (d : Bool) (arg : Word64) (s : State) :
    exec (.setSampleRate d arg) s = runCommand (.setSampleRate d arg) (setRates arg) s := rfl

section
variable {arg : Word64} {s : State}

theorem setRates_notFinite (h : (F64.mk arg).isFinite = false) : setRates arg s = .error .badArg := by
  rw [setRates, operandF_notFinite h, error_bind]

theorem setRates_notPositive (hfin : (F64.mk arg).isFinite = true) (h : F64.zero.lt ⟨arg⟩ = false) :
    setRates arg s = .error .zeroSampleRate := by
  rw [setRates, operandF_finite hfin, ok_bind, require_failed h, error_bind]

theorem setRates_overflow (hfin : (F64.mk arg).isFinite = true) (hpos : F64.zero.lt ⟨arg⟩ = true)
    (h : (innerRateOf s.cfg ⟨arg⟩).bits = 0x7FF0000000000000) : setRates arg s = .error .badArg := by
  rw [setRates, operandF_finite hfin, ok_bind, require_passed hpos, ok_bind, (isPosInf_iff _).mpr h, Bool.not_true,
    require_failed rfl, error_bind]

theorem setRates_legal (hfin : (F64.mk arg).isFinite = true) (hpos : F64.zero.lt ⟨arg⟩ = true)
    (h : (innerRateOf s.cfg ⟨arg⟩).bits ≠ 0x7FF0000000000000) :
    setRates arg s = .ok { s with sampleRate := ⟨arg⟩, innerRate := innerRateOf s.cfg ⟨arg⟩ } := by
  rw [setRates, operandF_finite hfin, ok_bind, require_passed hpos, ok_bind, isPosInf_eq_false h, Bool.not_false,
    require_passed rfl]
  rfl

theorem setSampleRate_fault {c : FaultCause} (h : setRates arg s = .error c) :
    exec (.setSampleRate false arg) s = .next (enterFault c 0x00000001 arg s) := by
  rw [exec_setSampleRate, runCommand_of_error rfl h, header_setSampleRate]
  rfl

end

/-- Settles O12: the four answers of `setRates`. -/
theorem setSampleRateResult : Obligations.SetSampleRateResult := by
  intro arg s r ir
  refine ⟨fun hfin hpos hir => ?_, fun hfin => setSampleRate_fault (setRates_notFinite hfin),
    fun hfin hpos => setSampleRate_fault (setRates_notPositive hfin hpos),
    fun hfin hpos hir => setSampleRate_fault (setRates_overflow hfin hpos hir)⟩
  rw [exec_setSampleRate]
  exact runCommand_of_ok rfl (setRates_legal hfin hpos hir)

end Sys2Proof.Machine

/-! PROOFS. The fault state (O6): what a faulted block does with a tick, a packet, a pull and a register read. -/

namespace Sys2Proof.Machine

section
variable {s : State}

/-- A faulted block runs no tick (60_exceptions.md rule R394). -/
theorem engineDue_of_faulted (h : s.faulted = true) : engineDue s = false := by
  simp [engineDue, h]

theorem receivePacket_faulted (h : s.faulted = true) (hdr : BitVec 32) (arg : Word64) :
    receivePacket hdr arg s = .next s := if_pos h

/-- A packet that arrives at a faulted block is dropped (rule R394). -/
theorem step_packet_faulted {hdr : BitVec 32} {arg : Word64} {rest : List Byte} (h : s.faulted = true)
    (hp : takePacket s.port = some (hdr, arg, rest)) : step s = .next { s with port := rest } := by
  rw [step_packet (engineDue_of_faulted h) hp]
  exact receivePacket_faulted (s := { s with port := rest }) h hdr arg

/-- A pull of a faulted block is refused (47_engine.md rule R363). -/
theorem step_pull_faulted {rest : List HostAction} (h : s.faulted = true) (hp : takePacket s.port = none)
    (hi : s.inbox = .pull :: rest) : step s = .next { s with inbox := rest, reply := .pullRefused } := by
  rw [step_host (engineDue_of_faulted h) hp hi]
  exact receivePull_refused (.inl h)

end

/-- Settles O6. -/
theorem faultStateRules : Obligations.FaultStateRules := by
  refine ⟨fun c hdr arg s => ⟨raiseFault_eq c hdr arg s, enterFault_faulted c hdr arg s⟩,
    fun s hf => ⟨engineDue_of_faulted hf, fun _ _ _ => step_packet_faulted hf, fun _ => step_pull_faulted hf,
      fun _ _ hp hi => ?_⟩⟩
  exact readRegister_read (engineDue_of_faulted hf) hp hi

end Sys2Proof.Machine

/-! PROOFS. The invariant at reset (O54): a legal instance whose generated tables are in its cache meets it. -/

namespace Sys2Proof.Machine

/-- A legal instance meets the invariant after reset, when its cache holds the tables of the keys `done`, among them
those that reset generates (43_table_cache.md rule R249). -/
theorem stateReady_inv {p : Params} {done : List Key} (hlegal : paramsLegal p) (hcap : done.length ≤ p.cacheSlots)
    (hkeys : resetKeys p ⊆ done) : Inv (stateReady p (filledSlots p.cacheSlots done)) where
  legal := hlegal
  rates := .inl ⟨rfl, rfl⟩
  voiceCount := List.length_replicate ..
  voiceInv v hv := by
    rw [(List.mem_replicate.mp hv).2]
    exact voiceReset_inv p
  filterRange := ⟨inUnit_one, inUnit_zero⟩
  filterDerived := ⟨rfl, rfl, rfl⟩
  baseFits := Nat.two_pow_pos _
  baseTopEmpty := nofun
  extentFits := by simp [rsBase, resamplerReset]
  framesFit := by
    obtain ⟨-, -, -, -, -, -, hhalf, -⟩ := hlegal.1
    simp [resamplerReset]
    omega
  windowShape := by
    rw [stateReady_osw, stateReady_cfg]
    split
    · exact ⟨List.length_replicate .., fun w hw => by rw [(List.mem_replicate.mp hw).2, List.length_replicate]⟩
    · rfl
  heapBound := Nat.zero_le _
  heapOrdered := heapOrdered_nil
  heapChecked := nofun
  slotCount := filledSlots_length hcap
  readyOrFaulted := .inl rfl
  keysPresent _ k hk := by
    rw [stateReady_slots, lookup_filledSlots (hkeys hk)]
    rfl
  memoryForm := List.Pairwise.nil
  racedInside := nofun
  faultIdle := nofun
  tickPulled := nofun

/-- The ranges of 00_scope.md rules R6 and R170, checked on their defaults. -/
theorem paramsLegal_default : paramsLegal Params.default := by decide +kernel

theorem reset_eq : State.reset = stateReady Params.default (filledSlots 4 [firKey Params.default]) := rfl

/-- The default instance has no resampler, so it needs the FIR table only. -/
theorem resetKeys_default : resetKeys Params.default = [firKey Params.default] := rfl

/-- Settles O54: the cache that the model writes out holds the one key that reset generates. -/
theorem resetMeetsInvariant : Obligations.ResetMeetsInvariant := by
  rw [Obligations.ResetMeetsInvariant, reset_eq]
  refine stateReady_inv paramsLegal_default (by decide) ?_
  rw [resetKeys_default]
  exact List.Subset.refl _

end Sys2Proof.Machine
